-- ==== Sys2Proof/Word.lean ====
section
/-! DEFINITION. The word types of the BLZ/KIP1 engine (rules R11, R12): a byte, a 32-bit field, a byte
sequence.  Lengths, cursors, offsets and sizes are natural numbers (rule R12: no rule wraps). -/

namespace Sys2Proof

/-- A byte: 8 bits, bit 0 the least significant (rule R11). -/
abbrev Byte := BitVec 8

/-- A 32-bit unsigned little-endian field of a footer or of the KIP1 header (rules R23, R30, R31). -/
abbrev W32 := BitVec 32

/-- A byte sequence, lowest address first (rule R11). -/
abbrev Bytes := List Byte

end Sys2Proof
end

