-- ==== Sys2Proof/Config.lean ====
section
/-! DEFINITION. The constants the source fixes (rule R9), the default of each parameter it leaves open
(rule R10), and the free values: opaque constants that stand for a register, a buffer or a field the spec
says holds no value (rules R38, R246, R210, R186; list U1 to U6 of 93_implementation_defined.md). -/

namespace Sys2Proof.Config

/-- `MIN_MATCH` (rule R9). -/
abbrev minMatch : Nat := 3
/-- `MAX_MATCH` (rule R9). -/
abbrev maxMatch : Nat := 18
/-- `MIN_OFFSET` (rule R9). -/
abbrev minOffset : Nat := 3
/-- `WINDOW_MAX` (rule R9). -/
abbrev windowMax : Nat := 4098
/-- `GROUP` (rule R9). -/
abbrev group : Nat := 8
/-- `FOOTER_LEN` (rule R9). -/
abbrev footerLen : Nat := 12
/-- `BLOCK_ALIGN` (rule R9). -/
abbrev blockAlign : Nat := 4
/-- `PAD_BYTE` (rule R9). -/
abbrev padByte : Byte := 0xFF#8
/-- `STORED_PAD_BYTE` (rule R9). -/
abbrev storedPadByte : Byte := 0x00#8
/-- `KIP_HDR_LEN` (rule R9). -/
abbrev kipHdrLen : Nat := 256
/-- `KIP_MAGIC` (rule R9): the bytes 4B 49 50 31, as the little-endian word they make (rule R56). -/
abbrev kipMagic : W32 := 0x3150494B#32
/-- `N_CSEG` (rule R9): segments 0, 1, 2 may be BLZ-compressed. -/
abbrev nCompressible : Nat := 3

/-- Default of `HDR_MAX` (rule R10, decision D5). -/
abbrev hdrMaxDefault : Nat := 15
/-- Default of `MATCH_OVERLAP` (rule R10, decision D13): allowed. -/
abbrev matchOverlapDefault : Bool := true

/-! ### Free values

`epoch` is the counter `State.free`, `tag` names the register or the place.  None has a body: nothing can
be proved of the value (assumption log 5). -/

/-- A natural-number register that holds no value. -/
opaque freeNat (epoch tag : Nat) : Nat
/-- A `w`-bit register that holds no value. -/
opaque freeWord (w epoch tag : Nat) : BitVec w
/-- A one-bit register that holds no value. -/
opaque freeBool (epoch tag : Nat) : Bool
/-- A byte of a buffer range whose content is unspecified (rule R186). -/
opaque freeByte (epoch addr : Nat) : Byte
/-- A byte sequence that holds no value. -/
opaque freeBytes (epoch tag : Nat) : Bytes
/-- The 32-bit field written from a length of `2^32` or more, which rule R215 leaves unstated. -/
opaque wideField (len : Nat) : W32

end Sys2Proof.Config
end

