-- ==== Sys2Proof/Syntax.lean ====
section
/-! DEFINITION. The instructions: one constructor per row of spec/opcode_table.json (rules R3, R114): the
three tokens DEC executes, the structural items of a block, the fields of the KIP1 header, the seven
commands.  `Slot` is the position that selects an item, because an item carries no opcode bits (rules R80,
R114). -/

namespace Sys2Proof

/-- A segment descriptor, `KIP.SEG[i]` (rule R30): four 32-bit fields in this order. -/
structure SegDesc where
  dstOffset : W32
  decompressedSize : W32
  compressedSize : W32
  /-- the spec's `attribute` -/
  attr : W32
  deriving DecidableEq, Repr, Inhabited

/-- `CMD.op`: the seven commands (rules R3, R21); an enumeration, as rule R110 asks. -/
inductive Op where
  | blzCompress | blzFooter | blzDecompressS | blzDecompressP | kipParse | kipBuild | kipSerialize
  deriving DecidableEq, Repr, Inhabited

/-- Where an item stands: the selector of rule R114. -/
inductive Slot where
  /-- the token fetched when `DEC.k = 0` -/
  | ctrl
  /-- the token fetched when `DEC.k > 0` and the flag is 0 -/
  | lit
  /-- the token fetched when `DEC.k > 0` and the flag is 1 -/
  | ref
  /-- a byte between the encoded suffix and the footer -/
  | pad
  | footerTotal | footerHdr | footerExtra
  /-- the last word of a stored-form block -/
  | storedTerm
  | kipMagic | kipName | kipTitleId | kipProcessCategory | kipThreadPriority | kipDefaultCpuId
  | kipReserved | kipFlags
  | kipSeg (i : Fin 6)
  | kipCap (j : Fin 32)
  /-- `CMD.op` -/
  | command
  deriving DecidableEq, Repr, Inhabited

/-- One constructor per row of the opcode table.  The operand of an item is the value of its field. -/
inductive Instr where
  /-- `CTRL` (R81): bit 7 is the flag of the first item after it -/
  | ctrl (flags : Byte)
  /-- `LIT` (R82) -/
  | lit (b : Byte)
  /-- `REF` (R84): `LEN4` and `OFF12` -/
  | ref (len4 : BitVec 4) (off12 : BitVec 12)
  /-- `PAD` (R93) -/
  | pad (b : Byte)
  /-- `FOOTER.TOTAL` (R91) -/
  | footerTotal (v : W32)
  /-- `FOOTER.HDR` (R91) -/
  | footerHdr (v : W32)
  /-- `FOOTER.EXTRA` (R91) -/
  | footerExtra (v : W32)
  /-- `STORED.TERM` (R96) -/
  | storedTerm
  /-- `KIP.MAGIC` (R101): the word read -/
  | kipMagic (w : W32)
  /-- `KIP.NAME` (R29): 12 opaque bytes; byte `k` is bits `8k+7 .. 8k` -/
  | kipName (v : BitVec 96)
  /-- `KIP.TITLE_ID` (R29) -/
  | kipTitleId (v : BitVec 64)
  /-- `KIP.PROCESS_CATEGORY` (R29) -/
  | kipProcessCategory (v : W32)
  /-- `KIP.THREAD_PRIORITY` (R29) -/
  | kipThreadPriority (v : Byte)
  /-- `KIP.DEFAULT_CPU_ID` (R29) -/
  | kipDefaultCpuId (v : Byte)
  /-- `KIP.RESERVED` (R29, R104) -/
  | kipReserved (v : Byte)
  /-- `KIP.FLAGS` (R32) -/
  | kipFlags (v : Byte)
  /-- `KIP.SEG` (R30): descriptor `i` -/
  | kipSeg (i : Fin 6) (d : SegDesc)
  /-- `KIP.CAP` (R31): capability word `j` -/
  | kipCap (j : Fin 32) (v : W32)
  /-- `BLZ.COMPRESS` (R120) -/
  | blzCompress
  /-- `BLZ.FOOTER` (R150) -/
  | blzFooter
  /-- `BLZ.DECOMPRESS.S` (R180) -/
  | blzDecompressS
  /-- `BLZ.DECOMPRESS.P` (R183) -/
  | blzDecompressP
  /-- `KIP.PARSE` (R201) -/
  | kipParse
  /-- `KIP.BUILD` (R211) -/
  | kipBuild
  /-- `KIP.SERIALIZE` (R221) -/
  | kipSerialize
  deriving DecidableEq, Repr, Inhabited

end Sys2Proof
end

