-- ==== Sys2Proof/WellFormed.lean ====
section
/-! DEFINITION. Which instructions are well formed.  Every byte is a valid `CTRL`, `LIT` or `PAD` and every
16-bit value a valid `REF` (rule R88); the one field with a required value is the container magic
(rule R101).  Register-file indices are bounded by their types. -/

namespace Sys2Proof

/-- Well-formedness of an instruction: `KIP.MAGIC` must hold `KIP_MAGIC` (rules R29, R101); no other
operand has a forbidden value (rules R88, R104, R202). -/
def Instr.wellFormed : Instr → Bool
  | .ctrl _ => true
  | .lit _ => true
  | .ref _ _ => true
  | .pad _ => true
  | .footerTotal _ => true
  | .footerHdr _ => true
  | .footerExtra _ => true
  | .storedTerm => true
  | .kipMagic w => w == Config.kipMagic
  | .kipName _ => true
  | .kipTitleId _ => true
  | .kipProcessCategory _ => true
  | .kipThreadPriority _ => true
  | .kipDefaultCpuId _ => true
  | .kipReserved _ => true
  | .kipFlags _ => true
  | .kipSeg _ _ => true
  | .kipCap _ _ => true
  | .blzCompress => true
  | .blzFooter => true
  | .blzDecompressS => true
  | .blzDecompressP => true
  | .kipParse => true
  | .kipBuild => true
  | .kipSerialize => true

end Sys2Proof
end

