-- ==== Sys2Proof/Decode.lean ====
section
/-! DEFINITION. From bytes to an instruction and back.  What a byte is depends on where it stands (rules R80,
R114), so the decoder takes the position as well as the bytes.  After it the encoder, the listing assembler
of rule R111, and the host's `decodeTableWord`. -/

namespace Sys2Proof

/-! ### Byte order (rule R56) -/

/-- The `n` low-order bytes of `v`, least significant first (rule R14, `MemWrite`). -/
def leBytes : Nat → Nat → Bytes
  | 0, _ => []
  | n + 1, v => BitVec.ofNat 8 v :: leBytes n (v / 256)

/-- The unsigned number a byte sequence makes, lowest address least significant (rule R14, `MemRead`). -/
def leNat : Bytes → Nat
  | [] => 0
  | b :: t => b.toNat + 256 * leNat t

/-! ### Sizes and ordinals -/

/-- Bytes an item occupies (rules R24, R29, R30, R31, R80, R91, R96); a command is one ordinal. -/
def Slot.size : Slot → Nat
  | .ctrl => 1
  | .lit => 1
  | .ref => 2
  | .pad => 1
  | .footerTotal => 4
  | .footerHdr => 4
  | .footerExtra => 4
  | .storedTerm => 4
  | .kipMagic => 4
  | .kipName => 12
  | .kipTitleId => 8
  | .kipProcessCategory => 4
  | .kipThreadPriority => 1
  | .kipDefaultCpuId => 1
  | .kipReserved => 1
  | .kipFlags => 1
  | .kipSeg _ => 16
  | .kipCap _ => 4
  | .command => 1

/-- The position an instruction stands at (rule R114). -/
def Instr.slot : Instr → Slot
  | .ctrl _ => .ctrl
  | .lit _ => .lit
  | .ref _ _ => .ref
  | .pad _ => .pad
  | .footerTotal _ => .footerTotal
  | .footerHdr _ => .footerHdr
  | .footerExtra _ => .footerExtra
  | .storedTerm => .storedTerm
  | .kipMagic _ => .kipMagic
  | .kipName _ => .kipName
  | .kipTitleId _ => .kipTitleId
  | .kipProcessCategory _ => .kipProcessCategory
  | .kipThreadPriority _ => .kipThreadPriority
  | .kipDefaultCpuId _ => .kipDefaultCpuId
  | .kipReserved _ => .kipReserved
  | .kipFlags _ => .kipFlags
  | .kipSeg i _ => .kipSeg i
  | .kipCap j _ => .kipCap j
  | .blzCompress => .command
  | .blzFooter => .command
  | .blzDecompressS => .command
  | .blzDecompressP => .command
  | .kipParse => .command
  | .kipBuild => .command
  | .kipSerialize => .command

/-- The ordinal of a command (rule R110: for tables only, it carries no meaning). -/
def Op.ordinal : Op → Nat
  | .blzCompress => 0
  | .blzFooter => 1
  | .blzDecompressS => 2
  | .blzDecompressP => 3
  | .kipParse => 4
  | .kipBuild => 5
  | .kipSerialize => 6

/-- The instruction a command register names (rules R21, R110). -/
def Op.instr : Op → Instr
  | .blzCompress => .blzCompress
  | .blzFooter => .blzFooter
  | .blzDecompressS => .blzDecompressS
  | .blzDecompressP => .blzDecompressP
  | .kipParse => .kipParse
  | .kipBuild => .kipBuild
  | .kipSerialize => .kipSerialize

/-! ### Decoder -/

/-- Why the decoder refuses. -/
inductive DecodeError where
  /-- fewer bytes than the item needs -/
  | truncated
  /-- the last word of a stored-form block is not zero (rule R96) -/
  | nonzeroTerminator
  /-- a command ordinal of 7 or more (list V10 of 93_implementation_defined.md) -/
  | noSuchCommand
  deriving DecidableEq, Repr

/-- The command an ordinal names (rule R110); ordinals 7 and above do not exist. -/
def decodeOp : Nat → Except DecodeError Instr
  | 0 => .ok .blzCompress
  | 1 => .ok .blzFooter
  | 2 => .ok .blzDecompressS
  | 3 => .ok .blzDecompressP
  | 4 => .ok .kipParse
  | 5 => .ok .kipBuild
  | 6 => .ok .kipSerialize
  | _ + 7 => .error .noSuchCommand

/-- The instruction at a position whose field, read little-endian, is the number `v`.  A `REF` has `LEN4`
in bits 15..12 and `OFF12` in bits 11..0 (rule R84; PRESUMED by the spec, decision D3, log 4).  The container
magic is decoded whatever its value: rule R201 compares it when it is executed. -/
def decodeWord (p : Slot) (v : Nat) : Except DecodeError Instr :=
  match p with
  | .ctrl => .ok (.ctrl (BitVec.ofNat 8 v))
  | .lit => .ok (.lit (BitVec.ofNat 8 v))
  | .ref => .ok (.ref (BitVec.ofNat 4 (v / 4096)) (BitVec.ofNat 12 (v % 4096)))
  | .pad => .ok (.pad (BitVec.ofNat 8 v))
  | .footerTotal => .ok (.footerTotal (BitVec.ofNat 32 v))
  | .footerHdr => .ok (.footerHdr (BitVec.ofNat 32 v))
  | .footerExtra => .ok (.footerExtra (BitVec.ofNat 32 v))
  | .storedTerm => if v = 0 then .ok .storedTerm else .error .nonzeroTerminator
  | .kipMagic => .ok (.kipMagic (BitVec.ofNat 32 v))
  | .kipName => .ok (.kipName (BitVec.ofNat 96 v))
  | .kipTitleId => .ok (.kipTitleId (BitVec.ofNat 64 v))
  | .kipProcessCategory => .ok (.kipProcessCategory (BitVec.ofNat 32 v))
  | .kipThreadPriority => .ok (.kipThreadPriority (BitVec.ofNat 8 v))
  | .kipDefaultCpuId => .ok (.kipDefaultCpuId (BitVec.ofNat 8 v))
  | .kipReserved => .ok (.kipReserved (BitVec.ofNat 8 v))
  | .kipFlags => .ok (.kipFlags (BitVec.ofNat 8 v))
  | .kipSeg i => .ok (.kipSeg i
      { dstOffset := BitVec.ofNat 32 v
        decompressedSize := BitVec.ofNat 32 (v / 2 ^ 32)
        compressedSize := BitVec.ofNat 32 (v / 2 ^ 64)
        attr := BitVec.ofNat 32 (v / 2 ^ 96) })
  | .kipCap j => .ok (.kipCap j (BitVec.ofNat 32 v))
  | .command => decodeOp v

/-- Decode the item at position `p` from the front of `bs`; the rest of the bytes comes back with it. -/
def decode (p : Slot) (bs : Bytes) : Except DecodeError (Instr × Bytes) :=
  if bs.length < p.size then .error .truncated
  else match decodeWord p (leNat (bs.take p.size)) with
    | .ok i => .ok (i, bs.drop p.size)
    | .error e => .error e

/-! ### Encoder -/

/-- The 16-bit value of a `REF` (rules R84, R86). -/
def refWord (len4 : BitVec 4) (off12 : BitVec 12) : Nat := len4.toNat * 4096 + off12.toNat

/-- The bytes of an instruction, lowest address first.  The container magic is always written as the
constant (rule R222). -/
def encode : Instr → Bytes
  | .ctrl f => [f]
  | .lit b => [b]
  | .ref l o => leBytes 2 (refWord l o)
  | .pad b => [b]
  | .footerTotal v => leBytes 4 v.toNat
  | .footerHdr v => leBytes 4 v.toNat
  | .footerExtra v => leBytes 4 v.toNat
  | .storedTerm => leBytes 4 0
  | .kipMagic _ => leBytes 4 Config.kipMagic.toNat
  | .kipName v => leBytes 12 v.toNat
  | .kipTitleId v => leBytes 8 v.toNat
  | .kipProcessCategory v => leBytes 4 v.toNat
  | .kipThreadPriority v => [v]
  | .kipDefaultCpuId v => [v]
  | .kipReserved v => [v]
  | .kipFlags v => [v]
  | .kipSeg _ d => leBytes 4 d.dstOffset.toNat ++ leBytes 4 d.decompressedSize.toNat
      ++ leBytes 4 d.compressedSize.toNat ++ leBytes 4 d.attr.toNat
  | .kipCap _ v => leBytes 4 v.toNat
  | .blzCompress => leBytes 1 (Op.ordinal .blzCompress)
  | .blzFooter => leBytes 1 (Op.ordinal .blzFooter)
  | .blzDecompressS => leBytes 1 (Op.ordinal .blzDecompressS)
  | .blzDecompressP => leBytes 1 (Op.ordinal .blzDecompressP)
  | .kipParse => leBytes 1 (Op.ordinal .kipParse)
  | .kipBuild => leBytes 1 (Op.ordinal .kipBuild)
  | .kipSerialize => leBytes 1 (Op.ordinal .kipSerialize)

/-- The structural tail of a compressed-form block (rules R92, R139): `pad` filler bytes, then the three
footer words. -/
def footerItems (pad : Nat) (total hdr extra : W32) : List Instr :=
  List.replicate pad (.pad Config.padByte)
    ++ [.footerTotal total, .footerHdr hdr, .footerExtra extra]

/-- The bytes of a listing (rule R111): the raw bytes before the tokens, the tokens in reverse of the order
DEC executes them, the padding, the footer. -/
def assemble (raw : Bytes) (tokens : List Instr) (pad : Nat) (total hdr extra : Nat) : Bytes :=
  raw ++ tokens.reverse.flatMap encode
    ++ (footerItems pad (BitVec.ofNat 32 total) (BitVec.ofNat 32 hdr)
          (BitVec.ofNat 32 extra)).flatMap encode

/-! ### The host's table words -/

/-- The position a bare table word is taken to stand at (log 14: the table's items carry no opcode bits, so
their position is not part of the word).  A word equal to a row's fixed bits goes to that row (`PAD`,
`STORED.TERM`, `KIP.MAGIC`, the ordinals of the seven commands); any other goes to the first row of the table of that
width. -/
def tableSlot (nbits w : Nat) : Option Slot :=
  match nbits with
  | 8 => some (if w = 0xFF then .pad else if w ≤ 6 then .command else .ctrl)
  | 16 => some .ref
  | 32 => some (if w = 0 then .storedTerm else if w = 0x3150494B then .kipMagic else .footerTotal)
  | 64 => some .kipTitleId
  | 96 => some .kipName
  | 128 => some (.kipSeg 0)
  | _ => none

/-- The bytes of a table word: bit 0 is the least significant bit of the first byte; above `nbits` all bits
are 0, up to the longest item (16 bytes). -/
def tableBytes (nbits w : Nat) : Bytes := leBytes 16 (w % 2 ^ nbits)

/-- The instruction the decoder reads from a table word. -/
def decodeTableWord (nbits w : Nat) : Option Instr :=
  match tableSlot nbits w with
  | none => none
  | some p =>
    match decode p (tableBytes nbits w) with
    | .ok (i, _) => some i
    | .error _ => none

end Sys2Proof
end

