-- ==== Sys2Proof/Machine/State.lean ====
section
/-! DEFINITION. The state of the engine: every register of rules R21 to R33, the buffers of rule R51, ENC's
stream buffer of rule R53, and two fields of the model's own (`seq`, `free`).  Its value after reset
(rule R39).  The faults and refusals a step can end in. -/

namespace Sys2Proof.Machine

/-- Error kinds (rule R240), an enumeration. -/
inductive ErrKind where
  | ok | invalidMagic | truncated | malformedFooter | outOfBounds | sizeMismatch
  deriving DecidableEq, Repr, Inhabited

/-- The kinds a decode can raise (rules R33, R189). -/
inductive DecErr where
  | malformedFooter | outOfBounds
  deriving DecidableEq, Repr, Inhabited

/-- `STATUS.form` (rule R22). -/
inductive Form where
  | stored | compressed
  deriving DecidableEq, Repr, Inhabited

/-- `DEC.run` (rule R27). -/
inductive DecRun where
  | idle | run | done | fault
  deriving DecidableEq, Repr, Inhabited

/-- `KIP.SEGSTAT[i]` (rules R33, R206). -/
inductive SegStat where
  | absent | verbatim | decoded | sizeMismatch
  | failed (kind : DecErr)
  deriving DecidableEq, Repr, Inhabited

/-- `STATUS.info` (rule R22): the structured context of an error. -/
structure Info where
  offset : Nat
  expected : Nat
  actual : Nat
  deriving DecidableEq, Repr, Inhabited

/-- `CMD` and the operands the caller hands over with it (rules R21, R35, R51, R297). -/
structure CmdRegs where
  /-- `CMD.op` (rule R21) -/
  op : Op
  /-- `CMD.best` (rule R21) -/
  best : Bool
  /-- `n` of `BLZ.DECOMPRESS.P`: the block is the first `n` bytes of `M` (rule R183) -/
  n : Nat
  /-- `cap` of `BLZ.DECOMPRESS.P` (rule R183) -/
  cap : Nat
  /-- `MAX_LEN` (rules R10, R35): `none` is unbounded -/
  maxLen : Option Nat
  /-- `HDR_MAX` (rules R10, R35, R155) -/
  hdrMax : Nat
  /-- `MATCH_OVERLAP` (rules R10, R35, R125): allowed or not -/
  matchOverlap : Bool
  deriving DecidableEq, Repr, Inhabited

/-- `STATUS` (rule R22). -/
structure StatusRegs where
  err : ErrKind
  info : Info
  form : Form
  degenerate : Bool
  outLen : Nat
  deriving DecidableEq, Repr, Inhabited

/-- FTR (rule R23). -/
structure FtrRegs where
  totalSize : W32
  headerLen : W32
  extraSize : W32
  prefixLen : Nat
  readStart : Nat
  outLen : Nat
  degenerate : Bool
  deriving DecidableEq, Repr, Inhabited

/-- DEC (rules R24 to R27). -/
structure DecRegs where
  /-- the read cursor, the program counter (rule R24) -/
  r : Nat
  /-- the write cursor (rule R25) -/
  w : Nat
  /-- the flag bits not yet consumed, the next one in bit 7 (rule R26) -/
  ctrl : Byte
  /-- how many of them remain, 0..8 (rule R26) -/
  k : Nat
  outLen : Nat
  base : Nat
  /-- 0..18 (rule R27) -/
  len : Nat
  /-- 3..4098 (rule R27) -/
  off : Nat
  run : DecRun
  deriving DecidableEq, Repr, Inhabited

/-- ENC (rule R28) with its stream buffer `S` (rule R53). -/
structure EncRegs where
  n : Nat
  i : Nat
  cnt : Nat
  flg : Nat
  /-- `ENC.L`, `best_len` -/
  bestLen : Nat
  /-- `ENC.P` -/
  bestOff : Nat
  /-- `ENC.Ln`, `next_len` -/
  nextLen : Nat
  /-- `ENC.Lp`, `post_len` -/
  postLen : Nat
  pakBest : Nat
  rawBest : Nat
  stream : Bytes
  deriving DecidableEq, Repr, Inhabited

/-- The KIP1 header image (rules R29 to R32). -/
structure KipHeader where
  magic : W32
  name : BitVec 96
  titleId : BitVec 64
  processCategory : W32
  threadPriority : Byte
  defaultCpuId : Byte
  reserved : Byte
  flags : Byte
  seg : Vector SegDesc 6
  cap : Vector W32 32
  deriving DecidableEq, Repr, Inhabited

/-- KIP: the header image and the dispatcher registers (rule R33).  `none` in `data` is the spec's own "no
value when decoding failed" (rules R33, R206), which `KIP.BUILD` refuses (rule R211). -/
structure KipRegs where
  hdr : KipHeader
  pos : Nat
  data : Vector (Option Bytes) 6
  stored : Vector Bytes 6
  segstat : Vector SegStat 6
  trailing : Bytes
  deriving DecidableEq, Repr, Inhabited

/-- A buffer (rule R50): bytes at indices `0 .. len - 1`.  `cells` lists, by strictly rising index, the bytes
that differ from `unlistedByte`. -/
structure Buffer where
  len : Nat
  cells : List Host.Cell
  deriving DecidableEq, Repr, Inhabited

/-- The engine's only memory (rules R50, R51): the caller's input `IN`, the output `OUT`, the in-place `M`. -/
structure Memory where
  inp : Buffer
  out : Buffer
  m : Buffer
  deriving DecidableEq, Repr, Inhabited

/-- The names of the three buffers (rule R51). -/
inductive BufName where
  | inp | out | m
  deriving DecidableEq, Repr, Inhabited

/-- Where the sequencer stands: the model's own field for rule R114's "position alone selects" (log 1).
`load p`: the item at `p` is about to be read, and of the padding its first byte; `loadPad a`: the pad byte at
offset `a` of the block is about to be read (log 29); `emit p`: the item at `p` is about to be written. -/
inductive Seq where
  /-- no command running (rule R39) -/
  | idle
  /-- `CMD.op` has been written (rule R282): the next step runs the command -/
  | command
  /-- DEC executes tokens (`DEC.run = RUN`) -/
  | token
  | load (p : Slot)
  | loadPad (a : Nat)
  | emit (p : Slot)
  deriving DecidableEq, Repr, Inhabited

/-- The state of one engine instance. -/
structure State where
  cmd : CmdRegs
  status : StatusRegs
  ftr : FtrRegs
  dec : DecRegs
  enc : EncRegs
  kip : KipRegs
  mem : Memory
  /-- the model's own: the sequencer -/
  seq : Seq
  /-- the model's own: the counter the free values are drawn with (log 5) -/
  free : Nat
  deriving DecidableEq, Repr, Inhabited

/-- Reasons a step faults. Each is safe: it stops a state that no command reaches. -/
inductive Fault where
  /-- Raised by a token or a structural item whose byte lies outside its buffer: such an address does not
  exist (rules R14, R50). No command reaches it (rule R65). Safe. -/
  | outsideBuffer
  /-- Raised by a `LIT` executed with `DEC.w = 0`: a cursor is never decremented below 0 (rules R17, R172).
  No command reaches it (rule R169). Safe. -/
  | cursorBelowZero
  /-- Raised when the token position yields an instruction that is no token. The decoder never does
  (rule R80). Safe. -/
  | notAToken
  deriving DecidableEq, Repr

/-- Reasons a step is refused. Each is safe: the model gives the run no meaning. -/
inductive Refusal where
  /-- Raised by `exec`'s arm of an instruction with no meaning yet; no arm is one. Safe. -/
  | notModelled (mnemonic : String)
  /-- Raised by `BLZ.DECOMPRESS.P` with `n > cap` or with `cap` above the real buffer (U10; rules R183, R284).
  Safe. -/
  | capacityOperand
  /-- Raised by `KIP.BUILD` when some `KIP.DATA[i]` has no value (U12; rule R211). Safe. -/
  | dataMissing
  /-- Raised by a command whose operand or output length, or the length of ENC's stream, reaches `MAX_LEN` outside FTR
  (U14; rules R10, R50; logs 8, 28).
  Safe. -/
  | lengthLimit
  /-- Raised by a fetch whose bytes the decoder refuses: a stored-form terminator that is not zero (rule R96).
  No command fetches one. Safe. -/
  | undecodable
  deriving DecidableEq, Repr

/-- The header image after reset: zero in every field (rule R39: unspecified; log 2). -/
def KipHeader.reset : KipHeader where
  magic := 0
  name := 0
  titleId := 0
  processCategory := 0
  threadPriority := 0
  defaultCpuId := 0
  reserved := 0
  flags := 0
  seg := Vector.replicate 6 ⟨0, 0, 0, 0⟩
  cap := Vector.replicate 32 0

/-- The machine after reset (rules R39, R280): idle, `DEC.run = IDLE`; every other value is unspecified by the
spec and is the one log 2 names; the parameters at the defaults of rule R10. -/
def State.reset : State where
  cmd := { op := .blzCompress, best := false, n := 0, cap := 0, maxLen := none
           hdrMax := Config.hdrMaxDefault, matchOverlap := Config.matchOverlapDefault }
  status := { err := .ok, info := ⟨0, 0, 0⟩, form := .stored, degenerate := false, outLen := 0 }
  ftr := { totalSize := 0, headerLen := 0, extraSize := 0, prefixLen := 0, readStart := 0, outLen := 0
           degenerate := false }
  dec := { r := 0, w := 0, ctrl := 0, k := 0, outLen := 0, base := 0, len := 0, off := 3, run := .idle }
  enc := { n := 0, i := 0, cnt := 0, flg := 0, bestLen := 1, bestOff := 3, nextLen := 1, postLen := 1
           pakBest := 0, rawBest := 0, stream := [] }
  kip := { hdr := KipHeader.reset, pos := 0, data := Vector.replicate 6 (some [])
           stored := Vector.replicate 6 [], segstat := Vector.replicate 6 .absent, trailing := [] }
  mem := { inp := ⟨0, []⟩, out := ⟨0, []⟩, m := ⟨0, []⟩ }
  seq := .idle
  free := 0

end Sys2Proof.Machine
end

