-- ==== Sys2Proof/Machine/Ops.lean ====
section
/-! DEFINITION. The shared operations: buffers (rules R14, R50), state updates, registers that hold no value
(rule R38), the start of a command, and `takeRaise`, the ONE operation that ends a command with an error
(rules R245, R246, R186, R210).  There is no return from an error (rule R248). -/

namespace Sys2Proof.Machine

/-! ### Buffers -/

/-- What an index that no cell lists reads as. The spec gives zero for the allocated output (rule R180); for
the caller's buffers every byte is the caller's, so this is only how a zero is stored. -/
def unlistedByte : Byte := 0x00#8

/-- The byte a cell list gives an index. -/
def cellsGet : List Host.Cell → Nat → Byte
  | [], _ => unlistedByte
  | (a, b) :: t, i => if a = i then b else cellsGet t i

/-- Store one byte, keeping the canonical form. -/
def cellsSet : List Host.Cell → Nat → Byte → List Host.Cell
  | [], i, v => if v = unlistedByte then [] else [(i, v)]
  | (a, b) :: t, i, v =>
    if a < i then (a, b) :: cellsSet t i v
    else if a = i then (if v = unlistedByte then t else (i, v) :: t)
    else (if v = unlistedByte then (a, b) :: t else (i, v) :: (a, b) :: t)

/-- The cells of a byte sequence that starts at index `i`. -/
def cellsOf : Nat → Bytes → List Host.Cell
  | _, [] => []
  | i, b :: t => if b = unlistedByte then cellsOf (i + 1) t else (i, b) :: cellsOf (i + 1) t

/-- The canonical form: indices strictly rising from `lo`, all below `len`, no cell equal to
`unlistedByte`. -/
def cellsOk (len : Nat) : Nat → List Host.Cell → Bool
  | _, [] => true
  | lo, (a, b) :: t => decide (lo ≤ a) && decide (a < len) && decide (b ≠ unlistedByte)
      && cellsOk len (a + 1) t

/-- `n` bytes from index `i`. -/
def cellsSlice (cells : List Host.Cell) : Nat → Nat → Bytes
  | _, 0 => []
  | i, n + 1 => cellsGet cells i :: cellsSlice cells (i + 1) n

/-- Store a byte sequence from index `i` upward. -/
def cellsWrite : List Host.Cell → Nat → Bytes → List Host.Cell
  | c, _, [] => c
  | c, i, b :: t => cellsWrite (cellsSet c i b) (i + 1) t

/-- The canonical form of one buffer. -/
def Buffer.wf (b : Buffer) : Bool := cellsOk b.len 0 b.cells

/-- The canonical form of the engine's memory. -/
def Memory.wf (m : Memory) : Bool := m.inp.wf && m.out.wf && m.m.wf

/-- Read one byte; an index at or beyond the length does not exist (rule R50). -/
def Buffer.get (b : Buffer) (i : Nat) : Option Byte :=
  if i < b.len then some (cellsGet b.cells i) else none

/-- Write one byte; an index at or beyond the length does not exist (rule R50). -/
def Buffer.set (b : Buffer) (i : Nat) (v : Byte) : Option Buffer :=
  if i < b.len then some { b with cells := cellsSet b.cells i v } else none

/-- The bytes `[i .. i + n)`, when the buffer has them. -/
def Buffer.slice (b : Buffer) (i n : Nat) : Option Bytes :=
  if i + n ≤ b.len then some (cellsSlice b.cells i n) else none

/-- The whole content. -/
def Buffer.toBytes (b : Buffer) : Bytes := cellsSlice b.cells 0 b.len

/-- The buffer that holds exactly a byte sequence. -/
def Buffer.ofBytes (l : Bytes) : Buffer := ⟨l.length, cellsOf 0 l⟩

/-- The buffer made longer by a byte sequence at its end. -/
def Buffer.append (b : Buffer) (l : Bytes) : Buffer :=
  ⟨b.len + l.length, b.cells ++ cellsOf b.len l⟩

/-- `MemRead(B, i, n)` (rules R14, R56) of a read the caller has bounded. -/
def Buffer.read (b : Buffer) (i n : Nat) : Nat := leNat (cellsSlice b.cells i n)

/-- A buffer whose bytes `[i .. i + n)` hold no value any more (rule R186). -/
def Buffer.forget (b : Buffer) (epoch i n : Nat) : Buffer :=
  let free := (List.range (min n (b.len - i))).map fun k => Config.freeByte epoch (i + k)
  { b with cells := cellsWrite b.cells i free }

/-- The buffer of a name (rule R51). -/
def Memory.buf (m : Memory) : BufName → Buffer
  | .inp => m.inp
  | .out => m.out
  | .m => m.m

/-! ### Updates of the state -/

def State.withCmd (s : State) (x : CmdRegs) : State := { s with cmd := x }
def State.withStatus (s : State) (x : StatusRegs) : State := { s with status := x }
def State.withFtr (s : State) (x : FtrRegs) : State := { s with ftr := x }
def State.withDec (s : State) (x : DecRegs) : State := { s with dec := x }
def State.withEnc (s : State) (x : EncRegs) : State := { s with enc := x }
def State.withKip (s : State) (x : KipRegs) : State := { s with kip := x }
def State.withMem (s : State) (x : Memory) : State := { s with mem := x }
def State.withSeq (s : State) (x : Seq) : State := { s with seq := x }
def State.withFree (s : State) (x : Nat) : State := { s with free := x }
/-- Replace the input buffer `IN`. -/
def State.withInp (s : State) (b : Buffer) : State := s.withMem { s.mem with inp := b }
/-- Replace the output buffer `OUT`. -/
def State.withOut (s : State) (b : Buffer) : State := s.withMem { s.mem with out := b }
/-- Replace the in-place buffer `M`. -/
def State.withM (s : State) (b : Buffer) : State := s.withMem { s.mem with m := b }
/-- Replace the header image. -/
def State.withHdr (s : State) (h : KipHeader) : State := s.withKip { s.kip with hdr := h }

/-- One byte of a named buffer. -/
def State.readByte (s : State) (b : BufName) (i : Nat) : Option Byte := (s.mem.buf b).get i

/-! ### Registers that hold no value (rule R38)

Each keeps the range the register's rule gives it. -/

/-- `STATUS` fields no rule has written (rules R22, R246); `err` is written by every command. -/
def freeStatus (e : Nat) (err : ErrKind) : StatusRegs where
  err := err
  info := ⟨Config.freeNat e 1, Config.freeNat e 2, Config.freeNat e 3⟩
  form := if Config.freeBool e 4 then .compressed else .stored
  degenerate := Config.freeBool e 5
  outLen := Config.freeNat e 6

/-- FTR before it has run in the current command (rule R23). -/
def freeFtr (e : Nat) : FtrRegs where
  totalSize := Config.freeWord 32 e 11
  headerLen := Config.freeWord 32 e 12
  extraSize := Config.freeWord 32 e 13
  prefixLen := Config.freeNat e 14
  readStart := Config.freeNat e 15
  outLen := Config.freeNat e 16
  degenerate := Config.freeBool e 17

/-- The FTR derived registers hold no value (rule R158): the four that rule R23 calls derived, `FTR.degenerate` among
them, which rule R153 may have written (log 12). -/
def forgetDerived (e : Nat) (f : FtrRegs) : FtrRegs :=
  { f with prefixLen := (freeFtr e).prefixLen, readStart := (freeFtr e).readStart
           outLen := (freeFtr e).outLen, degenerate := (freeFtr e).degenerate }

/-- DEC before its initialisation (rules R27, R168): `DEC.run = IDLE`, the rest no value. -/
def freeDec (e : Nat) : DecRegs where
  r := Config.freeNat e 21
  w := Config.freeNat e 22
  ctrl := Config.freeWord 8 e 23
  k := Config.freeNat e 24 % 9
  outLen := Config.freeNat e 25
  base := Config.freeNat e 26
  len := Config.freeNat e 27 % 19
  off := 3 + Config.freeNat e 28 % 4096
  run := .idle

/-- ENC before its initialisation (rule R28). -/
def freeEnc (e : Nat) : EncRegs where
  n := Config.freeNat e 31
  i := Config.freeNat e 32
  cnt := Config.freeNat e 33 % 8
  flg := Config.freeNat e 34
  bestLen := 1 + Config.freeNat e 35 % 18
  bestOff := 3 + Config.freeNat e 36 % 4096
  nextLen := 1 + Config.freeNat e 37 % 18
  postLen := 1 + Config.freeNat e 38 % 18
  pakBest := Config.freeNat e 39
  rawBest := Config.freeNat e 40
  stream := Config.freeBytes e 41

/-- The `KIP.SEGSTAT` value a number stands for: every value is one of some number. -/
def segStatOf (n : Nat) : SegStat :=
  match n % 6 with
  | 0 => .absent
  | 1 => .verbatim
  | 2 => .decoded
  | 3 => .sizeMismatch
  | 4 => .failed .malformedFooter
  | _ => .failed .outOfBounds

/-- `KIP.SEGSTAT` with no value. -/
def freeSegstat (e : Nat) : Vector SegStat 6 :=
  Vector.ofFn fun i : Fin 6 => segStatOf (Config.freeNat e (50 + i.val))

/-- The header image with no value (rule R210). -/
def freeHeader (e : Nat) : KipHeader where
  magic := Config.freeWord 32 e 61
  name := Config.freeWord 96 e 62
  titleId := Config.freeWord 64 e 63
  processCategory := Config.freeWord 32 e 64
  threadPriority := Config.freeWord 8 e 65
  defaultCpuId := Config.freeWord 8 e 66
  reserved := Config.freeWord 8 e 67
  flags := Config.freeWord 8 e 68
  seg := Vector.ofFn fun i : Fin 6 =>
    { dstOffset := Config.freeWord 32 e (70 + 4 * i.val)
      decompressedSize := Config.freeWord 32 e (71 + 4 * i.val)
      compressedSize := Config.freeWord 32 e (72 + 4 * i.val)
      attr := Config.freeWord 32 e (73 + 4 * i.val) }
  cap := Vector.ofFn fun j : Fin 32 => Config.freeWord 32 e (100 + j.val)

/-- Every KIP register with no value (rule R210); `KIP.DATA` has the spec's own "no value". -/
def freeKip (e : Nat) : KipRegs where
  hdr := freeHeader e
  pos := Config.freeNat e 140
  data := Vector.replicate 6 none
  stored := Vector.ofFn fun i : Fin 6 => Config.freeBytes e (141 + i.val)
  segstat := freeSegstat e
  trailing := Config.freeBytes e 147

/-! ### Start of a command -/

/-- The KIP registers when a command starts: those the caller hands over as its operands stay (rules R51, R211, R221,
R282); every other holds no value until a rule writes it (rule R38, decision D27).  `KIP.TRAILING` goes through
`KIP.BUILD`, on its way to the `KIP.SERIALIZE` after it (rules R200, R226; logs 6, 16). -/
def startKip (op : Op) (e : Nat) (k : KipRegs) : KipRegs :=
  match op with
  | .kipBuild => { freeKip e with hdr := k.hdr, data := k.data, trailing := k.trailing }
  | .kipSerialize => { freeKip e with hdr := k.hdr, stored := k.stored, trailing := k.trailing }
  | .blzCompress => freeKip e
  | .blzFooter => freeKip e
  | .blzDecompressS => freeKip e
  | .blzDecompressP => freeKip e
  | .kipParse => freeKip e

/-- The length or index is below `MAX_LEN` (rule R10). -/
def belowMax (s : State) (n : Nat) : Bool :=
  match s.cmd.maxLen with
  | none => true
  | some m => decide (n < m)

/-- A command starts: `CMD.op` names it (rule R21); every unit register holds no value until the command
writes it (rules R35, R38), `DEC.run` is `IDLE` (rule R27).  What the caller hands over and owns stays: `CMD`,
the buffers, the KIP registers that are this command's operands (`startKip`; rules R51, R282, R297; log 6). -/
def startCommand (op : Op) (s : State) : State :=
  { s with
    cmd := { s.cmd with op := op }
    status := freeStatus s.free s.status.err
    ftr := freeFtr s.free
    dec := freeDec s.free
    enc := freeEnc s.free
    kip := startKip op s.free s.kip
    seq := .idle
    free := s.free + 1 }

/-! ### How an operation ends -/

/-- An operation inside a command: it goes on, it raises (rule R15), or it would leave its buffers. -/
inductive Ctl where
  | ok (s : State)
  | raised (k : ErrKind) (info : Info) (s : State)
  | fault (f : Fault)
  deriving DecidableEq, Repr

/-- The container-level kinds, after which no KIP register holds a value (rule R210). -/
def ErrKind.isContainer : ErrKind → Bool
  | .invalidMagic => true
  | .truncated => true
  | .ok => false
  | .malformedFooter => false
  | .outOfBounds => false
  | .sizeMismatch => false

/-- `MalformedInput` (rule R241): the union of `MalformedFooter` and `OutOfBounds`. -/
def ErrKind.isMalformedInput : ErrKind → Bool
  | .malformedFooter => true
  | .outOfBounds => true
  | .ok => false
  | .invalidMagic => false
  | .truncated => false
  | .sizeMismatch => false

/-- The ordinal of an error kind (rule R110: it carries no meaning). -/
def ErrKind.ordinal : ErrKind → Nat
  | .ok => 0
  | .invalidMagic => 1
  | .truncated => 2
  | .malformedFooter => 3
  | .outOfBounds => 4
  | .sizeMismatch => 5

/-- A raise sends DEC to `FAULT` (rules R27, R179). -/
def decFault (d : DecRegs) : DecRegs := { d with run := .fault }

/-- DEC is at work: its token loop runs, or the command is one of the two decompress commands, whose every raise,
FTR's and the capacity test's among them, leaves `FAULT` (rules R27, R179, R245; the reading of rule R245's "was
running" is log 30). -/
def decActive (s : State) : Bool :=
  decide (s.dec.run = .run ∨ s.cmd.op = .blzDecompressS ∨ s.cmd.op = .blzDecompressP)

/-- TAKING AN ERROR, the engine's one exception (rule R245): `STATUS.err` and `STATUS.info` are written, a
DEC at work goes to `FAULT`, the command ends.  What then holds no value (rule R246): `OUT` and the other
`STATUS` fields; `M` in the decoded region when an in-place token loop was running (rule R186); every KIP
register after a container-level kind (rule R210).  Nothing is saved and control goes nowhere. -/
def takeRaise (k : ErrKind) (info : Info) (s : State) : State :=
  { s with
    status := { freeStatus s.free k with info := info }
    dec := if decActive s then decFault s.dec else s.dec
    kip := if k.isContainer then freeKip s.free else s.kip
    mem :=
      { s.mem with
        out := Buffer.ofBytes (Config.freeBytes s.free 0)
        m := if s.dec.run = .run ∧ s.cmd.op = .blzDecompressP
             then s.mem.m.forget s.free s.dec.base s.dec.outLen else s.mem.m }
    seq := .idle
    free := s.free + 1 }

/-- The outcome of an operation issued by the caller: a raise is taken (rule R245). -/
def Ctl.outcome : Ctl → Host.Outcome State Fault Refusal
  | .ok s => .next s
  | .raised k info s => .next (takeRaise k info s)
  | .fault f => .fault f

/-- Go on with `f` where the operation went on. -/
def Ctl.andThen (c : Ctl) (f : State → Ctl) : Ctl :=
  match c with
  | .ok s => f s
  | .raised k info s => .raised k info s
  | .fault r => .fault r

/-- Append bytes to `OUT` (rules R138, R139, R222: the output is written once, front to back).  The length is not
tested against `MAX_LEN`: the commands test their whole output, an item written by itself does not (log 33). -/
def appendOut (l : Bytes) (s : State) : State := s.withOut (s.mem.out.append l)

/-- The sequencer is writing a structure, not reading one. -/
def emitting (s : State) : Bool :=
  match s.seq with
  | .emit _ => true
  | .load _ => false
  | .loadPad _ => false
  | .idle => false
  | .command => false
  | .token => false

/-- A structural item: written to `OUT` while the sequencer emits, else read by its unit; `MAX_LEN` is tested in
neither direction (log 33). -/
def emitOr (i : Instr) (load : State → Ctl) (s : State) : Host.Outcome State Fault Refusal :=
  if emitting s then .next (appendOut (encode i) s) else (load s).outcome

/-! ### What the caller does between commands (rules R282, R297, R322) -/

/-- Hand over the input buffer. -/
def giveInput (l : Bytes) (s : State) : State := s.withInp (Buffer.ofBytes l)

/-- Hand over the in-place buffer with the block's length and the capacity told. -/
def giveInPlace (l : Bytes) (n cap : Nat) (s : State) : State :=
  (s.withM (Buffer.ofBytes l)).withCmd { s.cmd with n := n, cap := cap }

/-- Set `CMD.best`. -/
def setBest (b : Bool) (s : State) : State := s.withCmd { s.cmd with best := b }

/-- Write `CMD.op`, last, which starts the command (rule R282). -/
def issue (op : Op) (s : State) : State := (s.withCmd { s.cmd with op := op }).withSeq .command

end Sys2Proof.Machine
end

