-- ==== Sys2Proof/Machine/Flags.lean ====
section
/-! DEFINITION. The flags (rule R34): the flag bits of `DEC.ctrl`, the flag bit ENC sets in a control byte, the
three compression bits of `KIP.flags`.  There are no arithmetic condition codes. -/

namespace Sys2Proof.Machine

/-- The flag of the next item: bit 7 of `DEC.ctrl` (rules R26, R170). -/
def nextFlag (s : State) : Bool := s.dec.ctrl.getLsbD 7

/-- Consume one flag (rules R26, R170): `DEC.ctrl <- (DEC.ctrl * 2) mod 256`, `DEC.k <- DEC.k - 1`. -/
def consumeFlag (s : State) : State :=
  s.withDec { s.dec with ctrl := BitVec.ofNat 8 (s.dec.ctrl.toNat * 2), k := s.dec.k - 1 }

/-- The flag bit of item `cnt` of a group: `0x80 >> cnt` (rule R129). -/
def groupFlag (cnt : Nat) : Byte := 0x80#8 >>> cnt

/-- Bit `i` of `KIP.flags` (rule R32). -/
def segFlag (flags : Byte) (i : Nat) : Bool := flags.getLsbD i

/-- Segment `i` is dispatched to DEC: `i < 3` and its bit is set (rules R32, R204). -/
def segCompressed (flags : Byte) (i : Nat) : Bool :=
  decide (i < Config.nCompressible) && segFlag flags i

/-- `KIP.flags` with bits 2..0 replaced and bits 7..3 kept (rules R211, R215). -/
def rewriteFlags (flags : Byte) (bits : Nat) : Byte :=
  BitVec.ofNat 8 (flags.toNat - flags.toNat % 8 + bits)

end Sys2Proof.Machine
end

