-- ==== Sys2Proof/Machine/Operands.lean ====
section
/-! DEFINITION. Every form of address the engine computes (rules R318 to R321) and the operand of a `REF`
(rule R85). -/

namespace Sys2Proof.Machine

/-- The least multiple of 4 that is `≥ x` (rule R12). -/
def align4 (x : Nat) : Nat := (x + 3) / 4 * 4

/-! ### `REF` (rule R85) -/

/-- The encoded length, 3..18. -/
def refLen (len4 : BitVec 4) : Nat := len4.toNat + 3

/-- The offset, 3..4098. -/
def refOff (off12 : BitVec 12) : Nat := off12.toNat + 3

/-! ### The block (rule R51) -/

/-- The buffer that holds the block: `M` for `BLZ.DECOMPRESS.P`, else `IN`. -/
def blockBuf (s : State) : Buffer :=
  if s.cmd.op = .blzDecompressP then s.mem.m else s.mem.inp

/-- The length `n` of the block. -/
def blockLen (s : State) : Nat :=
  if s.cmd.op = .blzDecompressP then s.cmd.n else s.mem.inp.len

/-! ### `O`, DEC's working buffer (rules R52, R180, R183, R318) -/

/-- The name of the buffer `O` is a window of. -/
def oName (s : State) : BufName := if s.cmd.op = .blzDecompressP then .m else .out

/-- The buffer `O` is a window of. -/
def oBuf (s : State) : Buffer := s.mem.buf (oName s)

/-- `O[k]`: byte `DEC.base + k` of the buffer. -/
def oGet (s : State) (k : Nat) : Option Byte := (oBuf s).get (s.dec.base + k)

/-- `O[k] <- b`. -/
def oSet (s : State) (k : Nat) (b : Byte) : Option State :=
  match (oBuf s).set (s.dec.base + k) b with
  | none => none
  | some x => some (if s.cmd.op = .blzDecompressP then s.withM x else s.withOut x)

/-! ### Error contexts (rule R178) -/

/-- The context of a token fetch that would take `DEC.r` below 0. -/
def fetchInfo (s : State) (need : Nat) : Info := ⟨s.dec.base + s.dec.r, need, s.dec.r⟩

/-- The context of a copy source at or beyond `DEC.out_len`. -/
def sourceInfo (s : State) : Info :=
  ⟨s.dec.base + s.dec.w + s.dec.off, s.dec.base + s.dec.outLen, s.dec.base + s.dec.w + s.dec.off⟩

/-! ### Positions of structural items -/

/-- `header_len` as the footer of the block holds it, which delimits the padding (rules R63, R93, R114). -/
def blockHdrLen (s : State) : Nat := (blockBuf s).read (blockLen s - 8) 4

/-- The offset of an item in the structure it belongs to: footer words and the terminator from the end of a
block of length `n` (rules R91, R96, R319), header fields from the start of the file (rules R29 to R31,
R321); of the padding `[n - header_len, n - 12)` the first byte (rules R63, R114; log 29).  `none`: the item is
no structural item, or the block has none. -/
def itemOffset (p : Slot) (n hdr : Nat) : Option Nat :=
  match p with
  | .pad => if 12 < hdr ∧ hdr ≤ n then some (n - hdr) else none
  | .footerTotal => if 12 ≤ n then some (n - 12) else none
  | .footerHdr => if 12 ≤ n then some (n - 8) else none
  | .footerExtra => if 12 ≤ n then some (n - 4) else none
  | .storedTerm => if 4 ≤ n then some (n - 4) else none
  | .kipMagic => some 0x00
  | .kipName => some 0x04
  | .kipTitleId => some 0x10
  | .kipProcessCategory => some 0x18
  | .kipThreadPriority => some 0x1C
  | .kipDefaultCpuId => some 0x1D
  | .kipReserved => some 0x1E
  | .kipFlags => some 0x1F
  | .kipSeg i => some (0x20 + 16 * i.val)
  | .kipCap j => some (0x80 + 4 * j.val)
  | .ctrl => none
  | .lit => none
  | .ref => none
  | .command => none

/-- Offset `a` of the block lies in its padding `[n - header_len, n - 12)` (rules R63, R114). -/
def inPadding (a : Nat) (s : State) : Bool :=
  decide (blockHdrLen s ≤ blockLen s ∧ blockLen s ≤ a + blockHdrLen s ∧ a + 12 < blockLen s)

end Sys2Proof.Machine
end

