-- ==== Sys2Proof/Machine/Tokens.lean ====
section
/-! DEFINITION. The three tokens DEC executes: `CTRL`, `LIT`, `REF` (rules R170 to R178). -/

namespace Sys2Proof.Machine

/-- `CTRL` with the control byte fetched (rule R171). -/
def decCtrl (flags : Byte) (s : State) : Ctl :=
  if s.dec.r < 1 then .raised .outOfBounds (fetchInfo s 1) s
  else .ok (s.withDec { s.dec with r := s.dec.r - 1, ctrl := flags, k := Config.group })

/-- `LIT` with the byte fetched (rule R172). -/
def decLit (b : Byte) (s : State) : Ctl :=
  if s.dec.r < 1 then .raised .outOfBounds (fetchInfo s 1) s
  else if s.dec.w < 1 then .fault .cursorBelowZero
  else
    let s1 := s.withDec { s.dec with r := s.dec.r - 1, w := s.dec.w - 1 }
    match oSet s1 s1.dec.w b with
    | none => .fault .outsideBuffer
    | some s2 => .ok s2

/-- The copy of a `REF` (rules R70, R173, R174): byte by byte, highest address first, each byte written
before the next is read; the source is tested before it is read (rule R176 d). -/
def copyBack : Nat → State → Ctl
  | 0, s => .ok s
  | n + 1, s =>
    let s1 := s.withDec { s.dec with w := s.dec.w - 1 }
    if s1.dec.outLen ≤ s1.dec.w + s1.dec.off then .raised .outOfBounds (sourceInfo s1) s1
    else match oGet s1 (s1.dec.w + s1.dec.off) with
      | none => .fault .outsideBuffer
      | some b =>
        match oSet s1 s1.dec.w b with
        | none => .fault .outsideBuffer
        | some s2 => copyBack n s2

/-- `REF` with its two bytes fetched (rules R85, R173, R175): the length is capped to `DEC.w`. -/
def decRef (len4 : BitVec 4) (off12 : BitVec 12) (s : State) : Ctl :=
  if s.dec.r < 2 then .raised .outOfBounds (fetchInfo s 2) s
  else
    let len := min (refLen len4) s.dec.w
    copyBack len (s.withDec { s.dec with r := s.dec.r - 2, len := len, off := refOff off12 })

/-- `CTRL` (rule R171). -/
def execCtrl (flags : Byte) (s : State) : Host.Outcome State Fault Refusal := (decCtrl flags s).outcome

/-- `LIT` (rule R172). -/
def execLit (b : Byte) (s : State) : Host.Outcome State Fault Refusal := (decLit b s).outcome

/-- `REF` (rule R173). -/
def execRef (len4 : BitVec 4) (off12 : BitVec 12) (s : State) : Host.Outcome State Fault Refusal :=
  (decRef len4 off12 s).outcome

/-! ### Fetch and dispatch of a token -/

/-- What a fetch finds. -/
inductive Fetch where
  /-- no command is running -/
  | nothing
  /-- the token loop is over (rule R169) -/
  | finish
  /-- the next instruction, and the state in which it is executed -/
  | got (i : Instr) (s : State)
  /-- the fetch itself raises -/
  | raises (k : ErrKind) (info : Info) (s : State)
  /-- the bytes are outside the buffer -/
  | outside
  /-- the decoder refuses the bytes -/
  | undecodable
  deriving DecidableEq, Repr

/-- The position of the next token (rules R80, R114, R170). -/
def tokenSlot (s : State) : Slot :=
  if s.dec.k = 0 then .ctrl else if nextFlag s then .ref else .lit

/-- The state in which the next token is executed: an item's flag is consumed before its own fetch, a
`CTRL` consumes none (rule R170). -/
def tokenState (s : State) : State := if s.dec.k = 0 then s else consumeFlag s

/-- Fetch the next token: `DEC.r` is tested, then the bytes `O[DEC.r - L .. DEC.r)` are read and decoded
(rules R24, R80, R169, R176 a to c). -/
def fetchToken (s : State) : Fetch :=
  if s.dec.w = 0 then .finish
  else if s.dec.r < (tokenSlot s).size then
    .raises .outOfBounds (fetchInfo s (tokenSlot s).size) (tokenState s)
  else match (oBuf s).slice (s.dec.base + (s.dec.r - (tokenSlot s).size)) (tokenSlot s).size with
    | none => .outside
    | some bs =>
      match decode (tokenSlot s) bs with
      | .ok (i, _) => .got i (tokenState s)
      | .error _ => .undecodable

/-- Execute a fetched token inside a command. -/
def runToken (i : Instr) (s : State) : Ctl :=
  match i with
  | .ctrl f => decCtrl f s
  | .lit b => decLit b s
  | .ref l o => decRef l o s
  | .pad _ => .fault .notAToken
  | .footerTotal _ => .fault .notAToken
  | .footerHdr _ => .fault .notAToken
  | .footerExtra _ => .fault .notAToken
  | .storedTerm => .fault .notAToken
  | .kipMagic _ => .fault .notAToken
  | .kipName _ => .fault .notAToken
  | .kipTitleId _ => .fault .notAToken
  | .kipProcessCategory _ => .fault .notAToken
  | .kipThreadPriority _ => .fault .notAToken
  | .kipDefaultCpuId _ => .fault .notAToken
  | .kipReserved _ => .fault .notAToken
  | .kipFlags _ => .fault .notAToken
  | .kipSeg _ _ => .fault .notAToken
  | .kipCap _ _ => .fault .notAToken
  | .blzCompress => .fault .notAToken
  | .blzFooter => .fault .notAToken
  | .blzDecompressS => .fault .notAToken
  | .blzDecompressP => .fault .notAToken
  | .kipParse => .fault .notAToken
  | .kipBuild => .fault .notAToken
  | .kipSerialize => .fault .notAToken

end Sys2Proof.Machine
end

