-- ==== Sys2Proof/Machine/Footer.lean ====
section
/-! DEFINITION. FTR, the footer decoder (rules R150 to R162): the three footer words, the tests, and
`BLZ.FOOTER`.  The structural items `PAD` and `STORED.TERM` (rules R93, R96). -/

namespace Sys2Proof.Machine

/-- `FTR.total_size <- v` (rule R151). -/
def loadTotal (v : W32) (s : State) : State := s.withFtr { s.ftr with totalSize := v }

/-- `FTR.header_len <- v` (rule R151). -/
def loadHeaderLen (v : W32) (s : State) : State := s.withFtr { s.ftr with headerLen := v }

/-- `FTR.extra_size <- v` (rule R151). -/
def loadExtra (v : W32) (s : State) : State := s.withFtr { s.ftr with extraSize := v }

/-- FTR refuses the footer: the derived registers hold no value (rule R158). -/
def footerRaise (info : Info) (s : State) : Ctl :=
  .raised .malformedFooter info (s.withFtr (forgetDerived s.free s.ftr))

/-- FTR ends with `STATUS.err = OK`: the derived registers and both degenerate flags (rules R153, R156). -/
def footerDone (degenerate : Bool) (prefixLen readStart outLen : Nat) (s : State) : State :=
  (s.withFtr { s.ftr with prefixLen := prefixLen, readStart := readStart, outLen := outLen
                          degenerate := degenerate }).withStatus
    { s.status with err := .ok, degenerate := degenerate }

/-- `FTR.degenerate <- 0`, `STATUS.degenerate <- 0` (rule R153). -/
def footerProper (s : State) : State :=
  (s.withFtr { s.ftr with degenerate := false }).withStatus { s.status with degenerate := false }

/-- The tests once the three words are loaded, in the order of rule R158: degenerate (R153), `total_size`
(R154), `header_len` (R155), `MAX_LEN` (R157); then the derived registers (R156).  Sums are of natural
numbers (rule R312).  A degenerate block whose own length reaches `MAX_LEN` is outside what rule R10 lets an operand
be and is refused in FTR as list U14 says, before rule R153 writes anything (rule R50; log 21). -/
def footerTests (s : State) : Ctl :=
  let n := blockLen s
  let total := s.ftr.totalSize.toNat
  let hdr := s.ftr.headerLen.toNat
  let extra := s.ftr.extraSize.toNat
  if total + extra = 0 then
    if belowMax s n then .ok (footerDone true 0 0 0 s)
    else footerRaise ⟨n - 4, s.cmd.maxLen.getD 0, n⟩ s
  else if n < total then footerRaise ⟨n - 12, n, total⟩ (footerProper s)
  else if hdr < Config.footerLen ∨ total < hdr ∨ s.cmd.hdrMax < hdr then
    footerRaise ⟨n - 8, Config.footerLen, hdr⟩ (footerProper s)
  else if belowMax s (n + extra) then
    .ok (footerDone false (n - total) (total - hdr) (total + extra) s)
  else footerRaise ⟨n - 4, s.cmd.maxLen.getD 0, n + extra⟩ (footerProper s)

/-- FTR (rule R151): the length check, the three loads, the tests. -/
def footer (s : State) : Ctl :=
  let n := blockLen s
  let b := blockBuf s
  if n < Config.footerLen then .raised .malformedFooter ⟨0, Config.footerLen, n⟩ s
  else
    footerTests (loadExtra (BitVec.ofNat 32 (b.read (n - 4) 4))
      (loadHeaderLen (BitVec.ofNat 32 (b.read (n - 8) 4))
        (loadTotal (BitVec.ofNat 32 (b.read (n - 12) 4)) s)))

/-- `PAD` (rule R93): DEC and FTR never read it and accept any value, so reading past it changes nothing;
ENC writes it.  Where a pad byte that is read stands is `itemOffset` and `inPadding` (log 29). -/
def execPad (b : Byte) (s : State) : Host.Outcome State Fault Refusal := emitOr (.pad b) .ok s

/-- `FOOTER.TOTAL` (rules R139, R151). -/
def execFooterTotal (v : W32) (s : State) : Host.Outcome State Fault Refusal :=
  emitOr (.footerTotal v) (fun s => .ok (loadTotal v s)) s

/-- `FOOTER.HDR` (rules R139, R151). -/
def execFooterHdr (v : W32) (s : State) : Host.Outcome State Fault Refusal :=
  emitOr (.footerHdr v) (fun s => .ok (loadHeaderLen v s)) s

/-- `FOOTER.EXTRA` (rules R139, R151): the last of the three loads, after which FTR makes its tests. -/
def execFooterExtra (v : W32) (s : State) : Host.Outcome State Fault Refusal :=
  emitOr (.footerExtra v) (fun s => footerTests (loadExtra v s)) s

/-- `STORED.TERM` (rules R96, R138): ENC writes it; no unit reads it (rule R97), so reading past it changes
nothing. -/
def execStoredTerm (s : State) : Host.Outcome State Fault Refusal := emitOr .storedTerm .ok s

/-- `BLZ.FOOTER` (rule R150). -/
def execBlzFooter (s : State) : Host.Outcome State Fault Refusal :=
  (footer (startCommand .blzFooter s)).outcome

end Sys2Proof.Machine
end

