-- ==== Sys2Proof/Machine/Decoder.lean ====
section
/-! DEFINITION. DEC, the backward-scanning decoder (rules R165 to R195): initialisation, token loop, result;
`BLZ.DECOMPRESS.S` and `BLZ.DECOMPRESS.P`. -/

namespace Sys2Proof.Machine

/-- The result of a degenerate footer (rule R167): the empty sequence; in place, `M` is left as it was. -/
def degenerateDone (s : State) : State :=
  let s1 := (s.withDec { s.dec with run := .done }).withStatus
    { s.status with err := .ok, degenerate := true, outLen := 0 }
  if s.cmd.op = .blzDecompressP then s1 else s1.withOut ⟨0, []⟩

/-- The output buffer of strict mode (rule R180): `n + extra_size` bytes, the block at its start, then
zeros.  In place nothing is allocated (rule R183). -/
def allocate (s : State) : State :=
  if s.cmd.op = .blzDecompressP then s
  else s.withOut ⟨blockLen s + s.ftr.extraSize.toNat, s.mem.inp.cells⟩

/-- DEC's initialisation (rule R168). -/
def startDecode (s : State) : State :=
  ((allocate s).withDec
    { s.dec with base := s.ftr.prefixLen, outLen := s.ftr.outLen, r := s.ftr.readStart
                 w := s.ftr.outLen, k := 0, run := .run }).withSeq .token

/-- The token loop has ended with `DEC.w = 0` (rules R169, R179). -/
def endDecode (s : State) : State :=
  ((s.withDec { s.dec with run := .done }).withStatus
    { s.status with err := .ok, degenerate := false, outLen := s.dec.base + s.dec.outLen }).withSeq .idle

/-- One turn of the token loop: the next token is fetched, decoded and executed. -/
def decodeToken (s : State) : Ctl :=
  match fetchToken s with
  | .got i s1 => runToken i s1
  | .raises k info s1 => .raised k info s1
  | .finish => .ok s
  | .nothing => .ok s
  | .outside => .fault .outsideBuffer
  | .undecodable => .fault .notAToken

/-- The token loop (rules R166, R169).  Every token lowers `DEC.r` (rule R24), so `DEC.r` turns suffice; at
`DEC.r = 0` a further token raises (rule R176). -/
def tokenLoop : Nat → State → Ctl
  | 0, s => if s.dec.w = 0 then .ok s else decodeToken s
  | n + 1, s => if s.dec.w = 0 then .ok s else (decodeToken s).andThen (tokenLoop n)

/-- The capacity test of permissive mode (rule R184). -/
def capacityTest (s : State) : Ctl :=
  let need := blockLen s + s.ftr.extraSize.toNat
  if s.cmd.op = .blzDecompressP ∧ s.cmd.cap < need then
    .raised .malformedFooter ⟨blockLen s - 4, s.cmd.cap, need⟩ s
  else .ok s

/-- Everything after FTR: the degenerate result, or initialisation, token loop and result. -/
def decodeBody (s : State) : Ctl :=
  if s.ftr.degenerate then .ok (degenerateDone s)
  else (tokenLoop s.ftr.readStart (startDecode s)).andThen fun t => .ok (endDecode t)

/-- DEC on the block of the state (rules R165, R166, R183). -/
def decodeBlock (s : State) : Ctl :=
  (footer s).andThen fun t => (capacityTest t).andThen decodeBody

/-- `BLZ.DECOMPRESS.S`, strict mode (rule R180). -/
def execBlzDecompressS (s : State) : Host.Outcome State Fault Refusal :=
  (decodeBlock (startCommand .blzDecompressS s)).outcome

/-- `BLZ.DECOMPRESS.P`, permissive mode (rule R183).  Refused: `n > cap`, a `cap` above the real buffer (U10),
a `cap` that reaches `MAX_LEN` (U14). -/
def execBlzDecompressP (s : State) : Host.Outcome State Fault Refusal :=
  if s.cmd.cap < s.cmd.n ∨ s.mem.m.len < s.cmd.cap then .refused .capacityOperand
  else if belowMax s s.cmd.cap then (decodeBlock (startCommand .blzDecompressP s)).outcome
  else .refused .lengthLimit

end Sys2Proof.Machine
end

