-- ==== Sys2Proof/Machine/Encoder.lean ====
section
/-! DEFINITION. ENC, the greedy lookahead match encoder (rules R120 to R146) and `BLZ.COMPRESS`. -/

namespace Sys2Proof.Machine

/-- What ENC reads: the reversed view (rule R53) and the operands; `epoch` draws the values of `ENC.P` when
there is no match. -/
structure EncInput where
  rev : Bytes
  best : Bool
  overlap : Bool
  epoch : Nat
  deriving DecidableEq, Repr

/-- How many leading bytes two sequences share, at most `limit`. -/
def matchLen : Nat → Bytes → Bytes → Nat
  | 0, _, _ => 0
  | _ + 1, [], _ => 0
  | _ + 1, _ :: _, [] => 0
  | l + 1, a :: x, b :: y => if a = b then matchLen l x y + 1 else 0

/-- The longest match `SEARCH` looks for at an offset: 18, or the offset when `MATCH_OVERLAP` is forbidden
(rule R125 d). -/
def matchLimit (overlap : Bool) (pos : Nat) : Nat :=
  if overlap then Config.maxMatch else min Config.maxMatch pos

/-- The loop of `SEARCH` over `count` offsets from `pos` upward; a later offset wins only if strictly
longer, and length 18 ends it (rules R123, R124). -/
def searchFrom (x : EncInput) (i : Nat) : Nat → Nat → Nat × Nat → Nat × Nat
  | 0, _, best => best
  | count + 1, pos, best =>
    let len := matchLen (matchLimit x.overlap pos) (x.rev.drop i) (x.rev.drop (i - pos))
    let best1 := if best.1 < len then (len, pos) else best
    if best1.1 = Config.maxMatch then best1 else searchFrom x i count (pos + 1) best1

/-- `SEARCH(i)` (rule R123): the pair `(L, P)`; `L = 2` means no match, and `P` is then 0, which no rule
reads.  Offsets run from 3 to `min(i, 4098)` (rule R125 a, c). -/
def search (x : EncInput) (i : Nat) : Nat × Nat :=
  searchFrom x i (min i Config.windowMax + 1 - Config.minOffset) Config.minOffset (2, 0)

/-- A search that found no match counts as length 1 in the lookahead test (rule R127). -/
def lookLen (l : Nat) : Nat := if l ≤ 2 then 1 else l

/-- Open a group when none is open (rule R128). -/
def openGroup (e : EncRegs) : EncRegs :=
  if e.cnt = 0 then { e with flg := e.stream.length, stream := e.stream ++ [0x00#8] } else e

/-- `SEARCH` and `LOOKAHEAD` at `ENC.i` (rules R123, R126, R127): `ENC.L`, `ENC.P` and, when the lookahead
runs, `ENC.Ln`, `ENC.Lp`.  `ENC.P` holds no value when `ENC.L ≤ 2` (rule R28). -/
def choose (x : EncInput) (e : EncRegs) : EncRegs :=
  let found := search x e.i
  let noOff := 3 + Config.freeNat x.epoch (1000 + e.i) % 4096
  let e1 := { e with bestLen := found.1, bestOff := if 2 < found.1 then found.2 else noOff }
  if x.best ∧ 2 < found.1 ∧ e.i + found.1 < e.n then
    let next := lookLen (search x (e.i + found.1)).1
    let post := lookLen (search x (e.i + 1)).1
    if found.1 + next ≤ 1 + post then
      { e1 with bestLen := 1, bestOff := noOff, nextLen := next, postLen := post }
    else { e1 with nextLen := next, postLen := post }
  else e1

/-- The two bytes of a `REF` in the order `S` takes them: `v[15:8]`, then `v[7:0]` (rules R86, R129). -/
def refStream (len off : Nat) : Bytes :=
  [BitVec.ofNat 8 ((len - 3) * 16 + (off - 3) / 256), BitVec.ofNat 8 ((off - 3) % 256)]

/-- Emit the chosen item (rule R129). -/
def emitItem (x : EncInput) (e : EncRegs) : EncRegs :=
  if 2 < e.bestLen then
    { e with stream := (e.stream.modify e.flg fun c => c + groupFlag e.cnt)
                         ++ refStream e.bestLen e.bestOff
             i := e.i + e.bestLen, cnt := (e.cnt + 1) % Config.group }
  else
    { e with stream := e.stream ++ (x.rev.drop e.i).take 1, i := e.i + 1
             cnt := (e.cnt + 1) % Config.group }

/-- Track the best truncation point: a strictly smaller sum replaces it (rule R132). -/
def track (e : EncRegs) : EncRegs :=
  if e.stream.length + (e.n - e.i) < e.pakBest + e.rawBest then
    { e with pakBest := e.stream.length, rawBest := e.n - e.i }
  else e

/-- One item of the scan (rule R122). -/
def encodeItem (x : EncInput) (e : EncRegs) : EncRegs :=
  track (emitItem x (choose x (openGroup e)))

/-- The scan (rule R122).  Every item raises `ENC.i` by at least 1 (rule R131), so `n` turns suffice. -/
def scan (x : EncInput) : Nat → EncRegs → EncRegs
  | 0, e => e
  | fuel + 1, e => if e.i < e.n then scan x fuel (encodeItem x e) else e

/-- ENC's initialisation (rule R121). -/
def startEncode (raw : Bytes) (e : EncRegs) : EncRegs :=
  { e with n := raw.length, i := 0, cnt := 0, pakBest := 0, rawBest := raw.length, stream := [] }

/-- The padding of the compressed form (rules R92, R135). -/
def padOf (e : EncRegs) : Nat := align4 (e.rawBest + e.pakBest) - (e.rawBest + e.pakBest)

/-- The length `C` of the compressed form (rule R135). -/
def compressedLen (e : EncRegs) : Nat := e.rawBest + e.pakBest + padOf e + Config.footerLen

/-- The choice of form (rule R135). -/
def chooseForm (e : EncRegs) : Form :=
  if e.pakBest = 0 ∨ e.n < compressedLen e then .stored else .compressed

/-- The stored form (rules R96, R138). -/
def storedBlock (raw : Bytes) : Bytes :=
  raw ++ List.replicate (align4 raw.length - raw.length) Config.storedPadByte ++ encode .storedTerm

/-- The footer ENC writes (rules R91, R139). -/
def encFooter (e : EncRegs) : List Instr :=
  footerItems (padOf e) (BitVec.ofNat 32 (e.pakBest + Config.footerLen + padOf e))
    (BitVec.ofNat 32 (Config.footerLen + padOf e)) (BitVec.ofNat 32 (e.n - compressedLen e))

/-- `FOOTER.EXTRA` written as an item of its own, from ENC's registers: `n - C` where `C ≤ n` (rule R139).  Rule R135
has then not tested `C ≤ n`, and rule R311 subtracts only after that test, so otherwise the value is free (log 31). -/
def extraSize (epoch : Nat) (e : EncRegs) : W32 :=
  if compressedLen e ≤ e.n then BitVec.ofNat 32 (e.n - compressedLen e) else Config.freeWord 32 epoch 48

/-- The compressed form (rules R92, R134, R139): raw bytes not consumed at the best point, the stream up to
it un-reversed, padding, footer. -/
def compressedBlock (raw : Bytes) (e : EncRegs) : Bytes :=
  raw.take e.rawBest ++ (e.stream.take e.pakBest).reverse ++ (encFooter e).flatMap encode

/-- The block of a finished scan (rules R135 to R139). -/
def finishEncode (raw : Bytes) (e : EncRegs) : Bytes :=
  match chooseForm e with
  | .stored => storedBlock raw
  | .compressed => compressedBlock raw e

/-- ENC's registers at the end of the scan of `raw`.  ENC starts afresh: a register this run does not write holds no value,
nor that of an earlier run inside the same `KIP.BUILD` (rules R38, R294; log 15). -/
def encodeRegs (raw : Bytes) (best : Bool) (s : State) : EncRegs :=
  scan { rev := raw.reverse, best := best, overlap := s.cmd.matchOverlap, epoch := s.free }
    raw.length (startEncode raw (freeEnc s.free))

/-- ENC has ended: `S` does not survive (rule R53; log 32). -/
def endEncode (epoch : Nat) (e : EncRegs) : EncRegs := { e with stream := Config.freeBytes epoch 42 }

/-- Every length and index of a run of ENC is below `MAX_LEN` (rules R10, R50, U14): the input's, the block's, and that
of `S`, which only grows and bounds `ENC.flg`, its index (rule R53; log 28). -/
def encodeFits (raw : Bytes) (best : Bool) (s : State) : Bool :=
  let e := encodeRegs raw best s
  belowMax s raw.length && belowMax s e.stream.length && belowMax s (finishEncode raw e).length

/-- ENC on `raw`: the block, and the state with the ENC registers, `STATUS.form` and `STATUS.out_len`
(rules R120, R137).  `none`: a length reaches `MAX_LEN`. -/
def compressInto (raw : Bytes) (best : Bool) (s : State) : Option (Bytes × State) :=
  let e := encodeRegs raw best s
  let block := finishEncode raw e
  if encodeFits raw best s then
    some (block, { s with enc := endEncode s.free e, free := s.free + 1
                          status := { s.status with form := chooseForm e, outLen := block.length } })
  else none

/-- `BLZ.COMPRESS` (rule R120): it never raises (rule R143).  Refused only when the input, `S` or the block reaches
`MAX_LEN` (U14; log 28). -/
def execBlzCompress (s : State) : Host.Outcome State Fault Refusal :=
  match compressInto s.mem.inp.toBytes s.cmd.best (startCommand .blzCompress s) with
  | none => .refused .lengthLimit
  | some (block, t) => .next ((t.withOut (Buffer.ofBytes block)).withStatus { t.status with err := .ok })

end Sys2Proof.Machine
end

