-- ==== Sys2Proof/Machine/Header.lean ====
section
/-! DEFINITION. The fields of the KIP1 header, one meaning each: read, a field loads its register (rules R29,
R202); written, it goes to `OUT` (rule R222). -/

namespace Sys2Proof.Machine

/-- Update the header image. -/
def loadHdr (f : KipHeader → KipHeader) (s : State) : Ctl := .ok (s.withHdr (f s.kip.hdr))

/-- The context of `InvalidMagic` (rule R240): only `offset` is set. -/
def magicInfo (s : State) : Info := ⟨0, Config.freeNat s.free 2, Config.freeNat s.free 3⟩

/-- `KIP.MAGIC`: compared with `KIP_MAGIC` (rules R101, R201), then loaded; always written as the constant
(rule R222). -/
def execKipMagic (w : W32) (s : State) : Host.Outcome State Fault Refusal :=
  emitOr (.kipMagic w) (fun s =>
    if w = Config.kipMagic then loadHdr (fun h => { h with magic := w }) s
    else .raised .invalidMagic (magicInfo s) s) s

/-- `KIP.NAME` (rules R29, R202, R222): transported. -/
def execKipName (v : BitVec 96) (s : State) : Host.Outcome State Fault Refusal :=
  emitOr (.kipName v) (loadHdr fun h => { h with name := v }) s

/-- `KIP.TITLE_ID` (rules R29, R202, R222): transported. -/
def execKipTitleId (v : BitVec 64) (s : State) : Host.Outcome State Fault Refusal :=
  emitOr (.kipTitleId v) (loadHdr fun h => { h with titleId := v }) s

/-- `KIP.PROCESS_CATEGORY` (rules R29, R202, R222): transported. -/
def execKipProcessCategory (v : W32) (s : State) : Host.Outcome State Fault Refusal :=
  emitOr (.kipProcessCategory v) (loadHdr fun h => { h with processCategory := v }) s

/-- `KIP.THREAD_PRIORITY` (rules R29, R202, R222): transported. -/
def execKipThreadPriority (v : Byte) (s : State) : Host.Outcome State Fault Refusal :=
  emitOr (.kipThreadPriority v) (loadHdr fun h => { h with threadPriority := v }) s

/-- `KIP.DEFAULT_CPU_ID` (rules R29, R202, R222): transported. -/
def execKipDefaultCpuId (v : Byte) (s : State) : Host.Outcome State Fault Refusal :=
  emitOr (.kipDefaultCpuId v) (loadHdr fun h => { h with defaultCpuId := v }) s

/-- `KIP.RESERVED` (rules R104, R202, R222): any value, transported. -/
def execKipReserved (v : Byte) (s : State) : Host.Outcome State Fault Refusal :=
  emitOr (.kipReserved v) (loadHdr fun h => { h with reserved := v }) s

/-- `KIP.FLAGS` (rules R32, R202, R222): loaded; `KIP.PARSE` dispatches on bits 2..0 (rule R204). -/
def execKipFlags (v : Byte) (s : State) : Host.Outcome State Fault Refusal :=
  emitOr (.kipFlags v) (loadHdr fun h => { h with flags := v }) s

/-- `KIP.SEG` (rules R30, R202, R222): descriptor `i`; its `compressed_size` drives the extents
(rule R203). -/
def execKipSeg (i : Fin 6) (d : SegDesc) (s : State) : Host.Outcome State Fault Refusal :=
  emitOr (.kipSeg i d) (loadHdr fun h => { h with seg := h.seg.set i d }) s

/-- `KIP.CAP` (rules R31, R202, R222): capability word `j`, transported. -/
def execKipCap (j : Fin 32) (v : W32) (s : State) : Host.Outcome State Fault Refusal :=
  emitOr (.kipCap j v) (loadHdr fun h => { h with cap := h.cap.set j v }) s

/-! ### The whole header -/

/-- The descriptor at header offset `b` (rules R30, R202). -/
def readSeg (f : Buffer) (b : Nat) : SegDesc where
  dstOffset := BitVec.ofNat 32 (f.read b 4)
  decompressedSize := BitVec.ofNat 32 (f.read (b + 4) 4)
  compressedSize := BitVec.ofNat 32 (f.read (b + 8) 4)
  attr := BitVec.ofNat 32 (f.read (b + 12) 4)

/-- The header image of a file (rule R202). -/
def readHeader (f : Buffer) : KipHeader where
  magic := BitVec.ofNat 32 (f.read 0x00 4)
  name := BitVec.ofNat 96 (f.read 0x04 12)
  titleId := BitVec.ofNat 64 (f.read 0x10 8)
  processCategory := BitVec.ofNat 32 (f.read 0x18 4)
  threadPriority := BitVec.ofNat 8 (f.read 0x1C 1)
  defaultCpuId := BitVec.ofNat 8 (f.read 0x1D 1)
  reserved := BitVec.ofNat 8 (f.read 0x1E 1)
  flags := BitVec.ofNat 8 (f.read 0x1F 1)
  seg := Vector.ofFn fun i : Fin 6 => readSeg f (0x20 + 16 * i.val)
  cap := Vector.ofFn fun j : Fin 32 => BitVec.ofNat 32 (f.read (0x80 + 4 * j.val) 4)

/-- The items of a header image, in the order of their offsets (rules R29, R222). -/
def headerItems (h : KipHeader) : List Instr :=
  [.kipMagic Config.kipMagic, .kipName h.name, .kipTitleId h.titleId
  , .kipProcessCategory h.processCategory, .kipThreadPriority h.threadPriority
  , .kipDefaultCpuId h.defaultCpuId, .kipReserved h.reserved, .kipFlags h.flags]
    ++ (List.finRange 6).map (fun i => .kipSeg i h.seg[i])
    ++ (List.finRange 32).map (fun j => .kipCap j h.cap[j])

/-- The 256 bytes of a header image (rule R222). -/
def headerBytes (h : KipHeader) : Bytes := (headerItems h).flatMap encode

end Sys2Proof.Machine
end

