-- ==== Sys2Proof/Machine/Container.lean ====
section
/-! DEFINITION. KIP, the container unit (rules R200 to R229): `KIP.PARSE`, `KIP.BUILD`, `KIP.SERIALIZE`. -/

namespace Sys2Proof.Machine

/-- The kind a decode raised, for `KIP.SEGSTAT` (rules R33, R206): a decode raises one of two (rule R189). -/
def decErrOf (k : ErrKind) : DecErr := if k = .malformedFooter then .malformedFooter else .outOfBounds

/-- Record a segment's data and status (rule R206). -/
def setSegment (i : Fin 6) (d : Option Bytes) (st : SegStat) (s : State) : State :=
  s.withKip { s.kip with data := s.kip.data.set i d, segstat := s.kip.segstat.set i st }

/-- Before `KIP.PARSE` runs the decoder on a segment: the segment is the block, FTR and DEC start afresh
(rule R205). -/
def enterDecode (stored : Bytes) (s : State) : State :=
  { s with ftr := freeFtr s.free, dec := freeDec s.free
           mem := { s.mem with inp := Buffer.ofBytes stored }, free := s.free + 1 }

/-- After it: `KIP.PARSE`'s own buffers are back (rule R51: it writes no buffer). -/
def leaveDecode (outer inner : State) : State :=
  { inner with mem := outer.mem, seq := outer.seq }

/-- The decoded bytes of a segment (rules R206, R207): `DECODED` when their number is
`decompressed_size`, else `SIZE_MISMATCH`, which is recorded and not raised. -/
def segDecoded (i : Fin 6) (outer inner : State) : State :=
  let d := inner.mem.out.toBytes
  setSegment i (some d)
    (if d.length = (outer.kip.hdr.seg[i]).decompressedSize.toNat then .decoded else .sizeMismatch)
    (leaveDecode outer inner)

/-- A raise of the inner decode is caught and recorded (rules R206, R208, R249): DEC has faulted, `STATUS` is not
written, the segment has no data. -/
def segFailed (i : Fin 6) (k : ErrKind) (outer inner : State) : State :=
  setSegment i none (.failed (decErrOf k)) (leaveDecode outer (inner.withDec (decFault inner.dec)))

/-- Decode segment `i` (rules R205 to R208, R249). -/
def decodeSegment (i : Fin 6) (stored : Bytes) (s : State) : Ctl :=
  match decodeBlock (enterDecode stored s) with
  | .ok t => .ok (segDecoded i s t)
  | .raised k _ t => .ok (segFailed i k s t)
  | .fault f => .fault f

/-- One segment of `KIP.PARSE` (rules R201, R203, R204). -/
def parseSegment (i : Fin 6) (s : State) : Ctl :=
  let csz := (s.kip.hdr.seg[i]).compressedSize.toNat
  let n := s.mem.inp.len
  if csz = 0 then .ok (setSegment i (some []) .absent s)
  else if n < s.kip.pos + csz then .raised .truncated ⟨s.kip.pos, csz, n - s.kip.pos⟩ s
  else
    let stored := cellsSlice s.mem.inp.cells s.kip.pos csz
    let s1 := s.withKip { s.kip with pos := s.kip.pos + csz }
    if segCompressed s.kip.hdr.flags i.val then decodeSegment i stored s1
    else .ok (setSegment i (some stored) .verbatim s1)

/-- The segments in index order (rule R203). -/
def parseSegments : List (Fin 6) → State → Ctl
  | [], s => .ok s
  | i :: t, s => (parseSegment i s).andThen (parseSegments t)

/-- The container-level checks and the header load (rules R201, R202, R210). -/
def parseHeader (s : State) : Ctl :=
  let f := s.mem.inp
  if f.len < 4 then .raised .truncated ⟨0, 4, f.len⟩ s
  else if BitVec.ofNat 32 (f.read 0 4) ≠ Config.kipMagic then .raised .invalidMagic (magicInfo s) s
  else if f.len < Config.kipHdrLen then .raised .truncated ⟨0, Config.kipHdrLen, f.len⟩ s
  else .ok (s.withKip { s.kip with hdr := readHeader f, pos := Config.kipHdrLen })

/-- The end of `KIP.PARSE` (rules R201, R209): the trailing data; `STATUS.err = OK`. -/
def parseDone (s : State) : State :=
  { s with
    kip := { s.kip with trailing := cellsSlice s.mem.inp.cells s.kip.pos (s.mem.inp.len - s.kip.pos) }
    status := freeStatus s.free .ok
    free := s.free + 1 }

/-- `KIP.PARSE` (rule R201).  Refused only when the file's length reaches `MAX_LEN` (U14). -/
def execKipParse (s : State) : Host.Outcome State Fault Refusal :=
  if belowMax s s.mem.inp.len then
    ((parseHeader (startCommand .kipParse s)).andThen fun t =>
      (parseSegments (List.finRange 6) t).andThen fun u => .ok (parseDone u)).outcome
  else .refused .lengthLimit

/-- Every segment has data (rule R211). -/
def allData (k : KipRegs) : Bool := k.data.toList.all Option.isSome

/-- The data of segment `i`; `KIP.BUILD` runs only when every segment has some. -/
def dataOf (k : KipRegs) (i : Fin 6) : Bytes := (k.data[i]).getD []

/-- A length stored in a 32-bit field (rules R12, R215): below `2^32` the length itself; rule R215 states no
value otherwise. -/
def sizeField (n : Nat) : W32 := if n < 2 ^ 32 then BitVec.ofNat 32 n else Config.wideField n

/-- One segment of `KIP.BUILD` (rules R211 to R213): the flag bits so far, and the state.  `none`: a length
reaches `MAX_LEN`.  The block ENC makes is its own output, as rule R51 lists no buffer for `KIP.BUILD`: the caller's
`OUT` stays (log 34). -/
def buildSegment (i : Fin 6) (bits : Nat) (s : State) : Option (Nat × State) :=
  let d := dataOf s.kip i
  let keep (x : Bytes) (t : State) : State :=
    t.withKip { t.kip with stored := t.kip.stored.set i x }
  if !belowMax s d.length then none
  else if i.val < Config.nCompressible ∧ 0 < d.length then
    match compressInto d true s with
    | none => none
    | some (blk, t) =>
      if blk.length < d.length then some (bits + 2 ^ i.val, keep blk t) else some (bits, keep d t)
  else some (bits, keep d s)

/-- The segments in index order (rule R211). -/
def buildSegments : List (Fin 6) → Nat → State → Option (Nat × State)
  | [], bits, s => some (bits, s)
  | i :: t, bits, s =>
    match buildSegment i bits s with
    | none => none
    | some (bits1, s1) => buildSegments t bits1 s1

/-- The header update of `KIP.BUILD` (rules R215, R216): the six `compressed_size` fields and
`flags[2:0]`. -/
def buildHeader (bits : Nat) (k : KipRegs) : KipHeader :=
  { k.hdr with
    seg := Vector.ofFn fun i : Fin 6 =>
      { k.hdr.seg[i] with compressedSize := sizeField (k.stored[i]).length }
    flags := rewriteFlags k.hdr.flags bits }

/-- `KIP.BUILD` (rule R211): it never raises (rule R217).  Refused when some `KIP.DATA[i]` has no value (U12) or
a length reaches `MAX_LEN` (U14). -/
def execKipBuild (s : State) : Host.Outcome State Fault Refusal :=
  if !allData s.kip then .refused .dataMissing
  else match buildSegments (List.finRange 6) 0 (startCommand .kipBuild s) with
    | none => .refused .lengthLimit
    | some (bits, t) =>
      .next ((t.withHdr (buildHeader bits t.kip)).withStatus { t.status with err := .ok })

/-- The file `KIP.SERIALIZE` writes (rules R103, R221). -/
def fileBytes (k : KipRegs) : Bytes := headerBytes k.hdr ++ k.stored.toList.flatten ++ k.trailing

/-- `KIP.SERIALIZE` (rule R221): it validates nothing and never raises (rule R223).  Refused only when the
file's length reaches `MAX_LEN` (U14). -/
def execKipSerialize (s : State) : Host.Outcome State Fault Refusal :=
  let t := startCommand .kipSerialize s
  let f := fileBytes t.kip
  if belowMax s f.length then
    .next ((t.withOut (Buffer.ofBytes f)).withStatus { t.status with err := .ok, outLen := f.length })
  else .refused .lengthLimit

end Sys2Proof.Machine
end

