-- ==== Sys2Proof/Machine/Fetch.lean ====
section
/-! DEFINITION. What the engine executes next: the command the caller has issued (rule R282), the next token of a
running decode (rule R24), or the structural item the sequencer stands at (rule R114). -/

namespace Sys2Proof.Machine

/-- Fetch the command in `CMD.op` through its ordinal (rules R21, R110). -/
def fetchCommand (s : State) : Fetch :=
  match decode .command (leBytes 1 s.cmd.op.ordinal) with
  | .ok (i, _) => .got i s
  | .error _ => .undecodable

/-- The length checks before a structural item is read: the footer's (rule R151), the container's
(rule R201).  `MAX_LEN` is not among them (log 33). -/
def itemCheck (p : Slot) (n : Nat) : Option (ErrKind × Info) :=
  match p with
  | .footerTotal | .footerHdr | .footerExtra =>
    if n < Config.footerLen then some (.malformedFooter, ⟨0, Config.footerLen, n⟩) else none
  | .kipMagic => if n < 4 then some (.truncated, ⟨0, 4, n⟩) else none
  | .kipName | .kipTitleId | .kipProcessCategory | .kipThreadPriority | .kipDefaultCpuId | .kipReserved
  | .kipFlags | .kipSeg _ | .kipCap _ =>
    if n < Config.kipHdrLen then some (.truncated, ⟨0, Config.kipHdrLen, n⟩) else none
  | .pad | .storedTerm | .ctrl | .lit | .ref | .command => none

/-- The item belongs to the container's header, which is read from `IN` (rule R51). -/
def inHeader (p : Slot) : Bool :=
  match p with
  | .kipMagic | .kipName | .kipTitleId | .kipProcessCategory | .kipThreadPriority | .kipDefaultCpuId
  | .kipReserved | .kipFlags | .kipSeg _ | .kipCap _ => true
  | .pad | .footerTotal | .footerHdr | .footerExtra | .storedTerm | .ctrl | .lit | .ref | .command => false

/-- The buffer an item is read from: the file in `IN`, or the block (rule R51). -/
def itemBuf (p : Slot) (s : State) : Buffer := if inHeader p then s.mem.inp else blockBuf s

/-- The length of that file or block. -/
def itemLen (p : Slot) (s : State) : Nat := if inHeader p then s.mem.inp.len else blockLen s

/-- Read and decode the item at offset `a` of the block or file. -/
def readItem (p : Slot) (a : Nat) (s : State) : Fetch :=
  match (itemBuf p s).slice a p.size with
  | none => .outside
  | some bs =>
    match decode p bs with
    | .ok (i, _) => .got i s
    | .error _ => .undecodable

/-- Fetch a structural item from the block or file. -/
def fetchItem (p : Slot) (s : State) : Fetch :=
  match itemCheck p (itemLen p s) with
  | some (k, info) => .raises k info s
  | none =>
    match itemOffset p (itemLen p s) (blockHdrLen s) with
    | none => .outside
    | some a => readItem p a s

/-- Fetch the pad byte at offset `a` of the block (rules R63, R114; log 29). -/
def fetchPad (a : Nat) (s : State) : Fetch := if inPadding a s then readItem .pad a s else .outside

/-- The item the sequencer is about to write, made from the registers of its unit: ENC's (rules R138, R139),
KIP's (rule R222).  A token or a command is not written this way. -/
def itemToEmit (p : Slot) (s : State) : Option Instr :=
  match p with
  | .pad => some (.pad Config.padByte)
  | .footerTotal =>
    some (.footerTotal (BitVec.ofNat 32 (s.enc.pakBest + Config.footerLen + padOf s.enc)))
  | .footerHdr => some (.footerHdr (BitVec.ofNat 32 (Config.footerLen + padOf s.enc)))
  | .footerExtra => some (.footerExtra (extraSize s.free s.enc))
  | .storedTerm => some .storedTerm
  | .kipMagic => some (.kipMagic Config.kipMagic)
  | .kipName => some (.kipName s.kip.hdr.name)
  | .kipTitleId => some (.kipTitleId s.kip.hdr.titleId)
  | .kipProcessCategory => some (.kipProcessCategory s.kip.hdr.processCategory)
  | .kipThreadPriority => some (.kipThreadPriority s.kip.hdr.threadPriority)
  | .kipDefaultCpuId => some (.kipDefaultCpuId s.kip.hdr.defaultCpuId)
  | .kipReserved => some (.kipReserved s.kip.hdr.reserved)
  | .kipFlags => some (.kipFlags s.kip.hdr.flags)
  | .kipSeg i => some (.kipSeg i s.kip.hdr.seg[i])
  | .kipCap j => some (.kipCap j s.kip.hdr.cap[j])
  | .ctrl => none
  | .lit => none
  | .ref => none
  | .command => none

/-- The next instruction of a state. -/
def fetch (s : State) : Fetch :=
  match s.seq with
  | .idle => .nothing
  | .command => fetchCommand s
  | .token => fetchToken s
  | .load p => fetchItem p s
  | .loadPad a => fetchPad a s
  | .emit p =>
    match itemToEmit p s with
    | some i => .got i s
    | none => .outside

/-- The header field after a header field (rule R29), in the order of the offsets. -/
def nextField : Slot → Option Slot
  | .kipMagic => some .kipName
  | .kipName => some .kipTitleId
  | .kipTitleId => some .kipProcessCategory
  | .kipProcessCategory => some .kipThreadPriority
  | .kipThreadPriority => some .kipDefaultCpuId
  | .kipDefaultCpuId => some .kipReserved
  | .kipReserved => some .kipFlags
  | .kipFlags => some (.kipSeg 0)
  | .kipSeg i => some (if h : i.val + 1 < 6 then .kipSeg ⟨i.val + 1, h⟩ else .kipCap 0)
  | .kipCap j => if h : j.val + 1 < 32 then some (.kipCap ⟨j.val + 1, h⟩) else none
  | .footerTotal => some .footerHdr
  | .footerHdr => some .footerExtra
  | .footerExtra => none
  | .pad => some .footerTotal
  | .storedTerm => none
  | .ctrl => none
  | .lit => none
  | .ref => none
  | .command => none

/-- After the pad byte at offset `a`: the pad byte above it, or rest after the last (log 29). -/
def nextPad (a : Nat) (s : State) : Seq := if inPadding (a + 1) s then .loadPad (a + 1) else .idle

/-- Where the sequencer goes after an item: to the next item of the structure, or to rest.  ENC writes
padding until the output is aligned (rules R60, R92). -/
def nextSeq (q : Seq) (t : State) : Seq :=
  match q with
  | .idle => .idle
  | .command => .idle
  | .token => .token
  | .load .pad => nextPad (blockLen t - blockHdrLen t) t
  | .loadPad a => nextPad a t
  | .load p => match nextField p with
    | some x => .load x
    | none => .idle
  | .emit .pad => if t.mem.out.len % Config.blockAlign = 0 then .emit .footerTotal else .emit .pad
  | .emit p => match nextField p with
    | some x => .emit x
    | none => .idle

/-- After an instruction: the sequencer moves on, unless the instruction ended the command. -/
def settle (q : Seq) (o : Host.Outcome State Fault Refusal) : Host.Outcome State Fault Refusal :=
  match o with
  | .next t => .next (if t.seq = q then t.withSeq (nextSeq q t) else t)
  | .fault f => .fault f
  | .refused r => .refused r

/-! ### Placing an item where the next step fetches it -/

/-- A buffer of `len` bytes that holds `bs` from index `a`, zero elsewhere. -/
def bufferWith (len a : Nat) (bs : Bytes) : Buffer := ⟨len, cellsWrite [] a bs⟩

/-- The state whose next step fetches and runs the item `bs` at position `p` (log 14).  A token: a strict
decode is running with the token below `DEC.r` and room above; a structural item: the sequencer reads a
block or file that holds it, for a pad byte a block whose `header_len` is 13; a command: it has been issued. -/
def placeItem (p : Slot) (bs : Bytes) (s : State) : State :=
  let item := bs.take p.size
  let asToken (k : Nat) (ctrl : Byte) : State :=
    { s with
      cmd := { s.cmd with op := .blzDecompressS }
      dec := { s.dec with r := p.size, w := 18, ctrl := ctrl, k := k, base := 0, outLen := 4200, run := .run }
      mem := { s.mem with out := bufferWith 4200 0 item }
      seq := .token }
  let inBlock (op : Op) (len a : Nat) (l : Bytes) : State :=
    { s with
      cmd := { s.cmd with op := op }
      mem := { s.mem with inp := bufferWith len a l }
      seq := .load p }
  let inFile : State := inBlock .kipParse Config.kipHdrLen ((itemOffset p Config.kipHdrLen 0).getD 0) item
  match p with
  | .ctrl => asToken 0 0
  | .lit => asToken 1 0x00#8
  | .ref => asToken 1 0x80#8
  | .pad => inBlock .blzFooter 13 0 (item ++ leBytes 4 0 ++ leBytes 4 13)
  | .footerTotal => inBlock .blzFooter 12 0 item
  | .footerHdr => inBlock .blzFooter 12 4 item
  | .footerExtra => inBlock .blzFooter 12 8 item
  | .storedTerm => inBlock .blzFooter 4 0 item
  | .kipMagic | .kipName | .kipTitleId | .kipProcessCategory | .kipThreadPriority | .kipDefaultCpuId
  | .kipReserved | .kipFlags | .kipSeg _ | .kipCap _ => inFile
  | .command =>
    match decode .command bs with
    | .ok (.blzCompress, _) => issue .blzCompress s
    | .ok (.blzFooter, _) => issue .blzFooter s
    | .ok (.blzDecompressS, _) => issue .blzDecompressS s
    | .ok (.blzDecompressP, _) => issue .blzDecompressP s
    | .ok (.kipParse, _) => issue .kipParse s
    | .ok (.kipBuild, _) => issue .kipBuild s
    | .ok (.kipSerialize, _) => issue .kipSerialize s
    | _ => s

end Sys2Proof.Machine
end

