-- ==== Sys2Proof/Machine/Dispatch.lean ====
section
/-! DEFINITION. `exec`: one arm per constructor of `Instr`, each a direct call of the instruction's meaning. -/

namespace Sys2Proof.Machine

def exec (i : Instr) (s : State) : Host.Outcome State Fault Refusal :=
  match i with
  -- tokens (42_blz_decoder.md)
  | .ctrl f => Sys2Proof.Machine.execCtrl f s
  | .lit b => Sys2Proof.Machine.execLit b s
  | .ref l o => Sys2Proof.Machine.execRef l o s
  -- block structure (30_encoding.md, 41_blz_footer.md)
  | .pad b => Sys2Proof.Machine.execPad b s
  | .footerTotal v => Sys2Proof.Machine.execFooterTotal v s
  | .footerHdr v => Sys2Proof.Machine.execFooterHdr v s
  | .footerExtra v => Sys2Proof.Machine.execFooterExtra v s
  | .storedTerm => Sys2Proof.Machine.execStoredTerm s
  -- KIP1 header (10_state.md, 43_kip1_container.md)
  | .kipMagic w => Sys2Proof.Machine.execKipMagic w s
  | .kipName v => Sys2Proof.Machine.execKipName v s
  | .kipTitleId v => Sys2Proof.Machine.execKipTitleId v s
  | .kipProcessCategory v => Sys2Proof.Machine.execKipProcessCategory v s
  | .kipThreadPriority v => Sys2Proof.Machine.execKipThreadPriority v s
  | .kipDefaultCpuId v => Sys2Proof.Machine.execKipDefaultCpuId v s
  | .kipReserved v => Sys2Proof.Machine.execKipReserved v s
  | .kipFlags v => Sys2Proof.Machine.execKipFlags v s
  | .kipSeg n d => Sys2Proof.Machine.execKipSeg n d s
  | .kipCap n v => Sys2Proof.Machine.execKipCap n v s
  -- commands
  | .blzCompress => Sys2Proof.Machine.execBlzCompress s
  | .blzFooter => Sys2Proof.Machine.execBlzFooter s
  | .blzDecompressS => Sys2Proof.Machine.execBlzDecompressS s
  | .blzDecompressP => Sys2Proof.Machine.execBlzDecompressP s
  | .kipParse => Sys2Proof.Machine.execKipParse s
  | .kipBuild => Sys2Proof.Machine.execKipBuild s
  | .kipSerialize => Sys2Proof.Machine.execKipSerialize s

end Sys2Proof.Machine
end

