-- ==== Sys2Proof/Machine/Step.lean ====
section
/-! DEFINITION. One step: fetch the next instruction, execute it, move on.  An idle engine does nothing until a
command is issued (rules R39, R280). -/

namespace Sys2Proof.Machine

/-- One step of the engine. -/
def step (s : State) : Host.Outcome State Fault Refusal :=
  match fetch s with
  | .nothing => .next s
  | .finish => .next (endDecode s)
  | .got i s1 => settle s.seq (exec i s1)
  | .raises k info s1 => .next (takeRaise k info s1)
  | .outside => .fault .outsideBuffer
  | .undecodable => .refused .undecodable

/-- The state whose next step runs a table word (log 14). -/
def State.withFetchWord (s : State) (nbits w : Nat) : State :=
  match tableSlot nbits w with
  | some p => placeItem p (tableBytes nbits w) s
  | none => s

end Sys2Proof.Machine
end

