-- ==== Sys2Proof/Safety.lean ====
section
/-! DEFINITION. What a good state is and what a safe outcome is, in the terms the statements use. -/

namespace Sys2Proof.Machine

/-- A running token loop (rules R24 to R27, R52): `DEC.run = RUN`, both cursors inside the decoded region, the
region inside its buffer. -/
def tokenOk (s : State) : Prop :=
  s.dec.run = .run ∧ s.dec.r ≤ s.dec.outLen ∧ s.dec.w ≤ s.dec.outLen ∧
    s.dec.base + s.dec.outLen ≤ (oBuf s).len

/-- The sequencer reads a structural item the block or file has room for (rules R63, R114). -/
def loadOk (p : Slot) (s : State) : Prop :=
  (itemOffset p (itemLen p s) (blockHdrLen s)).isSome ∨ (itemCheck p (itemLen p s)).isSome

/-- What the sequencer's position requires. -/
def seqOk (s : State) : Prop :=
  match s.seq with
  | .idle => True
  | .command => True
  | .token => tokenOk s
  | .load p => itemLen p s ≤ (itemBuf p s).len ∧ loadOk p s
  | .loadPad a => blockLen s ≤ (blockBuf s).len ∧ inPadding a s = true
  | .emit p => (itemToEmit p s).isSome

/-- The invariant of the engine: the memory in canonical form, `DEC.k` at most 8 (rule R26), the sequencer's
position consistent. -/
def Inv (s : State) : Prop := s.mem.wf = true ∧ s.dec.k ≤ 8 ∧ seqOk s

/-- An outcome that is no fault. -/
def NoFault (o : Host.Outcome State Fault Refusal) : Prop := ∀ f, o ≠ .fault f

/-- The command-level instructions (rule R110). -/
def isCommand (i : Instr) : Prop := ∃ op : Op, i = op.instr

/-! ### Terms the statements use -/

/-- `n` steps, one after the other; a fault or a refusal ends them. -/
def runSteps : Nat → State → Host.Outcome State Fault Refusal
  | 0, s => .next s
  | n + 1, s =>
    match step s with
    | .next t => runSteps n t
    | .fault f => .fault f
    | .refused r => .refused r

/-- An item of a block or of the container's header: no token, no command (rule R114). -/
def isStructural (i : Instr) : Prop :=
  i.slot ≠ .ctrl ∧ i.slot ≠ .lit ∧ i.slot ≠ .ref ∧ i.slot ≠ .command

/-- FTR accepts the footer of the first `n` bytes of `b`, which is not degenerate: the tests of rules R151 to
R157, written on the three words. -/
def FooterAccepted (s : State) (b : Buffer) (n : Nat) : Prop :=
  12 ≤ n ∧ b.read (n - 12) 4 + b.read (n - 4) 4 ≠ 0 ∧ b.read (n - 12) 4 ≤ n ∧ 12 ≤ b.read (n - 8) 4 ∧
    b.read (n - 8) 4 ≤ b.read (n - 12) 4 ∧ b.read (n - 8) 4 ≤ s.cmd.hdrMax ∧
    ∀ m, s.cmd.maxLen = some m → n + b.read (n - 4) 4 < m

/-- The file offset of segment `i`'s stored bytes; of the trailing data for `i = 6` (rules R103, R203). -/
def segStart (h : KipHeader) (i : Nat) : Nat :=
  256 + ((h.seg.toList.take i).map fun d => d.compressedSize.toNat).sum

/-- The operands of a command (rules R35, R51) are the same in two states: the buffer or the registers it reads, the bit
and the parameters that bear on it, and nothing else. -/
def SameOperands (op : Op) (s u : State) : Prop :=
  s.cmd.maxLen = u.cmd.maxLen ∧
  match op with
  | .blzCompress => s.mem.inp = u.mem.inp ∧ s.cmd.best = u.cmd.best ∧ s.cmd.matchOverlap = u.cmd.matchOverlap
  | .blzFooter => s.mem.inp = u.mem.inp ∧ s.cmd.hdrMax = u.cmd.hdrMax
  | .blzDecompressS => s.mem.inp = u.mem.inp ∧ s.cmd.hdrMax = u.cmd.hdrMax
  | .blzDecompressP =>
    s.mem.m = u.mem.m ∧ s.cmd.n = u.cmd.n ∧ s.cmd.cap = u.cmd.cap ∧ s.cmd.hdrMax = u.cmd.hdrMax
  | .kipParse => s.mem.inp = u.mem.inp ∧ s.cmd.hdrMax = u.cmd.hdrMax
  | .kipBuild => s.kip.hdr = u.kip.hdr ∧ s.kip.data = u.kip.data ∧ s.cmd.matchOverlap = u.cmd.matchOverlap
  | .kipSerialize => s.kip.hdr = u.kip.hdr ∧ s.kip.stored = u.kip.stored ∧ s.kip.trailing = u.kip.trailing

/-- The results of a command (rule R51) are the same in two states it ended in with `STATUS.err = OK`. -/
def SameResult (op : Op) (t u : State) : Prop :=
  match op with
  | .blzCompress =>
    t.mem.out = u.mem.out ∧ t.status.form = u.status.form ∧ t.status.outLen = u.status.outLen
  | .blzFooter => t.ftr = u.ftr ∧ t.status.degenerate = u.status.degenerate
  | .blzDecompressS =>
    t.mem.out = u.mem.out ∧ t.status.outLen = u.status.outLen ∧ t.status.degenerate = u.status.degenerate
  | .blzDecompressP =>
    t.mem.m = u.mem.m ∧ t.status.outLen = u.status.outLen ∧ t.status.degenerate = u.status.degenerate
  | .kipParse =>
    t.kip.hdr = u.kip.hdr ∧ t.kip.pos = u.kip.pos ∧ t.kip.data = u.kip.data ∧ t.kip.segstat = u.kip.segstat ∧
      t.kip.trailing = u.kip.trailing
  | .kipBuild => t.kip.stored = u.kip.stored ∧ t.kip.hdr = u.kip.hdr
  | .kipSerialize => t.mem.out = u.mem.out ∧ t.status.outLen = u.status.outLen

/-- The kinds a command can end with (rule R242). -/
def allowedKinds (op : Op) : List ErrKind :=
  match op with
  | .blzCompress => [.ok]
  | .blzFooter => [.ok, .malformedFooter]
  | .blzDecompressS => [.ok, .malformedFooter, .outOfBounds]
  | .blzDecompressP => [.ok, .malformedFooter, .outOfBounds]
  | .kipParse => [.ok, .invalidMagic, .truncated]
  | .kipBuild => [.ok]
  | .kipSerialize => [.ok]

end Sys2Proof.Machine
end

