-- ==== Sys2Proof/Certificates/Slice0/Obligations.lean ====
section
/-! DEFINITION. The statements about the model, from the numbered rules of spec/.  A statement that rests on an
inference the spec itself marks as derived, or on a choice of the model, says so in its docstring. -/

open Sys2Proof Sys2Proof.Machine

/-! ### Encoding -/

/-- Decoding what the encoder wrote gives the instruction back and leaves the bytes after it (rules R80 to R86,
R91, R96, R100, R110).  The bit placement of `REF` is PRESUMED (log 4), the slot of an item is its position. -/
def Obligations.DecodeOfEncodeGivesInstruction : Prop :=
  ∀ (i : Instr) (rest : Bytes), i.wellFormed = true → decode i.slot (encode i ++ rest) = .ok (i, rest)

/-- Every byte sequence the decoder accepts as a well-formed instruction is the encoder's: each word has one
meaning and no bit of it is dropped. -/
def Obligations.EncodeOfDecodeGivesBytes : Prop :=
  ∀ (p : Slot) (bs rest : Bytes) (i : Instr), decode p bs = .ok (i, rest) → i.wellFormed = true →
    i.slot = p ∧ encode i ++ rest = bs

/-- Words written out from the spec: the tokens of the worked example of rule R146, a footer word, a segment
descriptor of the file of rule R229, a command ordinal.  The `REF` rests on the spec's placement of its fields,
which is PRESUMED (log 4). -/
def Obligations.SpecWordsDecode : Prop :=
  decode .ref [0x00, 0xE0] = .ok (.ref 14 0, []) ∧
  decode .ctrl [0x10] = .ok (.ctrl 0x10, []) ∧
  decode .lit [0xAA] = .ok (.lit 0xAA, []) ∧
  decode .footerTotal [0x14, 0x00, 0x00, 0x00] = .ok (.footerTotal 20, []) ∧
  decode (.kipSeg 1) [0x00, 0x10, 0x00, 0x00, 0x04, 0x00, 0x00, 0x00, 0x04, 0x00, 0x00, 0x00, 0x00, 0x00, 0x00, 0x00]
    = .ok (.kipSeg 1 ⟨0x1000, 4, 4, 0⟩, []) ∧
  decode .command [0x03] = .ok (.blzDecompressP, [])

/-! ### Steps -/

/-- A step runs the decoded instruction.  A token runs in the state whose flag has been consumed (rule R170); a
command is the one `CMD.op` names (rule R21); a structural item is read at its position or written from its
unit's registers, and the sequencer then moves on (`settle`).  The sequencer (log 1), and that an item is read or written
whatever length its buffer has (log 33), is the model's choice. -/
def Obligations.StepRunsDecodedInstruction : Prop :=
  (∀ (s : State) (bs rest : Bytes) (i : Instr), s.seq = .token → 0 < s.dec.w →
    (tokenSlot s).size ≤ s.dec.r →
    (oBuf s).slice (s.dec.base + (s.dec.r - (tokenSlot s).size)) (tokenSlot s).size = some bs →
    decode (tokenSlot s) bs = .ok (i, rest) → step s = exec i (tokenState s)) ∧
  (∀ s : State, s.seq = .command → step s = settle .command (exec s.cmd.op.instr s)) ∧
  (∀ (s : State) (p : Slot) (a : Nat) (bs rest : Bytes) (i : Instr), s.seq = .load p →
    itemCheck p (itemLen p s) = none → itemOffset p (itemLen p s) (blockHdrLen s) = some a →
    (itemBuf p s).slice a p.size = some bs → decode p bs = .ok (i, rest) →
    step s = settle (.load p) (exec i s)) ∧
  (∀ (s : State) (a : Nat) (b : Byte), s.seq = .loadPad a → inPadding a s = true → (blockBuf s).get a = some b →
    step s = settle (.loadPad a) (exec (.pad b) s)) ∧
  (∀ (s : State) (p : Slot) (i : Instr), s.seq = .emit p → itemToEmit p s = some i →
    step s = settle (.emit p) (exec i s))

/-- A command runs to its end in one step and leaves the engine idle (rule R20, decision D28). -/
def Obligations.CommandStepEndsIdle : Prop :=
  (∀ (op : Op) (s t : State), exec op.instr s = .next t → t.seq = .idle) ∧
  ∀ s : State, s.seq = .command → step s = exec s.cmd.op.instr s

/-- After reset the engine is idle and nothing executes until a command is issued (rules R39, R280). -/
def Obligations.ResetIsIdle : Prop :=
  State.reset.dec.run = .idle ∧ State.reset.seq = .idle ∧ step State.reset = .next State.reset

/-- The state after reset is a good state. -/
def Obligations.InvariantHoldsAtReset : Prop := Inv State.reset

/-- Every step keeps the invariant: the buffers stay in canonical form, `DEC.k` stays at most 8 (rule R26), a
running token loop keeps its cursors inside the decoded region and the region inside its buffer (rules R24, R25,
R52), the sequencer stays at a position it can serve. -/
def Obligations.InvariantKeptByEveryStep : Prop :=
  ∀ s t : State, Inv s → step s = .next t → Inv t

/-- No step from a good state leaves a buffer or moves a cursor below 0: every bounds violation is a typed error,
never an undefined access (rules R17, R54, R65). -/
def Obligations.GoodStateNeverFaults : Prop :=
  ∀ s : State, Inv s → NoFault (step s)

/-! ### Taking an error -/

/-- Taking an error (rule R245): the kind and its context reach `STATUS`, a running DEC goes to `FAULT`, the command
ends; nothing else is saved and control goes nowhere.  A raise of a decompress command before its token loop is left to
`DecodeTakesFooterError`.  What survives (rules R186, R246): the input, the other unit
registers, and every byte of `M` outside the decoded region of an in-place decode. -/
def Obligations.RaiseEndsCommand : Prop :=
  ∀ (k : ErrKind) (info : Info) (s : State),
    (takeRaise k info s).status.err = k ∧ (takeRaise k info s).status.info = info ∧
    (takeRaise k info s).dec = { s.dec with run := (takeRaise k info s).dec.run } ∧
    (s.dec.run = .run → (takeRaise k info s).dec.run = .fault) ∧
    (s.dec.run ≠ .run → s.cmd.op ≠ .blzDecompressS → s.cmd.op ≠ .blzDecompressP →
      (takeRaise k info s).dec.run = s.dec.run) ∧
    (takeRaise k info s).seq = .idle ∧ (takeRaise k info s).cmd = s.cmd ∧
    (takeRaise k info s).ftr = s.ftr ∧ (takeRaise k info s).enc = s.enc ∧
    (takeRaise k info s).mem.inp = s.mem.inp ∧
    (k ≠ .invalidMagic → k ≠ .truncated → (takeRaise k info s).kip = s.kip) ∧
    (¬(s.dec.run = .run ∧ s.cmd.op = .blzDecompressP) → (takeRaise k info s).mem.m = s.mem.m) ∧
    (s.mem.wf = true → (takeRaise k info s).mem.wf = true ∧
      ∀ i, i < s.dec.base ∨ s.dec.base + s.dec.outLen ≤ i →
        (takeRaise k info s).readByte .m i = s.readByte .m i)

/-! ### Tokens -/

/-- `CTRL` executes whenever its byte could be fetched: `DEC.r` moves down by 1, all eight flags are loaded, and
nothing else changes, no byte of memory among it (rule R171). -/
def Obligations.CtrlLoadsEightFlags : Prop :=
  ∀ (f : Byte) (s : State), 1 ≤ s.dec.r →
    exec (.ctrl f) s = .next { s with dec := { s.dec with r := s.dec.r - 1, ctrl := f, k := 8 } }

/-- `LIT` executes whenever its byte could be fetched and the byte below the write cursor exists: both cursors move
down by 1, the byte is stored at the write cursor, and no other register or byte changes (rule R172). -/
def Obligations.LitStoresOneByte : Prop :=
  ∀ (b : Byte) (s : State), s.mem.wf = true → 1 ≤ s.dec.r → 1 ≤ s.dec.w →
    s.dec.base + (s.dec.w - 1) < (oBuf s).len →
    ∃ t, exec (.lit b) s = .next t ∧
      t = { s with dec := { s.dec with r := s.dec.r - 1, w := s.dec.w - 1 }, mem := t.mem } ∧
      ∀ n i, t.readByte n i =
        if n = oName s ∧ i = s.dec.base + (s.dec.w - 1) then some b else s.readByte n i

/-- `REF` executes whenever its bytes could be fetched and its first source byte has been decoded: the length is
the encoded one capped to `DEC.w`; each byte of the copied range equals the byte `offset` above it, after the copy,
so an overlapping copy replicates; no other register or byte changes (rules R70, R85, R173 to R175). -/
def Obligations.RefCopiesFromAbove : Prop :=
  ∀ (l : BitVec 4) (o : BitVec 12) (s : State), s.mem.wf = true → 2 ≤ s.dec.r →
    s.dec.w ≤ s.dec.outLen → s.dec.base + s.dec.outLen ≤ (oBuf s).len →
    (s.dec.w = 0 ∨ s.dec.w - 1 + (o.toNat + 3) < s.dec.outLen) →
    ∃ t, exec (.ref l o) s = .next t ∧
      t = { s with
            dec := { s.dec with r := s.dec.r - 2, w := s.dec.w - min (l.toNat + 3) s.dec.w
                                len := min (l.toNat + 3) s.dec.w, off := o.toNat + 3 }
            mem := t.mem } ∧
      (∀ j, s.dec.w - min (l.toNat + 3) s.dec.w ≤ j → j < s.dec.w →
        t.readByte (oName s) (s.dec.base + j) = t.readByte (oName s) (s.dec.base + j + (o.toNat + 3))) ∧
      ∀ n i, n ≠ oName s ∨ i < s.dec.base + (s.dec.w - min (l.toNat + 3) s.dec.w) ∨ s.dec.base + s.dec.w ≤ i →
        t.readByte n i = s.readByte n i

/-- Item dispatch (rule R170): a `CTRL` is fetched when no flag is left, and consumes none; otherwise bit 7 of
`DEC.ctrl` selects `LIT` or `REF` and is consumed before the item's own fetch. -/
def Obligations.DispatchConsumesFlag : Prop :=
  ∀ s : State,
    (s.dec.k = 0 → tokenSlot s = .ctrl ∧ tokenState s = s) ∧
    (0 < s.dec.k →
      tokenSlot s = (if s.dec.ctrl.getLsbD 7 then .ref else .lit) ∧
      tokenState s = { s with
        dec := { s.dec with ctrl := BitVec.ofNat 8 (s.dec.ctrl.toNat * 2 % 256), k := s.dec.k - 1 } })

/-- `CTRL` fetched and executed (rule R171): the byte just below `DEC.r`, or `OutOfBounds` at `DEC.r = 0`. -/
def Obligations.CtrlTokenStep : Prop :=
  ∀ s : State, s.seq = .token → 0 < s.dec.w → s.dec.k = 0 →
    (∀ b, 1 ≤ s.dec.r → s.readByte (oName s) (s.dec.base + (s.dec.r - 1)) = some b →
      step s = .next { s with dec := { s.dec with r := s.dec.r - 1, ctrl := b, k := 8 } }) ∧
    (s.dec.r < 1 → step s = .next (takeRaise .outOfBounds ⟨s.dec.base + s.dec.r, 1, s.dec.r⟩ s))

/-- `LIT` fetched and executed (rule R172): the byte just below the read cursor goes just below the write cursor,
or `OutOfBounds` at `DEC.r = 0`; the flag has been consumed in both cases. -/
def Obligations.LitTokenStep : Prop :=
  ∀ s s1 : State, s.seq = .token → s.mem.wf = true → tokenOk s → 0 < s.dec.w → 0 < s.dec.k →
    s.dec.ctrl.getLsbD 7 = false →
    s1 = { s with
      dec := { s.dec with ctrl := BitVec.ofNat 8 (s.dec.ctrl.toNat * 2 % 256), k := s.dec.k - 1 } } →
    (1 ≤ s.dec.r → ∃ t, step s = .next t ∧
      t = { s1 with dec := { s1.dec with r := s.dec.r - 1, w := s.dec.w - 1 }, mem := t.mem } ∧
      ∀ n i, t.readByte n i =
        if n = oName s ∧ i = s.dec.base + (s.dec.w - 1)
        then s.readByte (oName s) (s.dec.base + (s.dec.r - 1)) else s.readByte n i) ∧
    (s.dec.r < 1 → step s = .next (takeRaise .outOfBounds ⟨s.dec.base + s.dec.r, 1, s.dec.r⟩ s1))

/-- `REF` fetched and executed (rules R173, R176, R178): two bytes below `DEC.r`, little-endian; `OutOfBounds` when
they are not there, or when the first source byte lies at or beyond `DEC.out_len`.  The place of the two fields in
the 16-bit value is PRESUMED by the spec (log 4). -/
def Obligations.RefTokenStep : Prop :=
  ∀ s s1 : State, s.seq = .token → s.mem.wf = true → tokenOk s → 0 < s.dec.w → 0 < s.dec.k →
    s.dec.ctrl.getLsbD 7 = true →
    s1 = { s with
      dec := { s.dec with ctrl := BitVec.ofNat 8 (s.dec.ctrl.toNat * 2 % 256), k := s.dec.k - 1 } } →
    (s.dec.r < 2 → step s = .next (takeRaise .outOfBounds ⟨s.dec.base + s.dec.r, 2, s.dec.r⟩ s1)) ∧
    (∀ lo hi : Byte, 2 ≤ s.dec.r → s.readByte (oName s) (s.dec.base + (s.dec.r - 2)) = some lo →
      s.readByte (oName s) (s.dec.base + (s.dec.r - 1)) = some hi →
      let v := lo.toNat + 256 * hi.toNat
      let len := min (v / 4096 + 3) s.dec.w
      let off := v % 4096 + 3
      if s.dec.outLen ≤ s.dec.w - 1 + off then
        step s = .next (takeRaise .outOfBounds
          ⟨s.dec.base + (s.dec.w - 1) + off, s.dec.base + s.dec.outLen, s.dec.base + (s.dec.w - 1) + off⟩
          { s1 with dec := { s1.dec with r := s.dec.r - 2, w := s.dec.w - 1, len := len, off := off } })
      else
        ∃ t, step s = .next t ∧
          t = { s1 with
                dec := { s1.dec with r := s.dec.r - 2, w := s.dec.w - len, len := len, off := off }
                mem := t.mem } ∧
          (∀ j, s.dec.w - len ≤ j → j < s.dec.w →
            t.readByte (oName s) (s.dec.base + j) = t.readByte (oName s) (s.dec.base + j + off)) ∧
          ∀ n i, n ≠ oName s ∨ i < s.dec.base + (s.dec.w - len) ∨ s.dec.base + s.dec.w ≤ i →
            t.readByte n i = s.readByte n i)

/-- The token loop ends when `DEC.w` reaches 0, even mid control byte and whatever `DEC.r` holds (rules R169,
R179): `DEC.run = DONE`, `STATUS` as rule R179 says, no byte of memory touched. -/
def Obligations.TokenLoopEndsAtZero : Prop :=
  ∀ s : State, s.seq = .token → s.dec.w = 0 →
    step s = .next { s with
      dec := { s.dec with run := .done }
      status := { s.status with err := .ok, degenerate := false, outLen := s.dec.base + s.dec.outLen }
      seq := .idle }

/-- A token given an address that does not exist stops by name (rules R14, R50: no rule reaches one, so the two
faults are the model's own, log 3): `LIT` at `DEC.w = 0`, `LIT` or `REF` whose byte lies outside the buffer. -/
def Obligations.TokenOutsideBufferFaults : Prop :=
  (∀ (b : Byte) (s : State), 1 ≤ s.dec.r → s.dec.w = 0 → exec (.lit b) s = .fault .cursorBelowZero) ∧
  (∀ (b : Byte) (s : State), 1 ≤ s.dec.r → 1 ≤ s.dec.w → (oBuf s).len ≤ s.dec.base + (s.dec.w - 1) →
    exec (.lit b) s = .fault .outsideBuffer) ∧
  (∀ (l : BitVec 4) (o : BitVec 12) (s : State), 2 ≤ s.dec.r → 1 ≤ s.dec.w →
    s.dec.w - 1 + (o.toNat + 3) < s.dec.outLen → (oBuf s).len ≤ s.dec.base + (s.dec.w - 1 + (o.toNat + 3)) →
    exec (.ref l o) s = .fault .outsideBuffer)

/-- A token executed with too few bytes below `DEC.r` raises `OutOfBounds`, and so does a `REF` whose first source
byte lies at or beyond `DEC.out_len` (rule R176). -/
def Obligations.TokenRaisesOutOfBounds : Prop :=
  (∀ (f : Byte) (s : State), s.dec.r < 1 →
    exec (.ctrl f) s = .next (takeRaise .outOfBounds ⟨s.dec.base + s.dec.r, 1, s.dec.r⟩ s)) ∧
  (∀ (b : Byte) (s : State), s.dec.r < 1 →
    exec (.lit b) s = .next (takeRaise .outOfBounds ⟨s.dec.base + s.dec.r, 1, s.dec.r⟩ s)) ∧
  (∀ (l : BitVec 4) (o : BitVec 12) (s : State), s.dec.r < 2 →
    exec (.ref l o) s = .next (takeRaise .outOfBounds ⟨s.dec.base + s.dec.r, 2, s.dec.r⟩ s)) ∧
  (∀ (l : BitVec 4) (o : BitVec 12) (s : State), 2 ≤ s.dec.r → 1 ≤ s.dec.w →
    s.dec.outLen ≤ s.dec.w - 1 + (o.toNat + 3) →
    exec (.ref l o) s = .next (takeRaise .outOfBounds
      ⟨s.dec.base + (s.dec.w - 1) + (o.toNat + 3), s.dec.base + s.dec.outLen,
        s.dec.base + (s.dec.w - 1) + (o.toNat + 3)⟩
      { s with dec := { s.dec with r := s.dec.r - 2, w := s.dec.w - 1
                                   len := min (l.toNat + 3) s.dec.w, off := o.toNat + 3 } }))

/-- DEC always halts (derived in the spec: rule R188): from a running token loop at most `DEC.r` tokens and one
more step end the command, and at most `DEC.w` items with one control byte for eight of them. -/
def Obligations.TokenLoopHalts : Prop :=
  ∀ s : State, Inv s → s.seq = .token →
    (∃ t, runSteps (s.dec.r + 1) s = .next t ∧ t.seq = .idle) ∧
    ∃ t, runSteps (s.dec.w + s.dec.w / 8 + 2) s = .next t ∧ t.seq = .idle

/-- A decode command is its token loop stepped one token at a time: after FTR has accepted a footer, the whole
command ends in the very state the single steps reach (rules R20, R166, R169). -/
def Obligations.DecodeCommandIsItsSteps : Prop :=
  (∀ s t : State, footer (startCommand .blzDecompressS s) = .ok t → t.ftr.degenerate = false →
    exec .blzDecompressS s = runSteps (t.ftr.readStart + 1) (startDecode t)) ∧
  ∀ s t : State, s.cmd.n ≤ s.cmd.cap → s.cmd.cap ≤ s.mem.m.len → (∀ m, s.cmd.maxLen = some m → s.cmd.cap < m) →
    footer (startCommand .blzDecompressP s) = .ok t → t.ftr.degenerate = false →
    s.cmd.n + t.ftr.extraSize.toNat ≤ s.cmd.cap →
    exec .blzDecompressP s = runSteps (t.ftr.readStart + 1) (startDecode t)

/-! ### Block structure -/

/-- A structural item written: its bytes go to the end of `OUT`, and nothing else changes (rules R138, R139, R222).
Two things are the model's choice: that writing is a step of its own (log 1), and that an item is written also where `OUT`
then reaches a bounded `MAX_LEN`, a run rules R10, R50 and list U14 give no meaning (log 33, unsafe there). -/
def Obligations.EmittedItemGoesToOutput : Prop :=
  ∀ (i : Instr) (s : State), isStructural i → (∃ p, s.seq = .emit p) → s.mem.wf = true →
    ∃ t, exec i s = .next t ∧ t = { s with mem := { s.mem with out := t.mem.out } } ∧
      t.mem.out.toBytes = s.mem.out.toBytes ++ encode i ∧
      ∀ a, a < s.mem.out.len → t.readByte .out a = s.readByte .out a

/-- No unit reads the padding or the terminator of the stored form, and any pad byte is accepted (rules R93, R97):
read, they change nothing.  Read item by item, the padding is what rules R63 and R114 say: from its first byte, at
`n - header_len`, one step for each of its `header_len - 12` bytes, upward, and then the engine rests.  That the padding can
be stepped at all, in which order, and in a block of any length, is the model's choice (logs 1, 29, 33). -/
def Obligations.PadAndTerminatorLoadNothing : Prop :=
  (∀ s : State, (∀ p, s.seq ≠ .emit p) →
    (∀ b, exec (.pad b) s = .next s) ∧ exec .storedTerm s = .next s) ∧
  ∀ s : State, s.seq = .load .pad → blockLen s ≤ (blockBuf s).len → 12 < blockHdrLen s → blockHdrLen s ≤ blockLen s →
    (∀ j, 0 < j → j < blockHdrLen s - 12 →
      runSteps j s = .next (s.withSeq (.loadPad (blockLen s - blockHdrLen s + j)))) ∧
    runSteps (blockHdrLen s - 12) s = .next (s.withSeq .idle)

/-- The first two footer words load their FTR registers and change nothing else (rule R151). -/
def Obligations.FooterWordsLoadRegisters : Prop :=
  ∀ (v : W32) (s : State), (∀ p, s.seq ≠ .emit p) →
    exec (.footerTotal v) s = .next { s with ftr := { s.ftr with totalSize := v } } ∧
    exec (.footerHdr v) s = .next { s with ftr := { s.ftr with headerLen := v } }

/-- The last footer word is loaded and FTR makes its tests (rules R153 to R158): the degenerate footer and the
accepted one complete with the derived registers written, any other raises `MalformedFooter`.  That a degenerate block
whose length reaches `MAX_LEN` raises is the model's reading of list U14 (log 21). -/
def Obligations.LastFooterWordDecidesVerdict : Prop :=
  ∀ (v : W32) (s : State), (∀ p, s.seq ≠ .emit p) →
    let n := blockLen s
    let total := s.ftr.totalSize.toNat
    let hdr := s.ftr.headerLen.toNat
    if total + v.toNat = 0 ∧ ∀ m, s.cmd.maxLen = some m → n < m then
      exec (.footerExtra v) s = .next { s with
        ftr := { s.ftr with extraSize := v, prefixLen := 0, readStart := 0, outLen := 0, degenerate := true }
        status := { s.status with err := .ok, degenerate := true } }
    else if total + v.toNat ≠ 0 ∧ total ≤ n ∧ 12 ≤ hdr ∧ hdr ≤ total ∧ hdr ≤ s.cmd.hdrMax ∧
        ∀ m, s.cmd.maxLen = some m → n + v.toNat < m then
      exec (.footerExtra v) s = .next { s with
        ftr := { s.ftr with extraSize := v, prefixLen := n - total, readStart := total - hdr
                            outLen := total + v.toNat, degenerate := false }
        status := { s.status with err := .ok, degenerate := false } }
    else
      ∃ t, exec (.footerExtra v) s = .next t ∧ t.status.err = .malformedFooter ∧ t.mem.inp = s.mem.inp ∧
        (s.dec.run ≠ .run → t.mem.m = s.mem.m) ∧ t.kip = s.kip

/-- `BLZ.FOOTER` (rules R150 to R158): it always ends; which test failed first, and what it reports; on success the
seven FTR registers and both degenerate flags, and all of memory as it was.  After an error `IN` and `M` are as they were
and `OUT` holds no value (rule R246), so nothing is said of it, nor of the KIP registers (rule R38; log 6).  Two clauses
are the model's: `DEC.run = IDLE` (log 6), and the raise on a degenerate block whose length reaches `MAX_LEN`, from list U14 (log 21). -/
def Obligations.FooterCommandVerdict : Prop :=
  ∀ s : State,
    let n := s.mem.inp.len
    let total := s.mem.inp.read (n - 12) 4
    let hdr := s.mem.inp.read (n - 8) 4
    let extra := s.mem.inp.read (n - 4) 4
    ∃ t, exec .blzFooter s = .next t ∧ t.cmd = { s.cmd with op := .blzFooter } ∧
      t.mem.inp = s.mem.inp ∧ t.mem.m = s.mem.m ∧ t.dec.run = .idle ∧
      (12 ≤ n → t.ftr.totalSize.toNat = total ∧ t.ftr.headerLen.toNat = hdr ∧ t.ftr.extraSize.toNat = extra) ∧
      if n < 12 then t.status.err = .malformedFooter ∧ t.status.info = ⟨0, 12, n⟩
      else if total + extra = 0 ∧ ∃ m, s.cmd.maxLen = some m ∧ m ≤ n then
        t.status.err = .malformedFooter ∧ t.status.info = ⟨n - 4, s.cmd.maxLen.getD 0, n⟩
      else if total + extra = 0 then
        t.status.err = .ok ∧ t.status.degenerate = true ∧ t.mem = s.mem ∧ t.ftr.degenerate = true ∧
          t.ftr.prefixLen = 0 ∧ t.ftr.readStart = 0 ∧ t.ftr.outLen = 0
      else if n < total then t.status.err = .malformedFooter ∧ t.status.info = ⟨n - 12, n, total⟩
      else if hdr < 12 ∨ total < hdr ∨ s.cmd.hdrMax < hdr then
        t.status.err = .malformedFooter ∧ t.status.info = ⟨n - 8, 12, hdr⟩
      else if ∃ m, s.cmd.maxLen = some m ∧ m ≤ n + extra then
        t.status.err = .malformedFooter ∧ t.status.info = ⟨n - 4, s.cmd.maxLen.getD 0, n + extra⟩
      else
        t.status.err = .ok ∧ t.status.degenerate = false ∧ t.mem = s.mem ∧ t.ftr.degenerate = false ∧
          t.ftr.prefixLen = n - total ∧ t.ftr.readStart = total - hdr ∧ t.ftr.outLen = total + extra

/-- FTR stepped one footer word at a time gives the verdict of FTR run at once (rules R151, R158).  The positions of
the sequencer are the model's choice (log 1). -/
def Obligations.FooterStepsMatchFooter : Prop :=
  ∀ s : State, s.seq = .load .footerTotal → blockLen s ≤ (blockBuf s).len →
    runSteps 3 s = match footer s with
      | .ok t => .next (t.withSeq .idle)
      | .raised k info t => .next (takeRaise k info t)
      | .fault f => .fault f

/-- Losing the last byte of a block FTR accepted is noticed (derived in the spec: rule R160, under its conditions):
the decode of the rest ends with `MalformedFooter`. -/
def Obligations.TruncatedBlockIsMalformed : Prop :=
  ∀ (s t u : State) (b : Byte) (l : Bytes), s.mem.inp = Buffer.ofBytes (l ++ [b]) → s.cmd.hdrMax < 3072 →
    exec .blzFooter s = .next t → t.status.err = .ok → t.ftr.degenerate = false →
    (l.length + 1 = 12 ∨ t.ftr.totalSize.toNat < 2 ^ 24 ∨ s.mem.inp.read (l.length + 1 - 13) 1 ≠ 0 ∨
      t.ftr.extraSize.toNat % 2 ^ 24 ≠ 0) →
    u.mem.inp = Buffer.ofBytes l → u.cmd.hdrMax = s.cmd.hdrMax →
    ∃ v, exec .blzDecompressS u = .next v ∧ v.status.err = .malformedFooter

/-! ### Decoding -/

/-- `BLZ.DECOMPRESS.S` on the shape of the worked example of rule R194, for every prefix, every three bytes and every
length of the last back-reference: the output is the prefix and the three bytes repeated downward.  The KIP registers hold
no value then (rule R38; log 6), so nothing is said of them. -/
def Obligations.StrictDecodeOfRepeats : Prop :=
  ∀ (raw : Bytes) (a b c : Byte) (l : BitVec 4) (s : State), 12 ≤ s.cmd.hdrMax → s.cmd.maxLen = none →
    s.mem.inp = Buffer.ofBytes
      (assemble raw [.ctrl 0x18, .lit c, .lit b, .lit a, .ref 15 0, .ref l 0] 0 20 12 (l.toNat + 4)) →
    ∃ t, exec .blzDecompressS s = .next t ∧ t.status.err = .ok ∧ t.status.degenerate = false ∧
      t.status.outLen = raw.length + 24 + l.toNat ∧
      t.mem.inp = s.mem.inp ∧ t.mem.m = s.mem.m ∧ t.dec.run = .done ∧
      t.mem.out.toBytes.take raw.length = raw ∧ t.mem.out.len = raw.length + 24 + l.toNat ∧
      ∀ j, j < 24 + l.toNat →
        t.readByte .out (raw.length + (23 + l.toNat - j)) = some (if j % 3 = 0 then c else if j % 3 = 1 then b else a)

/-- `BLZ.DECOMPRESS.P` on the same blocks, in a buffer with room: the same bytes, in place; the bytes of `M` beyond the
output keep their value (rules R183, R187).  The KIP registers hold no value then (rule R38; log 6), so nothing is said
of them. -/
def Obligations.InPlaceDecodeOfRepeats : Prop :=
  ∀ (raw : Bytes) (a b c : Byte) (l : BitVec 4) (s : State), s.mem.wf = true → 12 ≤ s.cmd.hdrMax →
    s.cmd.maxLen = none → s.cmd.n = raw.length + 20 → raw.length + 24 + l.toNat ≤ s.cmd.cap →
    s.cmd.cap ≤ s.mem.m.len →
    s.mem.m.slice 0 s.cmd.n = some
      (assemble raw [.ctrl 0x18, .lit c, .lit b, .lit a, .ref 15 0, .ref l 0] 0 20 12 (l.toNat + 4)) →
    ∃ t, exec .blzDecompressP s = .next t ∧ t.status.err = .ok ∧ t.status.degenerate = false ∧
      t.status.outLen = raw.length + 24 + l.toNat ∧
      t.mem.inp = s.mem.inp ∧ t.mem.out = s.mem.out ∧ t.dec.run = .done ∧
      (∀ i, i < raw.length ∨ raw.length + 24 + l.toNat ≤ i → t.readByte .m i = s.readByte .m i) ∧
      ∀ j, j < 24 + l.toNat →
        t.readByte .m (raw.length + (23 + l.toNat - j)) = some (if j % 3 = 0 then c else if j % 3 = 1 then b else a)

/-- A degenerate footer decodes to the empty sequence, whatever stands before it, and in place `M` is left as it was
(rules R153, R167), for a block whose length is below `MAX_LEN` (rule R50).  The KIP registers hold no value then
(rule R38; log 6), so nothing is said of them. -/
def Obligations.DegenerateFooterDecodesToEmpty : Prop :=
  (∀ s : State, 12 ≤ s.mem.inp.len → (∀ m, s.cmd.maxLen = some m → s.mem.inp.len < m) →
    s.mem.inp.read (s.mem.inp.len - 12) 4 = 0 →
    s.mem.inp.read (s.mem.inp.len - 4) 4 = 0 →
    ∃ t, exec .blzDecompressS s = .next t ∧ t.status.err = .ok ∧ t.status.degenerate = true ∧
      t.status.outLen = 0 ∧ t.dec.run = .done ∧ t.mem = { s.mem with out := Buffer.ofBytes [] }) ∧
  ∀ s : State, 12 ≤ s.cmd.n → s.cmd.n ≤ s.cmd.cap → s.cmd.cap ≤ s.mem.m.len →
    (∀ m, s.cmd.maxLen = some m → s.cmd.cap < m) →
    s.mem.m.read (s.cmd.n - 12) 4 = 0 → s.mem.m.read (s.cmd.n - 4) 4 = 0 →
    ∃ t, exec .blzDecompressP s = .next t ∧ t.status.err = .ok ∧ t.status.degenerate = true ∧
      t.status.outLen = 0 ∧ t.dec.run = .done ∧ t.mem = s.mem

/-- A decode takes FTR's verdict: where `BLZ.FOOTER` on a block ends with an error, both decoders on that block end with
the same error and the same context, no token is executed, and in place all of `M` is as it was (rules R165, R166, R183,
R186, R249).  And `DEC.run` tells how a decompress command ended (rules R27, R179): `DONE` with `OK`, `FAULT` with any error,
FTR's and the capacity test's among them; that rule R245's "if DEC was running" takes in these two is the model's reading
(log 30). -/
def Obligations.DecodeTakesFooterError : Prop :=
  (∀ s t : State, exec .blzFooter s = .next t → t.status.err ≠ .ok →
    ∃ u, exec .blzDecompressS s = .next u ∧ u.status.err = t.status.err ∧ u.status.info = t.status.info ∧
      u.dec.run = .fault) ∧
  (∀ (s t : State) (l : Bytes), s.cmd.n ≤ s.cmd.cap → s.cmd.cap ≤ s.mem.m.len →
    (∀ m, s.cmd.maxLen = some m → s.cmd.cap < m) → s.mem.m.slice 0 s.cmd.n = some l →
    exec .blzFooter (giveInput l s) = .next t → t.status.err ≠ .ok →
    ∃ u, exec .blzDecompressP s = .next u ∧ u.status.err = t.status.err ∧ u.status.info = t.status.info ∧
      u.dec.run = .fault ∧ u.mem.m = s.mem.m) ∧
  ∀ (op : Op) (s t : State), op = .blzDecompressS ∨ op = .blzDecompressP → exec op.instr s = .next t →
    t.dec.run = if t.status.err = .ok then .done else .fault

/-- The capacity test of permissive mode (rule R184): an accepted footer whose output does not fit raises
`MalformedFooter` before the token loop, with all of `M` unchanged. -/
def Obligations.CapacityTestRaises : Prop :=
  ∀ s : State, s.cmd.n ≤ s.cmd.cap → s.cmd.cap ≤ s.mem.m.len → (∀ m, s.cmd.maxLen = some m → s.cmd.cap < m) →
    FooterAccepted s s.mem.m s.cmd.n → s.cmd.cap < s.cmd.n + s.mem.m.read (s.cmd.n - 4) 4 →
    ∃ t, exec .blzDecompressP s = .next t ∧ t.status.err = .malformedFooter ∧
      t.status.info = ⟨s.cmd.n - 4, s.cmd.cap, s.cmd.n + s.mem.m.read (s.cmd.n - 4) 4⟩ ∧ t.mem.m = s.mem.m

/-- Equivalence of the modes (derived in the spec: rule R187): on a buffer that holds the block and has room for the
output, in-place decoding ends with the same error kind, and on success with the same bytes. -/
def Obligations.ModesAreEquivalent : Prop :=
  ∀ s : State, s.mem.wf = true → s.cmd.n = s.mem.inp.len → s.mem.m.slice 0 s.cmd.n = some s.mem.inp.toBytes →
    s.cmd.n ≤ s.cmd.cap → s.cmd.cap ≤ s.mem.m.len → (∀ m, s.cmd.maxLen = some m → s.cmd.cap < m) →
    (12 ≤ s.cmd.n → s.cmd.n + s.mem.inp.read (s.cmd.n - 4) 4 ≤ s.cmd.cap) →
    ∃ t u, exec .blzDecompressS s = .next t ∧ exec .blzDecompressP s = .next u ∧
      u.status.err = t.status.err ∧
      (t.status.err = .ok → u.status.outLen = t.status.outLen ∧ t.mem.out.len = t.status.outLen ∧
        ∀ i, i < t.status.outLen → u.readByte .m i = t.readByte .out i)

/-- What an in-place decode leaves of `M` (rule R186): the bytes below `DEC.base` and at or above the end of the decoded
region are unchanged however it ends; after `MalformedFooter` all of `M` is unchanged. -/
def Obligations.InPlaceDecodeFrame : Prop :=
  ∀ s t : State, s.mem.wf = true → exec .blzDecompressP s = .next t →
    (t.status.err = .malformedFooter → t.mem.m = s.mem.m) ∧
    (t.status.err ≠ .malformedFooter → ∀ i, i < t.dec.base ∨ t.dec.base + t.dec.outLen ≤ i →
      t.readByte .m i = s.readByte .m i) ∧
    t.mem.inp = s.mem.inp

/-! ### All commands -/

/-- Every command ends, with one of the kinds the spec allows it, and never in a fault (derived in the spec: rules
R189, R242). -/
def Obligations.CommandsEndWithTheirKinds : Prop :=
  ∀ (op : Op) (s : State), NoFault (exec op.instr s) ∧
    ∀ t, exec op.instr s = .next t → t.status.err ∈ allowedKinds op

/-- What a command leaves alone (rules R51, R54): `IN` always; `M` unless it decodes in place; `OUT` when a command that
does not produce it ends with `OK`; of `CMD` everything but `op`; of the KIP registers the operands that `KIP.BUILD` and
`KIP.SERIALIZE` read and do not write, and the trailing data through `KIP.BUILD`.  Any other KIP register a command does not
write holds no value after it (rule R38), so nothing is said of it.  That those KIP registers stay (log 6), and `OUT` after
`KIP.PARSE` (log 24) and `KIP.BUILD` (log 34), is the model's choice: rules R51 and R54 list what a command writes, and no
rule says in words that the rest stays. -/
def Obligations.CommandsKeepOtherBuffers : Prop :=
  ∀ (op : Op) (s t : State), exec op.instr s = .next t →
    t.cmd = { s.cmd with op := op } ∧ t.mem.inp = s.mem.inp ∧
    (op ≠ .blzDecompressP → t.mem.m = s.mem.m) ∧
    (op = .blzFooter ∨ op = .blzDecompressP ∨ op = .kipParse ∨ op = .kipBuild → t.status.err = .ok →
      t.mem.out = s.mem.out) ∧
    (op = .kipBuild → t.kip.data = s.kip.data ∧ t.kip.trailing = s.kip.trailing) ∧
    (op = .kipSerialize → t.kip.hdr = s.kip.hdr ∧ t.kip.stored = s.kip.stored ∧ t.kip.trailing = s.kip.trailing)

/-- The same command on the same operands gives the same result, whatever ran before (derived in the spec: rules R35,
R281): only the command's own operands have to agree (`SameOperands`, rule R51), and two engines that agree on them end
alike, with the same error kind and on `OK` with the same results, or are refused alike. -/
def Obligations.ResultDependsOnOperandsAlone : Prop :=
  ∀ (op : Op) (s u : State), SameOperands op s u →
    (∀ t, exec op.instr s = .next t →
      ∃ v, exec op.instr u = .next v ∧ v.status.err = t.status.err ∧ (t.status.err = .ok → SameResult op t v)) ∧
    ∀ r, exec op.instr s = .refused r → exec op.instr u = .refused r

/-- The operands the model gives no meaning are refused by name (list U10, U12, U14 of
93_implementation_defined.md; logs 7, 8), ENC's stream among what may reach `MAX_LEN` (log 28); a stored-form terminator that is not zero is refused when it is read (log 9). -/
def Obligations.OutsideDomainIsRefused : Prop :=
  (∀ s : State, s.cmd.cap < s.cmd.n ∨ s.mem.m.len < s.cmd.cap →
    exec .blzDecompressP s = .refused .capacityOperand) ∧
  (∀ (s : State) (m : Nat), s.cmd.n ≤ s.cmd.cap → s.cmd.cap ≤ s.mem.m.len → s.cmd.maxLen = some m → m ≤ s.cmd.cap →
    exec .blzDecompressP s = .refused .lengthLimit) ∧
  (∀ (s : State) (i : Fin 6), s.kip.data[i] = none → exec .kipBuild s = .refused .dataMissing) ∧
  (∀ (s : State) (m : Nat), s.cmd.maxLen = some m → m ≤ s.mem.inp.len →
    exec .blzCompress s = .refused .lengthLimit ∧ exec .kipParse s = .refused .lengthLimit) ∧
  (∀ (s : State) (m : Nat), s.cmd.maxLen = some m →
    m ≤ (encodeRegs s.mem.inp.toBytes s.cmd.best (startCommand .blzCompress s)).stream.length →
    exec .blzCompress s = .refused .lengthLimit) ∧
  (∀ (s : State) (m : Nat) (i : Fin 6) (d : Bytes), s.cmd.maxLen = some m → (∀ j : Fin 6, s.kip.data[j] ≠ none) →
    s.kip.data[i] = some d → m ≤ d.length → exec .kipBuild s = .refused .lengthLimit) ∧
  (∀ (s : State) (m : Nat), s.cmd.maxLen = some m →
    m ≤ 256 + (s.kip.stored.toList.map List.length).sum + s.kip.trailing.length →
    exec .kipSerialize s = .refused .lengthLimit) ∧
  ∀ (s : State) (bs : Bytes), s.seq = .load .storedTerm → 4 ≤ blockLen s →
    (blockBuf s).slice (blockLen s - 4) 4 = some bs → leNat bs ≠ 0 → step s = .refused .undecodable

/-! ### Encoding -/

/-- `BLZ.COMPRESS` always produces a block (rules R120, R134, R135, R137 to R139, R143): which form is chosen, and every
byte of it, from the best point and the stream of ENC's scan (`encodeRegs`).  It writes `OUT` and no other buffer; ENC's
registers stay for inspection, its stream does not (rule R53); the KIP registers hold no value (rule R38; log 6), so
nothing is said of them.  An input below `2^32` bytes, as rule R139 asks.  Two things are the model's: where `MAX_LEN` is
bounded, that nothing but the lengths of the input, the block and `S` has to be below it (log 28; the two premises bound them
by rules R53 and R140), and that `S` does not survive (log 32). -/
def Obligations.CompressWritesBlock : Prop :=
  ∀ s : State,
    (∀ m, s.cmd.maxLen = some m → s.mem.inp.len + 7 < m ∧ s.mem.inp.len + (s.mem.inp.len + 7) / 8 < m) →
    s.mem.inp.len < 2 ^ 32 →
    ∃ t, exec .blzCompress s = .next t ∧ t.status.err = .ok ∧ t.status.outLen = t.mem.out.len ∧
      t.mem = { s.mem with out := t.mem.out } ∧ t.cmd = { s.cmd with op := .blzCompress } ∧
      let raw := s.mem.inp.toBytes
      let n := s.mem.inp.len
      let e := encodeRegs raw s.cmd.best (startCommand .blzCompress s)
      let P := e.rawBest
      let E := e.pakBest
      let p := (P + E + 3) / 4 * 4 - (P + E)
      t.enc = { e with stream := t.enc.stream } ∧
      if E = 0 ∨ n < P + E + p + 12 then
        t.status.form = .stored ∧
          t.mem.out.toBytes = raw ++ List.replicate ((n + 3) / 4 * 4 - n) 0x00#8 ++ [0x00, 0x00, 0x00, 0x00]
      else
        t.status.form = .compressed ∧
          t.mem.out.toBytes = raw.take P ++ (e.stream.take E).reverse ++ List.replicate p 0xFF#8
            ++ leBytes 4 (E + 12 + p) ++ leBytes 4 (12 + p) ++ leBytes 4 (n - E - P - 12 - p)

/-- Bounds of a compressed-form result (derived in the spec: rules R60, R94, R136): it is no longer than the input, its length
is a multiple of 4 and at least 20, and at least 6 bytes are encoded; so an input below 20 bytes is stored.  And the form is
reached at that bound: twenty equal bytes (rule R146's example, for every byte) give three literals and one back-reference in
twenty bytes.  The bytes of the `REF` rest on the spec's placement of its fields, which is PRESUMED (log 4). -/
def Obligations.CompressedFormBounds : Prop :=
  (∀ s t : State, exec .blzCompress s = .next t → t.status.form = .compressed →
    6 ≤ t.enc.pakBest ∧ 20 ≤ t.status.outLen ∧ t.status.outLen ≤ s.mem.inp.len ∧ t.status.outLen % 4 = 0 ∧
      t.enc.pakBest ≤ (encodeRegs s.mem.inp.toBytes s.cmd.best (startCommand .blzCompress s)).stream.length ∧
      t.enc.rawBest ≤ s.mem.inp.len) ∧
  ∀ (b : Byte) (s : State), s.mem.inp = Buffer.ofBytes (List.replicate 20 b) → s.cmd.matchOverlap = true →
    (∀ m, s.cmd.maxLen = some m → 20 < m) →
    ∃ t, exec .blzCompress s = .next t ∧ t.status.err = .ok ∧ t.status.form = .compressed ∧ t.status.outLen = 20 ∧
      t.mem.out.toBytes = [0x00, 0xE0, b, b, b, 0x10, 0xFF, 0xFF, 0x14, 0x00, 0x00, 0x00, 0x0E, 0x00, 0x00, 0x00,
        0x00, 0x00, 0x00, 0x00]

/-- The non-expansion bound (derived in the spec: rule R140), and the alignment of every block (rule R60). -/
def Obligations.CompressNeverExpandsBeyondSeven : Prop :=
  ∀ s t : State, exec .blzCompress s = .next t →
    t.mem.out.len ≤ s.mem.inp.len + 7 ∧ t.mem.out.len % 4 = 0

/-- `SEARCH` (rules R123 to R125): `L = 2` or a match of length 3 to 18 at an offset of 3 to 4098 that does not reach
before the start of the reversed view; no offset gives a longer match, and no nearer offset one as long. -/
def Obligations.SearchFindsNearestLongest : Prop :=
  ∀ (x : EncInput) (i : Nat), i ≤ x.rev.length →
    let Matches (pos len : Nat) : Prop :=
      len ≤ 18 ∧ (x.overlap = false → len ≤ pos) ∧ i + len ≤ x.rev.length ∧
        ∀ k, k < len → x.rev[i + k]? = x.rev[i + k - pos]?
    let L := (search x i).1
    let P := (search x i).2
    (L = 2 ∨ (3 ≤ L ∧ 3 ≤ P ∧ P ≤ 4098 ∧ P ≤ i ∧ Matches P L)) ∧
    ∀ pos len, 3 ≤ pos → pos ≤ 4098 → pos ≤ i → Matches pos len →
      len ≤ L ∧ (3 ≤ L → pos < P → len < L)

/-- `LOOKAHEAD` (rules R126, R127): in best mode a match that ends before the end of the data is degraded to a literal
when one literal and the next match are no worse; a search that finds nothing counts as length 1. -/
def Obligations.LookaheadDegradesToLiteral : Prop :=
  ∀ (x : EncInput) (e : EncRegs),
    let L := (search x e.i).1
    let P := (search x e.i).2
    let next := if (search x (e.i + L)).1 ≤ 2 then 1 else (search x (e.i + L)).1
    let post := if (search x (e.i + 1)).1 ≤ 2 then 1 else (search x (e.i + 1)).1
    if x.best = true ∧ 2 < L ∧ e.i + L < e.n ∧ L + next ≤ 1 + post then (choose x e).bestLen = 1
    else (choose x e).bestLen = L ∧ (2 < L → (choose x e).bestOff = P)

/-- One item of the scan (rules R128, R129, R132): a group is opened when none is open; a chosen match longer than 2 sets
flag `0x80 >> cnt` of the group's control byte and appends the two bytes of its `REF`, the high byte first; any other choice
appends the byte at the scan position and leaves the flags; the tracked pair is replaced exactly when the new sum is
strictly smaller.  Which match is chosen is `LookaheadDegradesToLiteral`'s matter.  The place of the fields in the `REF` is
PRESUMED by the spec (log 4). -/
def Obligations.EncodeItemEmitsAndTracks : Prop :=
  ∀ (x : EncInput) (e : EncRegs), e.i < x.rev.length → e.cnt < 8 →
    (e.cnt ≠ 0 → e.flg < e.stream.length) →
    let group := if e.cnt = 0 then e.stream ++ [0x00#8] else e.stream
    let at' := if e.cnt = 0 then e.stream.length else e.flg
    let L := (choose x e).bestLen
    let P := (choose x e).bestOff
    let r := encodeItem x e
    (if 2 < L then
      r.i = e.i + L ∧ ∃ c, group[at']? = some c ∧
        r.stream = group.set at' (c + BitVec.ofNat 8 (2 ^ (7 - e.cnt)))
          ++ [BitVec.ofNat 8 (((L - 3) * 4096 + (P - 3)) / 256), BitVec.ofNat 8 (((L - 3) * 4096 + (P - 3)) % 256)]
    else r.i = e.i + 1 ∧ ∃ b, x.rev[e.i]? = some b ∧ r.stream = group ++ [b]) ∧
    r.flg = at' ∧ r.cnt = (e.cnt + 1) % 8 ∧ r.n = e.n ∧
    if r.stream.length + (e.n - r.i) < e.pakBest + e.rawBest then
      r.pakBest = r.stream.length ∧ r.rawBest = e.n - r.i
    else r.pakBest = e.pakBest ∧ r.rawBest = e.rawBest

/-- The scan's bookkeeping (rules R53, R131, R132; R131 is derived in the spec): the whole input is consumed, the stream
stays within its bound, and the best point is no worse than encoding nothing.  The best point of any scan is the smallest sum
of encoded bytes and remaining raw bytes over all its points, the start among them, and of several the earliest. -/
def Obligations.ScanConsumesWholeInput : Prop :=
  (∀ s t : State, exec .blzCompress s = .next t →
    let e := encodeRegs s.mem.inp.toBytes s.cmd.best (startCommand .blzCompress s)
    t.enc = { e with stream := t.enc.stream } ∧ e.n = s.mem.inp.len ∧ e.i = e.n ∧ e.cnt ≤ 7 ∧
      e.stream.length ≤ e.n + (e.n + 7) / 8 ∧ e.pakBest + e.rawBest ≤ e.n ∧
      e.pakBest + e.rawBest ≤ e.stream.length) ∧
  ∀ (x : EncInput) (raw : Bytes) (e : EncRegs), x.rev = raw.reverse →
    let point (k : Nat) : EncRegs := scan x k (startEncode raw e)
    let sum (k : Nat) : Nat := (point k).stream.length + (raw.length - (point k).i)
    ∃ k, k ≤ raw.length ∧ (point raw.length).pakBest = (point k).stream.length ∧
      (point raw.length).rawBest = raw.length - (point k).i ∧
      ∀ j, j ≤ raw.length → sum k ≤ sum j ∧ (j < k → sum k < sum j)

/-- Round trip (derived in the spec: rule R141): strict decoding of a compressed-form block returns exactly the input,
for both values of `best` and of `MATCH_OVERLAP`. -/
def Obligations.CompressThenStrictDecode : Prop :=
  ∀ s t u : State, s.mem.inp.len < 2 ^ 32 → exec .blzCompress s = .next t → t.status.form = .compressed →
    u.mem.inp = t.mem.out → 15 ≤ u.cmd.hdrMax → (∀ m, u.cmd.maxLen = some m → s.mem.inp.len < m) →
    ∃ v, exec .blzDecompressS u = .next v ∧ v.status.err = .ok ∧ v.mem.out.toBytes = s.mem.inp.toBytes

/-- Round trip in place (derived in the spec: rules R74, R141): the same in a buffer whose capacity is the input's
length. -/
def Obligations.CompressThenInPlaceDecode : Prop :=
  ∀ s t u : State, s.mem.inp.len < 2 ^ 32 → exec .blzCompress s = .next t → t.status.form = .compressed →
    u.mem.wf = true → u.cmd.n = t.status.outLen → u.cmd.cap = s.mem.inp.len → s.mem.inp.len ≤ u.mem.m.len →
    u.mem.m.slice 0 u.cmd.n = some t.mem.out.toBytes → 15 ≤ u.cmd.hdrMax →
    (∀ m, u.cmd.maxLen = some m → s.mem.inp.len < m) →
    ∃ v, exec .blzDecompressP u = .next v ∧ v.status.err = .ok ∧
      v.mem.m.slice 0 s.mem.inp.len = some s.mem.inp.toBytes

/-! ### Container -/

/-- Every header field that is read loads its own register and changes nothing else (rules R29 to R32, R202). -/
def Obligations.HeaderFieldsLoadRegisters : Prop :=
  ∀ s : State, (∀ p, s.seq ≠ .emit p) →
    exec (.kipMagic Config.kipMagic) s
      = .next { s with kip := { s.kip with hdr := { s.kip.hdr with magic := 0x3150494B } } } ∧
    (∀ v, exec (.kipName v) s = .next { s with kip := { s.kip with hdr := { s.kip.hdr with name := v } } }) ∧
    (∀ v, exec (.kipTitleId v) s = .next { s with kip := { s.kip with hdr := { s.kip.hdr with titleId := v } } }) ∧
    (∀ v, exec (.kipProcessCategory v) s
      = .next { s with kip := { s.kip with hdr := { s.kip.hdr with processCategory := v } } }) ∧
    (∀ v, exec (.kipThreadPriority v) s
      = .next { s with kip := { s.kip with hdr := { s.kip.hdr with threadPriority := v } } }) ∧
    (∀ v, exec (.kipDefaultCpuId v) s
      = .next { s with kip := { s.kip with hdr := { s.kip.hdr with defaultCpuId := v } } }) ∧
    (∀ v, exec (.kipReserved v) s = .next { s with kip := { s.kip with hdr := { s.kip.hdr with reserved := v } } }) ∧
    (∀ v, exec (.kipFlags v) s = .next { s with kip := { s.kip with hdr := { s.kip.hdr with flags := v } } }) ∧
    (∀ (i : Fin 6) d, exec (.kipSeg i d) s
      = .next { s with kip := { s.kip with hdr := { s.kip.hdr with seg := s.kip.hdr.seg.set i d } } }) ∧
    (∀ (j : Fin 32) v, exec (.kipCap j v) s
      = .next { s with kip := { s.kip with hdr := { s.kip.hdr with cap := s.kip.hdr.cap.set j v } } })

/-- A magic that does not match exactly raises `InvalidMagic` with offset 0 (rules R101, R240). -/
def Obligations.WrongMagicRaises : Prop :=
  ∀ (w : W32) (s : State), (∀ p, s.seq ≠ .emit p) → w ≠ 0x3150494B →
    ∃ t, exec (.kipMagic w) s = .next t ∧ t.status.err = .invalidMagic ∧ t.status.info.offset = 0 ∧
      t.seq = .idle ∧ t.mem.inp = s.mem.inp

/-- The header image stored and loaded again (rules R29 to R32, R202, R222): exactly 256 bytes, read back field for
field, the magic always the constant; and loaded then stored it gives the file's first 256 bytes. -/
def Obligations.HeaderImageRoundTrip : Prop :=
  (∀ (h : KipHeader) (rest : Bytes), (headerBytes h).length = 256 ∧
    readHeader (Buffer.ofBytes (headerBytes h ++ rest)) = { h with magic := Config.kipMagic }) ∧
  ∀ f : Buffer, 256 ≤ f.len → (readHeader f).magic = Config.kipMagic →
    f.slice 0 256 = some (headerBytes (readHeader f))

/-- The header stepped one field at a time: reading a file whose magic matches loads the image `KIP.PARSE` loads, writing
appends the 256 bytes `KIP.SERIALIZE` writes (rules R202, R222).  Two things are the model's choice: the positions of the
sequencer (log 1), and that a field is read and written also where the file or `OUT` reaches a bounded `MAX_LEN`, where the
two commands refuse (list U14; log 33, unsafe there). -/
def Obligations.HeaderStepsMatchImage : Prop :=
  (∀ s : State, s.seq = .load .kipMagic → 256 ≤ s.mem.inp.len →
    (readHeader s.mem.inp).magic = Config.kipMagic →
    runSteps 46 s = .next { s with kip := { s.kip with hdr := readHeader s.mem.inp }, seq := .idle }) ∧
  ∀ s : State, s.seq = .emit .kipMagic → s.mem.wf = true →
    ∃ t, runSteps 46 s = .next t ∧ t = { s with mem := { s.mem with out := t.mem.out }, seq := .idle } ∧
      t.mem.out.toBytes = s.mem.out.toBytes ++ headerBytes s.kip.hdr

/-- The container-level checks of `KIP.PARSE`, in their order (rules R201, R210). -/
def Obligations.ParseChecksContainer : Prop :=
  ∀ s : State, (∀ m, s.cmd.maxLen = some m → s.mem.inp.len < m) →
    let n := s.mem.inp.len
    (n < 4 → ∃ t, exec .kipParse s = .next t ∧ t.status.err = .truncated ∧ t.status.info = ⟨0, 4, n⟩) ∧
    (4 ≤ n → s.mem.inp.read 0 4 ≠ 0x3150494B →
      ∃ t, exec .kipParse s = .next t ∧ t.status.err = .invalidMagic ∧ t.status.info.offset = 0) ∧
    (4 ≤ n → s.mem.inp.read 0 4 = 0x3150494B → n < 256 →
      ∃ t, exec .kipParse s = .next t ∧ t.status.err = .truncated ∧ t.status.info = ⟨0, 256, n⟩)

/-- `KIP.PARSE` of a file that holds all its segments (rules R201 to R209): the header image, the extents, every segment
classified and given its data, the trailing data; the decode of a flagged segment is what `BLZ.DECOMPRESS.S` gives on
exactly its stored bytes, and its failure touches no other segment.  No buffer is written: that `OUT` too is as it was is
the model's choice (log 24). -/
def Obligations.ParseSplitsFile : Prop :=
  ∀ s : State, (∀ m, s.cmd.maxLen = some m → s.mem.inp.len < m) → 256 ≤ s.mem.inp.len →
    (readHeader s.mem.inp).magic = Config.kipMagic →
    segStart (readHeader s.mem.inp) 6 ≤ s.mem.inp.len →
    let h := readHeader s.mem.inp
    ∃ t, exec .kipParse s = .next t ∧ t.status.err = .ok ∧ t.mem = s.mem ∧ t.kip.hdr = h ∧
      t.kip.pos = segStart h 6 ∧
      s.mem.inp.slice (segStart h 6) (s.mem.inp.len - segStart h 6) = some t.kip.trailing ∧
      ∀ i : Fin 6, ∃ stored,
        s.mem.inp.slice (segStart h i.val) (h.seg[i]).compressedSize.toNat = some stored ∧
        if (h.seg[i]).compressedSize = 0 then t.kip.segstat[i] = .absent ∧ t.kip.data[i] = some []
        else if i.val < 3 ∧ h.flags.getLsbD i.val = true then
          ∃ u, exec .blzDecompressS (giveInput stored s) = .next u ∧
            (u.status.err = .ok → t.kip.data[i] = some u.mem.out.toBytes ∧
              t.kip.segstat[i] = if u.mem.out.len = (h.seg[i]).decompressedSize.toNat then .decoded
                else .sizeMismatch) ∧
            (u.status.err = .malformedFooter → t.kip.data[i] = none ∧
              t.kip.segstat[i] = .failed .malformedFooter) ∧
            (u.status.err = .outOfBounds → t.kip.data[i] = none ∧ t.kip.segstat[i] = .failed .outOfBounds)
        else t.kip.segstat[i] = .verbatim ∧ t.kip.data[i] = some stored

/-- `KIP.PARSE` of a file that ends inside a segment raises `Truncated` with that segment's offset, its size and the
bytes left (rules R203, R210). -/
def Obligations.ParseShortSegmentTruncated : Prop :=
  ∀ (s : State) (i : Fin 6), (∀ m, s.cmd.maxLen = some m → s.mem.inp.len < m) → 256 ≤ s.mem.inp.len →
    (readHeader s.mem.inp).magic = Config.kipMagic →
    segStart (readHeader s.mem.inp) i.val ≤ s.mem.inp.len →
    s.mem.inp.len < segStart (readHeader s.mem.inp) (i.val + 1) →
    ∃ t, exec .kipParse s = .next t ∧ t.status.err = .truncated ∧
      t.status.info = ⟨segStart (readHeader s.mem.inp) i.val,
        ((readHeader s.mem.inp).seg[i]).compressedSize.toNat,
        s.mem.inp.len - segStart (readHeader s.mem.inp) i.val⟩

/-- `KIP.BUILD` (rules R211 to R217): each of the first three segments is compressed in best mode and the block kept, with
its flag bit set, exactly when it is strictly shorter; the others are stored raw; all six `compressed_size` fields and
`flags[2:0]` are rewritten, nothing else of the KIP registers that hold a value (`KIP.pos` and `KIP.SEGSTAT` hold none,
rule R38), and no buffer.  Three things are the model's: where `MAX_LEN` is bounded, which lengths have to be below it, ENC's
stream among them (log 28); that the data and the trailing data stay (log 6); that `OUT` stays although ENC ran (log 34). -/
def Obligations.BuildStoresSegments : Prop :=
  ∀ s : State, (∀ i : Fin 6, s.kip.data[i] ≠ none) →
    (∀ (m : Nat) (i : Fin 6) (d : Bytes), s.cmd.maxLen = some m → s.kip.data[i] = some d →
      d.length + 7 < m ∧ d.length + (d.length + 7) / 8 < m) →
    ∃ t, exec .kipBuild s = .next t ∧ t.status.err = .ok ∧ t.mem = s.mem ∧
      t.kip = { s.kip with stored := t.kip.stored, pos := t.kip.pos, segstat := t.kip.segstat
                           hdr := { s.kip.hdr with seg := t.kip.hdr.seg, flags := t.kip.hdr.flags } } ∧
      (∀ b, 3 ≤ b → t.kip.hdr.flags.getLsbD b = s.kip.hdr.flags.getLsbD b) ∧
      ∀ (i : Fin 6) (d : Bytes), s.kip.data[i] = some d →
        t.kip.hdr.seg[i] = { s.kip.hdr.seg[i] with compressedSize := (t.kip.hdr.seg[i]).compressedSize } ∧
        ((t.kip.stored[i]).length < 2 ^ 32 →
          (t.kip.hdr.seg[i]).compressedSize.toNat = (t.kip.stored[i]).length) ∧
        if i.val < 3 then
          ∃ u, exec .blzCompress (setBest true (giveInput d s)) = .next u ∧
            t.kip.stored[i] = (if u.mem.out.len < d.length then u.mem.out.toBytes else d) ∧
            t.kip.hdr.flags.getLsbD i.val = decide (u.mem.out.len < d.length)
        else t.kip.stored[i] = d

/-- `KIP.SERIALIZE` (rules R221, R223): header, stored bytes in index order, trailing bytes, whatever they hold; it writes
`OUT` and no other buffer, and keeps the KIP registers that are its operands; the others hold no value (rule R38).  That
the operands stay (log 6), and which lengths have to be below a bounded `MAX_LEN` (log 8), is the model's. -/
def Obligations.SerializeWritesFile : Prop :=
  ∀ s : State,
    (∀ m, s.cmd.maxLen = some m →
      256 + (s.kip.stored.toList.map List.length).sum + s.kip.trailing.length < m) →
    ∃ t, exec .kipSerialize s = .next t ∧ t.status.err = .ok ∧
      t.kip = { s.kip with pos := t.kip.pos, data := t.kip.data, segstat := t.kip.segstat } ∧
      t.mem = { s.mem with out := t.mem.out } ∧ t.status.outLen = t.mem.out.len ∧
      t.mem.out.len = 256 + (s.kip.stored.toList.map List.length).sum + s.kip.trailing.length ∧
      t.mem.out.toBytes = headerBytes s.kip.hdr ++ s.kip.stored.toList.flatten ++ s.kip.trailing

/-- Re-serialization reproduces the file (derived in the spec: rule R226): when no segment failed to decode and rebuilding
gives back the stored bytes and the flag bits of the file, `KIP.SERIALIZE` writes the file again, byte for byte. -/
def Obligations.SerializeReproducesFile : Prop :=
  ∀ s t u : State, exec .kipParse s = .next t → t.status.err = .ok → exec .kipBuild t = .next u →
    (∀ i : Fin 6, s.mem.inp.slice (segStart t.kip.hdr i.val) (t.kip.hdr.seg[i]).compressedSize.toNat
      = some (u.kip.stored[i])) →
    u.kip.hdr.flags = t.kip.hdr.flags →
    ∃ v, exec .kipSerialize u = .next v ∧ v.status.err = .ok ∧ v.mem.out.toBytes = s.mem.inp.toBytes

/-- Build, serialize, parse (derived in the spec: rule R227): the segment data, the trailing data and the header come
back, each segment classified as it was stored.  The length limit is switched off. -/
def Obligations.BuildSerializeParse : Prop :=
  ∀ s : State, s.cmd.maxLen = none → 15 ≤ s.cmd.hdrMax →
    (∀ i : Fin 6, ∃ d, s.kip.data[i] = some d ∧ d.length < 2 ^ 32) →
    ∃ t u v, exec .kipBuild s = .next t ∧ exec .kipSerialize t = .next u ∧
      exec .kipParse (giveInput u.mem.out.toBytes u) = .next v ∧ v.status.err = .ok ∧
      v.kip.data = s.kip.data ∧ v.kip.trailing = s.kip.trailing ∧
      v.kip.hdr = { t.kip.hdr with magic := Config.kipMagic } ∧
      ∀ (i : Fin 6) (d : Bytes), s.kip.data[i] = some d →
        v.kip.segstat[i] =
          if d = [] then .absent
          else if i.val < 3 ∧ t.kip.hdr.flags.getLsbD i.val = true then
            (if d.length = (s.kip.hdr.seg[i]).decompressedSize.toNat then .decoded else .sizeMismatch)
          else .verbatim
end

