-- ==== Sys2Proof/Laws/State.lean ====
section
/-! SUPPORT. One lemma per field per update of the state, true by `rfl`, so that no proof unfolds a record
update. -/

namespace Sys2Proof.Machine

variable (s : State)

@[simp] theorem State.withCmd_cmd (x : CmdRegs) : (s.withCmd x).cmd = x := rfl
@[simp] theorem State.withCmd_status (x : CmdRegs) : (s.withCmd x).status = s.status := rfl
@[simp] theorem State.withCmd_ftr (x : CmdRegs) : (s.withCmd x).ftr = s.ftr := rfl
@[simp] theorem State.withCmd_dec (x : CmdRegs) : (s.withCmd x).dec = s.dec := rfl
@[simp] theorem State.withCmd_enc (x : CmdRegs) : (s.withCmd x).enc = s.enc := rfl
@[simp] theorem State.withCmd_kip (x : CmdRegs) : (s.withCmd x).kip = s.kip := rfl
@[simp] theorem State.withCmd_mem (x : CmdRegs) : (s.withCmd x).mem = s.mem := rfl
@[simp] theorem State.withCmd_seq (x : CmdRegs) : (s.withCmd x).seq = s.seq := rfl
@[simp] theorem State.withCmd_free (x : CmdRegs) : (s.withCmd x).free = s.free := rfl

@[simp] theorem State.withStatus_cmd (x : StatusRegs) : (s.withStatus x).cmd = s.cmd := rfl
@[simp] theorem State.withStatus_status (x : StatusRegs) : (s.withStatus x).status = x := rfl
@[simp] theorem State.withStatus_ftr (x : StatusRegs) : (s.withStatus x).ftr = s.ftr := rfl
@[simp] theorem State.withStatus_dec (x : StatusRegs) : (s.withStatus x).dec = s.dec := rfl
@[simp] theorem State.withStatus_enc (x : StatusRegs) : (s.withStatus x).enc = s.enc := rfl
@[simp] theorem State.withStatus_kip (x : StatusRegs) : (s.withStatus x).kip = s.kip := rfl
@[simp] theorem State.withStatus_mem (x : StatusRegs) : (s.withStatus x).mem = s.mem := rfl
@[simp] theorem State.withStatus_seq (x : StatusRegs) : (s.withStatus x).seq = s.seq := rfl
@[simp] theorem State.withStatus_free (x : StatusRegs) : (s.withStatus x).free = s.free := rfl

@[simp] theorem State.withFtr_cmd (x : FtrRegs) : (s.withFtr x).cmd = s.cmd := rfl
@[simp] theorem State.withFtr_status (x : FtrRegs) : (s.withFtr x).status = s.status := rfl
@[simp] theorem State.withFtr_ftr (x : FtrRegs) : (s.withFtr x).ftr = x := rfl
@[simp] theorem State.withFtr_dec (x : FtrRegs) : (s.withFtr x).dec = s.dec := rfl
@[simp] theorem State.withFtr_enc (x : FtrRegs) : (s.withFtr x).enc = s.enc := rfl
@[simp] theorem State.withFtr_kip (x : FtrRegs) : (s.withFtr x).kip = s.kip := rfl
@[simp] theorem State.withFtr_mem (x : FtrRegs) : (s.withFtr x).mem = s.mem := rfl
@[simp] theorem State.withFtr_seq (x : FtrRegs) : (s.withFtr x).seq = s.seq := rfl
@[simp] theorem State.withFtr_free (x : FtrRegs) : (s.withFtr x).free = s.free := rfl

@[simp] theorem State.withDec_cmd (x : DecRegs) : (s.withDec x).cmd = s.cmd := rfl
@[simp] theorem State.withDec_status (x : DecRegs) : (s.withDec x).status = s.status := rfl
@[simp] theorem State.withDec_ftr (x : DecRegs) : (s.withDec x).ftr = s.ftr := rfl
@[simp] theorem State.withDec_dec (x : DecRegs) : (s.withDec x).dec = x := rfl
@[simp] theorem State.withDec_enc (x : DecRegs) : (s.withDec x).enc = s.enc := rfl
@[simp] theorem State.withDec_kip (x : DecRegs) : (s.withDec x).kip = s.kip := rfl
@[simp] theorem State.withDec_mem (x : DecRegs) : (s.withDec x).mem = s.mem := rfl
@[simp] theorem State.withDec_seq (x : DecRegs) : (s.withDec x).seq = s.seq := rfl
@[simp] theorem State.withDec_free (x : DecRegs) : (s.withDec x).free = s.free := rfl

@[simp] theorem State.withEnc_cmd (x : EncRegs) : (s.withEnc x).cmd = s.cmd := rfl
@[simp] theorem State.withEnc_status (x : EncRegs) : (s.withEnc x).status = s.status := rfl
@[simp] theorem State.withEnc_ftr (x : EncRegs) : (s.withEnc x).ftr = s.ftr := rfl
@[simp] theorem State.withEnc_dec (x : EncRegs) : (s.withEnc x).dec = s.dec := rfl
@[simp] theorem State.withEnc_enc (x : EncRegs) : (s.withEnc x).enc = x := rfl
@[simp] theorem State.withEnc_kip (x : EncRegs) : (s.withEnc x).kip = s.kip := rfl
@[simp] theorem State.withEnc_mem (x : EncRegs) : (s.withEnc x).mem = s.mem := rfl
@[simp] theorem State.withEnc_seq (x : EncRegs) : (s.withEnc x).seq = s.seq := rfl
@[simp] theorem State.withEnc_free (x : EncRegs) : (s.withEnc x).free = s.free := rfl

@[simp] theorem State.withKip_cmd (x : KipRegs) : (s.withKip x).cmd = s.cmd := rfl
@[simp] theorem State.withKip_status (x : KipRegs) : (s.withKip x).status = s.status := rfl
@[simp] theorem State.withKip_ftr (x : KipRegs) : (s.withKip x).ftr = s.ftr := rfl
@[simp] theorem State.withKip_dec (x : KipRegs) : (s.withKip x).dec = s.dec := rfl
@[simp] theorem State.withKip_enc (x : KipRegs) : (s.withKip x).enc = s.enc := rfl
@[simp] theorem State.withKip_kip (x : KipRegs) : (s.withKip x).kip = x := rfl
@[simp] theorem State.withKip_mem (x : KipRegs) : (s.withKip x).mem = s.mem := rfl
@[simp] theorem State.withKip_seq (x : KipRegs) : (s.withKip x).seq = s.seq := rfl
@[simp] theorem State.withKip_free (x : KipRegs) : (s.withKip x).free = s.free := rfl

@[simp] theorem State.withMem_cmd (x : Memory) : (s.withMem x).cmd = s.cmd := rfl
@[simp] theorem State.withMem_status (x : Memory) : (s.withMem x).status = s.status := rfl
@[simp] theorem State.withMem_ftr (x : Memory) : (s.withMem x).ftr = s.ftr := rfl
@[simp] theorem State.withMem_dec (x : Memory) : (s.withMem x).dec = s.dec := rfl
@[simp] theorem State.withMem_enc (x : Memory) : (s.withMem x).enc = s.enc := rfl
@[simp] theorem State.withMem_kip (x : Memory) : (s.withMem x).kip = s.kip := rfl
@[simp] theorem State.withMem_mem (x : Memory) : (s.withMem x).mem = x := rfl
@[simp] theorem State.withMem_seq (x : Memory) : (s.withMem x).seq = s.seq := rfl
@[simp] theorem State.withMem_free (x : Memory) : (s.withMem x).free = s.free := rfl

@[simp] theorem State.withSeq_cmd (x : Seq) : (s.withSeq x).cmd = s.cmd := rfl
@[simp] theorem State.withSeq_status (x : Seq) : (s.withSeq x).status = s.status := rfl
@[simp] theorem State.withSeq_ftr (x : Seq) : (s.withSeq x).ftr = s.ftr := rfl
@[simp] theorem State.withSeq_dec (x : Seq) : (s.withSeq x).dec = s.dec := rfl
@[simp] theorem State.withSeq_enc (x : Seq) : (s.withSeq x).enc = s.enc := rfl
@[simp] theorem State.withSeq_kip (x : Seq) : (s.withSeq x).kip = s.kip := rfl
@[simp] theorem State.withSeq_mem (x : Seq) : (s.withSeq x).mem = s.mem := rfl
@[simp] theorem State.withSeq_seq (x : Seq) : (s.withSeq x).seq = x := rfl
@[simp] theorem State.withSeq_free (x : Seq) : (s.withSeq x).free = s.free := rfl

@[simp] theorem State.withFree_cmd (x : Nat) : (s.withFree x).cmd = s.cmd := rfl
@[simp] theorem State.withFree_status (x : Nat) : (s.withFree x).status = s.status := rfl
@[simp] theorem State.withFree_ftr (x : Nat) : (s.withFree x).ftr = s.ftr := rfl
@[simp] theorem State.withFree_dec (x : Nat) : (s.withFree x).dec = s.dec := rfl
@[simp] theorem State.withFree_enc (x : Nat) : (s.withFree x).enc = s.enc := rfl
@[simp] theorem State.withFree_kip (x : Nat) : (s.withFree x).kip = s.kip := rfl
@[simp] theorem State.withFree_mem (x : Nat) : (s.withFree x).mem = s.mem := rfl
@[simp] theorem State.withFree_seq (x : Nat) : (s.withFree x).seq = s.seq := rfl
@[simp] theorem State.withFree_free (x : Nat) : (s.withFree x).free = x := rfl

@[simp] theorem State.withInp_cmd (x : Buffer) : (s.withInp x).cmd = s.cmd := rfl
@[simp] theorem State.withInp_status (x : Buffer) : (s.withInp x).status = s.status := rfl
@[simp] theorem State.withInp_ftr (x : Buffer) : (s.withInp x).ftr = s.ftr := rfl
@[simp] theorem State.withInp_dec (x : Buffer) : (s.withInp x).dec = s.dec := rfl
@[simp] theorem State.withInp_enc (x : Buffer) : (s.withInp x).enc = s.enc := rfl
@[simp] theorem State.withInp_kip (x : Buffer) : (s.withInp x).kip = s.kip := rfl
@[simp] theorem State.withInp_seq (x : Buffer) : (s.withInp x).seq = s.seq := rfl
@[simp] theorem State.withInp_free (x : Buffer) : (s.withInp x).free = s.free := rfl
@[simp] theorem State.withInp_mem_inp (x : Buffer) : (s.withInp x).mem.inp = x := rfl
@[simp] theorem State.withInp_mem_out (x : Buffer) : (s.withInp x).mem.out = s.mem.out := rfl
@[simp] theorem State.withInp_mem_m (x : Buffer) : (s.withInp x).mem.m = s.mem.m := rfl

@[simp] theorem State.withOut_cmd (x : Buffer) : (s.withOut x).cmd = s.cmd := rfl
@[simp] theorem State.withOut_status (x : Buffer) : (s.withOut x).status = s.status := rfl
@[simp] theorem State.withOut_ftr (x : Buffer) : (s.withOut x).ftr = s.ftr := rfl
@[simp] theorem State.withOut_dec (x : Buffer) : (s.withOut x).dec = s.dec := rfl
@[simp] theorem State.withOut_enc (x : Buffer) : (s.withOut x).enc = s.enc := rfl
@[simp] theorem State.withOut_kip (x : Buffer) : (s.withOut x).kip = s.kip := rfl
@[simp] theorem State.withOut_seq (x : Buffer) : (s.withOut x).seq = s.seq := rfl
@[simp] theorem State.withOut_free (x : Buffer) : (s.withOut x).free = s.free := rfl
@[simp] theorem State.withOut_mem_inp (x : Buffer) : (s.withOut x).mem.inp = s.mem.inp := rfl
@[simp] theorem State.withOut_mem_out (x : Buffer) : (s.withOut x).mem.out = x := rfl
@[simp] theorem State.withOut_mem_m (x : Buffer) : (s.withOut x).mem.m = s.mem.m := rfl

@[simp] theorem State.withM_cmd (x : Buffer) : (s.withM x).cmd = s.cmd := rfl
@[simp] theorem State.withM_status (x : Buffer) : (s.withM x).status = s.status := rfl
@[simp] theorem State.withM_ftr (x : Buffer) : (s.withM x).ftr = s.ftr := rfl
@[simp] theorem State.withM_dec (x : Buffer) : (s.withM x).dec = s.dec := rfl
@[simp] theorem State.withM_enc (x : Buffer) : (s.withM x).enc = s.enc := rfl
@[simp] theorem State.withM_kip (x : Buffer) : (s.withM x).kip = s.kip := rfl
@[simp] theorem State.withM_seq (x : Buffer) : (s.withM x).seq = s.seq := rfl
@[simp] theorem State.withM_free (x : Buffer) : (s.withM x).free = s.free := rfl
@[simp] theorem State.withM_mem_inp (x : Buffer) : (s.withM x).mem.inp = s.mem.inp := rfl
@[simp] theorem State.withM_mem_out (x : Buffer) : (s.withM x).mem.out = s.mem.out := rfl
@[simp] theorem State.withM_mem_m (x : Buffer) : (s.withM x).mem.m = x := rfl

@[simp] theorem State.withHdr_cmd (x : KipHeader) : (s.withHdr x).cmd = s.cmd := rfl
@[simp] theorem State.withHdr_status (x : KipHeader) : (s.withHdr x).status = s.status := rfl
@[simp] theorem State.withHdr_ftr (x : KipHeader) : (s.withHdr x).ftr = s.ftr := rfl
@[simp] theorem State.withHdr_dec (x : KipHeader) : (s.withHdr x).dec = s.dec := rfl
@[simp] theorem State.withHdr_enc (x : KipHeader) : (s.withHdr x).enc = s.enc := rfl
@[simp] theorem State.withHdr_mem (x : KipHeader) : (s.withHdr x).mem = s.mem := rfl
@[simp] theorem State.withHdr_seq (x : KipHeader) : (s.withHdr x).seq = s.seq := rfl
@[simp] theorem State.withHdr_free (x : KipHeader) : (s.withHdr x).free = s.free := rfl
@[simp] theorem State.withHdr_kip_hdr (x : KipHeader) : (s.withHdr x).kip.hdr = x := rfl
@[simp] theorem State.withHdr_kip_pos (x : KipHeader) : (s.withHdr x).kip.pos = s.kip.pos := rfl
@[simp] theorem State.withHdr_kip_data (x : KipHeader) : (s.withHdr x).kip.data = s.kip.data := rfl
@[simp] theorem State.withHdr_kip_stored (x : KipHeader) : (s.withHdr x).kip.stored = s.kip.stored := rfl
@[simp] theorem State.withHdr_kip_segstat (x : KipHeader) : (s.withHdr x).kip.segstat = s.kip.segstat := rfl
@[simp] theorem State.withHdr_kip_trailing (x : KipHeader) : (s.withHdr x).kip.trailing = s.kip.trailing := rfl

/-! ### Flag consumption and the command start -/

@[simp] theorem consumeFlag_cmd : (consumeFlag s).cmd = s.cmd := rfl
@[simp] theorem consumeFlag_status : (consumeFlag s).status = s.status := rfl
@[simp] theorem consumeFlag_ftr : (consumeFlag s).ftr = s.ftr := rfl
@[simp] theorem consumeFlag_enc : (consumeFlag s).enc = s.enc := rfl
@[simp] theorem consumeFlag_kip : (consumeFlag s).kip = s.kip := rfl
@[simp] theorem consumeFlag_mem : (consumeFlag s).mem = s.mem := rfl
@[simp] theorem consumeFlag_seq : (consumeFlag s).seq = s.seq := rfl
@[simp] theorem consumeFlag_free : (consumeFlag s).free = s.free := rfl
@[simp] theorem consumeFlag_dec_r : (consumeFlag s).dec.r = s.dec.r := rfl
@[simp] theorem consumeFlag_dec_w : (consumeFlag s).dec.w = s.dec.w := rfl
@[simp] theorem consumeFlag_dec_k : (consumeFlag s).dec.k = s.dec.k - 1 := rfl
@[simp] theorem consumeFlag_dec_base : (consumeFlag s).dec.base = s.dec.base := rfl
@[simp] theorem consumeFlag_dec_outLen : (consumeFlag s).dec.outLen = s.dec.outLen := rfl
@[simp] theorem consumeFlag_dec_run : (consumeFlag s).dec.run = s.dec.run := rfl

@[simp] theorem startCommand_cmd (op : Op) : (startCommand op s).cmd = { s.cmd with op := op } := rfl
@[simp] theorem startCommand_status (op : Op) : (startCommand op s).status = freeStatus s.free s.status.err := rfl
@[simp] theorem startCommand_ftr (op : Op) : (startCommand op s).ftr = freeFtr s.free := rfl
@[simp] theorem startCommand_dec (op : Op) : (startCommand op s).dec = freeDec s.free := rfl
@[simp] theorem startCommand_enc (op : Op) : (startCommand op s).enc = freeEnc s.free := rfl
@[simp] theorem startCommand_kip (op : Op) : (startCommand op s).kip = startKip op s.free s.kip := rfl
@[simp] theorem startKip_blzCompress (e : Nat) (k : KipRegs) : startKip .blzCompress e k = freeKip e := rfl
@[simp] theorem startKip_blzFooter (e : Nat) (k : KipRegs) : startKip .blzFooter e k = freeKip e := rfl
@[simp] theorem startKip_blzDecompressS (e : Nat) (k : KipRegs) : startKip .blzDecompressS e k = freeKip e := rfl
@[simp] theorem startKip_blzDecompressP (e : Nat) (k : KipRegs) : startKip .blzDecompressP e k = freeKip e := rfl
@[simp] theorem startKip_kipParse (e : Nat) (k : KipRegs) : startKip .kipParse e k = freeKip e := rfl
@[simp] theorem startKip_kipBuild_hdr (e : Nat) (k : KipRegs) : (startKip .kipBuild e k).hdr = k.hdr := rfl
@[simp] theorem startKip_kipBuild_data (e : Nat) (k : KipRegs) : (startKip .kipBuild e k).data = k.data := rfl
@[simp] theorem startKip_kipBuild_trailing (e : Nat) (k : KipRegs) :
    (startKip .kipBuild e k).trailing = k.trailing := rfl
@[simp] theorem startKip_kipSerialize_hdr (e : Nat) (k : KipRegs) : (startKip .kipSerialize e k).hdr = k.hdr := rfl
@[simp] theorem startKip_kipSerialize_stored (e : Nat) (k : KipRegs) :
    (startKip .kipSerialize e k).stored = k.stored := rfl
@[simp] theorem startKip_kipSerialize_trailing (e : Nat) (k : KipRegs) :
    (startKip .kipSerialize e k).trailing = k.trailing := rfl
@[simp] theorem startCommand_mem (op : Op) : (startCommand op s).mem = s.mem := rfl
@[simp] theorem startCommand_seq (op : Op) : (startCommand op s).seq = .idle := rfl
@[simp] theorem startCommand_free (op : Op) : (startCommand op s).free = s.free + 1 := rfl

/-! ### Taking an error -/

@[simp] theorem takeRaise_cmd (k : ErrKind) (info : Info) :
    (takeRaise k info s).cmd = s.cmd := rfl
@[simp] theorem takeRaise_status (k : ErrKind) (info : Info) :
    (takeRaise k info s).status = { freeStatus s.free k with info := info } := rfl
@[simp] theorem takeRaise_ftr (k : ErrKind) (info : Info) :
    (takeRaise k info s).ftr = s.ftr := rfl
@[simp] theorem takeRaise_dec (k : ErrKind) (info : Info) :
    (takeRaise k info s).dec = if decActive s then { s.dec with run := .fault } else s.dec := rfl
@[simp] theorem takeRaise_enc (k : ErrKind) (info : Info) :
    (takeRaise k info s).enc = s.enc := rfl
@[simp] theorem takeRaise_kip (k : ErrKind) (info : Info) :
    (takeRaise k info s).kip = if k.isContainer then freeKip s.free else s.kip := rfl
@[simp] theorem takeRaise_seq (k : ErrKind) (info : Info) :
    (takeRaise k info s).seq = .idle := rfl
@[simp] theorem takeRaise_free (k : ErrKind) (info : Info) :
    (takeRaise k info s).free = s.free + 1 := rfl
@[simp] theorem takeRaise_mem_inp (k : ErrKind) (info : Info) :
    (takeRaise k info s).mem.inp = s.mem.inp := rfl
@[simp] theorem takeRaise_mem_out (k : ErrKind) (info : Info) :
    (takeRaise k info s).mem.out = Buffer.ofBytes (Config.freeBytes s.free 0) := rfl
@[simp] theorem takeRaise_mem_m (k : ErrKind) (info : Info) :
    (takeRaise k info s).mem.m =
      if s.dec.run = .run ∧ s.cmd.op = .blzDecompressP
      then s.mem.m.forget s.free s.dec.base s.dec.outLen else s.mem.m := rfl

end Sys2Proof.Machine
end

