-- ==== Sys2Proof/Laws/Bytes.lean ====
section
/-! SUPPORT. Byte order: the small lemmas of `leBytes` and `leNat` (rules R14, R56). -/

namespace Sys2Proof

@[simp] theorem leBytes_zero (v : Nat) : leBytes 0 v = [] := rfl

theorem leBytes_succ (n v : Nat) : leBytes (n + 1) v = BitVec.ofNat 8 v :: leBytes n (v / 256) := rfl

@[simp] theorem leBytes_length (n : Nat) : ∀ v, (leBytes n v).length = n := by
  induction n with
  | zero => intro v; rfl
  | succ n ih => intro v; simp [leBytes_succ, ih]

@[simp] theorem leNat_nil : leNat [] = 0 := rfl

@[simp] theorem leNat_cons (b : Byte) (t : Bytes) : leNat (b :: t) = b.toNat + 256 * leNat t := rfl

/-- A read of what a write stored gives the low-order bytes written. -/
theorem leNat_leBytes (n : Nat) : ∀ v, leNat (leBytes n v) = v % 256 ^ n := by
  induction n with
  | zero => intro v; simp [Nat.mod_one]
  | succ n ih =>
    intro v
    rw [leBytes_succ, leNat_cons, ih, BitVec.toNat_ofNat, show 256 ^ (n + 1) = 256 * 256 ^ n by ring,
      Nat.mod_mul]

theorem leNat_append (a b : Bytes) : leNat (a ++ b) = leNat a + 256 ^ a.length * leNat b := by
  induction a with
  | nil => simp
  | cons x t ih =>
    simp only [List.cons_append, leNat_cons, ih, List.length_cons, Nat.pow_succ]
    ring

theorem leNat_lt (a : Bytes) : leNat a < 256 ^ a.length := by
  induction a with
  | nil => simp
  | cons x t ih =>
    have hx := x.isLt
    simp only [leNat_cons, List.length_cons, Nat.pow_succ]
    omega

/-- A byte sequence is the bytes of the number it makes. -/
theorem leBytes_leNat (a : Bytes) : leBytes a.length (leNat a) = a := by
  induction a with
  | nil => rfl
  | cons x t ih =>
    have hx := x.isLt
    have h1 : (x.toNat + 256 * leNat t) / 256 = leNat t := by omega
    rw [List.length_cons, leBytes_succ, leNat_cons, h1, ih]
    congr 1
    apply BitVec.eq_of_toNat_eq
    simp only [BitVec.toNat_ofNat]
    omega

/-- The word of a `REF` fits 16 bits (rule R84). -/
theorem refWord_lt (l : BitVec 4) (o : BitVec 12) : refWord l o < 2 ^ 16 := by
  have hl := l.isLt
  have ho := o.isLt
  simp only [refWord]
  omega

/-- Every item occupies the bytes its position says. -/
theorem decode_short {p : Slot} {bs : Bytes} (h : bs.length < p.size) :
    decode p bs = .error .truncated := by
  simp [decode, h]

/-- What the decoder can answer. -/
theorem decode_ok_iff {p : Slot} {bs rest : Bytes} {i : Instr} :
    decode p bs = .ok (i, rest) ↔
      p.size ≤ bs.length ∧ decodeWord p (leNat (bs.take p.size)) = .ok i ∧ rest = bs.drop p.size := by
  unfold decode
  split
  · rename_i h
    constructor
    · intro h'; cases h'
    · intro h'; omega
  · rename_i h
    cases hd : decodeWord p (leNat (bs.take p.size)) with
    | ok j =>
      constructor
      · intro h'; cases h'; exact ⟨by omega, rfl, rfl⟩
      · rintro ⟨_, h2, rfl⟩; cases h2; rfl
    | error e =>
      constructor
      · intro h'; cases h'
      · rintro ⟨_, h2, _⟩; cases h2

end Sys2Proof
end

