-- ==== Sys2Proof/Laws/Memory.lean ====
section
/-! SUPPORT. Buffers: a read after a write, and that every operation keeps the canonical form. -/

namespace Sys2Proof.Machine

open Host (Cell)

/-! ### The canonical form -/

@[simp] theorem cellsOk_nil (len lo : Nat) : cellsOk len lo [] = true := rfl

theorem cellsOk_cons {len lo a : Nat} {b : Byte} {t : List Cell} :
    cellsOk len lo ((a, b) :: t) = true ↔
      lo ≤ a ∧ a < len ∧ b ≠ unlistedByte ∧ cellsOk len (a + 1) t = true := by
  simp [cellsOk, and_assoc]

theorem cellsOk_mono {len len' lo lo' : Nat} {c : List Cell} (hlen : len ≤ len') (hlo : lo' ≤ lo)
    (h : cellsOk len lo c = true) : cellsOk len' lo' c = true := by
  induction c generalizing lo lo' with
  | nil => rfl
  | cons x t ih =>
    obtain ⟨a, b⟩ := x
    rw [cellsOk_cons] at h ⊢
    exact ⟨by omega, by omega, h.2.2.1, ih (Nat.le_refl _) h.2.2.2⟩

/-- Below the first index nothing is listed. -/
theorem cellsGet_below {len lo i : Nat} {c : List Cell} (h : cellsOk len lo c = true) (hi : i < lo) :
    cellsGet c i = unlistedByte := by
  induction c generalizing lo with
  | nil => rfl
  | cons x t ih =>
    obtain ⟨a, b⟩ := x
    rw [cellsOk_cons] at h
    have : a ≠ i := by omega
    simp only [cellsGet, this, if_false]
    exact ih h.2.2.2 (by omega)

/-- At or beyond the length nothing is listed. -/
theorem cellsGet_beyond {len lo i : Nat} {c : List Cell} (h : cellsOk len lo c = true) (hi : len ≤ i) :
    cellsGet c i = unlistedByte := by
  induction c generalizing lo with
  | nil => rfl
  | cons x t ih =>
    obtain ⟨a, b⟩ := x
    rw [cellsOk_cons] at h
    have : a ≠ i := by omega
    simp only [cellsGet, this, if_false]
    exact ih h.2.2.2

/-- A write keeps the canonical form. -/
theorem cellsSet_ok {len lo i : Nat} {c : List Cell} {v : Byte} (h : cellsOk len lo c = true)
    (hlo : lo ≤ i) (hi : i < len) : cellsOk len lo (cellsSet c i v) = true := by
  induction c generalizing lo with
  | nil =>
    by_cases hv : v = unlistedByte
    · simp [cellsSet, hv]
    · rw [show cellsSet [] i v = [(i, v)] by simp [cellsSet, hv], cellsOk_cons]
      exact ⟨hlo, hi, hv, rfl⟩
  | cons x t ih =>
    obtain ⟨a, b⟩ := x
    have h' := cellsOk_cons.mp h
    simp only [cellsSet]
    split
    · rw [cellsOk_cons]
      exact ⟨h'.1, h'.2.1, h'.2.2.1, ih h'.2.2.2 (by omega)⟩
    · split
      · rename_i ha
        split
        · exact cellsOk_mono (Nat.le_refl _) (by omega) h'.2.2.2
        · rename_i hv
          rw [cellsOk_cons]
          exact ⟨hlo, hi, hv, ha ▸ h'.2.2.2⟩
      · split
        · exact h
        · rename_i hv
          rw [cellsOk_cons]
          refine ⟨hlo, hi, hv, cellsOk_cons.mpr ⟨by omega, h'.2.1, h'.2.2.1, h'.2.2.2⟩⟩

/-- A read after a write: the byte written at its index, every other byte as it was. -/
theorem cellsGet_set {len lo : Nat} {c : List Cell} (i : Nat) (v : Byte) (j : Nat)
    (h : cellsOk len lo c = true) :
    cellsGet (cellsSet c i v) j = if i = j then v else cellsGet c j := by
  induction c generalizing lo with
  | nil =>
    by_cases hv : v = unlistedByte
    · by_cases hij : i = j <;> simp [cellsSet, cellsGet, hv, hij]
    · by_cases hij : i = j <;> simp [cellsSet, cellsGet, hv, hij]
  | cons x t ih =>
    obtain ⟨a, b⟩ := x
    have h' := cellsOk_cons.mp h
    simp only [cellsSet]
    split
    · rename_i hai
      by_cases haj : a = j
      · have : i ≠ j := by omega
        simp [cellsGet, haj, this]
      · simp only [cellsGet, haj, if_false]
        exact ih h'.2.2.2
    · split
      · rename_i hai
        subst hai
        split
        · rename_i hv
          by_cases haj : a = j
          · subst haj
            simp only [if_true]
            rw [cellsGet_below h'.2.2.2 (by omega), hv]
          · simp [cellsGet, haj]
        · by_cases haj : a = j <;> simp [cellsGet, haj]
      · split
        · rename_i h1 h2 hv
          by_cases hij : i = j
          · subst hij
            rw [if_pos rfl, cellsGet_below (lo := i + 1)
              (cellsOk_cons.mpr ⟨by omega, h'.2.1, h'.2.2.1, h'.2.2.2⟩) (by omega), hv]
          · simp [hij]
        · by_cases hij : i = j <;> simp [cellsGet, hij]

/-- The cells of a byte sequence are in canonical form. -/
theorem cellsOf_ok (l : Bytes) : ∀ (i len : Nat), i + l.length ≤ len →
    cellsOk len i (cellsOf i l) = true := by
  induction l with
  | nil => intro i len _; rfl
  | cons b t ih =>
    intro i len h
    simp only [List.length_cons] at h
    have h1 := ih (i + 1) len (by omega)
    simp only [cellsOf]
    split
    · exact cellsOk_mono (Nat.le_refl _) (by omega) h1
    · rename_i hb
      rw [cellsOk_cons]
      exact ⟨Nat.le_refl _, by omega, hb, h1⟩

/-- The cells of a byte sequence read back as it. -/
theorem cellsGet_of (l : Bytes) : ∀ (i j : Nat),
    cellsGet (cellsOf i l) j = if h : i ≤ j ∧ j - i < l.length then l[j - i]'h.2 else unlistedByte := by
  induction l with
  | nil => intro i j; simp [cellsOf, cellsGet]
  | cons b t ih =>
    intro i j
    have hrest : cellsGet (cellsOf (i + 1) t) j =
        if h : i + 1 ≤ j ∧ j - (i + 1) < t.length then t[j - (i + 1)]'h.2 else unlistedByte := ih (i + 1) j
    by_cases hij : i = j
    · subst hij
      have hb : cellsGet (cellsOf (i + 1) t) i = unlistedByte := by
        rw [hrest, dif_neg (by omega)]
      simp only [cellsOf]
      split
      · rename_i h; simp [hb, h]
      · simp [cellsGet]
    · have hcell : cellsGet (cellsOf i (b :: t)) j = cellsGet (cellsOf (i + 1) t) j := by
        simp only [cellsOf]
        split
        · rfl
        · simp [cellsGet, hij]
      rw [hcell, hrest]
      by_cases hle : i + 1 ≤ j
      · have hsub : j - i = (j - (i + 1)) + 1 := by omega
        by_cases hlt : j - (i + 1) < t.length
        · rw [dif_pos ⟨hle, hlt⟩, dif_pos ⟨by omega, by simp only [List.length_cons]; omega⟩]
          simp only [hsub, List.getElem_cons_succ]
        · rw [dif_neg (by omega), dif_neg (by simp only [List.length_cons]; omega)]
      · rw [dif_neg (by omega), dif_neg (by omega)]

/-- Two cell lists one after the other. -/
theorem cellsOk_append {len mid lo : Nat} {c d : List Cell} (hc : cellsOk mid lo c = true)
    (hd : cellsOk len mid d = true) (hlen : mid ≤ len) (hlo : lo ≤ mid) :
    cellsOk len lo (c ++ d) = true := by
  induction c generalizing lo with
  | nil => exact cellsOk_mono (Nat.le_refl _) hlo hd
  | cons x t ih =>
    obtain ⟨a, b⟩ := x
    have h' := cellsOk_cons.mp hc
    rw [List.cons_append, cellsOk_cons]
    exact ⟨h'.1, by omega, h'.2.2.1, ih h'.2.2.2 (by omega)⟩

/-- A read in two cell lists one after the other. -/
theorem cellsGet_append {mid lo : Nat} {c d : List Cell} (j : Nat) (hc : cellsOk mid lo c = true) :
    j < mid → (∀ {len}, cellsOk len mid d = true → cellsGet (c ++ d) j = cellsGet c j) := by
  intro hj len hd
  induction c generalizing lo with
  | nil => simpa [cellsGet] using cellsGet_below hd hj
  | cons x t ih =>
    obtain ⟨a, b⟩ := x
    have h' := cellsOk_cons.mp hc
    simp only [List.cons_append, cellsGet]
    split
    · rfl
    · exact ih h'.2.2.2

theorem cellsGet_append_right {mid lo : Nat} {c d : List Cell} (j : Nat) (hc : cellsOk mid lo c = true)
    (hj : mid ≤ j) : cellsGet (c ++ d) j = cellsGet d j := by
  induction c generalizing lo with
  | nil => rfl
  | cons x t ih =>
    obtain ⟨a, b⟩ := x
    have h' := cellsOk_cons.mp hc
    have : a ≠ j := by omega
    simp only [List.cons_append, cellsGet, this, if_false]
    exact ih h'.2.2.2

/-- A write of several bytes keeps the canonical form. -/
theorem cellsWrite_ok {len : Nat} (l : Bytes) : ∀ {c : List Cell} {i : Nat}, cellsOk len 0 c = true →
    i + l.length ≤ len → cellsOk len 0 (cellsWrite c i l) = true := by
  induction l with
  | nil => intro c i h _; exact h
  | cons b t ih =>
    intro c i h hi
    simp only [List.length_cons] at hi
    exact ih (cellsSet_ok h (Nat.zero_le _) (by omega)) (by omega)

/-- A read after a write of several bytes. -/
theorem cellsGet_write_outside {len : Nat} (l : Bytes) : ∀ {c : List Cell} {i : Nat} (j : Nat),
    cellsOk len 0 c = true → i + l.length ≤ len → j < i ∨ i + l.length ≤ j →
    cellsGet (cellsWrite c i l) j = cellsGet c j := by
  induction l with
  | nil => intro c i j _ _ _; rfl
  | cons b t ih =>
    intro c i j h hi hj
    simp only [List.length_cons] at hi hj
    have h1 := ih (c := cellsSet c i b) (i := i + 1) j (cellsSet_ok h (Nat.zero_le _) (by omega))
      (by omega) (by omega)
    rw [show cellsWrite c i (b :: t) = cellsWrite (cellsSet c i b) (i + 1) t from rfl, h1,
      cellsGet_set i b j h, if_neg (by omega)]

/-! ### Slices -/

@[simp] theorem cellsSlice_length (c : List Cell) (n : Nat) : ∀ i, (cellsSlice c i n).length = n := by
  induction n with
  | zero => intro i; rfl
  | succ n ih => intro i; simp [cellsSlice, ih]

theorem cellsSlice_getElem (c : List Cell) (n : Nat) : ∀ (i k : Nat) (h : k < (cellsSlice c i n).length),
    (cellsSlice c i n)[k] = cellsGet c (i + k) := by
  induction n with
  | zero => intro i k h; simp [cellsSlice] at h
  | succ n ih =>
    intro i k h
    cases k with
    | zero => simp [cellsSlice]
    | succ k =>
      simp only [cellsSlice, List.getElem_cons_succ]
      rw [ih]
      congr 1
      omega

/-- Two cell lists that agree on a range have the same slice there. -/
theorem cellsSlice_congr {c d : List Cell} {i n : Nat}
    (h : ∀ j, i ≤ j → j < i + n → cellsGet c j = cellsGet d j) : cellsSlice c i n = cellsSlice d i n := by
  induction n generalizing i with
  | zero => rfl
  | succ n ih =>
    simp only [cellsSlice]
    rw [h i (Nat.le_refl _) (by omega), ih fun j h1 h2 => h j (by omega) (by omega)]

theorem cellsSlice_add (c : List Cell) (i m n : Nat) :
    cellsSlice c i (m + n) = cellsSlice c i m ++ cellsSlice c (i + m) n := by
  induction m generalizing i with
  | zero => simp [cellsSlice]
  | succ m ih =>
    rw [show m + 1 + n = (m + n) + 1 by omega]
    simp only [cellsSlice, List.cons_append]
    rw [ih (i + 1), show i + 1 + m = i + (m + 1) by omega]

/-! ### Buffers -/

@[simp] theorem Buffer.ofBytes_len (l : Bytes) : (Buffer.ofBytes l).len = l.length := rfl

@[simp] theorem Buffer.append_len (b : Buffer) (l : Bytes) : (b.append l).len = b.len + l.length := rfl

@[simp] theorem Buffer.forget_len (b : Buffer) (e i n : Nat) : (b.forget e i n).len = b.len := rfl

@[simp] theorem Buffer.toBytes_length (b : Buffer) : b.toBytes.length = b.len := by
  simp [Buffer.toBytes]

theorem Buffer.ofBytes_wf (l : Bytes) : (Buffer.ofBytes l).wf = true :=
  cellsOf_ok l 0 l.length (by omega)

/-- The buffer of a byte sequence holds it. -/
@[simp] theorem Buffer.toBytes_ofBytes (l : Bytes) : (Buffer.ofBytes l).toBytes = l := by
  apply List.ext_getElem
  · simp
  · intro k h1 h2
    have hk : k < l.length := h2
    simp only [Buffer.toBytes, Buffer.ofBytes] at h1 ⊢
    rw [cellsSlice_getElem, cellsGet_of, dif_pos ⟨by omega, by omega⟩]
    congr 1
    omega

theorem Buffer.append_wf {b : Buffer} (l : Bytes) (h : b.wf = true) : (b.append l).wf = true :=
  cellsOk_append h (cellsOf_ok l b.len (b.len + l.length) (Nat.le_refl _)) (Nat.le_add_right _ _)
    (Nat.zero_le _)

/-- Appending keeps what the buffer held and adds the bytes at its end. -/
theorem Buffer.toBytes_append {b : Buffer} (l : Bytes) (h : b.wf = true) :
    (b.append l).toBytes = b.toBytes ++ l := by
  apply List.ext_getElem
  · simp
  · intro k h1 h2
    simp only [Buffer.toBytes_length, Buffer.append_len] at h1
    have hok : cellsOk (b.len + l.length) b.len (cellsOf b.len l) = true :=
      cellsOf_ok l b.len (b.len + l.length) (Nat.le_refl _)
    have hl : (b.append l).toBytes[k]'(by simp; omega) = cellsGet (b.cells ++ cellsOf b.len l) k := by
      simp only [Buffer.toBytes, Buffer.append]
      rw [cellsSlice_getElem]
      simp
    rw [hl]
    by_cases hk : k < b.len
    · rw [cellsGet_append k h hk hok, List.getElem_append_left (by simpa using hk)]
      simp only [Buffer.toBytes]
      rw [cellsSlice_getElem]
      simp
    · rw [cellsGet_append_right k h (by omega), cellsGet_of, dif_pos ⟨by omega, by omega⟩,
        List.getElem_append_right (by simp; omega)]
      simp

/-- A write inside the buffer succeeds, keeps the canonical form, and is read back; every other byte is as it
was. -/
theorem Buffer.set_spec {b : Buffer} {i : Nat} {v : Byte} (hwf : b.wf = true) (hi : i < b.len) :
    ∃ x, b.set i v = some x ∧ x.len = b.len ∧ x.wf = true ∧
      ∀ j, x.get j = if i = j then some v else b.get j := by
  refine ⟨{ b with cells := cellsSet b.cells i v }, by simp [Buffer.set, hi], rfl,
    cellsSet_ok hwf (Nat.zero_le _) hi, ?_⟩
  intro j
  simp only [Buffer.get, cellsGet_set i v j hwf]
  by_cases hij : i = j
  · subst hij; simp [hi]
  · simp [hij]

theorem Buffer.set_inv {b x : Buffer} {i : Nat} {v : Byte} (h : b.set i v = some x) :
    i < b.len ∧ x = { b with cells := cellsSet b.cells i v } := by
  unfold Buffer.set at h
  split at h
  · rename_i hi
    cases h
    exact ⟨hi, rfl⟩
  · cases h

theorem Buffer.set_wf {b x : Buffer} {i : Nat} {v : Byte} (hwf : b.wf = true) (h : b.set i v = some x) :
    x.wf = true ∧ x.len = b.len := by
  obtain ⟨hi, rfl⟩ := Buffer.set_inv h
  exact ⟨cellsSet_ok hwf (Nat.zero_le _) hi, rfl⟩

theorem Buffer.get_isSome {b : Buffer} {i : Nat} : (b.get i).isSome = true ↔ i < b.len := by
  unfold Buffer.get
  split <;> simp_all

theorem Buffer.slice_eq {b : Buffer} {i n : Nat} (h : i + n ≤ b.len) :
    b.slice i n = some (cellsSlice b.cells i n) := by
  simp [Buffer.slice, h]

/-- A one-byte slice is a read. -/
theorem Buffer.slice_one (b : Buffer) (i : Nat) : b.slice i 1 = (b.get i).map fun x => [x] := by
  unfold Buffer.slice Buffer.get
  by_cases h : i < b.len
  · rw [if_pos (by omega), if_pos h]
    rfl
  · rw [if_neg (by omega), if_neg h]
    rfl

/-- A range that loses its value: the canonical form is kept and nothing outside the range changes
(rule R186). -/
theorem Buffer.forget_spec {b : Buffer} (e i n : Nat) (hwf : b.wf = true) :
    (b.forget e i n).wf = true ∧ ∀ j, j < i ∨ i + n ≤ j → (b.forget e i n).get j = b.get j := by
  have hlen : (((List.range (min n (b.len - i))).map fun k => Config.freeByte e (i + k)).length)
      = min n (b.len - i) := by simp
  by_cases hi : i ≤ b.len
  · constructor
    · exact cellsWrite_ok _ hwf (by rw [hlen]; show i + min n (b.len - i) ≤ b.len; omega)
    · intro j hj
      unfold Buffer.get
      rw [Buffer.forget_len]
      split
      · simp only [Buffer.forget]
        rw [cellsGet_write_outside _ j hwf (by rw [hlen]; omega) (by rw [hlen]; omega)]
      · rfl
  · have h0 : min n (b.len - i) = 0 := by omega
    have hsame : b.forget e i n = b := by
      simp only [Buffer.forget, h0, List.range_zero, List.map_nil]
      rfl
    rw [hsame]
    exact ⟨hwf, fun _ _ => rfl⟩

/-- A longer buffer with the same cells is in canonical form (rule R180). -/
theorem Buffer.extend_wf {b : Buffer} {len : Nat} (hwf : b.wf = true) (h : b.len ≤ len) :
    Buffer.wf ⟨len, b.cells⟩ = true :=
  cellsOk_mono h (Nat.le_refl _) hwf

theorem Memory.wf_iff {m : Memory} :
    m.wf = true ↔ m.inp.wf = true ∧ m.out.wf = true ∧ m.m.wf = true := by
  simp [Memory.wf, and_assoc]

/-- The memory after reset is in canonical form. -/
theorem reset_mem_wf : State.reset.mem.wf = true := by decide

end Sys2Proof.Machine
end

