-- ==== Sys2Proof/Laws/Ops.lean ====
section
/-! SUPPORT. One lemma for each shared operation: everything it can do.  Cited instead of unfolding. -/

namespace Sys2Proof.Machine

/-! ### How an operation ends -/

@[simp] theorem Ctl.andThen_ok (s : State) (f : State → Ctl) : (Ctl.ok s).andThen f = f s := rfl
@[simp] theorem Ctl.andThen_raised (k : ErrKind) (i : Info) (s : State) (f : State → Ctl) :
    (Ctl.raised k i s).andThen f = .raised k i s := rfl
@[simp] theorem Ctl.andThen_fault (r : Fault) (f : State → Ctl) : (Ctl.fault r).andThen f = .fault r := rfl
@[simp] theorem Ctl.outcome_ok (s : State) : (Ctl.ok s).outcome = .next s := rfl
@[simp] theorem Ctl.outcome_raised (k : ErrKind) (i : Info) (s : State) :
    (Ctl.raised k i s).outcome = .next (takeRaise k i s) := rfl
@[simp] theorem Ctl.outcome_fault (r : Fault) : (Ctl.fault r).outcome = .fault r := rfl

/-- An operation that goes on did so in both parts. -/
theorem Ctl.andThen_eq_ok {c : Ctl} {f : State → Ctl} {t : State} (h : c.andThen f = .ok t) :
    ∃ s, c = .ok s ∧ f s = .ok t := by
  cases c with
  | ok s => exact ⟨s, rfl, h⟩
  | raised k i s => cases h
  | fault r => cases h

/-- A raise comes from the first part or from the second. -/
theorem Ctl.andThen_eq_raised {c : Ctl} {f : State → Ctl} {k : ErrKind} {i : Info} {t : State}
    (h : c.andThen f = .raised k i t) : c = .raised k i t ∨ ∃ s, c = .ok s ∧ f s = .raised k i t := by
  cases c with
  | ok s => exact .inr ⟨s, rfl, h⟩
  | raised k' i' s => exact .inl h
  | fault r => cases h

/-- A fault comes from the first part or from the second. -/
theorem Ctl.andThen_eq_fault {c : Ctl} {f : State → Ctl} {r : Fault} (h : c.andThen f = .fault r) :
    c = .fault r ∨ ∃ s, c = .ok s ∧ f s = .fault r := by
  cases c with
  | ok s => exact .inr ⟨s, rfl, h⟩
  | raised k' i' s => cases h
  | fault r' => exact .inl h

/-- An outcome is a next state because the operation went on or because its raise was taken. -/
theorem Ctl.outcome_eq_next {c : Ctl} {t : State} (h : c.outcome = .next t) :
    c = .ok t ∨ ∃ k i s, c = .raised k i s ∧ t = takeRaise k i s := by
  cases c with
  | ok s => cases h; exact .inl rfl
  | raised k i s => cases h; exact .inr ⟨k, i, s, rfl, rfl⟩
  | fault r => cases h

theorem belowMax_iff {s : State} {n : Nat} : belowMax s n = true ↔ ∀ m, s.cmd.maxLen = some m → n < m := by
  unfold belowMax
  cases s.cmd.maxLen <;> simp

theorem emitting_iff {s : State} : emitting s = true ↔ ∃ p, s.seq = .emit p := by
  unfold emitting
  cases s.seq <;> simp

theorem emitOr_emit {i : Instr} {load : State → Ctl} {s : State} {p : Slot} (h : s.seq = .emit p) :
    emitOr i load s = .next (appendOut (encode i) s) := by
  simp [emitOr, emitting, h]

theorem emitOr_load {i : Instr} {load : State → Ctl} {s : State} (h : ∀ p, s.seq ≠ .emit p) :
    emitOr i load s = (load s).outcome := by
  have : emitting s = false := by
    cases hs : emitting s with
    | false => rfl
    | true => obtain ⟨p, hp⟩ := emitting_iff.mp hs; exact absurd hp (h p)
  simp [emitOr, this]

/-! ### Taking an error -/

theorem takeRaise_eq (k : ErrKind) (info : Info) (s : State) :
    takeRaise k info s =
      { s with
        status := (takeRaise k info s).status, dec := (takeRaise k info s).dec, kip := (takeRaise k info s).kip
        mem := { s.mem with out := (takeRaise k info s).mem.out, m := (takeRaise k info s).mem.m }
        seq := .idle, free := s.free + 1 } := rfl

/-- DEC is at work in its token loop and throughout a decompress command. -/
theorem decActive_iff {s : State} :
    decActive s = true ↔ s.dec.run = .run ∨ s.cmd.op = .blzDecompressS ∨ s.cmd.op = .blzDecompressP := by
  simp [decActive]

/-- Of DEC a raise touches `DEC.run` alone: `FAULT` when DEC is at work, else as before. -/
theorem takeRaise_dec_eq (k : ErrKind) (info : Info) (s : State) :
    (takeRaise k info s).dec = { s.dec with run := (takeRaise k info s).dec.run } ∧
      (decActive s = true → (takeRaise k info s).dec.run = .fault) ∧
      (decActive s = false → (takeRaise k info s).dec.run = s.dec.run) := by
  unfold takeRaise decFault
  cases decActive s <;> simp

/-- A raise keeps the canonical form of the buffers. -/
theorem takeRaise_wf {k : ErrKind} {info : Info} {s : State} (h : s.mem.wf = true) :
    (takeRaise k info s).mem.wf = true := by
  rw [Memory.wf_iff] at h ⊢
  refine ⟨h.1, Buffer.ofBytes_wf _, ?_⟩
  show Buffer.wf (if _ then _ else _) = true
  split
  · exact (Buffer.forget_spec _ _ _ h.2.2).1
  · exact h.2.2

/-! ### DEC's working buffer -/

theorem oName_eq {s t : State} (h : t.cmd = s.cmd) : oName t = oName s := by simp [oName, h]

/-- Storing a byte that exists: only that byte of memory changes. -/
theorem oSet_spec {s : State} {k : Nat} (b : Byte) (hwf : s.mem.wf = true)
    (hk : s.dec.base + k < (oBuf s).len) :
    ∃ t, oSet s k b = some t ∧ t = { s with mem := t.mem } ∧ t.mem.wf = true ∧
      (oBuf t).len = (oBuf s).len ∧
      ∀ n i, t.readByte n i =
        if n = oName s ∧ i = s.dec.base + k then some b else s.readByte n i := by
  rw [Memory.wf_iff] at hwf
  by_cases hop : s.cmd.op = .blzDecompressP
  · have hb : oBuf s = s.mem.m := by simp [oBuf, oName, hop, Memory.buf]
    rw [hb] at hk
    obtain ⟨x, hx, hlen, hxwf, hget⟩ := Buffer.set_spec (v := b) hwf.2.2 hk
    refine ⟨s.withM x, by simp [oSet, hb, hx, hop], rfl, Memory.wf_iff.mpr ⟨hwf.1, hwf.2.1, hxwf⟩, ?_, ?_⟩
    · simp [oBuf, oName, State.withM, State.withMem, hop, Memory.buf, hlen]
    · intro n i
      cases n <;> simp [State.readByte, State.withM, State.withMem, Memory.buf, oName, hop, hget, eq_comm]
  · have hb : oBuf s = s.mem.out := by simp [oBuf, oName, hop, Memory.buf]
    rw [hb] at hk
    obtain ⟨x, hx, hlen, hxwf, hget⟩ := Buffer.set_spec (v := b) hwf.2.1 hk
    refine ⟨s.withOut x, by simp [oSet, hb, hx, hop], rfl, Memory.wf_iff.mpr ⟨hwf.1, hxwf, hwf.2.2⟩, ?_, ?_⟩
    · simp [oBuf, oName, State.withOut, State.withMem, hop, Memory.buf, hlen]
    · intro n i
      cases n <;> simp [State.readByte, State.withOut, State.withMem, Memory.buf, oName, hop, hget, eq_comm]

/-- What a store that succeeded did. -/
theorem oSet_inv {s t : State} {k : Nat} {b : Byte} (h : oSet s k b = some t) :
    s.dec.base + k < (oBuf s).len ∧ t = { s with mem := t.mem } ∧ (oBuf t).len = (oBuf s).len ∧
      t.mem.inp = s.mem.inp ∧ (s.cmd.op = .blzDecompressP → t.mem.out = s.mem.out) ∧
      (s.cmd.op ≠ .blzDecompressP → t.mem.m = s.mem.m) ∧ (s.mem.wf = true → t.mem.wf = true) := by
  unfold oSet at h
  split at h
  · cases h
  · rename_i x hx
    obtain ⟨hlt, rfl⟩ := Buffer.set_inv hx
    cases h
    refine ⟨hlt, ?_⟩
    by_cases hop : s.cmd.op = .blzDecompressP
    · have hb : oBuf s = s.mem.m := by simp [oBuf, oName, hop, Memory.buf]
      simp only [hop, if_true]
      refine ⟨rfl, by simp [oBuf, oName, State.withM, State.withMem, hop, Memory.buf], rfl, fun _ => rfl,
        fun h => absurd rfl h, fun hwf => ?_⟩
      rw [Memory.wf_iff] at hwf ⊢
      exact ⟨hwf.1, hwf.2.1, hb ▸ (Buffer.set_wf (hb ▸ hwf.2.2) hx).1⟩
    · have hb : oBuf s = s.mem.out := by simp [oBuf, oName, hop, Memory.buf]
      simp only [hop, if_false]
      refine ⟨rfl, by simp [oBuf, oName, State.withOut, State.withMem, hop, Memory.buf], rfl,
        fun h => h.elim, fun _ => rfl, fun hwf => ?_⟩
      rw [Memory.wf_iff] at hwf ⊢
      exact ⟨hwf.1, hb ▸ (Buffer.set_wf (hb ▸ hwf.2.1) hx).1, hwf.2.2⟩

/-- A store finds no byte exactly when the address does not exist. -/
theorem oSet_eq_none {s : State} {k : Nat} {b : Byte} :
    oSet s k b = none ↔ (oBuf s).len ≤ s.dec.base + k := by
  unfold oSet Buffer.set
  by_cases h : s.dec.base + k < (oBuf s).len
  · simp [h]
  · simp [h]; omega

theorem oGet_eq (s : State) (k : Nat) : oGet s k = s.readByte (oName s) (s.dec.base + k) := rfl

/-! ### Tokens -/

/-- What fetching a token can find (rules R169, R170, R176). -/
theorem fetchToken_cases (s : State) :
    (s.dec.w = 0 ∧ fetchToken s = .finish) ∨
    (s.dec.w ≠ 0 ∧ s.dec.r < (tokenSlot s).size ∧
      fetchToken s = .raises .outOfBounds (fetchInfo s (tokenSlot s).size) (tokenState s)) ∨
    (s.dec.w ≠ 0 ∧ (tokenSlot s).size ≤ s.dec.r ∧
      (oBuf s).slice (s.dec.base + (s.dec.r - (tokenSlot s).size)) (tokenSlot s).size = none ∧
      fetchToken s = .outside) ∨
    (s.dec.w ≠ 0 ∧ (tokenSlot s).size ≤ s.dec.r ∧ ∃ bs i rest,
      (oBuf s).slice (s.dec.base + (s.dec.r - (tokenSlot s).size)) (tokenSlot s).size = some bs ∧
      decode (tokenSlot s) bs = .ok (i, rest) ∧ fetchToken s = .got i (tokenState s)) ∨
    (s.dec.w ≠ 0 ∧ (tokenSlot s).size ≤ s.dec.r ∧ ∃ bs e,
      (oBuf s).slice (s.dec.base + (s.dec.r - (tokenSlot s).size)) (tokenSlot s).size = some bs ∧
      decode (tokenSlot s) bs = .error e ∧ fetchToken s = .undecodable) := by
  unfold fetchToken
  by_cases hw : s.dec.w = 0
  · exact .inl ⟨hw, by simp [hw]⟩
  · by_cases hr : s.dec.r < (tokenSlot s).size
    · exact .inr (.inl ⟨hw, hr, by simp [hw, hr]⟩)
    · cases hsl : (oBuf s).slice (s.dec.base + (s.dec.r - (tokenSlot s).size)) (tokenSlot s).size with
      | none => exact .inr (.inr (.inl ⟨hw, by omega, rfl, by simp [hw, hr]⟩))
      | some bs =>
        cases hd : decode (tokenSlot s) bs with
        | ok x =>
          obtain ⟨i, rest⟩ := x
          exact .inr (.inr (.inr (.inl ⟨hw, by omega, bs, i, rest, rfl, hd, by simp [hw, hr, hd]⟩)))
        | error e =>
          exact .inr (.inr (.inr (.inr ⟨hw, by omega, bs, e, rfl, hd, by simp [hw, hr, hd]⟩)))

/-- A consumed flag changes `DEC.ctrl` and `DEC.k` alone. -/
theorem tokenState_eq (s : State) :
    tokenState s = { s with
      dec := { s.dec with ctrl := (tokenState s).dec.ctrl, k := (tokenState s).dec.k } } ∧
    (tokenState s).dec.k ≤ s.dec.k := by
  unfold tokenState
  split
  · exact ⟨rfl, Nat.le_refl _⟩
  · exact ⟨rfl, by simp [consumeFlag]⟩

/-- The copy of a `REF`, once and for all: it moves `DEC.w` down by the number of bytes, every byte it wrote equals
the byte `DEC.off` above it, no other byte of memory changes (rules R70, R173, R174). -/
theorem copyBack_spec : ∀ (n : Nat) (s : State), s.mem.wf = true → n ≤ s.dec.w → 1 ≤ s.dec.off →
    s.dec.base + s.dec.outLen ≤ (oBuf s).len → (n = 0 ∨ s.dec.w - 1 + s.dec.off < s.dec.outLen) →
    ∃ t, copyBack n s = .ok t ∧ t = { s with dec := { s.dec with w := s.dec.w - n }, mem := t.mem } ∧
      t.mem.wf = true ∧ (oBuf t).len = (oBuf s).len ∧
      (∀ j, s.dec.w - n ≤ j → j < s.dec.w → t.readByte (oName s) (s.dec.base + j)
        = t.readByte (oName s) (s.dec.base + j + s.dec.off)) ∧
      ∀ b i, b ≠ oName s ∨ i < s.dec.base + (s.dec.w - n) ∨ s.dec.base + s.dec.w ≤ i →
        t.readByte b i = s.readByte b i := by
  intro n
  induction n with
  | zero =>
    intro s hwf _ _ _ _
    exact ⟨s, rfl, rfl, hwf, rfl, fun j h1 h2 => by omega, fun _ _ _ => rfl⟩
  | succ n ih =>
    intro s hwf hn hoff hlen hsrc
    have hsrc' : s.dec.w - 1 + s.dec.off < s.dec.outLen := by omega
    have hlt : s.dec.base + (s.dec.w - 1 + s.dec.off) < (oBuf s).len := by omega
    let s1 : State := s.withDec { s.dec with w := s.dec.w - 1 }
    have hbuf1 : oBuf s1 = oBuf s := rfl
    have hgs : (oGet s1 (s.dec.w - 1 + s.dec.off)).isSome = true := Buffer.get_isSome.mpr hlt
    obtain ⟨b, hb⟩ := Option.isSome_iff_exists.mp hgs
    obtain ⟨s2, hs2, hs2eq, hs2wf, hs2len, hs2get⟩ :=
      oSet_spec (s := s1) (k := s.dec.w - 1) b hwf (show s.dec.base + (s.dec.w - 1) < (oBuf s).len by omega)
    have hdec : s2.dec = s1.dec := by rw [hs2eq]
    have hcmd : s2.cmd = s.cmd := by rw [hs2eq]; rfl
    have hw2 : s2.dec.w = s.dec.w - 1 := by rw [hdec]; rfl
    have ho2 : s2.dec.off = s.dec.off := by rw [hdec]; rfl
    have hb2 : s2.dec.base = s.dec.base := by rw [hdec]; rfl
    have hl2 : s2.dec.outLen = s.dec.outLen := by rw [hdec]; rfl
    have hname : oName s2 = oName s := oName_eq hcmd
    obtain ⟨t, ht, hteq, htwf, htlen, htcopy, htout⟩ := ih s2 hs2wf (by omega) (by omega)
      (by rw [hb2, hl2, hs2len, hbuf1]; exact hlen) (by rw [hw2, ho2, hl2]; omega)
    rw [hname, hb2, hw2, ho2] at htcopy
    rw [hname, hb2, hw2] at htout
    refine ⟨t, ?_, ?_, htwf, by rw [htlen, hs2len, hbuf1], ?_, ?_⟩
    · have h1 : ¬ s.dec.outLen ≤ s.dec.w - 1 + s.dec.off := by omega
      simp only [copyBack, State.withDec, h1, if_false]
      have hb' : oGet { s with dec := { s.dec with w := s.dec.w - 1 } } (s.dec.w - 1 + s.dec.off) = some b := hb
      have hs2' : oSet { s with dec := { s.dec with w := s.dec.w - 1 } } (s.dec.w - 1) b = some s2 := hs2
      rw [hb']
      simp only [hs2', ht]
    · rw [hteq, hs2eq]
      simp only [s1, State.withDec]
      congr 2
      omega
    · intro j h1 h2
      by_cases hj : j = s.dec.w - 1
      · subst hj
        have e1 : t.readByte (oName s) (s.dec.base + (s.dec.w - 1)) = some b := by
          rw [htout _ _ (by omega), hs2get]
          exact if_pos ⟨rfl, rfl⟩
        have e2 : t.readByte (oName s) (s.dec.base + (s.dec.w - 1) + s.dec.off) = some b := by
          rw [htout _ _ (by omega), hs2get, if_neg (by rintro ⟨_, h⟩; simp only [s1, State.withDec] at h; omega)]
          have : s.dec.base + (s.dec.w - 1) + s.dec.off = s.dec.base + (s.dec.w - 1 + s.dec.off) := by omega
          rw [this]
          exact hb
        rw [e1, e2]
      · exact htcopy j (by omega) (by omega)
    · intro c i hi
      have hi' : c ≠ oName s ∨ i < s.dec.base + (s.dec.w - 1 - n) ∨ s.dec.base + (s.dec.w - 1) ≤ i := by
        rcases hi with hi | hi | hi
        · exact .inl hi
        · exact .inr (.inl (by omega))
        · exact .inr (.inr (by omega))
      rw [htout c i hi', hs2get, if_neg]
      · rfl
      · rintro ⟨hc, h⟩
        have hc' : c = oName s := hc
        have h' : i = s.dec.base + (s.dec.w - 1) := h
        rcases hi with hi | hi | hi
        · exact hi hc'
        · omega
        · omega

/-- A copy whose first source byte lies at or beyond `DEC.out_len` raises there (rule R176 d). -/
theorem copyBack_raises {n : Nat} {s : State} (h : s.dec.outLen ≤ s.dec.w - 1 + s.dec.off) :
    copyBack (n + 1) s = .raised .outOfBounds
      (sourceInfo { s with dec := { s.dec with w := s.dec.w - 1 } })
      { s with dec := { s.dec with w := s.dec.w - 1 } } := by
  simp [copyBack, State.withDec, h]

end Sys2Proof.Machine
end

