-- ==== Sys2Proof/Laws/PerInstr.lean ====
section
/-! SUPPORT. The family `EncodeLength`: an instruction's encoding has exactly the bytes its position gives it
(rules R29 to R31, R80, R91, R96). -/

namespace Sys2Proof.Laws

/-- The encoding of an instruction fills its position. -/
def EncodeLength.Statement (i : Instr) : Prop := (encode i).length = i.slot.size

theorem EncodeLength.ctrl (f : Byte) : EncodeLength.Statement (.ctrl f) := by
  simp [EncodeLength.Statement, encode, Instr.slot, Slot.size]

theorem EncodeLength.lit (b : Byte) : EncodeLength.Statement (.lit b) := by
  simp [EncodeLength.Statement, encode, Instr.slot, Slot.size]

theorem EncodeLength.ref (l : BitVec 4) (o : BitVec 12) : EncodeLength.Statement (.ref l o) := by
  simp [EncodeLength.Statement, encode, Instr.slot, Slot.size]

theorem EncodeLength.pad (b : Byte) : EncodeLength.Statement (.pad b) := by
  simp [EncodeLength.Statement, encode, Instr.slot, Slot.size]

theorem EncodeLength.footerTotal (v : W32) : EncodeLength.Statement (.footerTotal v) := by
  simp [EncodeLength.Statement, encode, Instr.slot, Slot.size]

theorem EncodeLength.footerHdr (v : W32) : EncodeLength.Statement (.footerHdr v) := by
  simp [EncodeLength.Statement, encode, Instr.slot, Slot.size]

theorem EncodeLength.footerExtra (v : W32) : EncodeLength.Statement (.footerExtra v) := by
  simp [EncodeLength.Statement, encode, Instr.slot, Slot.size]

theorem EncodeLength.storedTerm : EncodeLength.Statement .storedTerm := by
  simp [EncodeLength.Statement, encode, Instr.slot, Slot.size]

theorem EncodeLength.kipMagic (w : W32) : EncodeLength.Statement (.kipMagic w) := by
  simp [EncodeLength.Statement, encode, Instr.slot, Slot.size]

theorem EncodeLength.kipName (v : BitVec 96) : EncodeLength.Statement (.kipName v) := by
  simp [EncodeLength.Statement, encode, Instr.slot, Slot.size]

theorem EncodeLength.kipTitleId (v : BitVec 64) : EncodeLength.Statement (.kipTitleId v) := by
  simp [EncodeLength.Statement, encode, Instr.slot, Slot.size]

theorem EncodeLength.kipProcessCategory (v : W32) : EncodeLength.Statement (.kipProcessCategory v) := by
  simp [EncodeLength.Statement, encode, Instr.slot, Slot.size]

theorem EncodeLength.kipThreadPriority (v : Byte) : EncodeLength.Statement (.kipThreadPriority v) := by
  simp [EncodeLength.Statement, encode, Instr.slot, Slot.size]

theorem EncodeLength.kipDefaultCpuId (v : Byte) : EncodeLength.Statement (.kipDefaultCpuId v) := by
  simp [EncodeLength.Statement, encode, Instr.slot, Slot.size]

theorem EncodeLength.kipReserved (v : Byte) : EncodeLength.Statement (.kipReserved v) := by
  simp [EncodeLength.Statement, encode, Instr.slot, Slot.size]

theorem EncodeLength.kipFlags (v : Byte) : EncodeLength.Statement (.kipFlags v) := by
  simp [EncodeLength.Statement, encode, Instr.slot, Slot.size]

theorem EncodeLength.kipSeg (i : Fin 6) (d : SegDesc) : EncodeLength.Statement (.kipSeg i d) := by
  simp [EncodeLength.Statement, encode, Instr.slot, Slot.size]

theorem EncodeLength.kipCap (j : Fin 32) (v : W32) : EncodeLength.Statement (.kipCap j v) := by
  simp [EncodeLength.Statement, encode, Instr.slot, Slot.size]

theorem EncodeLength.blzCompress : EncodeLength.Statement .blzCompress := by
  simp [EncodeLength.Statement, encode, Instr.slot, Slot.size]

theorem EncodeLength.blzFooter : EncodeLength.Statement .blzFooter := by
  simp [EncodeLength.Statement, encode, Instr.slot, Slot.size]

theorem EncodeLength.blzDecompressS : EncodeLength.Statement .blzDecompressS := by
  simp [EncodeLength.Statement, encode, Instr.slot, Slot.size]

theorem EncodeLength.blzDecompressP : EncodeLength.Statement .blzDecompressP := by
  simp [EncodeLength.Statement, encode, Instr.slot, Slot.size]

theorem EncodeLength.kipParse : EncodeLength.Statement .kipParse := by
  simp [EncodeLength.Statement, encode, Instr.slot, Slot.size]

theorem EncodeLength.kipBuild : EncodeLength.Statement .kipBuild := by
  simp [EncodeLength.Statement, encode, Instr.slot, Slot.size]

theorem EncodeLength.kipSerialize : EncodeLength.Statement .kipSerialize := by
  simp [EncodeLength.Statement, encode, Instr.slot, Slot.size]

end Sys2Proof.Laws
end

