-- ==== Sys2Proof/Laws/Units.lean ====
section
/-! SUPPORT. The units, one lemma for each shared operation: FTR's verdicts, the ends of a decode, one item of the
encoder, one segment of the container commands, the sequencer. -/

namespace Sys2Proof.Machine

/-! ### FTR -/

/-- Every way FTR's tests can end (rule R158). -/
theorem footerTests_cases (s : State) :
    (s.ftr.totalSize.toNat + s.ftr.extraSize.toNat = 0 ∧ belowMax s (blockLen s) = true ∧
      footerTests s = .ok (footerDone true 0 0 0 s)) ∨
    (s.ftr.totalSize.toNat + s.ftr.extraSize.toNat = 0 ∧ belowMax s (blockLen s) = false ∧
      footerTests s = .raised .malformedFooter ⟨blockLen s - 4, s.cmd.maxLen.getD 0, blockLen s⟩
        (s.withFtr (forgetDerived s.free s.ftr))) ∨
    (s.ftr.totalSize.toNat + s.ftr.extraSize.toNat ≠ 0 ∧ ∃ info,
      footerTests s = .raised .malformedFooter info
        ((footerProper s).withFtr (forgetDerived s.free (footerProper s).ftr))) ∨
    (s.ftr.totalSize.toNat + s.ftr.extraSize.toNat ≠ 0 ∧ s.ftr.totalSize.toNat ≤ blockLen s ∧
      12 ≤ s.ftr.headerLen.toNat ∧ s.ftr.headerLen.toNat ≤ s.ftr.totalSize.toNat ∧
      s.ftr.headerLen.toNat ≤ s.cmd.hdrMax ∧ belowMax s (blockLen s + s.ftr.extraSize.toNat) = true ∧
      footerTests s = .ok (footerDone false (blockLen s - s.ftr.totalSize.toNat)
        (s.ftr.totalSize.toNat - s.ftr.headerLen.toNat) (s.ftr.totalSize.toNat + s.ftr.extraSize.toNat) s)) := by
  unfold footerTests
  simp only [Config.footerLen]
  by_cases h0 : s.ftr.totalSize.toNat + s.ftr.extraSize.toNat = 0
  · rw [if_pos h0]
    cases hm : belowMax s (blockLen s) with
    | true => exact .inl ⟨h0, rfl, rfl⟩
    | false => exact .inr (.inl ⟨h0, rfl, rfl⟩)
  rw [if_neg h0]
  by_cases h1 : blockLen s < s.ftr.totalSize.toNat
  · exact .inr (.inr (.inl ⟨h0, _, by rw [if_pos h1]; rfl⟩))
  rw [if_neg h1]
  by_cases h2 : s.ftr.headerLen.toNat < 12 ∨ s.ftr.totalSize.toNat < s.ftr.headerLen.toNat ∨
      s.cmd.hdrMax < s.ftr.headerLen.toNat
  · exact .inr (.inr (.inl ⟨h0, _, by rw [if_pos h2]; rfl⟩))
  rw [if_neg h2]
  by_cases h3 : belowMax s (blockLen s + s.ftr.extraSize.toNat) = true
  · exact .inr (.inr (.inr ⟨h0, by omega, by omega, by omega, by omega, h3, by rw [if_pos h3]⟩))
  · exact .inr (.inr (.inl ⟨h0, _, by rw [if_neg h3]; rfl⟩))

/-- FTR on a block with no room for a footer, and on any other (rule R151). -/
theorem footer_cases (s : State) :
    (blockLen s < 12 ∧ footer s = .raised .malformedFooter ⟨0, 12, blockLen s⟩ s) ∨
    (12 ≤ blockLen s ∧ ∃ t v h e, v = BitVec.ofNat 32 ((blockBuf s).read (blockLen s - 12) 4) ∧
      h = BitVec.ofNat 32 ((blockBuf s).read (blockLen s - 8) 4) ∧
      e = BitVec.ofNat 32 ((blockBuf s).read (blockLen s - 4) 4) ∧
      t = { s with ftr := { s.ftr with totalSize := v, headerLen := h, extraSize := e } } ∧
      footer s = footerTests t) := by
  unfold footer
  simp only [Config.footerLen]
  by_cases h : blockLen s < 12
  · exact .inl ⟨h, by rw [if_pos h]⟩
  · exact .inr ⟨by omega, _, _, _, _, rfl, rfl, rfl, rfl, by rw [if_neg h]; rfl⟩

/-! ### DEC -/

/-- The capacity test changes nothing when it passes. -/
theorem capacityTest_eq_ok {u v : State} (h : capacityTest u = .ok v) : v = u := by
  unfold capacityTest at h
  simp only at h
  split at h
  · cases h
  · cases h; rfl

/-- Every way a decode can go on to its end (rules R166, R184). -/
theorem decodeBlock_eq_ok {s t : State} (h : decodeBlock s = .ok t) :
    ∃ u, footer s = .ok u ∧ capacityTest u = .ok u ∧
      ((u.ftr.degenerate = true ∧ t = degenerateDone u) ∨
       (u.ftr.degenerate = false ∧ ∃ v, tokenLoop u.ftr.readStart (startDecode u) = .ok v ∧ t = endDecode v)) := by
  obtain ⟨u, hu, h1⟩ := Ctl.andThen_eq_ok h
  obtain ⟨u', hc, h2⟩ := Ctl.andThen_eq_ok h1
  obtain rfl := capacityTest_eq_ok hc
  refine ⟨u', hu, hc, ?_⟩
  unfold decodeBody at h2
  split at h2
  · rename_i hd
    cases h2
    exact .inl ⟨hd, rfl⟩
  · rename_i hd
    obtain ⟨v, hv, hw⟩ := Ctl.andThen_eq_ok h2
    cases hw
    exact .inr ⟨by simpa using hd, v, hv, rfl⟩

/-- Every way a decode can raise: FTR, the capacity test, the token loop (rule R244). -/
theorem decodeBlock_eq_raised {s t : State} {k : ErrKind} {i : Info} (h : decodeBlock s = .raised k i t) :
    footer s = .raised k i t ∨ ∃ u, footer s = .ok u ∧
      (capacityTest u = .raised k i t ∨
       (capacityTest u = .ok u ∧ u.ftr.degenerate = false ∧
         tokenLoop u.ftr.readStart (startDecode u) = .raised k i t)) := by
  rcases Ctl.andThen_eq_raised h with h1 | ⟨u, hu, h1⟩
  · exact .inl h1
  · refine .inr ⟨u, hu, ?_⟩
    rcases Ctl.andThen_eq_raised h1 with h2 | ⟨u', hc, h2⟩
    · exact .inl h2
    · obtain rfl := capacityTest_eq_ok hc
      unfold decodeBody at h2
      split at h2
      · cases h2
      · rename_i hd
        rcases Ctl.andThen_eq_raised h2 with h3 | ⟨v, _, h3⟩
        · exact .inr ⟨hc, by simpa using hd, h3⟩
        · cases h3

/-- One turn of the token loop: a fetch that raises, or the token executed (rules R169, R170). -/
theorem decodeToken_cases {s : State} (hw : s.dec.w ≠ 0) :
    (s.dec.r < (tokenSlot s).size ∧
      decodeToken s = .raised .outOfBounds (fetchInfo s (tokenSlot s).size) (tokenState s)) ∨
    (∃ bs i rest, (tokenSlot s).size ≤ s.dec.r ∧
      (oBuf s).slice (s.dec.base + (s.dec.r - (tokenSlot s).size)) (tokenSlot s).size = some bs ∧
      decode (tokenSlot s) bs = .ok (i, rest) ∧ decodeToken s = runToken i (tokenState s)) ∨
    ∃ f, decodeToken s = .fault f := by
  unfold decodeToken
  rcases fetchToken_cases s with ⟨h, _⟩ | ⟨_, hr, h⟩ | ⟨_, _, _, h⟩ | ⟨_, hr, bs, i, rest, hs, hd, h⟩ | ⟨_, _, _, _, _, _, h⟩
  · exact absurd h hw
  · exact .inl ⟨hr, by rw [h]⟩
  · exact .inr (.inr ⟨_, by rw [h]⟩)
  · exact .inr (.inl ⟨bs, i, rest, hr, hs, hd, by rw [h]⟩)
  · exact .inr (.inr ⟨_, by rw [h]⟩)

/-! ### The sequencer -/

/-- What `settle` adds to a next state. -/
theorem settle_eq_next {q : Seq} {o : Host.Outcome State Fault Refusal} {t : State} (h : settle q o = .next t) :
    ∃ u, o = .next u ∧ ((u.seq ≠ q ∧ t = u) ∨ (u.seq = q ∧ t = u.withSeq (nextSeq q u))) := by
  cases o with
  | next u =>
    simp only [settle] at h
    cases h
    refine ⟨u, rfl, ?_⟩
    split
    · rename_i hq; exact .inr ⟨hq, rfl⟩
    · rename_i hq; exact .inl ⟨hq, rfl⟩
  | fault f => cases h
  | refused r => cases h

/-- During a token loop the sequencer stays where it is. -/
theorem settle_token (o : Host.Outcome State Fault Refusal) : settle .token o = o := by
  cases o with
  | next u =>
    simp only [settle]
    split
    · rename_i h
      congr 1
      cases u
      simp only at h
      subst h
      rfl
    · rfl
  | fault f => rfl
  | refused r => rfl

/-- The padding as the footer delimits it: its first byte, and the byte after each (rules R63, R114). -/
theorem inPadding_iff {a : Nat} {s : State} :
    inPadding a s = true ↔
      blockHdrLen s ≤ blockLen s ∧ blockLen s - blockHdrLen s ≤ a ∧ a + 12 < blockLen s := by
  simp only [inPadding, decide_eq_true_eq]
  omega

/-- The position of the padding is its first byte. -/
theorem itemOffset_pad {s : State} (h : 12 < blockHdrLen s) (hn : blockHdrLen s ≤ blockLen s) :
    itemOffset .pad (blockLen s) (blockHdrLen s) = some (blockLen s - blockHdrLen s) ∧
      inPadding (blockLen s - blockHdrLen s) s = true := by
  refine ⟨by simp [itemOffset, h, hn], inPadding_iff.mpr ⟨hn, Nat.le_refl _, by omega⟩⟩

/-! ### ENC -/

/-- One item of the scan (rules R128, R129): `ENC.n` is kept, `ENC.i` moves up by the length of the item. -/
theorem emitItem_progress (x : EncInput) (e : EncRegs) :
    (emitItem x e).n = e.n ∧ (emitItem x e).i = e.i + (if 2 < e.bestLen then e.bestLen else 1) ∧
      (emitItem x e).cnt = (e.cnt + 1) % 8 ∧ (emitItem x e).pakBest = e.pakBest ∧
      (emitItem x e).rawBest = e.rawBest := by
  unfold emitItem
  split <;> simp [Config.group]

/-- Tracking keeps everything but the best pair, which never grows (rule R132). -/
theorem track_spec (e : EncRegs) :
    track e = { e with pakBest := (track e).pakBest, rawBest := (track e).rawBest } ∧
      (track e).pakBest + (track e).rawBest ≤ e.pakBest + e.rawBest ∧
      (track e).pakBest + (track e).rawBest ≤ e.stream.length + (e.n - e.i) ∧
      ((track e).pakBest = e.pakBest ∧ (track e).rawBest = e.rawBest ∨
        (track e).pakBest = e.stream.length ∧ (track e).rawBest = e.n - e.i) := by
  unfold track
  split
  · refine ⟨rfl, ?_, Nat.le_refl _, .inr ⟨rfl, rfl⟩⟩
    simp only
    omega
  · exact ⟨rfl, Nat.le_refl _, by omega, .inl ⟨rfl, rfl⟩⟩

/-- Choosing an item changes only the four search registers. -/
theorem choose_spec (x : EncInput) (e : EncRegs) :
    choose x e = { e with
      bestLen := (choose x e).bestLen, bestOff := (choose x e).bestOff
      nextLen := (choose x e).nextLen, postLen := (choose x e).postLen } := by
  unfold choose
  simp only
  split
  · split <;> rfl
  · rfl

/-- Opening a group changes only the flag index and the stream. -/
theorem openGroup_spec (e : EncRegs) :
    (openGroup e) = { e with flg := (openGroup e).flg, stream := (openGroup e).stream } ∧
      (openGroup e).stream.length = e.stream.length + (if e.cnt = 0 then 1 else 0) := by
  unfold openGroup
  split <;> simp_all

/-- How far two sequences agree, up to a limit (rule R123): every byte before agrees, and the next one, where the
limit and both sequences have it, differs. -/
theorem matchLen_spec (limit : Nat) : ∀ a b : Bytes,
    matchLen limit a b ≤ limit ∧ matchLen limit a b ≤ a.length ∧ matchLen limit a b ≤ b.length ∧
      (∀ k, k < matchLen limit a b → a[k]? = b[k]?) ∧
      (matchLen limit a b < limit → matchLen limit a b < a.length → matchLen limit a b < b.length →
        a[matchLen limit a b]? ≠ b[matchLen limit a b]?) := by
  induction limit with
  | zero => intro a b; simp [matchLen]
  | succ l ih =>
    intro a b
    cases a with
    | nil => simp [matchLen]
    | cons x a =>
      cases b with
      | nil => simp [matchLen]
      | cons y b =>
        by_cases hxy : x = y
        · subst hxy
          obtain ⟨h1, h2, h3, h4, h5⟩ := ih a b
          have hm : matchLen (l + 1) (x :: a) (x :: b) = matchLen l a b + 1 := by simp [matchLen]
          rw [hm]
          refine ⟨by omega, by simp; omega, by simp; omega, ?_, ?_⟩
          · intro k hk
            cases k with
            | zero => rfl
            | succ k => simpa using h4 k (by omega)
          · intro g1 g2 g3
            simpa using h5 (by omega) (by simpa using g2) (by simpa using g3)
        · have hm : matchLen (l + 1) (x :: a) (y :: b) = 0 := by simp [matchLen, hxy]
          rw [hm]
          refine ⟨by omega, by omega, by omega, fun k hk => by omega, fun _ _ _ => by simpa using hxy⟩

/-- The least multiple of 4 that is not below a number (rule R12). -/
theorem align4_spec (x : Nat) : x ≤ align4 x ∧ align4 x < x + 4 ∧ align4 x % 4 = 0 := by
  unfold align4
  omega

/-- What one item of the scan keeps, the whole scan keeps. -/
theorem scan_invariant {x : EncInput} {P : EncRegs → Prop}
    (hstep : ∀ e, e.i < e.n → P e → P (encodeItem x e)) : ∀ (fuel : Nat) (e : EncRegs), P e → P (scan x fuel e) := by
  intro fuel
  induction fuel with
  | zero => intro e h; exact h
  | succ n ih =>
    intro e h
    unfold scan
    split
    · rename_i hi; exact ih _ (hstep e hi h)
    · exact h

/-- The end of ENC touches the stream alone. -/
theorem endEncode_spec (epoch : Nat) (e : EncRegs) :
    endEncode epoch e = { e with stream := (endEncode epoch e).stream } := rfl

/-- When every length of a run of ENC is below `MAX_LEN`. -/
theorem encodeFits_iff {raw : Bytes} {best : Bool} {s : State} :
    encodeFits raw best s = true ↔ ∀ m, s.cmd.maxLen = some m →
      raw.length < m ∧ (encodeRegs raw best s).stream.length < m ∧
        (finishEncode raw (encodeRegs raw best s)).length < m := by
  simp only [encodeFits, Bool.and_eq_true, belowMax_iff]
  exact ⟨fun h m hm => ⟨h.1.1 m hm, h.1.2 m hm, h.2 m hm⟩,
    fun h => ⟨⟨fun m hm => (h m hm).1, fun m hm => (h m hm).2.1⟩, fun m hm => (h m hm).2.2⟩⟩

/-- ENC on a byte sequence: no result where a length reaches `MAX_LEN`; else the block of the finished scan, ENC's
registers, the form and the length, and nothing else of the state but the free counter. -/
theorem compressInto_spec (raw : Bytes) (best : Bool) (s : State) :
    (encodeFits raw best s = false → compressInto raw best s = none) ∧
    (encodeFits raw best s = true → compressInto raw best s =
      some (finishEncode raw (encodeRegs raw best s),
        { s with
          enc := endEncode s.free (encodeRegs raw best s)
          free := s.free + 1
          status := { s.status with form := chooseForm (encodeRegs raw best s)
                                    outLen := (finishEncode raw (encodeRegs raw best s)).length } })) := by
  constructor <;> intro h <;> simp [compressInto, h]

/-- Every way one segment of `KIP.BUILD` can end that is not a refusal (rules R211 to R213): ENC is not invoked, or its
block is kept, or it is no shorter than the data and the data is kept. -/
theorem buildSegment_cases {i : Fin 6} {bits bits' : Nat} {s t : State} (h : buildSegment i bits s = some (bits', t)) :
    let d := dataOf s.kip i
    (¬(i.val < 3 ∧ 0 < d.length) ∧ bits' = bits ∧
      t = s.withKip { s.kip with stored := s.kip.stored.set i d }) ∨
    ∃ blk u, (i.val < 3 ∧ 0 < d.length) ∧ compressInto d true s = some (blk, u) ∧
      ((blk.length < d.length ∧ bits' = bits + 2 ^ i.val ∧
          t = u.withKip { u.kip with stored := u.kip.stored.set i blk }) ∨
       (d.length ≤ blk.length ∧ bits' = bits ∧ t = u.withKip { u.kip with stored := u.kip.stored.set i d })) := by
  intro d
  simp only [buildSegment, Config.nCompressible] at h
  split at h
  · cases h
  · split at h
    · rename_i hc
      split at h
      · cases h
      · rename_i blk u hu
        split at h
        · rename_i hl
          cases h
          exact .inr ⟨blk, u, hc, hu, .inl ⟨hl, rfl, rfl⟩⟩
        · rename_i hl
          cases h
          exact .inr ⟨blk, u, hc, hu, .inr ⟨Nat.le_of_not_lt hl, rfl, rfl⟩⟩
    · rename_i hc
      cases h
      exact .inl ⟨hc, rfl, rfl⟩

/-- The scan leaves the point it kept as the best no worse than any point it has passed: `n` turns more of a scan are
turns of the same scan. -/
theorem scan_add (x : EncInput) : ∀ (a b : Nat) (e : EncRegs), scan x (a + b) e = scan x b (scan x a e) := by
  intro a
  induction a with
  | zero => intro b e; simp [scan]
  | succ a ih =>
    intro b e
    have h1 : a + 1 + b = (a + b) + 1 := by omega
    rw [h1]
    by_cases hi : e.i < e.n
    · simp only [scan, hi, if_true]
      exact ih b _
    · have hb : scan x b e = e := by
        cases b with
        | zero => rfl
        | succ b => simp [scan, hi]
      simp [scan, hi, hb]

/-! ### The token loop -/

/-- What one turn of the token loop keeps holds of the state the loop goes on to, which has `DEC.w = 0` when the
turns suffice. -/
theorem tokenLoop_invariant {P : State → Prop}
    (hstep : ∀ s t, P s → s.dec.w ≠ 0 → decodeToken s = .ok t → P t) :
    ∀ (fuel : Nat) (s t : State), P s → tokenLoop fuel s = .ok t → P t := by
  intro fuel
  induction fuel with
  | zero =>
    intro s t h ht
    unfold tokenLoop at ht
    split at ht
    · cases ht; exact h
    · rename_i hw; exact hstep s t h hw ht
  | succ n ih =>
    intro s t h ht
    unfold tokenLoop at ht
    split at ht
    · cases ht; exact h
    · rename_i hw
      obtain ⟨u, hu, h2⟩ := Ctl.andThen_eq_ok ht
      exact ih u t (hstep s u h hw hu) h2

/-! ### KIP -/

/-- Every way one segment of `KIP.PARSE` can end (rules R201, R203, R204). -/
theorem parseSegment_cases (i : Fin 6) (s : State) :
    let csz := (s.kip.hdr.seg[i]).compressedSize.toNat
    let s1 := s.withKip { s.kip with pos := s.kip.pos + csz }
    let stored := cellsSlice s.mem.inp.cells s.kip.pos csz
    (csz = 0 ∧ parseSegment i s = .ok (setSegment i (some []) .absent s)) ∨
    (csz ≠ 0 ∧ s.mem.inp.len < s.kip.pos + csz ∧
      parseSegment i s = .raised .truncated ⟨s.kip.pos, csz, s.mem.inp.len - s.kip.pos⟩ s) ∨
    (csz ≠ 0 ∧ s.kip.pos + csz ≤ s.mem.inp.len ∧ segCompressed s.kip.hdr.flags i.val = true ∧
      parseSegment i s = decodeSegment i stored s1) ∨
    (csz ≠ 0 ∧ s.kip.pos + csz ≤ s.mem.inp.len ∧ segCompressed s.kip.hdr.flags i.val = false ∧
      parseSegment i s = .ok (setSegment i (some stored) .verbatim s1)) := by
  intro csz s1 stored
  unfold parseSegment
  by_cases h0 : csz = 0
  · exact .inl ⟨h0, if_pos h0⟩
  · by_cases h1 : s.mem.inp.len < s.kip.pos + csz
    · exact .inr (.inl ⟨h0, h1, by simp only [csz] at *; rw [if_neg h0, if_pos h1]⟩)
    · cases hc : segCompressed s.kip.hdr.flags i.val with
      | true =>
        exact .inr (.inr (.inl ⟨h0, by omega, rfl, by
          simp only [csz, s1, stored] at *; rw [if_neg h0, if_neg h1]; simp⟩))
      | false =>
        exact .inr (.inr (.inr ⟨h0, by omega, rfl, by
          simp only [csz, s1, stored] at *; rw [if_neg h0, if_neg h1]; simp⟩))

/-- Recording a segment touches that segment's two registers alone (rule R208). -/
theorem setSegment_spec (i : Fin 6) (d : Option Bytes) (st : SegStat) (s : State) :
    setSegment i d st s = { s with kip := { s.kip with
      data := (setSegment i d st s).kip.data, segstat := (setSegment i d st s).kip.segstat } } ∧
    (setSegment i d st s).kip.data[i] = d ∧ (setSegment i d st s).kip.segstat[i] = st ∧
    ∀ j : Fin 6, j ≠ i → (setSegment i d st s).kip.data[j] = s.kip.data[j] ∧
      (setSegment i d st s).kip.segstat[j] = s.kip.segstat[j] := by
  refine ⟨rfl, ?_, ?_, ?_⟩
  · simp [setSegment, State.withKip]
  · simp [setSegment, State.withKip]
  · intro j hj
    have hne : i.val ≠ j.val := fun h => hj (Fin.ext h.symm)
    simp [setSegment, State.withKip, hne]

end Sys2Proof.Machine
end

