-- ==== Sys2Proof/Tests/Slice0.lean ====
section
/-! SUPPORT. Tests: what the checks refuse, words written out from the spec's encodings, single steps on the spec's own
vectors (95_test_vectors.md and the worked examples of the rules), and for each statement a concrete state that meets
its hypotheses. -/

namespace Sys2Proof.Tests

/- One theorem at a time: many at once ask for more threads than a checker's memory limit allows. -/
set_option Elab.async false

open Sys2Proof.Machine

/-! ### Helpers -/

/-- The state a step or a command answers; the reset state where it answers none. -/
def got (o : Host.Outcome State Fault Refusal) : State :=
  match o with
  | .next t => t
  | .fault _ => State.reset
  | .refused _ => State.reset

/-- The outcome is a next state. -/
def isNext (o : Host.Outcome State Fault Refusal) : Bool :=
  match o with
  | .next _ => true
  | .fault _ => false
  | .refused _ => false

theorem got_eq {o : Host.Outcome State Fault Refusal} (h : isNext o = true) : o = .next (got o) := by
  cases o with
  | next t => rfl
  | fault f => cases h
  | refused r => cases h

/-- The engine after reset with an input buffer. -/
def withIn (l : Bytes) : State := giveInput l State.reset

/-- A strict decode in its token loop. -/
def tok (r w k : Nat) (ctrl : Byte) (base outLen : Nat) (bytes : Bytes) : State :=
  { State.reset with
    cmd := { State.reset.cmd with op := .blzDecompressS }
    dec := { r := r, w := w, ctrl := ctrl, k := k, outLen := outLen, base := base, len := 0, off := 3, run := .run }
    mem := { State.reset.mem with out := Buffer.ofBytes bytes }
    seq := .token }

/-- The block of the worked example of rule R193 (vector E5). -/
def blockE5 : Bytes :=
  [0x00, 0xE0, 0xAA, 0xAA, 0xAA, 0x10, 0xFF, 0xFF, 0x14, 0x00, 0x00, 0x00, 0x0E, 0x00, 0x00, 0x00, 0x00, 0x00, 0x00, 0x00]

/-- The block of the worked example of rule R194 (vector E8). -/
def blockE8 : Bytes :=
  [0x10, 0x11, 0x12, 0x13, 0x14, 0x15, 0x16, 0x17, 0x00, 0x40, 0x00, 0xF0, 0x55, 0x55, 0x55, 0x18, 0x14, 0x00, 0x00, 0x00,
   0x0C, 0x00, 0x00, 0x00, 0x08, 0x00, 0x00, 0x00]

/-- The block of the worked example of rule R195. -/
def blockR195 : Bytes :=
  [0xA0, 0xA1, 0xA2, 0xA3, 0xA4, 0xA5, 0x00, 0xF0, 0x33, 0x22, 0x11, 0x10, 0x18, 0x00, 0x00, 0x00, 0x0C, 0x00, 0x00, 0x00,
   0x01, 0x00, 0x00, 0x00]

/-- A file whose header is zero but for the magic, the flag byte and the first descriptor's sizes. -/
def file (flags dsz csz : Byte) (body : Bytes) : Bytes :=
  [0x4B, 0x49, 0x50, 0x31] ++ List.replicate 27 0x00#8 ++ [flags] ++ List.replicate 4 0x00#8 ++ [dsz, 0x00, 0x00, 0x00]
    ++ [csz, 0x00, 0x00, 0x00] ++ List.replicate 212 0x00#8 ++ body

/-! ### What the checks refuse -/

/-- Rule R101: no other magic is well formed (here "KIP2"). -/
theorem test_wellFormed_refuses_other_magic : (Instr.kipMagic 0x3250494B).wellFormed = false := by decide

theorem test_wellFormed_accepts_magic : (Instr.kipMagic 0x3150494B).wellFormed = true := by decide

/-- An item that is cut short is refused. -/
theorem test_decode_refuses_short : decode .ref [0x00] = .error .truncated := by rfl

/-- Rule R96: the terminator is a zero word. -/
theorem test_decode_refuses_terminator :
    decode .storedTerm [0x00, 0x00, 0x00, 0x01] = .error .nonzeroTerminator := by rfl

/-- List V10: command ordinals 7 and above do not exist. -/
theorem test_decode_refuses_command_seven : decode .command [0x07] = .error .noSuchCommand := by rfl

/-! ### Words written out from the spec's encodings -/

/-- Rule R81: 0x10 = 0001 0000: items LIT, LIT, LIT, REF, … -/
theorem test_word_ctrl : decode .ctrl [0x10] = .ok (.ctrl 0x10, []) := by rfl
/-- Rule R82. -/
theorem test_word_lit : decode .lit [0xAA] = .ok (.lit 0xAA, []) := by rfl
/-- Rule R84: bytes 08 10 are v = 0x1008: LEN4 = 1, OFF12 = 8 (vector E13: length 4, offset 11). -/
theorem test_word_ref : decode .ref [0x08, 0x10] = .ok (.ref 1 8, []) := by rfl
/-- Rule R93. -/
theorem test_word_pad : decode .pad [0xFF] = .ok (.pad 0xFF, []) := by rfl
/-- Rule R91: 14 00 00 00 is total_size = 20. -/
theorem test_word_footerTotal : decode .footerTotal [0x14, 0x00, 0x00, 0x00] = .ok (.footerTotal 20, []) := by rfl
/-- Rule R91: 0E 00 00 00 is header_len = 14. -/
theorem test_word_footerHdr : decode .footerHdr [0x0E, 0x00, 0x00, 0x00] = .ok (.footerHdr 14, []) := by rfl
/-- Rule R91, byte order R56: 08 07 06 05 is 0x05060708. -/
theorem test_word_footerExtra :
    decode .footerExtra [0x08, 0x07, 0x06, 0x05] = .ok (.footerExtra 0x05060708, []) := by rfl
/-- Rule R96. -/
theorem test_word_storedTerm : decode .storedTerm [0x00, 0x00, 0x00, 0x00] = .ok (.storedTerm, []) := by rfl
/-- Rule R101: 4B 49 50 31. -/
theorem test_word_kipMagic : decode .kipMagic [0x4B, 0x49, 0x50, 0x31] = .ok (.kipMagic 0x3150494B, []) := by rfl
/-- Rule R229: "demo" and eight zero bytes; byte 0 is the lowest. -/
theorem test_word_kipName :
    decode .kipName [0x64, 0x65, 0x6D, 0x6F, 0x00, 0x00, 0x00, 0x00, 0x00, 0x00, 0x00, 0x00]
      = .ok (.kipName 0x6F6D6564, []) := by rfl
/-- Rule R229: title_id 0x0100000000001234. -/
theorem test_word_kipTitleId :
    decode .kipTitleId [0x34, 0x12, 0x00, 0x00, 0x00, 0x00, 0x00, 0x01]
      = .ok (.kipTitleId 0x0100000000001234, []) := by rfl
/-- Rule R229: category 1. -/
theorem test_word_kipProcessCategory :
    decode .kipProcessCategory [0x01, 0x00, 0x00, 0x00] = .ok (.kipProcessCategory 1, []) := by rfl
theorem test_word_kipThreadPriority :
    decode .kipThreadPriority [0x2C] = .ok (.kipThreadPriority 0x2C, []) := by rfl
theorem test_word_kipDefaultCpuId : decode .kipDefaultCpuId [0x03] = .ok (.kipDefaultCpuId 0x03, []) := by rfl
theorem test_word_kipReserved : decode .kipReserved [0x5A] = .ok (.kipReserved 0x5A, []) := by rfl
theorem test_word_kipFlags : decode .kipFlags [0x21] = .ok (.kipFlags 0x21, []) := by rfl
/-- Rule R229, SEG[1]: dst_offset, decompressed_size, compressed_size, attribute in this order. -/
theorem test_word_kipSeg :
    decode (.kipSeg 1) [0x00, 0x10, 0x00, 0x00, 0x05, 0x00, 0x00, 0x00, 0x04, 0x00, 0x00, 0x00, 0x07, 0x00, 0x00, 0x00]
      = .ok (.kipSeg 1 ⟨0x1000, 5, 4, 7⟩, []) := by rfl
/-- Rule R229: CAP[0] = 0x000000B7. -/
theorem test_word_kipCap : decode (.kipCap 0) [0xB7, 0x00, 0x00, 0x00] = .ok (.kipCap 0 0xB7, []) := by rfl
/-- Rule R110: the ordinals 0 to 6. -/
theorem test_word_commands :
    decode .command [0x00] = .ok (.blzCompress, []) ∧ decode .command [0x01] = .ok (.blzFooter, []) ∧
    decode .command [0x02] = .ok (.blzDecompressS, []) ∧ decode .command [0x03] = .ok (.blzDecompressP, []) ∧
    decode .command [0x04] = .ok (.kipParse, []) ∧ decode .command [0x05] = .ok (.kipBuild, []) ∧
    decode .command [0x06] = .ok (.kipSerialize, []) := ⟨rfl, rfl, rfl, rfl, rfl, rfl, rfl⟩
/-- Rules R87, R111: the listing of rule R193 assembles to the block of rule R162. -/
theorem test_listing_assembles :
    assemble [] [.ctrl 0x10, .lit 0xAA, .lit 0xAA, .lit 0xAA, .ref 14 0] 2 20 14 0 = blockE5 := by decide +kernel

/-! ### Host words -/

theorem test_table_ref : decodeTableWord 16 0xE000 = some (.ref 14 0) := by rfl

theorem test_table_runs_ref : isNext (step (State.reset.withFetchWord 16 0xE000)) = true := by decide +kernel

/-! ### Single steps on the spec's vectors -/

/-- Rule R171, example: `O[5] = 0x10`, `DEC.r = 6`. -/
theorem test_ctrl_example :
    (got (step (tok 6 20 0 0 0 20 blockE5))).dec.r = 5 ∧ (got (step (tok 6 20 0 0 0 20 blockE5))).dec.ctrl = 0x10 ∧
      (got (step (tok 6 20 0 0 0 20 blockE5))).dec.k = 8 := by decide +kernel

/-- Rule R172, example: `DEC.r = 5`, `DEC.w = 20`, `O[4] = 0xAA`. -/
theorem test_lit_example :
    (got (step (tok 5 20 8 0x10 0 20 blockE5))).dec.r = 4 ∧ (got (step (tok 5 20 8 0x10 0 20 blockE5))).dec.w = 19 ∧
      (got (step (tok 5 20 8 0x10 0 20 blockE5))).readByte .out 19 = some 0xAA ∧
      (got (step (tok 5 20 8 0x10 0 20 blockE5))).dec.ctrl = 0x20 := by decide +kernel

/-- Rule R173, example: `v = 0xE000`, `len = 17`, `off = 3`, `w` from 17 to 0. -/
theorem test_ref_example :
    (got (exec (.ref 14 0) (tok 2 17 5 0 0 20 (blockE5.take 17 ++ [0xAA, 0xAA, 0xAA])))).mem.out.toBytes
      = List.replicate 20 0xAA#8 ∧
    (got (exec (.ref 14 0) (tok 2 17 5 0 0 20 (blockE5.take 17 ++ [0xAA, 0xAA, 0xAA])))).dec.w = 0 := by
  decide +kernel

/-- Rule R176 (d): the first item a `REF` (rule R192 d). -/
theorem test_ref_first_raises :
    (got (exec (.ref 0 0) (tok 2 20 8 0 0 20 blockE5))).status.err = .outOfBounds ∧
      (got (exec (.ref 0 0) (tok 2 20 8 0 0 20 blockE5))).status.info = ⟨22, 20, 22⟩ := by decide +kernel

/-- Rule R162: the FTR registers of the worked example. -/
theorem test_footer_example :
    (got (exec .blzFooter (withIn blockE5))).status.err = .ok ∧
      (got (exec .blzFooter (withIn blockE5))).ftr = ⟨20, 14, 0, 0, 6, 20, false⟩ := by decide +kernel

/-- Rule R162: the same block without its last byte. -/
theorem test_footer_truncated :
    (got (exec .blzFooter (withIn (blockE5.take 19)))).status.err = .malformedFooter ∧
      (got (exec .blzFooter (withIn (blockE5.take 19)))).status.info = ⟨7, 19, 5375⟩ := by decide +kernel

/-- Rule R193: twenty bytes 0xAA. -/
theorem test_strict_example :
    (got (exec .blzDecompressS (withIn blockE5))).mem.out.toBytes = List.replicate 20 0xAA#8 := by decide +kernel

/-- Rule R195: tokens are fetched from the buffer being written. -/
theorem test_strict_reads_decoded_tokens :
    (got (exec .blzDecompressS (withIn blockR195))).mem.out.toBytes =
      [0x33, 0x22, 0x33, 0x22, 0x33, 0x22, 0x11, 0x33, 0x22, 0x11, 0x33, 0x22, 0x11, 0x33, 0x22, 0x11, 0x33, 0x22, 0x11,
       0x33, 0x22, 0x11, 0x33, 0x22, 0x11] := by decide +kernel

/-- Rule R194, in place: prefix kept, twenty-eight bytes 0x55. -/
theorem test_inPlace_example :
    (got (exec .blzDecompressP (giveInPlace (blockE8 ++ List.replicate 8 0xEE#8) 28 36 State.reset))).mem.m.toBytes =
      [0x10, 0x11, 0x12, 0x13, 0x14, 0x15, 0x16, 0x17] ++ List.replicate 28 0x55#8 := by decide +kernel

/-- Vector E5 (rule R146). -/
theorem test_compress_twenty :
    (got (exec .blzCompress (withIn (List.replicate 20 0xAA#8)))).mem.out.toBytes = blockE5 := by decide +kernel

/-- Vector E2: the stored form. -/
theorem test_compress_stored :
    (got (exec .blzCompress (withIn [0x00, 0x01, 0x02, 0x03]))).mem.out.toBytes =
      [0x00, 0x01, 0x02, 0x03, 0x00, 0x00, 0x00, 0x00] := by decide +kernel

/-- Rule R206: a flagged segment that decodes to its declared size. -/
theorem test_parse_decoded :
    (got (exec .kipParse (withIn (file 0x01 20 20 blockE5)))).kip.segstat[0] = .decoded ∧
      (got (exec .kipParse (withIn (file 0x01 20 20 blockE5)))).kip.data[0] = some (List.replicate 20 0xAA#8) := by
  decide +kernel

/-- Rule R228 (c), (d): a flagged segment too short for a footer; a file one byte short. -/
theorem test_parse_failed_and_truncated :
    (got (exec .kipParse (withIn (file 0x01 4 4 [1, 2, 3, 4, 5])))).kip.segstat[0] = .failed .malformedFooter ∧
      (got (exec .kipParse (withIn (file 0x01 4 4 [1, 2, 3])))).status.info = ⟨256, 4, 3⟩ := by decide +kernel

/-- The KIP registers with one segment's data and a trailing byte. -/
def kipWith (d : Bytes) : State :=
  { State.reset with kip := { State.reset.kip with
      hdr := { State.reset.kip.hdr with flags := 0x85 }, data := State.reset.kip.data.set 0 (some d), trailing := [0x99] } }

/-- Rules R212, R215: kept only when strictly smaller (20 bytes of 0xAA give a 20-byte block); bits 7..3 stay. -/
theorem test_build_keeps_raw_when_equal :
    (got (exec .kipBuild (kipWith (List.replicate 20 0xAA#8)))).kip.stored[0] = List.replicate 20 0xAA#8 ∧
      (got (exec .kipBuild (kipWith (List.replicate 20 0xAA#8)))).kip.hdr.flags = 0x80 := by decide +kernel

/-- Rules R212, R215: 24 bytes give a 20-byte block, the bit is set and the size rewritten. -/
theorem test_build_compresses :
    (got (exec .kipBuild (kipWith (List.replicate 24 0xAA#8)))).kip.hdr.flags = 0x81 ∧
      ((got (exec .kipBuild (kipWith (List.replicate 24 0xAA#8)))).kip.hdr.seg[0]).compressedSize = 20 := by decide +kernel

/-- Rules R221, R222: header, then the trailing byte. -/
theorem test_serialize :
    (got (exec .kipSerialize (kipWith []))).mem.out.toBytes =
      [0x4B, 0x49, 0x50, 0x31] ++ List.replicate 27 0x00#8 ++ [0x85] ++ List.replicate 224 0x00#8 ++ [0x99] := by
  decide +kernel

/-! ### The hypotheses of each statement are met -/

theorem witness_decodeOfEncode : (Instr.ref 15 0xFFF).wellFormed = true := by rfl

theorem witness_encodeOfDecode :
    decode .ref [0xFF, 0xFF, 0x01] = .ok (.ref 15 0xFFF, [0x01]) ∧ (Instr.ref 15 0xFFF).wellFormed = true :=
  ⟨rfl, rfl⟩

theorem witness_stepRuns_token :
    let s := tok 1 20 0 0 0 20 blockE5
    s.seq = .token ∧ 0 < s.dec.w ∧ (tokenSlot s).size ≤ s.dec.r ∧
      (oBuf s).slice (s.dec.base + (s.dec.r - (tokenSlot s).size)) (tokenSlot s).size = some [0x00] ∧
      decode (tokenSlot s) [0x00] = .ok (.ctrl 0x00, []) := by decide +kernel

theorem witness_stepRuns_command : (issue .kipSerialize State.reset).seq = .command := by rfl

theorem witness_stepRuns_load :
    let s := { withIn (blockE5.drop 8) with seq := .load .footerExtra }
    s.seq = .load .footerExtra ∧ itemCheck .footerExtra (itemLen .footerExtra s) = none ∧
      itemOffset .footerExtra (itemLen .footerExtra s) (blockHdrLen s) = some 8 ∧
      (itemBuf .footerExtra s).slice 8 4 = some [0x00, 0x00, 0x00, 0x00] ∧
      decode .footerExtra [0x00, 0x00, 0x00, 0x00] = .ok (.footerExtra 0, []) := by decide +kernel

/-- Block E5 has `header_len = 14`: its padding is bytes 6 and 7, and this is the last of them. -/
theorem witness_stepRuns_pad :
    let s := { withIn blockE5 with seq := .loadPad 7 }
    s.seq = .loadPad 7 ∧ inPadding 7 s = true ∧ inPadding 5 s = false ∧ inPadding 8 s = false ∧
      (blockBuf s).get 7 = some 0xFF := by decide +kernel

theorem witness_paddingSteps :
    let s := { withIn blockE5 with seq := .load .pad }
    s.seq = .load .pad ∧ blockLen s ≤ (blockBuf s).len ∧ 12 < blockHdrLen s ∧ blockHdrLen s ≤ blockLen s ∧
      0 < 1 ∧ 1 < blockHdrLen s - 12 := by decide +kernel

theorem witness_stepRuns_emit :
    let s := { State.reset with seq := .emit (.kipCap 31) }
    s.seq = .emit (.kipCap 31) ∧ itemToEmit (.kipCap 31) s = some (.kipCap 31 0) := by decide +kernel

theorem witness_commandStepEndsIdle :
    exec Op.blzFooter.instr (withIn []) = .next (got (exec Op.blzFooter.instr (withIn []))) :=
  got_eq (by decide +kernel)

/-- A running token loop is a good state. -/
theorem witness_inv_token : Inv (tok 6 20 0 0 0 20 blockE5) :=
  ⟨by decide +kernel, by decide, by show tokenOk _; unfold tokenOk; decide +kernel⟩

theorem witness_invariantKept :
    Inv (tok 6 20 0 0 0 20 blockE5) ∧ (tok 6 20 0 0 0 20 blockE5).seq = .token ∧
      step (tok 6 20 0 0 0 20 blockE5) = .next (got (step (tok 6 20 0 0 0 20 blockE5))) :=
  ⟨witness_inv_token, rfl, got_eq (by decide +kernel)⟩

/-- An in-place decode that is running, with a byte of `M` just above its region. -/
theorem witness_raise :
    let s := { tok 6 20 0 0 1 19 [] with
      cmd := { State.reset.cmd with op := .blzDecompressP }
      mem := { State.reset.mem with m := Buffer.ofBytes (blockE5 ++ [0x77]) } }
    s.dec.run = .run ∧ s.cmd.op = .blzDecompressP ∧ s.mem.wf = true ∧ s.dec.base + s.dec.outLen ≤ 20 ∧
      s.readByte .m 20 = some 0x77 ∧ ErrKind.outOfBounds ≠ .invalidMagic ∧ ErrKind.outOfBounds ≠ .truncated := by
  decide +kernel

theorem witness_raise_idle :
    ¬(State.reset.dec.run = .run ∧ State.reset.cmd.op = .blzDecompressP) ∧ State.reset.dec.run ≠ .run ∧
      State.reset.cmd.op ≠ .blzDecompressS ∧ State.reset.cmd.op ≠ .blzDecompressP := by decide

theorem witness_ctrl : 1 ≤ (tok 1 20 0 0 0 20 blockE5).dec.r := by decide

/-- The store goes to the last byte of the buffer. -/
theorem witness_lit :
    let s := tok 1 20 1 0 0 20 blockE5
    s.mem.wf = true ∧ 1 ≤ s.dec.r ∧ 1 ≤ s.dec.w ∧ s.dec.base + (s.dec.w - 1) < (oBuf s).len ∧
      s.dec.base + (s.dec.w - 1) + 1 = (oBuf s).len := by decide +kernel

/-- The first source byte is the last of the decoded region. -/
theorem witness_ref :
    let s := tok 2 17 1 0 0 20 blockE5
    s.mem.wf = true ∧ 2 ≤ s.dec.r ∧ s.dec.w ≤ s.dec.outLen ∧ s.dec.base + s.dec.outLen ≤ (oBuf s).len ∧
      s.dec.w - 1 + ((0 : BitVec 12).toNat + 3) < s.dec.outLen := by decide +kernel

theorem witness_dispatch :
    (tok 6 20 0 0 0 20 blockE5).dec.k = 0 ∧ 0 < (tok 6 20 1 0 0 20 blockE5).dec.k := by decide

theorem witness_ctrlStep :
    let s := tok 1 20 0 0 0 20 blockE5
    s.seq = .token ∧ 0 < s.dec.w ∧ s.dec.k = 0 ∧ 1 ≤ s.dec.r ∧
      s.readByte (oName s) (s.dec.base + (s.dec.r - 1)) = some 0x00 := by decide +kernel

theorem witness_ctrlStep_raises :
    let s := tok 0 20 0 0 0 20 blockE5
    s.seq = .token ∧ 0 < s.dec.w ∧ s.dec.k = 0 ∧ s.dec.r < 1 := by decide

theorem witness_litStep :
    let s := tok 1 20 1 0x7F 0 20 blockE5
    s.seq = .token ∧ s.mem.wf = true ∧ tokenOk s ∧ 0 < s.dec.w ∧ 0 < s.dec.k ∧ s.dec.ctrl.getLsbD 7 = false ∧
      1 ≤ s.dec.r := by unfold tokenOk; decide +kernel

theorem witness_litStep_raises :
    let s := tok 0 20 1 0x7F 0 20 blockE5
    s.seq = .token ∧ s.mem.wf = true ∧ tokenOk s ∧ 0 < s.dec.w ∧ 0 < s.dec.k ∧ s.dec.ctrl.getLsbD 7 = false ∧
      s.dec.r < 1 := by unfold tokenOk; decide +kernel

theorem witness_refStep_fetch_raises :
    let s := tok 1 20 1 0x80 0 20 blockE5
    s.seq = .token ∧ s.mem.wf = true ∧ tokenOk s ∧ 0 < s.dec.w ∧ 0 < s.dec.k ∧ s.dec.ctrl.getLsbD 7 = true ∧
      s.dec.r < 2 := by unfold tokenOk; decide +kernel

/-- `off = 3`: with `DEC.w = 18` the source is the byte just beyond the region. -/
theorem witness_refStep_source_raises :
    let s := tok 2 18 1 0x80 0 20 blockE5
    s.seq = .token ∧ s.mem.wf = true ∧ tokenOk s ∧ 0 < s.dec.w ∧ 0 < s.dec.k ∧ s.dec.ctrl.getLsbD 7 = true ∧
      2 ≤ s.dec.r ∧ s.readByte (oName s) (s.dec.base + (s.dec.r - 2)) = some 0x00 ∧
      s.readByte (oName s) (s.dec.base + (s.dec.r - 1)) = some 0xE0 ∧ s.dec.outLen ≤ s.dec.w - 1 + 3 := by
  unfold tokenOk; decide +kernel

/-- `off = 3`: with `DEC.w = 17` the source is the last byte of the region. -/
theorem witness_refStep_copies :
    let s := tok 2 17 1 0x80 0 20 blockE5
    s.seq = .token ∧ s.mem.wf = true ∧ tokenOk s ∧ 0 < s.dec.w ∧ 0 < s.dec.k ∧ s.dec.ctrl.getLsbD 7 = true ∧
      2 ≤ s.dec.r ∧ s.readByte (oName s) (s.dec.base + (s.dec.r - 2)) = some 0x00 ∧
      s.readByte (oName s) (s.dec.base + (s.dec.r - 1)) = some 0xE0 ∧ ¬ s.dec.outLen ≤ s.dec.w - 1 + 3 := by
  unfold tokenOk; decide +kernel

theorem witness_loopEnds : (tok 0 0 3 0 0 20 blockE5).seq = .token ∧ (tok 0 0 3 0 0 20 blockE5).dec.w = 0 := by decide

theorem witness_tokenOutside :
    (1 ≤ (tok 1 0 1 0 0 20 blockE5).dec.r ∧ (tok 1 0 1 0 0 20 blockE5).dec.w = 0) ∧
    (1 ≤ (tok 1 21 1 0 0 21 blockE5).dec.w ∧
      (oBuf (tok 1 21 1 0 0 21 blockE5)).len ≤ 0 + ((tok 1 21 1 0 0 21 blockE5).dec.w - 1)) ∧
    (2 ≤ (tok 2 18 1 0 0 21 blockE5).dec.r ∧ 1 ≤ (tok 2 18 1 0 0 21 blockE5).dec.w ∧
      (tok 2 18 1 0 0 21 blockE5).dec.w - 1 + ((0 : BitVec 12).toNat + 3) < (tok 2 18 1 0 0 21 blockE5).dec.outLen ∧
      (oBuf (tok 2 18 1 0 0 21 blockE5)).len ≤
        (tok 2 18 1 0 0 21 blockE5).dec.base + ((tok 2 18 1 0 0 21 blockE5).dec.w - 1 + ((0 : BitVec 12).toNat + 3))) := by
  decide +kernel

theorem witness_tokenRaises :
    (tok 0 20 0 0 0 20 blockE5).dec.r < 1 ∧ (tok 1 20 0 0 0 20 blockE5).dec.r < 2 ∧
    (2 ≤ (tok 2 18 1 0 0 20 blockE5).dec.r ∧ 1 ≤ (tok 2 18 1 0 0 20 blockE5).dec.w ∧
      (tok 2 18 1 0 0 20 blockE5).dec.outLen ≤ (tok 2 18 1 0 0 20 blockE5).dec.w - 1 + ((0 : BitVec 12).toNat + 3)) := by
  decide

/-- The state FTR leaves, where it goes on. -/
def gotCtl (c : Ctl) : State :=
  match c with
  | .ok t => t
  | .raised _ _ t => t
  | .fault _ => State.reset

/-- The operation went on. -/
def isOk (c : Ctl) : Bool :=
  match c with
  | .ok _ => true
  | .raised _ _ _ => false
  | .fault _ => false

theorem gotCtl_eq {c : Ctl} (h : isOk c = true) : c = .ok (gotCtl c) := by
  cases c with
  | ok t => rfl
  | raised k i t => cases h
  | fault f => cases h

theorem witness_steps_strict :
    footer (startCommand .blzDecompressS (withIn blockE8))
        = .ok (gotCtl (footer (startCommand .blzDecompressS (withIn blockE8)))) ∧
      (gotCtl (footer (startCommand .blzDecompressS (withIn blockE8)))).ftr.degenerate = false :=
  ⟨gotCtl_eq (by decide +kernel), by decide +kernel⟩

/-- `BLZ.DECOMPRESS.P` on vector E8 with exactly the room it needs. -/
def inPlaceE8 : State := giveInPlace (blockE8 ++ List.replicate 8 0xEE#8) 28 36 (withIn blockE8)

theorem witness_steps_inPlace :
    inPlaceE8.cmd.n ≤ inPlaceE8.cmd.cap ∧ inPlaceE8.cmd.cap ≤ inPlaceE8.mem.m.len ∧
      (∀ m, inPlaceE8.cmd.maxLen = some m → inPlaceE8.cmd.cap < m) ∧
      footer (startCommand .blzDecompressP inPlaceE8) = .ok (gotCtl (footer (startCommand .blzDecompressP inPlaceE8))) ∧
      (gotCtl (footer (startCommand .blzDecompressP inPlaceE8))).ftr.degenerate = false ∧
      inPlaceE8.cmd.n + (gotCtl (footer (startCommand .blzDecompressP inPlaceE8))).ftr.extraSize.toNat ≤
        inPlaceE8.cmd.cap :=
  ⟨by decide, by decide +kernel, fun m h => (by cases h), gotCtl_eq (by decide +kernel), by decide +kernel,
    by decide +kernel⟩

theorem witness_emitted :
    isStructural (.kipCap 31 0) ∧ (∃ p, ({ State.reset with seq := .emit (.kipCap 31) } : State).seq = .emit p) ∧
      State.reset.mem.wf = true :=
  ⟨by unfold isStructural; decide, ⟨_, rfl⟩, by decide⟩

theorem witness_notEmitting : ∀ p, State.reset.seq ≠ .emit p := fun p h => by cases h

/-- The branches of FTR's verdict on the last word: degenerate, degenerate with `MAX_LEN` the block's own length, accepted
with `header_len = HDR_MAX`, refused one above it. -/
theorem witness_lastFooterWord :
    let at' (total hdr : W32) : State :=
      { withIn (List.replicate 20 0) with ftr := { State.reset.ftr with totalSize := total, headerLen := hdr } }
    ((at' 0 0).ftr.totalSize.toNat + (0 : W32).toNat = 0 ∧ (at' 0 0).cmd.maxLen = none) ∧
    (let s := { at' 0 0 with cmd := { State.reset.cmd with maxLen := some 20 } }
     s.ftr.totalSize.toNat + (0 : W32).toNat = 0 ∧ s.cmd.maxLen = some 20 ∧ ¬ blockLen s < 20) ∧
    ((at' 20 15).ftr.totalSize.toNat ≤ blockLen (at' 20 15) ∧ (at' 20 15).ftr.headerLen.toNat ≤ (at' 20 15).cmd.hdrMax) ∧
    ¬ (at' 20 16).ftr.headerLen.toNat ≤ (at' 20 16).cmd.hdrMax := by decide +kernel

/-- Twelve bytes of footer. -/
def footerOf (total hdr extra : Nat) : Bytes := leBytes 4 total ++ leBytes 4 hdr ++ leBytes 4 extra

/-- One block for each branch of `BLZ.FOOTER`, at the boundary: 11 bytes; degenerate; degenerate with `MAX_LEN = n`; `total_size = n + 1`;
`header_len = 11`; `MAX_LEN = n + extra_size`; accepted with `total_size = n` and `header_len = total_size`. -/
theorem witness_footerVerdict :
    (withIn ((footerOf 12 12 1).take 11)).mem.inp.len < 12 ∧
    (withIn (footerOf 0 0 0)).mem.inp.read 0 4 + (withIn (footerOf 0 0 0)).mem.inp.read 8 4 = 0 ∧
    (let s := { withIn (footerOf 0 0 0) with cmd := { State.reset.cmd with maxLen := some 12 } }
     s.mem.inp.read 0 4 + s.mem.inp.read 8 4 = 0 ∧ s.cmd.maxLen = some 12 ∧ 12 ≤ s.mem.inp.len) ∧
    (withIn (footerOf 13 12 1)).mem.inp.len < (withIn (footerOf 13 12 1)).mem.inp.read 0 4 ∧
    (withIn (footerOf 12 11 1)).mem.inp.read 4 4 < 12 ∧
    (let s := { withIn (footerOf 12 12 1) with cmd := { State.reset.cmd with maxLen := some 13 } }
     s.cmd.maxLen = some 13 ∧ 13 ≤ s.mem.inp.len + s.mem.inp.read 8 4) ∧
    (got (exec .blzFooter (withIn (footerOf 12 12 1)))).status.err = .ok := by decide +kernel

theorem witness_footerSteps :
    let s := { withIn blockE5 with seq := .load .footerTotal }
    s.seq = .load .footerTotal ∧ blockLen s ≤ (blockBuf s).len := by decide +kernel

theorem witness_truncated :
    let s := withIn (blockE5.take 19 ++ [0x00])
    let t := got (exec .blzFooter s)
    let u := withIn (blockE5.take 19)
    s.mem.inp = Buffer.ofBytes (blockE5.take 19 ++ [0x00]) ∧ s.cmd.hdrMax < 3072 ∧ exec .blzFooter s = .next t ∧
      t.status.err = .ok ∧ t.ftr.degenerate = false ∧ t.ftr.totalSize.toNat < 2 ^ 24 ∧
      u.mem.inp = Buffer.ofBytes (blockE5.take 19) ∧ u.cmd.hdrMax = s.cmd.hdrMax :=
  ⟨rfl, by decide, got_eq (by decide +kernel), by decide +kernel, by decide +kernel, by decide +kernel, rfl, rfl⟩

theorem witness_strictRepeats :
    let s := withIn (assemble [0x01] [.ctrl 0x18, .lit 3, .lit 2, .lit 1, .ref 15 0, .ref 15 0] 0 20 12 19)
    12 ≤ s.cmd.hdrMax ∧ s.cmd.maxLen = none ∧ s.mem.inp =
      Buffer.ofBytes (assemble [0x01] [.ctrl 0x18, .lit 3, .lit 2, .lit 1, .ref 15 0, .ref 15 0] 0 20 12
        ((15 : BitVec 4).toNat + 4)) := ⟨by decide, rfl, rfl⟩

theorem witness_inPlaceRepeats :
    let blk := assemble [0x01] [.ctrl 0x18, .lit 3, .lit 2, .lit 1, .ref 15 0, .ref 15 0] 0 20 12 19
    let s := giveInPlace (blk ++ List.replicate 19 0) 21 40 State.reset
    s.mem.wf = true ∧ 12 ≤ s.cmd.hdrMax ∧ s.cmd.maxLen = none ∧ s.cmd.n = 1 + 20 ∧
      1 + 24 + (15 : BitVec 4).toNat ≤ s.cmd.cap ∧ s.cmd.cap ≤ s.mem.m.len ∧ s.mem.m.slice 0 s.cmd.n = some blk := by
  decide +kernel

theorem witness_degenerate :
    (let s := withIn (List.replicate 12 0)
     12 ≤ s.mem.inp.len ∧ s.cmd.maxLen = none ∧ s.mem.inp.read (s.mem.inp.len - 12) 4 = 0 ∧ s.mem.inp.read (s.mem.inp.len - 4) 4 = 0) ∧
    (let s := giveInPlace (List.replicate 12 0) 12 12 State.reset
     12 ≤ s.cmd.n ∧ s.cmd.n ≤ s.cmd.cap ∧ s.cmd.cap ≤ s.mem.m.len ∧ s.cmd.maxLen = none ∧
       s.mem.m.read (s.cmd.n - 12) 4 = 0 ∧ s.mem.m.read (s.cmd.n - 4) 4 = 0) := by decide +kernel

theorem witness_footerError :
    let s := withIn (List.replicate 11 0)
    exec .blzFooter s = .next (got (exec .blzFooter s)) ∧ (got (exec .blzFooter s)).status.err ≠ .ok ∧
      exec .blzDecompressS s = .next (got (exec .blzDecompressS s)) :=
  ⟨got_eq (by decide +kernel), by decide +kernel, got_eq (by decide +kernel)⟩

theorem witness_footerError_inPlace :
    let l := List.replicate 11 0x00#8
    let s := giveInPlace l 11 11 State.reset
    s.cmd.n ≤ s.cmd.cap ∧ s.cmd.cap ≤ s.mem.m.len ∧ s.cmd.maxLen = none ∧ s.mem.m.slice 0 s.cmd.n = some l ∧
      exec .blzFooter (giveInput l s) = .next (got (exec .blzFooter (giveInput l s))) ∧
      (got (exec .blzFooter (giveInput l s))).status.err ≠ .ok :=
  ⟨by decide, by decide +kernel, rfl, by decide +kernel, got_eq (by decide +kernel), by decide +kernel⟩

/-- Rules R27, R179: an error of FTR and one of the capacity test leave `FAULT`; success leaves `DONE`. -/
theorem test_decodeRun :
    (got (exec .blzDecompressS (withIn (List.replicate 11 0)))).dec.run = .fault ∧
      (got (exec .blzDecompressP (giveInPlace (blockE8 ++ List.replicate 8 0xEE#8) 28 35 State.reset))).dec.run = .fault ∧
      (got (exec .blzDecompressS (withIn blockE5))).dec.run = .done := by decide +kernel

/-- One byte of room too few. -/
theorem witness_capacity :
    let s := giveInPlace (blockE8 ++ List.replicate 8 0xEE#8) 28 35 State.reset
    s.cmd.n ≤ s.cmd.cap ∧ s.cmd.cap ≤ s.mem.m.len ∧ (∀ m, s.cmd.maxLen = some m → s.cmd.cap < m) ∧
      FooterAccepted s s.mem.m s.cmd.n ∧ s.cmd.cap < s.cmd.n + s.mem.m.read (s.cmd.n - 4) 4 :=
  ⟨by decide, by decide +kernel, fun m h => (by cases h),
    ⟨by decide, by decide +kernel, by decide +kernel, by decide +kernel, by decide +kernel, by decide +kernel,
      fun m h => (by cases h)⟩, by decide +kernel⟩

theorem witness_modes :
    inPlaceE8.mem.wf = true ∧ inPlaceE8.cmd.n = inPlaceE8.mem.inp.len ∧
      inPlaceE8.mem.m.slice 0 inPlaceE8.cmd.n = some inPlaceE8.mem.inp.toBytes ∧
      inPlaceE8.cmd.n ≤ inPlaceE8.cmd.cap ∧ inPlaceE8.cmd.cap ≤ inPlaceE8.mem.m.len ∧
      inPlaceE8.cmd.maxLen = none ∧
      inPlaceE8.cmd.n + inPlaceE8.mem.inp.read (inPlaceE8.cmd.n - 4) 4 = inPlaceE8.cmd.cap := by decide +kernel

theorem witness_inPlaceFrame_ok :
    inPlaceE8.mem.wf = true ∧ exec .blzDecompressP inPlaceE8 = .next (got (exec .blzDecompressP inPlaceE8)) ∧
      (got (exec .blzDecompressP inPlaceE8)).status.err ≠ .malformedFooter :=
  ⟨by decide +kernel, got_eq (by decide +kernel), by decide +kernel⟩

theorem witness_inPlaceFrame_malformed :
    let s := giveInPlace (List.replicate 11 0x01) 11 11 State.reset
    s.mem.wf = true ∧ exec .blzDecompressP s = .next (got (exec .blzDecompressP s)) ∧
      (got (exec .blzDecompressP s)).status.err = .malformedFooter :=
  ⟨by decide +kernel, got_eq (by decide +kernel), by decide +kernel⟩

theorem witness_commandsEnd :
    exec Op.blzDecompressS.instr (withIn blockE8) = .next (got (exec Op.blzDecompressS.instr (withIn blockE8))) ∧
      (got (exec Op.blzDecompressS.instr (withIn blockE8))).status.err = .ok :=
  ⟨got_eq (by decide +kernel), by decide +kernel⟩

theorem witness_commandsKeep :
    exec Op.blzFooter.instr (withIn blockE5) = .next (got (exec Op.blzFooter.instr (withIn blockE5))) ∧
      (got (exec Op.blzFooter.instr (withIn blockE5))).status.err = .ok :=
  ⟨got_eq (by decide +kernel), by decide +kernel⟩

/-- Two engines with the operands of a decode in common and nothing else: the second has parsed a file, holds another `M`
and other operands of other commands. -/
theorem witness_operandsAlone :
    let s := withIn blockE5
    let u := { s with
      cmd := { s.cmd with best := true, n := 3, cap := 4, matchOverlap := false }
      kip := (got (exec .kipParse (withIn (file 0x01 20 20 blockE5)))).kip
      mem := { s.mem with out := Buffer.ofBytes [1], m := Buffer.ofBytes [2] }
      dec := (tok 6 20 3 7 0 20 []).dec, free := 9 }
    SameOperands .blzDecompressS s u ∧ s.kip.hdr ≠ u.kip.hdr ∧ s.kip.data ≠ u.kip.data ∧ s.mem.m ≠ u.mem.m ∧
      exec Op.blzDecompressS.instr s = .next (got (exec Op.blzDecompressS.instr s)) :=
  ⟨⟨rfl, rfl, rfl⟩, by decide +kernel, by decide +kernel, by decide +kernel, got_eq (by decide +kernel)⟩

theorem witness_operandsAlone_refused :
    let s := { withIn [1] with cmd := { State.reset.cmd with maxLen := some 1 } }
    let u := { s with free := 9, mem := { s.mem with m := Buffer.ofBytes [2] } }
    SameOperands .kipParse s u ∧ exec Op.kipParse.instr s = .refused .lengthLimit := ⟨⟨rfl, rfl, rfl⟩, rfl⟩

theorem witness_refused :
    (let s := giveInPlace [1, 2] 3 2 State.reset; s.cmd.cap < s.cmd.n) ∧
    (let s := giveInPlace [1, 2] 1 3 State.reset; s.mem.m.len < s.cmd.cap) ∧
    (let s := { giveInPlace [1, 2] 2 2 State.reset with cmd := { State.reset.cmd with n := 2, cap := 2, maxLen := some 2 } }
     s.cmd.n ≤ s.cmd.cap ∧ s.cmd.cap ≤ s.mem.m.len ∧ s.cmd.maxLen = some 2 ∧ 2 ≤ s.cmd.cap) ∧
    (let s := { State.reset with kip := { State.reset.kip with data := State.reset.kip.data.set 5 none } }
     s.kip.data[5] = none) ∧
    (let s := { withIn [1] with cmd := { State.reset.cmd with maxLen := some 1 } }
     s.cmd.maxLen = some 1 ∧ 1 ≤ s.mem.inp.len) ∧
    (let s := { kipWith [7] with cmd := { State.reset.cmd with maxLen := some 1 } }
     (∀ j : Fin 6, s.kip.data[j] ≠ none) ∧ s.kip.data[0] = some [7] ∧ 1 ≤ [7].length) ∧
    (let s := { State.reset with cmd := { State.reset.cmd with maxLen := some 256 } }
     s.cmd.maxLen = some 256 ∧ 256 ≤ 256 + (s.kip.stored.toList.map List.length).sum + s.kip.trailing.length) ∧
    (let s := { withIn [0, 0, 0, 1] with seq := .load .storedTerm }
     s.seq = .load .storedTerm ∧ 4 ≤ blockLen s ∧ (blockBuf s).slice (blockLen s - 4) 4 = some [0, 0, 0, 1] ∧
       leNat [0, 0, 0, 1] ≠ 0) := by decide +kernel

/-- The bounded case, at its boundary: `MAX_LEN = n + 8`. -/
theorem witness_compressWrites :
    let s := { withIn (List.replicate 20 0xAA#8) with cmd := { State.reset.cmd with maxLen := some 28 } }
    (∀ m, s.cmd.maxLen = some m → s.mem.inp.len + 7 < m ∧ s.mem.inp.len + (s.mem.inp.len + 7) / 8 < m) ∧
      s.mem.inp.len < 2 ^ 32 := by
  refine ⟨fun m h => ?_, by decide +kernel⟩
  cases h
  decide +kernel

/-- Forty different bytes below a limit of 45. -/
def streamLimit : State :=
  { withIn ((List.range 40).map (BitVec.ofNat 8)) with cmd := { State.reset.cmd with maxLen := some 45 } }

/-- Rules R10, R53: forty literals and five control bytes reach the limit that the input and the 44-byte block do not. -/
theorem witness_streamReachesLimit :
    streamLimit.cmd.maxLen = some 45 ∧ streamLimit.mem.inp.len = 40 ∧
      (encodeRegs streamLimit.mem.inp.toBytes streamLimit.cmd.best (startCommand .blzCompress streamLimit)).stream.length
        = 45 ∧
      (got (exec .blzCompress { streamLimit with cmd := State.reset.cmd })).mem.out.len = 44 := by decide +kernel

/-- The limit just above the twenty bytes. -/
theorem witness_compressTwenty :
    let s := { withIn (List.replicate 20 0x5A#8) with cmd := { State.reset.cmd with maxLen := some 21 } }
    s.mem.inp = Buffer.ofBytes (List.replicate 20 0x5A#8) ∧ s.cmd.matchOverlap = true ∧
      ∀ m, s.cmd.maxLen = some m → 20 < m := by
  refine ⟨rfl, rfl, fun m h => ?_⟩
  cases h
  decide

/-- Vector E5: the compressed form. -/
def sE5 : State := withIn (List.replicate 20 0xAA#8)

theorem witness_compressed :
    exec .blzCompress sE5 = .next (got (exec .blzCompress sE5)) ∧
      (got (exec .blzCompress sE5)).status.form = .compressed ∧ sE5.mem.inp.len < 2 ^ 32 :=
  ⟨got_eq (by decide +kernel), by decide +kernel, by decide +kernel⟩

/-- Vector E11, reversed: `SEARCH(22) = (3, 10)`, the lookahead fires there. -/
def inputE11 : EncInput where
  rev := [0x00, 0x00, 0x01, 0x00, 0x00, 0x01, 0x00, 0x00, 0x01, 0x00, 0x00, 0x01, 0x00, 0x00, 0x01, 0x00, 0x01, 0x01, 0x00,
    0x01, 0x01, 0x00, 0x00, 0x00, 0x01, 0x01, 0x00, 0x00]
  best := true
  overlap := true
  epoch := 0

theorem witness_search :
    22 ≤ inputE11.rev.length ∧ search inputE11 22 = (3, 10) ∧ search inputE11 0 = (2, 0) := by decide +kernel

/-- A match chosen in an open group, and a literal in a new one. -/
theorem witness_encodeItem :
    let x : EncInput := ⟨List.replicate 20 0xAA#8, false, true, 0⟩
    (let e := { State.reset.enc with n := 20, i := 3, cnt := 3, flg := 0, stream := [0, 1, 2, 3], rawBest := 20 }
     e.i < x.rev.length ∧ e.cnt < 8 ∧ (e.cnt ≠ 0 → e.flg < e.stream.length) ∧ 2 < (choose x e).bestLen) ∧
    (let e := { State.reset.enc with n := 20, i := 0, cnt := 0, rawBest := 20 }
     e.i < x.rev.length ∧ e.cnt < 8 ∧ (e.cnt ≠ 0 → e.flg < e.stream.length) ∧ ¬ 2 < (choose x e).bestLen) := by
  decide +kernel

theorem witness_scanMinimum :
    (⟨[3, 2, 1], true, true, 0⟩ : EncInput).rev = ([1, 2, 3] : Bytes).reverse := by rfl

theorem witness_lookahead :
    let e := { State.reset.enc with i := 22, n := 28 }
    inputE11.best = true ∧ 2 < (search inputE11 e.i).1 ∧ e.i + (search inputE11 e.i).1 < e.n ∧
      (search inputE11 25).1 = 3 ∧ (search inputE11 23).1 = 5 ∧ 3 + 3 ≤ 1 + 5 := by decide +kernel

theorem witness_roundTrip_strict :
    let t := got (exec .blzCompress sE5)
    let u := t.withInp t.mem.out
    u.mem.inp = t.mem.out ∧ 15 ≤ u.cmd.hdrMax ∧ u.cmd.maxLen = none := by decide +kernel

theorem witness_roundTrip_inPlace :
    let t := got (exec .blzCompress sE5)
    let u := giveInPlace t.mem.out.toBytes 20 20 State.reset
    u.mem.wf = true ∧ u.cmd.n = t.status.outLen ∧ u.cmd.cap = sE5.mem.inp.len ∧ sE5.mem.inp.len ≤ u.mem.m.len ∧
      u.mem.m.slice 0 u.cmd.n = some t.mem.out.toBytes ∧ 15 ≤ u.cmd.hdrMax ∧ u.cmd.maxLen = none := by decide +kernel

theorem witness_wrongMagic : (0x3250494B : W32) ≠ 0x3150494B := by decide

/-- A file of a header alone and one trailing byte. -/
def emptyFile : State := withIn (file 0 0 0 [0x99])

theorem witness_headerImage :
    256 ≤ emptyFile.mem.inp.len ∧ (readHeader emptyFile.mem.inp).magic = Config.kipMagic := by decide +kernel

theorem witness_headerSteps :
    ({ emptyFile with seq := .load .kipMagic } : State).seq = .load .kipMagic ∧
      ({ emptyFile with seq := .emit .kipMagic } : State).seq = .emit .kipMagic ∧ emptyFile.mem.wf = true :=
  ⟨rfl, rfl, by decide +kernel⟩

theorem witness_parseChecks :
    (withIn [0x4B, 0x49, 0x50]).mem.inp.len < 4 ∧
    (4 ≤ (withIn [0x4B, 0x49, 0x50, 0x32]).mem.inp.len ∧
      (withIn [0x4B, 0x49, 0x50, 0x32]).mem.inp.read 0 4 ≠ 0x3150494B) ∧
    (let s := withIn ((file 0 0 0 []).take 255)
     4 ≤ s.mem.inp.len ∧ s.mem.inp.read 0 4 = 0x3150494B ∧ s.mem.inp.len < 256) := by decide +kernel

/-- A flagged segment that ends exactly at the end of the file. -/
theorem witness_parseSplits :
    let s := withIn (file 1 20 20 blockE5)
    s.cmd.maxLen = none ∧ 256 ≤ s.mem.inp.len ∧ (readHeader s.mem.inp).magic = Config.kipMagic ∧
      segStart (readHeader s.mem.inp) 6 ≤ s.mem.inp.len ∧ segStart (readHeader s.mem.inp) 6 = s.mem.inp.len := by
  decide +kernel

theorem witness_parseShort :
    let s := withIn (file 1 20 20 (blockE5.take 19))
    s.cmd.maxLen = none ∧ 256 ≤ s.mem.inp.len ∧ (readHeader s.mem.inp).magic = Config.kipMagic ∧
      segStart (readHeader s.mem.inp) 0 ≤ s.mem.inp.len ∧
      s.mem.inp.len < segStart (readHeader s.mem.inp) (0 + 1) := by decide +kernel

theorem witness_build :
    (∀ i : Fin 6, (kipWith [7]).kip.data[i] ≠ none) ∧ (kipWith [7]).cmd.maxLen = none ∧ 15 ≤ (kipWith [7]).cmd.hdrMax ∧
      ∀ i : Fin 6, ∃ d, (kipWith [7]).kip.data[i] = some d ∧ d.length < 2 ^ 32 := by
  refine ⟨by decide +kernel, rfl, by decide, fun i => ?_⟩
  by_cases h : i = 0
  · subst h
    exact ⟨[7], rfl, by decide⟩
  · refine ⟨[], ?_, by decide⟩
    revert h
    revert i
    decide +kernel

/-- The limit just above the 258 bytes of the file. -/
theorem witness_serialize :
    let s := { kipWith [7] with cmd := { State.reset.cmd with maxLen := some 258 } }
    ∀ m, s.cmd.maxLen = some m → 256 + (s.kip.stored.toList.map List.length).sum + s.kip.trailing.length < m := by
  intro s m h
  cases h
  decide +kernel

theorem witness_reproduces :
    let t := got (exec .kipParse emptyFile)
    let u := got (exec .kipBuild t)
    exec .kipParse emptyFile = .next t ∧ t.status.err = .ok ∧ exec .kipBuild t = .next u ∧
      (∀ i : Fin 6, emptyFile.mem.inp.slice (segStart t.kip.hdr i.val) (t.kip.hdr.seg[i]).compressedSize.toNat
        = some (u.kip.stored[i])) ∧ u.kip.hdr.flags = t.kip.hdr.flags :=
  ⟨got_eq (by decide +kernel), by decide +kernel, got_eq (by decide +kernel), by decide +kernel, by decide +kernel⟩

end Sys2Proof.Tests
end

section
/-! The execution of `REF`: its two-byte fetch test, the cap of its length, and the copy (rules R70, R173 to R175). -/

namespace Sys2Proof.Machine

/-- The state in which the copy of a `REF` starts: the two bytes consumed, the length capped to `DEC.w`, the offset
decoded (rules R173, R175). -/
def refStart (l : BitVec 4) (o : BitVec 12) (s : State) : State :=
  s.withDec { s.dec with r := s.dec.r - 2, len := min (refLen l) s.dec.w, off := refOff o }

/-- A `REF` whose bytes could be fetched is the copy of its capped length. -/
theorem decRef_eq_copyBack {l : BitVec 4} {o : BitVec 12} {s : State} (hr : 2 ≤ s.dec.r) :
    decRef l o s = copyBack (min (refLen l) s.dec.w) (refStart l o s) :=
  if_neg (Nat.not_lt.mpr hr)

theorem exec_ref (l : BitVec 4) (o : BitVec 12) (s : State) : exec (.ref l o) s = (decRef l o s).outcome := rfl

/-- Settles O13: `exec` of a `REF` that could be fetched is the capped copy, and `copyBack_spec` is the rule of the
copy. With `DEC.w = 0` the cap is 0 and no source byte is read. -/
theorem refCopiesFromAbove : Obligations.RefCopiesFromAbove := by
  intro l o s hwf hr _ hlen hsrc
  have hfirst : min (refLen l) s.dec.w = 0 ∨ s.dec.w - 1 + refOff o < s.dec.outLen :=
    hsrc.imp_left fun hw => by simp [hw]
  obtain ⟨t, hcopy, ht, _, _, hrange, hframe⟩ :=
    copyBack_spec (min (refLen l) s.dec.w) (refStart l o s) hwf (Nat.min_le_right ..)
      (Nat.le_add_left 1 (o.toNat + 2)) hlen hfirst
  have hexec : exec (.ref l o) s = .next t := by
    rw [exec_ref, decRef_eq_copyBack hr, hcopy, Ctl.outcome_ok]
  exact ⟨t, hexec, ht, hrange, hframe⟩

end Sys2Proof.Machine
end

section
/-! The read of `KIP.MAGIC`: the comparison with the constant, before anything is loaded (rules R101, R201, R240). -/

namespace Sys2Proof.Machine

theorem exec_kipMagic (w : W32) (s : State) : exec (.kipMagic w) s = execKipMagic w s := rfl

/-- `KIP.MAGIC` read with another word loads nothing: the instruction is the raise of `InvalidMagic` from the state
it found. -/
theorem execKipMagic_of_ne {w : W32} {s : State} (hload : ∀ p, s.seq ≠ .emit p) (hw : w ≠ Config.kipMagic) :
    execKipMagic w s = .next (takeRaise .invalidMagic (magicInfo s) s) := by
  rw [execKipMagic, emitOr_load hload, if_neg hw, Ctl.outcome_raised]

/-- Settles O50: what the one raise of `execKipMagic_of_ne` leaves in the status, the sequencer and the input. -/
theorem wrongMagicRaises : Obligations.WrongMagicRaises := by
  intro w s hload hw
  have hexec : exec (.kipMagic w) s = .next (takeRaise .invalidMagic (magicInfo s) s) := by
    rw [exec_kipMagic, execKipMagic_of_ne hload hw]
  have hstatus := takeRaise_status s .invalidMagic (magicInfo s)
  refine ⟨takeRaise .invalidMagic (magicInfo s) s, hexec, ?err, ?offset, takeRaise_seq .., takeRaise_mem_inp ..⟩
  case err => rw [hstatus]; rfl
  case offset => rw [hstatus]; rfl

end Sys2Proof.Machine
end

section
/-! `SEARCH` (rules R123 to R125): how long the match at one offset is, and which offset the loop keeps. -/

namespace Sys2Proof.Machine

/-- The length `SEARCH` measures at one offset. -/
def offsetLen (x : EncInput) (i pos : Nat) : Nat :=
  matchLen (matchLimit x.overlap pos) (x.rev.drop i) (x.rev.drop (i - pos))

/-- A match of a length at an offset, within the limits of rule R125: the bytes from `i` on repeat those `pos` before. -/
def MatchAt (x : EncInput) (i pos len : Nat) : Prop :=
  len ≤ 18 ∧ (x.overlap = false → len ≤ pos) ∧ i + len ≤ x.rev.length ∧
    ∀ k, k < len → x.rev[i + k]? = x.rev[i + k - pos]?

theorem le_matchLimit_iff {overlap : Bool} {pos len : Nat} :
    len ≤ matchLimit overlap pos ↔ len ≤ 18 ∧ (overlap = false → len ≤ pos) := by
  cases overlap <;> simp [matchLimit]

theorem offsetLen_le_maxMatch (x : EncInput) (i pos : Nat) : offsetLen x i pos ≤ Config.maxMatch :=
  (le_matchLimit_iff.mp (matchLen_spec _ _ _).1).1

/-- Byte `k` of the two sequences compared at an offset. -/
theorem getElem?_drop_sub {l : Bytes} {i pos : Nat} (k : Nat) (hpos : pos ≤ i) :
    (l.drop (i - pos))[k]? = l[i + k - pos]? := by
  rw [List.getElem?_drop, Nat.sub_add_comm hpos]

/-- The measured length is the greatest of the matches at its offset. -/
theorem matchAt_iff_le_offsetLen {x : EncInput} {i pos len : Nat} (hi : i ≤ x.rev.length) (hpos : pos ≤ i) :
    MatchAt x i pos len ↔ len ≤ offsetLen x i pos := by
  obtain ⟨hlimit, hcur, _, hagree, hdiffer⟩ :=
    matchLen_spec (matchLimit x.overlap pos) (x.rev.drop i) (x.rev.drop (i - pos))
  rw [← offsetLen] at hlimit hcur hagree hdiffer
  simp only [List.getElem?_drop, getElem?_drop_sub _ hpos, List.length_drop] at hcur hagree hdiffer
  constructor
  · rintro ⟨hmax, hoverlap, hend, heq⟩
    by_contra hlt
    have hshort : offsetLen x i pos < matchLimit x.overlap pos :=
      Nat.lt_of_lt_of_le (Nat.lt_of_not_le hlt) (le_matchLimit_iff.mpr ⟨hmax, hoverlap⟩)
    exact hdiffer hshort (by omega) (by omega) (heq _ (Nat.lt_of_not_le hlt))
  · intro hle
    obtain ⟨hmax, hoverlap⟩ := le_matchLimit_iff.mp (Nat.le_trans hle hlimit)
    exact ⟨hmax, hoverlap, by omega, fun k hk => hagree k (Nat.lt_of_lt_of_le hk hle)⟩

/-- Among `count` offsets from `lo` upward, `q` measures the greatest length and is the nearest that does (rule R124). -/
structure NearestLongest (x : EncInput) (i lo count q : Nat) : Prop where
  ge : lo ≤ q
  lt : q < lo + count
  longest : ∀ p, lo ≤ p → p < lo + count → offsetLen x i p ≤ offsetLen x i q
  nearest : ∀ p, lo ≤ p → p < q → offsetLen x i p < offsetLen x i q

/-- An offset that no later one beats is the one kept, when it is the first of the range. -/
theorem NearestLongest.head {x : EncInput} {i lo count : Nat}
    (h : ∀ p, lo + 1 ≤ p → p < lo + 1 + count → offsetLen x i p ≤ offsetLen x i lo) :
    NearestLongest x i lo (count + 1) lo where
  ge := Nat.le_refl _
  lt := by omega
  longest p hp hlt := by
    obtain rfl | hne := Nat.eq_or_lt_of_le hp
    · exact Nat.le_refl _
    · exact h p hne (by omega)
  nearest p hp hlt := by omega

/-- An offset that beats the first one of the range is still the one kept with that one in front. -/
theorem NearestLongest.tail {x : EncInput} {i lo count q : Nat} (h : NearestLongest x i (lo + 1) count q)
    (hlo : offsetLen x i lo < offsetLen x i q) : NearestLongest x i lo (count + 1) q where
  ge := Nat.le_of_succ_le h.ge
  lt := by have := h.lt; omega
  longest p hp hlt := by
    obtain rfl | hne := Nat.eq_or_lt_of_le hp
    · exact Nat.le_of_lt hlo
    · exact h.longest p hne (by omega)
  nearest p hp hlt := by
    obtain rfl | hne := Nat.eq_or_lt_of_le hp
    · exact hlo
    · exact h.nearest p hne hlt

/-- One turn of the loop: a strictly longer offset replaces the best, and length 18 ends the loop. -/
theorem searchFrom_succ (x : EncInput) (i count pos : Nat) (best : Nat × Nat) :
    searchFrom x i (count + 1) pos best =
      let kept := if best.1 < offsetLen x i pos then (offsetLen x i pos, pos) else best
      if kept.1 = Config.maxMatch then kept else searchFrom x i count (pos + 1) kept := rfl

/-- What the loop of `SEARCH` answers: the pair it started with, if no offset beats it, else the nearest of the
longest. -/
theorem searchFrom_cases (x : EncInput) (i count : Nat) : ∀ (pos : Nat) (best : Nat × Nat),
    (searchFrom x i count pos best = best ∧ ∀ p, pos ≤ p → p < pos + count → offsetLen x i p ≤ best.1) ∨
    ∃ q, NearestLongest x i pos count q ∧ best.1 < offsetLen x i q ∧
      searchFrom x i count pos best = (offsetLen x i q, q) := by
  induction count with
  | zero => exact fun pos best => .inl ⟨rfl, fun p hp hlt => by omega⟩
  | succ count ih =>
    intro pos best
    rw [searchFrom_succ]
    by_cases hbeat : best.1 < offsetLen x i pos
    · simp only [if_pos hbeat]
      right
      by_cases hmax : offsetLen x i pos = Config.maxMatch
      · exact ⟨pos, .head fun p _ _ => hmax ▸ offsetLen_le_maxMatch x i p, hbeat, if_pos hmax⟩
      · rw [if_neg hmax]
        obtain ⟨hsame, hle⟩ | ⟨q, hq, hlt, heq⟩ := ih (pos + 1) (offsetLen x i pos, pos)
        · exact ⟨pos, .head hle, hbeat, hsame⟩
        · exact ⟨q, hq.tail hlt, Nat.lt_trans hbeat hlt, heq⟩
    · simp only [if_neg hbeat]
      have hpos : offsetLen x i pos ≤ best.1 := Nat.le_of_not_lt hbeat
      by_cases hmax : best.1 = Config.maxMatch
      · exact .inl ⟨if_pos hmax, fun p _ _ => hmax ▸ offsetLen_le_maxMatch x i p⟩
      · rw [if_neg hmax]
        obtain ⟨hsame, hle⟩ | ⟨q, hq, hlt, heq⟩ := ih (pos + 1) best
        · refine .inl ⟨hsame, fun p hp hlt => ?_⟩
          obtain rfl | hne := Nat.eq_or_lt_of_le hp
          · exact hpos
          · exact hle p hne (by omega)
        · exact .inr ⟨q, hq.tail (Nat.lt_of_le_of_lt hpos hlt), hlt, heq⟩

/-- The range of the loop of `SEARCH` is the offsets rule R125 allows. -/
theorem allowedOffset_iff {i p : Nat} :
    (3 ≤ p ∧ p < 3 + (min i Config.windowMax + 1 - Config.minOffset)) ↔ 3 ≤ p ∧ p ≤ 4098 ∧ p ≤ i := by
  simp only [Config.windowMax, Config.minOffset]
  omega

/-- `SEARCH(i)` answers length 2 when no allowed offset measures more, else the nearest of the longest. -/
theorem search_cases (x : EncInput) (i : Nat) :
    (search x i = (2, 0) ∧ ∀ p, 3 ≤ p → p ≤ 4098 → p ≤ i → offsetLen x i p ≤ 2) ∨
    ∃ q, (3 ≤ q ∧ q ≤ 4098 ∧ q ≤ i) ∧ 2 < offsetLen x i q ∧ search x i = (offsetLen x i q, q) ∧
      ∀ p, 3 ≤ p → p ≤ 4098 → p ≤ i →
        offsetLen x i p ≤ offsetLen x i q ∧ (p < q → offsetLen x i p < offsetLen x i q) := by
  obtain ⟨hsame, hle⟩ | ⟨q, hq, hlt, heq⟩ :=
    searchFrom_cases x i (min i Config.windowMax + 1 - Config.minOffset) Config.minOffset (2, 0)
  · refine .inl ⟨hsame, fun p h3 hwin hpi => ?_⟩
    exact hle p h3 (allowedOffset_iff.mpr ⟨h3, hwin, hpi⟩).2
  · refine .inr ⟨q, allowedOffset_iff.mp ⟨hq.ge, hq.lt⟩, hlt, heq, fun p h3 hwin hpi => ?_⟩
    exact ⟨hq.longest p h3 (allowedOffset_iff.mpr ⟨h3, hwin, hpi⟩).2, hq.nearest p h3⟩

/-- What `SEARCH` finds is a match, so it ends within the data. -/
theorem matchAt_search {x : EncInput} {i : Nat} (hi : i ≤ x.rev.length) (h : 2 < (search x i).1) :
    MatchAt x i (search x i).2 (search x i).1 := by
  obtain ⟨hnone, _⟩ | ⟨q, ⟨_, _, hqi⟩, _, heq, _⟩ := search_cases x i
  · rw [hnone] at h
    exact absurd h (Nat.lt_irrefl 2)
  · rw [heq]
    exact (matchAt_iff_le_offsetLen hi hqi).mpr (Nat.le_refl _)

/-- Settles O44: `search_cases` compares measured lengths, and by `matchAt_iff_le_offsetLen` the matches at an offset
are those no longer than its measured length. -/
theorem searchFindsNearestLongest : Obligations.SearchFindsNearestLongest := by
  intro x i hi Matches L P
  have hmatches {pos len : Nat} (hpos : pos ≤ i) : Matches pos len ↔ len ≤ offsetLen x i pos :=
    matchAt_iff_le_offsetLen hi hpos
  obtain ⟨hnone, hle⟩ | ⟨q, ⟨hq3, hqwin, hqi⟩, hlong, heq, hbest⟩ := search_cases x i
  · have hL : L = 2 := congrArg Prod.fst hnone
    refine ⟨.inl hL, fun pos len h3 hwin hpi hm => ?_⟩
    have hlen := Nat.le_trans ((hmatches hpi).mp hm) (hle pos h3 hwin hpi)
    exact ⟨hL ▸ hlen, fun hL3 _ => by omega⟩
  · have hL : L = offsetLen x i q := congrArg Prod.fst heq
    have hP : P = q := congrArg Prod.snd heq
    rw [hL, hP]
    refine ⟨.inr ⟨hlong, hq3, hqwin, hqi, (hmatches hqi).mpr (Nat.le_refl _)⟩, fun pos len h3 hwin hpi hm => ?_⟩
    obtain ⟨hlongest, hnearest⟩ := hbest pos h3 hwin hpi
    have hlen := (hmatches hpi).mp hm
    exact ⟨Nat.le_trans hlen hlongest, fun _ hlt => Nat.lt_of_le_of_lt hlen (hnearest hlt)⟩

end Sys2Proof.Machine
end

section
/-! `LOOKAHEAD` (rules R126, R127): which match ENC chooses after `SEARCH`. -/

namespace Sys2Proof.Machine

/-- The test of rule R126, with the convention of rule R127: in best mode, a match that ends before the end of the data
is no better than one literal and the match after it. -/
def Degrades (x : EncInput) (e : EncRegs) : Prop :=
  let found := (search x e.i).1
  x.best = true ∧ 2 < found ∧ e.i + found < e.n ∧
    found + lookLen (search x (e.i + found)).1 ≤ 1 + lookLen (search x (e.i + 1)).1

/-- A degraded match is a literal. -/
theorem choose_of_degrades {x : EncInput} {e : EncRegs} (h : Degrades x e) : (choose x e).bestLen = 1 := by
  obtain ⟨hbest, hlong, hend, hworse⟩ := h
  simp [choose, hbest, hlong, hend, hworse]

/-- Any other choice is what `SEARCH` answers. -/
theorem choose_of_not_degrades {x : EncInput} {e : EncRegs} (h : ¬ Degrades x e) :
    (choose x e).bestLen = (search x e.i).1 ∧
      (2 < (search x e.i).1 → (choose x e).bestOff = (search x e.i).2) := by
  unfold choose
  simp only
  split
  next hlook =>
    split
    next hworse => exact absurd ⟨hlook.1, hlook.2.1, hlook.2.2, hworse⟩ h
    next => exact ⟨rfl, fun hlong => if_pos hlong⟩
  next => exact ⟨rfl, fun hlong => if_pos hlong⟩

/-- Settles O45: the statement's test is `Degrades`, whose `lookLen` is the convention of rule R127. -/
theorem lookaheadDegradesToLiteral : Obligations.LookaheadDegradesToLiteral := by
  intro x e L P next post
  split
  next h => exact choose_of_degrades h
  next h => exact choose_of_not_degrades h

end Sys2Proof.Machine
end

section
/-! `BLZ.COMPRESS` (rules R120, R134 to R139): the bound of the stream, the block of each form, the whole command. -/

namespace Sys2Proof.Machine

/-! ### The scan stays within its bounds (rules R53, R131) -/

/-- A chosen match is one `SEARCH` found, so it ends within the data. -/
theorem choose_match_fits {x : EncInput} {e : EncRegs} (hi : e.i ≤ x.rev.length) (h : 2 < (choose x e).bestLen) :
    e.i + (choose x e).bestLen ≤ x.rev.length := by
  by_cases hd : Degrades x e
  · rw [choose_of_degrades hd] at h
    omega
  · rw [(choose_of_not_degrades hd).1] at h ⊢
    obtain ⟨_, _, hend, _⟩ := matchAt_search hi h
    exact hend

section EncFields
/-! The fields that opening a group, choosing an item and tracking the best point leave alone. -/

@[simp] theorem openGroup_n (e : EncRegs) : (openGroup e).n = e.n := by rw [(openGroup_spec e).1]
@[simp] theorem openGroup_i (e : EncRegs) : (openGroup e).i = e.i := by rw [(openGroup_spec e).1]
@[simp] theorem openGroup_cnt (e : EncRegs) : (openGroup e).cnt = e.cnt := by rw [(openGroup_spec e).1]

variable (x : EncInput) (e : EncRegs)

@[simp] theorem choose_n : (choose x e).n = e.n := by rw [choose_spec]
@[simp] theorem choose_i : (choose x e).i = e.i := by rw [choose_spec]
@[simp] theorem choose_cnt : (choose x e).cnt = e.cnt := by rw [choose_spec]
@[simp] theorem choose_stream : (choose x e).stream = e.stream := by rw [choose_spec]

@[simp] theorem track_n : (track e).n = e.n := by rw [(track_spec e).1]
@[simp] theorem track_i : (track e).i = e.i := by rw [(track_spec e).1]
@[simp] theorem track_cnt : (track e).cnt = e.cnt := by rw [(track_spec e).1]
@[simp] theorem track_stream : (track e).stream = e.stream := by rw [(track_spec e).1]

/-- An item adds one byte to the stream, a `REF` two. -/
theorem emitItem_stream_length_le :
    (emitItem x e).stream.length ≤ e.stream.length + (if 2 < e.bestLen then 2 else 1) := by
  unfold emitItem
  split <;> simp [refStream]

end EncFields

/-- One item of the scan: the length it consumes, inside the data, and what it adds to the stream, a control byte
among it when it opens a group. -/
theorem encodeItem_progress {x : EncInput} {e : EncRegs} (hi : e.i < x.rev.length) :
    (encodeItem x e).n = e.n ∧ (encodeItem x e).cnt = (e.cnt + 1) % 8 ∧
      ∃ len, 1 ≤ len ∧ (encodeItem x e).i = e.i + len ∧ e.i + len ≤ x.rev.length ∧
        (encodeItem x e).stream.length ≤ e.stream.length + (if e.cnt = 0 then 1 else 0) + len := by
  have hgroup := (openGroup_spec e).2
  obtain ⟨hn, hpos, hcnt, -, -⟩ := emitItem_progress x (choose x (openGroup e))
  have hstream := emitItem_stream_length_le x (choose x (openGroup e))
  have hfits := choose_match_fits (x := x) (e := openGroup e)
  simp only [choose_n, choose_i, choose_cnt, choose_stream, openGroup_n, openGroup_i, openGroup_cnt, hgroup]
    at hn hpos hcnt hstream hfits
  simp only [encodeItem, track_n, track_i, track_cnt, track_stream]
  by_cases hmatch : 2 < (choose x (openGroup e)).bestLen
  · rw [if_pos hmatch] at hpos hstream
    exact ⟨hn, hcnt, _, by omega, hpos, hfits (Nat.le_of_lt hi) hmatch, by omega⟩
  · rw [if_neg hmatch] at hpos hstream
    exact ⟨hn, hcnt, 1, Nat.le_refl 1, hpos, hi, hstream⟩

/-- What the scan keeps: it stands inside the data, and after `items` items the stream holds at most the bytes consumed
and one control byte for every group of eight. -/
structure ScanBounded (x : EncInput) (items : Nat) (e : EncRegs) : Prop where
  size : e.n = x.rev.length
  inside : e.i ≤ e.n
  count : e.cnt = items % 8
  consumed : items ≤ e.i
  stream : e.stream.length ≤ e.i + (items + 7) / 8

/-- One item keeps the bounds, with one item more. -/
theorem ScanBounded.afterItem {x : EncInput} {items : Nat} {e : EncRegs} (h : ScanBounded x items e)
    (hi : e.i < e.n) : ScanBounded x (items + 1) (encodeItem x e) := by
  obtain ⟨hn, hcnt, len, hpos, hlen, hfits, hstream⟩ := encodeItem_progress (x := x) (h.size ▸ hi)
  obtain ⟨hsize, hinside, hcount, hconsumed, hbound⟩ := h
  refine ⟨hn.trans hsize, by omega, by omega, by omega, ?_⟩
  split at hstream <;> omega

/-- ENC's registers at the end of a scan: the length of the input, and the bounds of the position and of the stream. -/
theorem encodeRegs_bounded (raw : Bytes) (best : Bool) (s : State) :
    (encodeRegs raw best s).n = raw.length ∧ (encodeRegs raw best s).i ≤ raw.length ∧
      (encodeRegs raw best s).stream.length ≤ raw.length + (raw.length + 7) / 8 := by
  obtain ⟨items, hsize, hinside, _, hconsumed, hstream⟩ :=
    scan_invariant (P := fun e => ∃ items, ScanBounded ⟨raw.reverse, best, s.cmd.matchOverlap, s.free⟩ items e)
      (fun e hi ⟨items, h⟩ => ⟨items + 1, h.afterItem hi⟩) raw.length (startEncode raw (freeEnc s.free))
      ⟨0, by constructor <;> simp [startEncode]⟩
  rw [← encodeRegs] at hsize hinside hconsumed hstream
  simp only [List.length_reverse] at hsize
  omega

/-! ### The block of each form -/

/-- A word keeps the low-order 32 bits of a length, and those are the four bytes that are stored. -/
theorem leBytes_ofNat_word (v : Nat) : leBytes 4 (BitVec.ofNat 32 v).toNat = leBytes 4 v := by
  have hstored := leBytes_leNat (leBytes 4 v)
  rwa [leBytes_length, leNat_leBytes] at hstored

/-- The bytes of the structural tail: padding, then the three footer words. -/
theorem flatMap_encode_footerItems (pad : Nat) (total hdr extra : W32) :
    (footerItems pad total hdr extra).flatMap encode =
      List.replicate pad Config.padByte ++ leBytes 4 total.toNat ++ leBytes 4 hdr.toNat ++ leBytes 4 extra.toNat := by
  have hpad : (List.replicate pad (Instr.pad Config.padByte)).flatMap encode = List.replicate pad Config.padByte := by
    simp [List.flatMap_replicate, encode]
  simp [footerItems, hpad, encode]

/-- With nothing encoded, or a compressed form longer than the input, the block is the stored form (rule R135). -/
theorem finishEncode_stored {raw : Bytes} {e : EncRegs} (h : e.pakBest = 0 ∨ e.n < compressedLen e) :
    chooseForm e = .stored ∧ finishEncode raw e = storedBlock raw := by
  have hform : chooseForm e = .stored := if_pos h
  exact ⟨hform, by rw [finishEncode, hform]⟩

/-- Otherwise the block is the compressed form (rule R135). -/
theorem finishEncode_compressed {raw : Bytes} {e : EncRegs} (h : ¬ (e.pakBest = 0 ∨ e.n < compressedLen e)) :
    chooseForm e = .compressed ∧ finishEncode raw e = compressedBlock raw e := by
  have hform : chooseForm e = .compressed := if_neg h
  exact ⟨hform, by rw [finishEncode, hform]⟩

theorem storedBlock_length (raw : Bytes) : (storedBlock raw).length = align4 raw.length + 4 := by
  have halign := (align4_spec raw.length).1
  simp only [storedBlock, encode, List.length_append, List.length_replicate, leBytes_length]
  omega

/-- The compressed form with the lengths of its footer words written out. -/
theorem compressedBlock_eq (raw : Bytes) (e : EncRegs) :
    compressedBlock raw e =
      raw.take e.rawBest ++ (e.stream.take e.pakBest).reverse ++ List.replicate (padOf e) Config.padByte
        ++ leBytes 4 (e.pakBest + 12 + padOf e) ++ leBytes 4 (12 + padOf e) ++ leBytes 4 (e.n - compressedLen e) := by
  simp only [compressedBlock, encFooter, flatMap_encode_footerItems, leBytes_ofNat_word, Config.footerLen,
    List.append_assoc]

theorem compressedBlock_length_le (raw : Bytes) (e : EncRegs) :
    (compressedBlock raw e).length ≤ compressedLen e := by
  simp only [compressedBlock, encFooter, flatMap_encode_footerItems, compressedLen, List.length_append,
    List.length_take, List.length_reverse, List.length_replicate, leBytes_length, Config.footerLen]
  omega

/-- No block is longer than its input and seven bytes (rule R140). -/
theorem finishEncode_length_le {raw : Bytes} {e : EncRegs} (hn : e.n = raw.length) :
    (finishEncode raw e).length ≤ raw.length + 7 := by
  by_cases h : e.pakBest = 0 ∨ e.n < compressedLen e
  · have halign := (align4_spec raw.length).2.1
    rw [(finishEncode_stored h).2, storedBlock_length]
    omega
  · have hle := compressedBlock_length_le raw e
    rw [(finishEncode_compressed h).2]
    omega

/-- With room below `MAX_LEN` for the longest block and the longest stream, no length of a run of ENC reaches it. -/
theorem encodeFits_of_room {raw : Bytes} {best : Bool} {s : State}
    (h : ∀ m, s.cmd.maxLen = some m → raw.length + 7 < m ∧ raw.length + (raw.length + 7) / 8 < m) :
    encodeFits raw best s = true := by
  obtain ⟨hn, _, hstream⟩ := encodeRegs_bounded raw best s
  have hblock := finishEncode_length_le hn
  refine encodeFits_iff.mpr fun m hm => ?_
  obtain ⟨hroom, hroomStream⟩ := h m hm
  omega

/-! ### The command -/

/-- `BLZ.COMPRESS` when no length reaches `MAX_LEN`: the block of the finished scan goes to `OUT`, ENC's registers stay
but for the stream, and nothing else of the memory and of the operands changes. -/
theorem exec_blzCompress_of_fits {s : State}
    (h : encodeFits s.mem.inp.toBytes s.cmd.best (startCommand .blzCompress s) = true) :
    let e := encodeRegs s.mem.inp.toBytes s.cmd.best (startCommand .blzCompress s)
    ∃ t, exec .blzCompress s = .next t ∧ t.status.err = .ok ∧ t.status.form = chooseForm e ∧
      t.status.outLen = t.mem.out.len ∧ t.mem = { s.mem with out := t.mem.out } ∧
      t.mem.out.toBytes = finishEncode s.mem.inp.toBytes e ∧ t.cmd = { s.cmd with op := .blzCompress } ∧
      t.enc = { e with stream := t.enc.stream } := by
  intro e
  have hrun := (compressInto_spec s.mem.inp.toBytes s.cmd.best (startCommand .blzCompress s)).2 h
  have hexec : exec .blzCompress s = execBlzCompress s := rfl
  simp only [hexec, execBlzCompress, hrun]
  exact ⟨_, rfl, rfl, rfl, rfl, rfl, Buffer.toBytes_ofBytes _, rfl, endEncode_spec _ e⟩

/-- Settles O41: the run fits (`encodeFits_of_room`), and the block is that of the form its test chooses.
The bound `2^32` is not used: a footer word stores the 32 low-order bits of its length, as `leBytes 4` does. -/
theorem compressWritesBlock : Obligations.CompressWritesBlock := by
  intro s hroom _
  have hfits : encodeFits s.mem.inp.toBytes s.cmd.best (startCommand .blzCompress s) = true :=
    encodeFits_of_room fun m hm => by simpa using hroom m hm
  obtain ⟨t, hexec, herr, hform, hlen, hmem, hout, hcmd, henc⟩ := exec_blzCompress_of_fits hfits
  refine ⟨t, hexec, herr, hlen, hmem, hcmd, ?_⟩
  intro raw n e P E p
  have hn : e.n = n := by
    rw [(encodeRegs_bounded raw s.cmd.best _).1, Buffer.toBytes_length]
  have hC : compressedLen e = P + E + p + 12 := rfl
  refine ⟨henc, ?_⟩
  split
  next hstored =>
    obtain ⟨hchosen, hblock⟩ := finishEncode_stored (raw := raw) (hn ▸ hC ▸ hstored)
    refine ⟨hform.trans hchosen, hout.trans (hblock.trans ?_)⟩
    simp [storedBlock, raw, n, align4, encode, leBytes]
  next hcompressed =>
    have hchoice : ¬ (e.pakBest = 0 ∨ e.n < compressedLen e) := hn ▸ hC ▸ hcompressed
    obtain ⟨hchosen, hblock⟩ := finishEncode_compressed (raw := raw) hchoice
    have hwords := compressedBlock_eq raw e
    have hextra : e.n - compressedLen e = n - E - P - 12 - p := by omega
    rw [hextra] at hwords
    exact ⟨hform.trans hchosen, hout.trans (hblock.trans hwords)⟩

end Sys2Proof.Machine
end

section
/-! FTR's three words and its end, in whichever command it runs (rules R151 to R158), and the whole of `BLZ.FOOTER`. -/

namespace Sys2Proof.Machine

/-! ### The three words (rules R23, R91, R151) -/

/-- A word read from a buffer fits its 32-bit register. -/
theorem toNat_ofNat_read (b : Buffer) (i : Nat) : (BitVec.ofNat 32 (b.read i 4)).toNat = b.read i 4 := by
  have hlt := leNat_lt (cellsSlice b.cells i 4)
  rw [cellsSlice_length] at hlt
  rw [BitVec.toNat_ofNat]
  exact Nat.mod_eq_of_lt hlt

/-- The state in which FTR makes its tests: the three footer words of the block loaded. -/
def loadWords (s : State) : State :=
  s.withFtr { s.ftr with
    totalSize := BitVec.ofNat 32 ((blockBuf s).read (blockLen s - 12) 4)
    headerLen := BitVec.ofNat 32 ((blockBuf s).read (blockLen s - 8) 4)
    extraSize := BitVec.ofNat 32 ((blockBuf s).read (blockLen s - 4) 4) }

@[simp] theorem loadWords_totalSize (s : State) :
    (loadWords s).ftr.totalSize.toNat = (blockBuf s).read (blockLen s - 12) 4 := toNat_ofNat_read ..
@[simp] theorem loadWords_headerLen (s : State) :
    (loadWords s).ftr.headerLen.toNat = (blockBuf s).read (blockLen s - 8) 4 := toNat_ofNat_read ..
@[simp] theorem loadWords_extraSize (s : State) :
    (loadWords s).ftr.extraSize.toNat = (blockBuf s).read (blockLen s - 4) 4 := toNat_ofNat_read ..
@[simp] theorem blockLen_loadWords (s : State) : blockLen (loadWords s) = blockLen s := rfl
@[simp] theorem belowMax_loadWords (s : State) (n : Nat) : belowMax (loadWords s) n = belowMax s n := rfl

/-- With room for a footer, FTR is its tests on the loaded words (rule R151). -/
theorem footer_of_room {s : State} (h : 12 ≤ blockLen s) : footer s = footerTests (loadWords s) := by
  obtain ⟨hshort, -⟩ | ⟨-, t, v, hd, e, rfl, rfl, rfl, rfl, hfooter⟩ := footer_cases s
  · omega
  · exact hfooter

/-- Without it, FTR raises before it loads a word (rule R151). -/
theorem footer_of_short {s : State} (h : blockLen s < 12) :
    footer s = .raised .malformedFooter ⟨0, 12, blockLen s⟩ s := if_pos h

/-! ### What FTR leaves alone (rules R158, R245, R246) -/

/-- Everything the end of FTR keeps in a command that does not decode, whether it completed or raised. -/
structure FtrKept (s t : State) : Prop where
  cmd : t.cmd = s.cmd
  inp : t.mem.inp = s.mem.inp
  m : t.mem.m = s.mem.m
  run : t.dec.run = s.dec.run
  totalSize : t.ftr.totalSize = s.ftr.totalSize
  headerLen : t.ftr.headerLen = s.ftr.headerLen
  extraSize : t.ftr.extraSize = s.ftr.extraSize

/-- Completing writes the derived registers and the status alone. -/
theorem FtrKept.done (s : State) (degenerate : Bool) (prefixLen readStart outLen : Nat) :
    FtrKept s (footerDone degenerate prefixLen readStart outLen s) := ⟨rfl, rfl, rfl, rfl, rfl, rfl, rfl⟩

/-- A raise with DEC not at work leaves DEC, `IN` and `M`. -/
theorem FtrKept.raised {s : State} (hidle : decActive s = false) (k : ErrKind) (info : Info) :
    FtrKept s (takeRaise k info s) where
  cmd := rfl
  inp := rfl
  m := by
    have hrun : s.dec.run ≠ .run := fun h => by simp [decActive, h] at hidle
    simp [hrun]
  run := (takeRaise_dec_eq k info s).2.2 hidle
  totalSize := rfl
  headerLen := rfl
  extraSize := rfl

/-- Of FTR's registers the raise of a test forgets the derived ones alone. -/
theorem FtrKept.forget {s t : State} {e : Nat} (h : FtrKept (s.withFtr (forgetDerived e s.ftr)) t) : FtrKept s t :=
  ⟨h.cmd, h.inp, h.m, h.run, h.totalSize, h.headerLen, h.extraSize⟩

/-- The degenerate flags that FTR clears before its later tests do not outlive a raise. -/
theorem takeRaise_footerProper (k : ErrKind) (info : Info) (s : State) :
    takeRaise k info ((footerProper s).withFtr (forgetDerived s.free (footerProper s).ftr)) =
      takeRaise k info (s.withFtr (forgetDerived s.free s.ftr)) := rfl

/-- FTR's tests always end. -/
theorem footerTests_ends {s : State} (hidle : decActive s = false) :
    ∃ t, (footerTests s).outcome = .next t ∧ FtrKept s t := by
  have hraise (info : Info) :
      FtrKept s (takeRaise .malformedFooter info (s.withFtr (forgetDerived s.free s.ftr))) :=
    (FtrKept.raised (s := s.withFtr (forgetDerived s.free s.ftr)) hidle _ info).forget
  obtain ⟨-, -, h⟩ | ⟨-, -, h⟩ | ⟨-, info, h⟩ | ⟨-, -, -, -, -, -, h⟩ := footerTests_cases s <;> rw [h]
  case inl => exact ⟨_, rfl, .done ..⟩
  case inr.inl => exact ⟨_, rfl, hraise _⟩
  case inr.inr.inl => exact ⟨_, rfl, takeRaise_footerProper _ _ s ▸ hraise info⟩
  case inr.inr.inr => exact ⟨_, rfl, .done ..⟩

/-! ### The verdict (rules R153 to R158) -/

theorem belowMax_eq_false_iff {s : State} {n : Nat} :
    belowMax s n = false ↔ ∃ m, s.cmd.maxLen = some m ∧ m ≤ n := by
  rw [← Bool.not_eq_true, belowMax_iff]
  simp

/-- FTR refused the footer with this context. -/
def FtrRefusedWith (t : State) (info : Info) : Prop := t.status.err = .malformedFooter ∧ t.status.info = info

/-- FTR accepted the footer with these derived registers and touched no buffer. -/
def FtrCompletedWith (s t : State) (degenerate : Bool) (prefixLen readStart outLen : Nat) : Prop :=
  t.status.err = .ok ∧ t.status.degenerate = degenerate ∧ t.mem = s.mem ∧ t.ftr.degenerate = degenerate ∧
    t.ftr.prefixLen = prefixLen ∧ t.ftr.readStart = readStart ∧ t.ftr.outLen = outLen

theorem ftrRefusedWith_of_footerRaise {info : Info} {s t : State} (h : (footerRaise info s).outcome = .next t) :
    FtrRefusedWith t info := by
  cases h
  exact ⟨rfl, rfl⟩

theorem ftrCompletedWith_footerDone (s : State) (degenerate : Bool) (prefixLen readStart outLen : Nat) :
    FtrCompletedWith s (footerDone degenerate prefixLen readStart outLen s) degenerate prefixLen readStart outLen :=
  ⟨rfl, rfl, rfl, rfl, rfl, rfl, rfl⟩

/-- The verdict of FTR's tests on the loaded words, in their order. -/
theorem footerTests_verdict {s t : State} (h : (footerTests s).outcome = .next t) :
    let n := blockLen s
    let total := s.ftr.totalSize.toNat
    let hdr := s.ftr.headerLen.toNat
    let extra := s.ftr.extraSize.toNat
    if total + extra = 0 ∧ ∃ m, s.cmd.maxLen = some m ∧ m ≤ n then FtrRefusedWith t ⟨n - 4, s.cmd.maxLen.getD 0, n⟩
    else if total + extra = 0 then FtrCompletedWith s t true 0 0 0
    else if n < total then FtrRefusedWith t ⟨n - 12, n, total⟩
    else if hdr < 12 ∨ total < hdr ∨ s.cmd.hdrMax < hdr then FtrRefusedWith t ⟨n - 8, 12, hdr⟩
    else if ∃ m, s.cmd.maxLen = some m ∧ m ≤ n + extra then FtrRefusedWith t ⟨n - 4, s.cmd.maxLen.getD 0, n + extra⟩
    else FtrCompletedWith s t false (n - total) (total - hdr) (total + extra) := by
  intro n total hdr extra
  simp only [footerTests, Config.footerLen] at h
  simp only [← belowMax_eq_false_iff]
  by_cases h0 : total + extra = 0
  · rw [if_pos h0] at h
    cases hmax : belowMax s n with
    | false =>
      rw [if_pos ⟨h0, rfl⟩]
      rw [hmax] at h
      exact ftrRefusedWith_of_footerRaise h
    | true =>
      rw [if_neg (by simp), if_pos h0]
      rw [if_pos hmax] at h
      cases h
      exact ftrCompletedWith_footerDone ..
  rw [if_neg h0] at h
  rw [if_neg (fun hn => h0 hn.1), if_neg h0]
  split
  next h1 => exact ftrRefusedWith_of_footerRaise (if_pos h1 ▸ h)
  next h1 =>
  rw [if_neg h1] at h
  split
  next h2 => exact ftrRefusedWith_of_footerRaise (if_pos h2 ▸ h)
  next h2 =>
  rw [if_neg h2] at h
  cases hmax : belowMax s (n + extra) with
  | false =>
    rw [hmax] at h
    exact ftrRefusedWith_of_footerRaise h
  | true =>
    rw [if_pos hmax] at h
    cases h
    exact ftrCompletedWith_footerDone ..

/-! ### `BLZ.FOOTER` -/

theorem exec_blzFooter (s : State) : exec .blzFooter s = (footer (startCommand .blzFooter s)).outcome := rfl

/-- DEC is not at work in `BLZ.FOOTER` (rule R27). -/
theorem decActive_startFooter (s : State) : decActive (startCommand .blzFooter s) = false := rfl

/-- Settles O27: the length check is `footer_of_short`; on a longer block the verdict is `footerTests_verdict` on the
loaded words, and `footerTests_ends` gives what every verdict keeps. -/
theorem footerCommandVerdict : Obligations.FooterCommandVerdict := by
  intro s n total hdr extra
  by_cases hn : n < 12
  · have hshort : footer (startCommand .blzFooter s) = .raised .malformedFooter ⟨0, 12, n⟩ _ := footer_of_short hn
    have hkept := FtrKept.raised (decActive_startFooter s) .malformedFooter ⟨0, 12, n⟩
    refine ⟨_, by rw [exec_blzFooter, hshort, Ctl.outcome_raised], hkept.cmd, hkept.inp, hkept.m, hkept.run,
      fun h => absurd hn (Nat.not_lt.mpr h), ?_⟩
    rw [if_pos hn]
    exact ⟨rfl, rfl⟩
  · let u := loadWords (startCommand .blzFooter s)
    have htotal : u.ftr.totalSize.toNat = total := loadWords_totalSize _
    have hhdr : u.ftr.headerLen.toNat = hdr := loadWords_headerLen _
    have hextra : u.ftr.extraSize.toNat = extra := loadWords_extraSize _
    have hfooter : footer (startCommand .blzFooter s) = footerTests u := footer_of_room (Nat.le_of_not_lt hn)
    obtain ⟨t, ht, hkept⟩ := footerTests_ends (s := u) (decActive_startFooter s)
    refine ⟨t, by rw [exec_blzFooter, hfooter, ht], hkept.cmd, hkept.inp, hkept.m, hkept.run,
      fun _ => ⟨hkept.totalSize ▸ htotal, hkept.headerLen ▸ hhdr, hkept.extraSize ▸ hextra⟩, ?_⟩
    have hverdict := footerTests_verdict ht
    rw [htotal, hhdr, hextra] at hverdict
    rw [if_neg hn]
    exact hverdict

end Sys2Proof.Machine
end

section
/-! The degenerate footer in both decode commands (rules R153, R167). -/

namespace Sys2Proof.Machine

/-- FTR on a degenerate footer whose block's length is below `MAX_LEN`. -/
theorem footer_of_degenerate {s : State} (hroom : 12 ≤ blockLen s) (hmax : belowMax s (blockLen s) = true)
    (htotal : (blockBuf s).read (blockLen s - 12) 4 = 0) (hextra : (blockBuf s).read (blockLen s - 4) 4 = 0) :
    footer s = .ok (footerDone true 0 0 0 (loadWords s)) := by
  rw [footer_of_room hroom, footerTests]
  simp [htotal, hextra, hmax]

/-- A capacity that holds the block and what FTR says it grows by passes the test (rule R184). -/
theorem capacityTest_of_fits {s : State}
    (h : s.cmd.op = .blzDecompressP → blockLen s + s.ftr.extraSize.toNat ≤ s.cmd.cap) : capacityTest s = .ok s :=
  if_neg fun ⟨hop, hlt⟩ => Nat.not_lt.mpr (h hop) hlt

/-- DEC on a degenerate footer executes no token: the decode ends with FTR (rules R165, R167). -/
theorem decodeBlock_of_degenerate {s : State} (hroom : 12 ≤ blockLen s) (hmax : belowMax s (blockLen s) = true)
    (htotal : (blockBuf s).read (blockLen s - 12) 4 = 0) (hextra : (blockBuf s).read (blockLen s - 4) 4 = 0)
    (hcap : s.cmd.op = .blzDecompressP → blockLen s ≤ s.cmd.cap) :
    decodeBlock s = .ok (degenerateDone (footerDone true 0 0 0 (loadWords s))) := by
  have hfits : capacityTest (footerDone true 0 0 0 (loadWords s)) = .ok (footerDone true 0 0 0 (loadWords s)) := by
    refine capacityTest_of_fits fun hop => ?_
    show blockLen s + (loadWords s).ftr.extraSize.toNat ≤ s.cmd.cap
    rw [loadWords_extraSize, hextra]
    exact hcap hop
  rw [decodeBlock, footer_of_degenerate hroom hmax htotal hextra, Ctl.andThen_ok, hfits]
  rfl

theorem exec_blzDecompressS (s : State) :
    exec .blzDecompressS s = (decodeBlock (startCommand .blzDecompressS s)).outcome := rfl

/-- `BLZ.DECOMPRESS.P` on operands the model gives a meaning. -/
theorem exec_blzDecompressP_of_operands {s : State} (hn : s.cmd.n ≤ s.cmd.cap) (hcap : s.cmd.cap ≤ s.mem.m.len)
    (hmax : ∀ m, s.cmd.maxLen = some m → s.cmd.cap < m) :
    exec .blzDecompressP s = (decodeBlock (startCommand .blzDecompressP s)).outcome := by
  have hoperands : ¬ (s.cmd.cap < s.cmd.n ∨ s.mem.m.len < s.cmd.cap) := by omega
  exact (if_neg hoperands).trans (if_pos (belowMax_iff.mpr hmax))

/-- Settles O32: both commands are `decodeBlock` on their block, which a degenerate footer ends at once. -/
theorem degenerateFooterDecodesToEmpty : Obligations.DegenerateFooterDecodesToEmpty := by
  constructor
  · intro s hroom hmax htotal hextra
    have hdecode := decodeBlock_of_degenerate (s := startCommand .blzDecompressS s) hroom (belowMax_iff.mpr hmax)
      htotal hextra (fun hop => by cases hop)
    refine ⟨_, by rw [exec_blzDecompressS, hdecode, Ctl.outcome_ok], ?_⟩
    exact ⟨rfl, rfl, rfl, rfl, rfl⟩
  · intro s hroom hn hcap hmax htotal hextra
    have hblock : ∀ m, s.cmd.maxLen = some m → s.cmd.n < m := fun m hm => Nat.lt_of_le_of_lt hn (hmax m hm)
    have hdecode := decodeBlock_of_degenerate (s := startCommand .blzDecompressP s) hroom (belowMax_iff.mpr hblock)
      htotal hextra (fun _ => hn)
    refine ⟨_, by rw [exec_blzDecompressP_of_operands hn hcap hmax, hdecode, Ctl.outcome_ok], ?_⟩
    exact ⟨rfl, rfl, rfl, rfl, rfl⟩

end Sys2Proof.Machine
end

section
/-! The three tokens of DEC and the step that fetches and executes one (rules R170 to R178). -/

namespace Sys2Proof.Machine

/-! ### A token executed (rules R171 to R173, R176) -/

theorem exec_ctrl (f : Byte) (s : State) : exec (.ctrl f) s = (decCtrl f s).outcome := rfl

theorem exec_lit (b : Byte) (s : State) : exec (.lit b) s = (decLit b s).outcome := rfl

theorem decCtrl_of_room {f : Byte} {s : State} (hr : 1 ≤ s.dec.r) :
    decCtrl f s = .ok { s with dec := { s.dec with r := s.dec.r - 1, ctrl := f, k := 8 } } :=
  if_neg (Nat.not_lt.mpr hr)

/-- The state in which a literal is stored: both cursors moved down (rule R172). -/
def litStart (s : State) : State := s.withDec { s.dec with r := s.dec.r - 1, w := s.dec.w - 1 }

/-- A literal that could be fetched, with the write cursor above 0, is a store at the write cursor. -/
theorem decLit_eq_store {b : Byte} {s : State} (hr : 1 ≤ s.dec.r) (hw : 1 ≤ s.dec.w) :
    decLit b s = (oSet (litStart s) (s.dec.w - 1) b).elim (.fault .outsideBuffer) .ok := by
  rw [decLit, if_neg (Nat.not_lt.mpr hr), if_neg (Nat.not_lt.mpr hw)]
  show (match oSet (litStart s) (s.dec.w - 1) b with | none => Ctl.fault .outsideBuffer | some t => Ctl.ok t) = _
  cases oSet (litStart s) (s.dec.w - 1) b <;> rfl

/-- A literal whose place exists stores its byte there and changes nothing else (rule R172). -/
theorem decLit_stores {b : Byte} {s : State} (hwf : s.mem.wf = true) (hr : 1 ≤ s.dec.r) (hw : 1 ≤ s.dec.w)
    (hlen : s.dec.base + (s.dec.w - 1) < (oBuf s).len) :
    ∃ t, decLit b s = .ok t ∧
      t = { s with dec := { s.dec with r := s.dec.r - 1, w := s.dec.w - 1 }, mem := t.mem } ∧
      ∀ n i, t.readByte n i = if n = oName s ∧ i = s.dec.base + (s.dec.w - 1) then some b else s.readByte n i := by
  obtain ⟨t, hstore, ht, -, -, hread⟩ := oSet_spec (s := litStart s) (k := s.dec.w - 1) b hwf hlen
  exact ⟨t, by rw [decLit_eq_store hr hw, hstore]; rfl, ht, hread⟩

/-- A `REF` whose first source byte lies at or beyond `DEC.out_len` raises with both its bytes consumed and the write
cursor moved once (rules R176 d, R178). -/
theorem decRef_of_source_beyond {l : BitVec 4} {o : BitVec 12} {s : State} (hr : 2 ≤ s.dec.r) (hw : 1 ≤ s.dec.w)
    (hsrc : s.dec.outLen ≤ s.dec.w - 1 + refOff o) :
    decRef l o s = .raised .outOfBounds
      ⟨s.dec.base + (s.dec.w - 1) + refOff o, s.dec.base + s.dec.outLen, s.dec.base + (s.dec.w - 1) + refOff o⟩
      { s with dec := { s.dec with r := s.dec.r - 2, w := s.dec.w - 1
                                   len := min (refLen l) s.dec.w, off := refOff o } } := by
  obtain ⟨n, hn⟩ : ∃ n, min (refLen l) s.dec.w = n + 1 :=
    Nat.exists_eq_add_one.mpr (Nat.lt_min.mpr ⟨Nat.succ_pos _, hw⟩)
  rw [decRef_eq_copyBack hr, hn, copyBack_raises (s := refStart l o s) hsrc, ← hn]
  rfl

/-- Settles O20: the fetch test of each token, and `decRef_of_source_beyond` for the source test. -/
theorem tokenRaisesOutOfBounds : Obligations.TokenRaisesOutOfBounds := by
  refine ⟨fun f s hr => ?ctrl, fun b s hr => ?lit, fun l o s hr => ?ref, fun l o s hr hw hsrc => ?source⟩
  case ctrl => rw [exec_ctrl, decCtrl, if_pos hr]; rfl
  case lit => rw [exec_lit, decLit, if_pos hr]; rfl
  case ref => rw [exec_ref, decRef, if_pos hr]; rfl
  case source => rw [exec_ref, decRef_of_source_beyond hr hw hsrc]; rfl

/-! ### Dispatch (rule R170) -/

theorem tokenSlot_of_empty {s : State} (hk : s.dec.k = 0) : tokenSlot s = .ctrl := if_pos hk

theorem tokenState_of_empty {s : State} (hk : s.dec.k = 0) : tokenState s = s := if_pos hk

theorem tokenSlot_of_flag {s : State} (hk : 0 < s.dec.k) :
    tokenSlot s = if s.dec.ctrl.getLsbD 7 then .ref else .lit := if_neg (Nat.ne_of_gt hk)

theorem tokenState_of_flag {s : State} (hk : 0 < s.dec.k) : tokenState s = consumeFlag s := if_neg (Nat.ne_of_gt hk)

/-- Keeping 8 bits of the doubled byte is the spec's `mod 256` (rule R26). -/
theorem consumeFlag_eq (s : State) :
    consumeFlag s = { s with
      dec := { s.dec with ctrl := BitVec.ofNat 8 (s.dec.ctrl.toNat * 2 % 256), k := s.dec.k - 1 } } := by
  have hdouble : BitVec.ofNat 8 (s.dec.ctrl.toNat * 2 % 256) = BitVec.ofNat 8 (s.dec.ctrl.toNat * 2) :=
    BitVec.eq_of_toNat_eq (by simp)
  rw [hdouble]
  rfl

/-- Settles O14: the two branches of `tokenSlot` and `tokenState`, and what consuming a flag does. -/
theorem dispatchConsumesFlag : Obligations.DispatchConsumesFlag :=
  fun s => ⟨fun hk => ⟨tokenSlot_of_empty hk, tokenState_of_empty hk⟩,
    fun hk => ⟨tokenSlot_of_flag hk, (tokenState_of_flag hk).trans (consumeFlag_eq s)⟩⟩

/-! ### A step of the token loop (rules R24, R80, R169, R176) -/

theorem decode_ctrl_singleton (b : Byte) : decode .ctrl [b] = .ok (.ctrl b, []) :=
  decode_ok_iff.mpr ⟨Nat.le_refl _, by simp [decodeWord, Slot.size], rfl⟩

theorem decode_lit_singleton (b : Byte) : decode .lit [b] = .ok (.lit b, []) :=
  decode_ok_iff.mpr ⟨Nat.le_refl _, by simp [decodeWord, Slot.size], rfl⟩

/-- At the token position a step is the fetch of a token. -/
theorem fetch_of_token {s : State} (hseq : s.seq = .token) : fetch s = fetchToken s := by
  rw [fetch, hseq]

/-- Without the token's bytes below `DEC.r` the step raises, the flag consumed (rules R170, R176). -/
theorem step_token_raises {s : State} (hseq : s.seq = .token) (hw : 0 < s.dec.w)
    (hr : s.dec.r < (tokenSlot s).size) :
    step s = .next (takeRaise .outOfBounds (fetchInfo s (tokenSlot s).size) (tokenState s)) := by
  have hfetch : fetchToken s = .raises .outOfBounds (fetchInfo s (tokenSlot s).size) (tokenState s) := by
    rw [fetchToken, if_neg (Nat.ne_of_gt hw), if_pos hr]
  rw [step, fetch_of_token hseq, hfetch]

/-- With its bytes there, the step executes the token they decode to. -/
theorem step_token_executes {s : State} {bs rest : Bytes} {i : Instr} (hseq : s.seq = .token) (hw : 0 < s.dec.w)
    (hr : (tokenSlot s).size ≤ s.dec.r)
    (hbytes : (oBuf s).slice (s.dec.base + (s.dec.r - (tokenSlot s).size)) (tokenSlot s).size = some bs)
    (hdecode : decode (tokenSlot s) bs = .ok (i, rest)) :
    step s = exec i (tokenState s) := by
  have hfetch : fetchToken s = .got i (tokenState s) := by
    rw [fetchToken, if_neg (Nat.ne_of_gt hw), if_neg (Nat.not_lt.mpr hr), hbytes]
    simp only [hdecode]
  rw [step, fetch_of_token hseq, hfetch, hseq]
  exact settle_token _

/-- The step at a token of one byte: the byte just below `DEC.r`, decoded and executed. -/
theorem step_token_byte {s : State} {b : Byte} {i : Instr} (hseq : s.seq = .token) (hw : 0 < s.dec.w)
    (hsize : (tokenSlot s).size = 1) (hr : 1 ≤ s.dec.r)
    (hbyte : s.readByte (oName s) (s.dec.base + (s.dec.r - 1)) = some b)
    (hdecode : decode (tokenSlot s) [b] = .ok (i, [])) :
    step s = exec i (tokenState s) := by
  refine step_token_executes hseq hw (hsize ▸ hr) ?_ hdecode
  rw [hsize, Buffer.slice_one]
  exact congrArg (Option.map _) hbyte

/-- Settles O15: with no flag left the token is a `CTRL`, fetched in the state itself. -/
theorem ctrlTokenStep : Obligations.CtrlTokenStep := by
  intro s hseq hw hk
  have hslot := tokenSlot_of_empty hk
  have hsize : (tokenSlot s).size = 1 := congrArg Slot.size hslot
  constructor
  · intro b hr hbyte
    rw [step_token_byte hseq hw hsize hr hbyte (hslot ▸ decode_ctrl_singleton b), tokenState_of_empty hk, exec_ctrl,
      decCtrl_of_room hr, Ctl.outcome_ok]
  · intro hr
    rw [step_token_raises hseq hw (hsize ▸ hr), hsize, tokenState_of_empty hk]
    rfl

/-- Settles O16: a 0 flag selects `LIT`, executed with the flag consumed; `tokenOk` says that the byte it reads and the
byte it writes exist, and `decLit_stores` is the store. -/
theorem litTokenStep : Obligations.LitTokenStep := by
  intro s s1 hseq hwf hok hw hk hflag hs1
  obtain ⟨-, hrle, hwle, hregion⟩ := hok
  obtain rfl : s1 = consumeFlag s := hs1.trans (consumeFlag_eq s).symm
  have hslot : tokenSlot s = .lit := by rw [tokenSlot_of_flag hk, hflag]; rfl
  have hsize : (tokenSlot s).size = 1 := congrArg Slot.size hslot
  constructor
  · intro hr
    have hsource : s.dec.base + (s.dec.r - 1) < (oBuf s).len := by omega
    have hplace : s.dec.base + (s.dec.w - 1) < (oBuf s).len := by omega
    obtain ⟨b, hbyte⟩ := Option.isSome_iff_exists.mp (Buffer.get_isSome.mpr hsource)
    replace hbyte : s.readByte (oName s) (s.dec.base + (s.dec.r - 1)) = some b := hbyte
    obtain ⟨t, ht, heq, hread⟩ := decLit_stores (b := b) (s := consumeFlag s) hwf hr hw hplace
    have hstep : step s = .next t := by
      rw [step_token_byte hseq hw hsize hr hbyte (hslot ▸ decode_lit_singleton b), tokenState_of_flag hk, exec_lit, ht,
        Ctl.outcome_ok]
    exact ⟨t, hstep, heq, hbyte ▸ hread⟩
  · intro hr
    rw [step_token_raises hseq hw (hsize ▸ hr), hsize, tokenState_of_flag hk]
    rfl

end Sys2Proof.Machine
end

section
/-! What a decode in place leaves of `M`, however it ends (rule R186), and the capacity test (rule R184). -/

namespace Sys2Proof.Machine

/-! ### What a token of a running loop keeps (rules R52, R172 to R174) -/

/-- Every byte outside the decoded region, the region itself and everything a token does not write are in `t` what they
were in `s`; `DEC.w` has not risen. -/
structure RegionKept (s t : State) : Prop where
  cmd : t.cmd = s.cmd
  run : t.dec.run = s.dec.run
  base : t.dec.base = s.dec.base
  outLen : t.dec.outLen = s.dec.outLen
  w : t.dec.w ≤ s.dec.w
  inp : t.mem.inp = s.mem.inp
  wf : t.mem.wf = true
  outside : ∀ b i, b ≠ oName s ∨ i < s.dec.base ∨ s.dec.base + s.dec.outLen ≤ i → t.readByte b i = s.readByte b i

theorem RegionKept.refl {s : State} (hwf : s.mem.wf = true) : RegionKept s s :=
  ⟨rfl, rfl, rfl, rfl, Nat.le_refl _, rfl, hwf, fun _ _ _ => rfl⟩

theorem RegionKept.trans {s t u : State} (h : RegionKept s t) (g : RegionKept t u) : RegionKept s u where
  cmd := g.cmd.trans h.cmd
  run := g.run.trans h.run
  base := g.base.trans h.base
  outLen := g.outLen.trans h.outLen
  w := Nat.le_trans g.w h.w
  inp := g.inp.trans h.inp
  wf := g.wf
  outside b i hi :=
    have hi' : b ≠ oName t ∨ i < t.dec.base ∨ t.dec.base + t.dec.outLen ≤ i := by
      rwa [oName_eq h.cmd, h.base, h.outLen]
    (g.outside b i hi').trans (h.outside b i hi)

/-- Moving the cursors and loading the flags touches no byte. -/
theorem RegionKept.withDec {s : State} {d : DecRegs} (hwf : s.mem.wf = true) (hrun : d.run = s.dec.run)
    (hbase : d.base = s.dec.base) (houtLen : d.outLen = s.dec.outLen) (hw : d.w ≤ s.dec.w) :
    RegionKept s (s.withDec d) :=
  ⟨rfl, hrun, hbase, houtLen, hw, rfl, hwf, fun _ _ _ => rfl⟩

/-- A store below `DEC.out_len` stays inside the region. -/
theorem RegionKept.store {s t : State} {k : Nat} {b : Byte} (hwf : s.mem.wf = true) (hk : k < s.dec.outLen)
    (h : oSet s k b = some t) : RegionKept s t := by
  obtain ⟨hlen, ht, -, hinp, -, -, -⟩ := oSet_inv h
  obtain ⟨t', ht', -, htwf, -, hread⟩ := oSet_spec b hwf hlen
  obtain rfl : t = t' := Option.some.inj (h.symm.trans ht')
  have hdec : t.dec = s.dec := by rw [ht]
  refine ⟨by rw [ht], by rw [hdec], by rw [hdec], by rw [hdec], by rw [hdec], hinp, htwf, fun n i hi => ?_⟩
  rw [hread, if_neg]
  rintro ⟨hn, rfl⟩
  obtain hne | hbelow | habove := hi
  · exact hne hn
  · omega
  · omega

/-- How an operation of the token loop may end: going on or raising `OutOfBounds`, the region kept. -/
def KeepsRegion (s : State) : Ctl → Prop
  | .ok t => RegionKept s t
  | .raised k _ t => k = .outOfBounds ∧ RegionKept s t
  | .fault _ => True

/-- What has been kept before an operation is kept after it. -/
theorem KeepsRegion.after {s t : State} {c : Ctl} (h : RegionKept s t) (hc : KeepsRegion t c) : KeepsRegion s c := by
  cases c with
  | ok u => exact h.trans hc
  | raised k info u => exact ⟨hc.1, h.trans hc.2⟩
  | fault f => trivial

theorem KeepsRegion.andThen {s : State} {c : Ctl} {f : State → Ctl} (hc : KeepsRegion s c)
    (hf : ∀ t, RegionKept s t → KeepsRegion t (f t)) : KeepsRegion s (c.andThen f) := by
  cases c with
  | ok t => exact .after hc (hf t hc)
  | raised k info t => exact hc
  | fault r => trivial

section Tokens
variable {s : State}

theorem decCtrl_keepsRegion (f : Byte) (hwf : s.mem.wf = true) : KeepsRegion s (decCtrl f s) := by
  unfold decCtrl
  split
  · exact ⟨rfl, .refl hwf⟩
  · exact .withDec hwf rfl rfl rfl (Nat.le_refl _)

theorem decLit_keepsRegion (b : Byte) (hwf : s.mem.wf = true) (hregion : s.dec.w ≤ s.dec.outLen) :
    KeepsRegion s (decLit b s) := by
  by_cases hr : s.dec.r < 1
  · rw [decLit, if_pos hr]
    exact ⟨rfl, .refl hwf⟩
  by_cases hw : s.dec.w < 1
  · rw [decLit, if_neg hr, if_pos hw]
    trivial
  rw [decLit_eq_store (Nat.le_of_not_lt hr) (Nat.le_of_not_lt hw)]
  cases hstore : oSet (litStart s) (s.dec.w - 1) b with
  | none => trivial
  | some t =>
    have hmoved : RegionKept s (litStart s) := .withDec hwf rfl rfl rfl (Nat.sub_le ..)
    exact hmoved.trans (.store hwf (show s.dec.w - 1 < s.dec.outLen by omega) hstore)

/-- The source test of each copied byte holds its place inside the region too: the source lies above it. -/
theorem copyBack_keepsRegion (n : Nat) : ∀ {s : State}, s.mem.wf = true → KeepsRegion s (copyBack n s) := by
  induction n with
  | zero => exact fun hwf => .refl hwf
  | succ n ih =>
    intro s hwf
    have hmoved : RegionKept s (s.withDec { s.dec with w := s.dec.w - 1 }) :=
      .withDec hwf rfl rfl rfl (Nat.sub_le ..)
    unfold copyBack
    dsimp only
    split
    · exact ⟨rfl, hmoved⟩
    next hsrc =>
      split
      · trivial
      split
      · trivial
      next t hstore =>
        have hplace : s.dec.w - 1 < s.dec.outLen := Nat.lt_of_le_of_lt (Nat.le_add_right ..) (Nat.lt_of_not_le hsrc)
        have hkept := hmoved.trans (.store hwf hplace hstore)
        exact .after hkept (ih hkept.wf)

theorem decRef_keepsRegion (l : BitVec 4) (o : BitVec 12) (hwf : s.mem.wf = true) : KeepsRegion s (decRef l o s) := by
  by_cases hr : s.dec.r < 2
  · rw [decRef, if_pos hr]
    exact ⟨rfl, .refl hwf⟩
  · rw [decRef_eq_copyBack (Nat.le_of_not_lt hr)]
    have hstart : RegionKept s (refStart l o s) := .withDec hwf rfl rfl rfl (Nat.le_refl _)
    exact .after hstart (copyBack_keepsRegion _ hstart.wf)

theorem runToken_keepsRegion (i : Instr) (hwf : s.mem.wf = true) (hregion : s.dec.w ≤ s.dec.outLen) :
    KeepsRegion s (runToken i s) := by
  cases i with
  | ctrl f => exact decCtrl_keepsRegion f hwf
  | lit b => exact decLit_keepsRegion b hwf hregion
  | ref l o => exact decRef_keepsRegion l o hwf
  | _ => trivial

theorem tokenState_kept (hwf : s.mem.wf = true) : RegionKept s (tokenState s) := by
  unfold tokenState
  split
  · exact .refl hwf
  · exact .withDec hwf rfl rfl rfl (Nat.le_refl _)

theorem decodeToken_keepsRegion (hwf : s.mem.wf = true) (hregion : s.dec.w ≤ s.dec.outLen) (hw : s.dec.w ≠ 0) :
    KeepsRegion s (decodeToken s) := by
  have hstate := tokenState_kept hwf
  obtain ⟨-, h⟩ | ⟨bs, i, rest, -, -, -, h⟩ | ⟨f, h⟩ := decodeToken_cases hw <;> rw [h]
  case inl => exact ⟨rfl, hstate⟩
  case inr.inl => exact .after hstate (runToken_keepsRegion i hstate.wf (hstate.outLen ▸ Nat.le_trans hstate.w hregion))
  case inr.inr => trivial

end Tokens

/-- The token loop keeps the region, in whichever buffer it decodes and however it ends. -/
theorem tokenLoop_keepsRegion (fuel : Nat) :
    ∀ {s : State}, s.mem.wf = true → s.dec.w ≤ s.dec.outLen → KeepsRegion s (tokenLoop fuel s) := by
  induction fuel with
  | zero =>
    intro s hwf hregion
    unfold tokenLoop
    split
    · exact .refl hwf
    next hw => exact decodeToken_keepsRegion hwf hregion hw
  | succ n ih =>
    intro s hwf hregion
    unfold tokenLoop
    split
    · exact .refl hwf
    next hw =>
      exact (decodeToken_keepsRegion hwf hregion hw).andThen fun t ht =>
        ih ht.wf (ht.outLen ▸ Nat.le_trans ht.w hregion)

/-! ### Before the token loop (rules R151 to R158, R184) -/

/-- Nothing but FTR's registers and the status may differ. -/
def SameButFtr (s t : State) : Prop := t = { s with ftr := t.ftr, status := t.status }

section SameButFtr
variable {s t u : State}

theorem SameButFtr.cmd (h : SameButFtr s t) : t.cmd = s.cmd := by rw [h]

theorem SameButFtr.dec (h : SameButFtr s t) : t.dec = s.dec := by rw [h]

theorem SameButFtr.mem (h : SameButFtr s t) : t.mem = s.mem := by rw [h]

theorem SameButFtr.trans (h : SameButFtr s t) (g : SameButFtr t u) : SameButFtr s u :=
  Eq.trans g (by rw [h])

end SameButFtr

/-- How FTR and the capacity test may end: going on or raising `MalformedFooter`. -/
def KeepsAllButFtr (s : State) : Ctl → Prop
  | .ok t => SameButFtr s t
  | .raised k _ t => k = .malformedFooter ∧ SameButFtr s t
  | .fault _ => False

theorem footer_keepsAllButFtr (s : State) : KeepsAllButFtr s (footer s) := by
  obtain ⟨-, h⟩ | ⟨-, u, v, hd, e, -, -, -, rfl, h⟩ := footer_cases s <;> rw [h]
  case inl => exact ⟨rfl, rfl⟩
  case inr =>
    obtain ⟨-, -, h⟩ | ⟨-, -, h⟩ | ⟨-, info, h⟩ | ⟨-, -, -, -, -, -, h⟩ := footerTests_cases { s with ftr := _ } <;>
      rw [h]
    case inl => exact rfl
    case inr.inl => exact ⟨rfl, rfl⟩
    case inr.inr.inl => exact ⟨rfl, rfl⟩
    case inr.inr.inr => exact rfl

theorem capacityTest_keepsAllButFtr (s : State) : KeepsAllButFtr s (capacityTest s) := by
  unfold capacityTest
  dsimp only
  split
  · exact ⟨rfl, rfl⟩
  · exact rfl

/-- FTR's verdict on a footer it accepts, which is not degenerate (rule R156). -/
theorem footer_of_accepted {s : State} (h : FooterAccepted s (blockBuf s) (blockLen s)) :
    let total := (blockBuf s).read (blockLen s - 12) 4
    footer s = .ok (footerDone false (blockLen s - total) (total - (blockBuf s).read (blockLen s - 8) 4)
      (total + (blockBuf s).read (blockLen s - 4) 4) (loadWords s)) := by
  obtain ⟨hroom, hproper, htotal, hhdr, hhdrTotal, hhdrMax, hmax⟩ := h
  have hlimit : belowMax s (blockLen s + (blockBuf s).read (blockLen s - 4) 4) = true := belowMax_iff.mpr hmax
  rw [footer_of_room hroom, footerTests]
  simp only [loadWords_totalSize, loadWords_headerLen, loadWords_extraSize, blockLen_loadWords, belowMax_loadWords]
  have hhdrs : ¬ ((blockBuf s).read (blockLen s - 8) 4 < 12 ∨
      (blockBuf s).read (blockLen s - 12) 4 < (blockBuf s).read (blockLen s - 8) 4 ∨
      s.cmd.hdrMax < (blockBuf s).read (blockLen s - 8) 4) := by omega
  exact (if_neg hproper).trans ((if_neg (Nat.not_lt.mpr htotal)).trans ((if_neg hhdrs).trans (if_pos hlimit)))

/-- A capacity too small for the block and what FTR says it grows by raises (rule R184). -/
theorem capacityTest_of_overflow {s : State} (hop : s.cmd.op = .blzDecompressP)
    (h : s.cmd.cap < blockLen s + s.ftr.extraSize.toNat) :
    capacityTest s =
      .raised .malformedFooter ⟨blockLen s - 4, s.cmd.cap, blockLen s + s.ftr.extraSize.toNat⟩ s :=
  if_pos ⟨hop, h⟩

/-- A raise outside the token loop leaves all of `M` (rule R186). -/
theorem takeRaise_m_of_not_running {s : State} (k : ErrKind) (info : Info) (h : s.dec.run ≠ .run) :
    (takeRaise k info s).mem.m = s.mem.m := by
  simp [h]

/-- A raise forgets no byte of `M` outside the decoded region (rule R186). -/
theorem takeRaise_outside {s : State} (k : ErrKind) (info : Info) (hwf : s.mem.wf = true) (i : Nat)
    (hi : i < s.dec.base ∨ s.dec.base + s.dec.outLen ≤ i) :
    (takeRaise k info s).readByte .m i = s.readByte .m i := by
  show Buffer.get (takeRaise k info s).mem.m i = s.mem.m.get i
  obtain ⟨-, -, hm⟩ := Memory.wf_iff.mp hwf
  rw [takeRaise_mem_m]
  split
  · exact (Buffer.forget_spec _ _ _ hm).2 i hi
  · rfl

/-! ### `BLZ.DECOMPRESS.P` -/

/-- Settles O34: FTR accepts, and the capacity test raises before DEC runs. -/
theorem capacityTestRaises : Obligations.CapacityTestRaises := by
  intro s hn hcap hmax haccepted hover
  obtain ⟨u, hfooter, hu, hextra⟩ : ∃ u, footer (startCommand .blzDecompressP s) = .ok u ∧
      SameButFtr (startCommand .blzDecompressP s) u ∧ u.ftr.extraSize.toNat = s.mem.m.read (s.cmd.n - 4) 4 :=
    ⟨_, footer_of_accepted haccepted, rfl, loadWords_extraSize _⟩
  have hlen : blockLen u = s.cmd.n := by rw [hu]; rfl
  have hcapacity : u.cmd.cap = s.cmd.cap := by rw [hu.cmd]; rfl
  have hraise := capacityTest_of_overflow (s := u) (by rw [hu.cmd]; rfl) (by rw [hlen, hcapacity, hextra]; exact hover)
  rw [hlen, hcapacity, hextra] at hraise
  have hrun : u.dec.run ≠ .run := by rw [hu.dec]; exact fun h => by cases h
  refine ⟨_, ?_, rfl, rfl, (takeRaise_m_of_not_running _ _ hrun).trans (by rw [hu.mem]; rfl)⟩
  rw [exec_blzDecompressP_of_operands hn hcap hmax, decodeBlock, hfooter, Ctl.andThen_ok, hraise]
  rfl

/-- A decode in place that was not refused is `decodeBlock`. -/
theorem exec_blzDecompressP_eq_next {s t : State} (h : exec .blzDecompressP s = .next t) :
    (decodeBlock (startCommand .blzDecompressP s)).outcome = .next t := by
  replace h : execBlzDecompressP s = .next t := h
  unfold execBlzDecompressP at h
  split at h
  · cases h
  split at h
  · exact h
  · cases h

/-- In place nothing is allocated: DEC starts on `M` as it is (rules R168, R183). -/
theorem startDecode_mem_of_inPlace {s : State} (hop : s.cmd.op = .blzDecompressP) : (startDecode s).mem = s.mem := by
  simp [startDecode, allocate, hop]

/-- In place a degenerate footer's result writes no buffer (rule R167). -/
theorem degenerateDone_mem_of_inPlace {s : State} (hop : s.cmd.op = .blzDecompressP) :
    (degenerateDone s).mem = s.mem := by
  simp [degenerateDone, hop]

/-- The clauses of rule R186, for the state `t` in which a decode in place of the state `s` ends. -/
def InPlaceFrame (s t : State) : Prop :=
  (t.status.err = .malformedFooter → t.mem.m = s.mem.m) ∧
  (t.status.err ≠ .malformedFooter → ∀ i, i < t.dec.base ∨ t.dec.base + t.dec.outLen ≤ i →
    t.readByte .m i = s.readByte .m i) ∧
  t.mem.inp = s.mem.inp

section InPlace
variable {s u v : State} (hu : SameButFtr (startCommand .blzDecompressP s) u)
include hu

theorem op_of_inPlace : u.cmd.op = .blzDecompressP := by
  rw [hu.cmd]
  rfl

/-- Where no token was executed all of `M` is unchanged. -/
theorem InPlaceFrame.of_degenerate : InPlaceFrame s (degenerateDone u) := by
  have hmem : (degenerateDone u).mem = s.mem := (degenerateDone_mem_of_inPlace (op_of_inPlace hu)).trans hu.mem
  exact ⟨fun _ => by rw [hmem], fun _ i _ => by rw [State.readByte, hmem]; rfl, by rw [hmem]⟩

theorem InPlaceFrame.of_malformedFooter (info : Info) : InPlaceFrame s (takeRaise .malformedFooter info u) := by
  have hrun : u.dec.run ≠ .run := by rw [hu.dec]; exact fun h => by cases h
  refine ⟨fun _ => ?_, fun h => absurd rfl h, ?_⟩
  · rw [takeRaise_m_of_not_running _ _ hrun, hu.mem, startCommand_mem]
  · rw [takeRaise_mem_inp, hu.mem, startCommand_mem]

theorem startDecode_mem_of_command : (startDecode u).mem = s.mem :=
  (startDecode_mem_of_inPlace (op_of_inPlace hu)).trans hu.mem

theorem readByte_of_regionKept (hkept : RegionKept (startDecode u) v) (i : Nat)
    (hi : i < v.dec.base ∨ v.dec.base + v.dec.outLen ≤ i) : v.readByte .m i = s.readByte .m i := by
  rw [hkept.base, hkept.outLen] at hi
  rw [hkept.outside .m i (.inr hi), State.readByte, startDecode_mem_of_command hu, State.readByte]

theorem inp_of_regionKept (hkept : RegionKept (startDecode u) v) : v.mem.inp = s.mem.inp := by
  rw [hkept.inp, startDecode_mem_of_command hu]

/-- A loop that ran to its end: the result writes no byte. -/
theorem InPlaceFrame.of_loop_ended (hkept : RegionKept (startDecode u) v) : InPlaceFrame s (endDecode v) :=
  ⟨fun h => (by cases h), fun _ => readByte_of_regionKept (v := v) hu hkept, inp_of_regionKept (v := v) hu hkept⟩

/-- A loop that raised: taking the error forgets the decoded region alone. -/
theorem InPlaceFrame.of_loop_raised (hkept : RegionKept (startDecode u) v) (info : Info) :
    InPlaceFrame s (takeRaise .outOfBounds info v) := by
  refine ⟨fun h => (by cases h), fun _ i hi => ?_, inp_of_regionKept (v := v) hu hkept⟩
  rw [(takeRaise_dec_eq .outOfBounds info v).1] at hi
  exact (takeRaise_outside _ info hkept.wf i hi).trans (readByte_of_regionKept hu hkept i hi)

theorem tokenLoop_of_inPlace (hwf : s.mem.wf = true) (fuel : Nat) :
    KeepsRegion (startDecode u) (tokenLoop fuel (startDecode u)) :=
  tokenLoop_keepsRegion fuel (startDecode_mem_of_command hu ▸ hwf) (Nat.le_refl _)

end InPlace

/-- Settles O36: the decode ends before its token loop, with `M` untouched, or `tokenLoop_keepsRegion` says what the loop
left. -/
theorem inPlaceDecodeFrame : Obligations.InPlaceDecodeFrame := by
  intro s t hwf hexec
  have hftr := footer_keepsAllButFtr (startCommand .blzDecompressP s)
  show InPlaceFrame s t
  obtain hok | ⟨k, info, v, hraised, rfl⟩ := Ctl.outcome_eq_next (exec_blzDecompressP_eq_next hexec)
  · obtain ⟨u, hfooter, -, ⟨-, rfl⟩ | ⟨-, v, hloop, rfl⟩⟩ := decodeBlock_eq_ok hok <;> rw [hfooter] at hftr
    case inl => exact .of_degenerate hftr
    case inr =>
      have hkept := tokenLoop_of_inPlace hftr hwf u.ftr.readStart
      rw [hloop] at hkept
      exact .of_loop_ended hftr hkept
  · obtain hfooter | ⟨u, hfooter, hcapacity | ⟨-, -, hloop⟩⟩ := decodeBlock_eq_raised hraised <;> rw [hfooter] at hftr
    case inl =>
      obtain ⟨rfl, hv⟩ := hftr
      exact .of_malformedFooter hv info
    case inr.inl =>
      have htest := capacityTest_keepsAllButFtr u
      rw [hcapacity] at htest
      obtain ⟨rfl, hv⟩ := htest
      exact .of_malformedFooter (hftr.trans hv) info
    case inr.inr =>
      have hkept := tokenLoop_of_inPlace hftr hwf u.ftr.readStart
      rw [hloop] at hkept
      obtain ⟨rfl, hkept⟩ := hkept
      exact .of_loop_raised hftr hkept info

end Sys2Proof.Machine
end

section
/-! `KIP.SERIALIZE` (rules R221 to R223). -/

namespace Sys2Proof.Machine

/-! ### The 256 bytes of a header image (rules R29 to R31, R222) -/

theorem encode_kipSeg_length (i : Fin 6) (d : SegDesc) : (encode (.kipSeg i d)).length = 16 :=
  Laws.EncodeLength.kipSeg i d

theorem encode_kipCap_length (j : Fin 32) (v : W32) : (encode (.kipCap j v)).length = 4 :=
  Laws.EncodeLength.kipCap j v

theorem headerBytes_length (h : KipHeader) : (headerBytes h).length = 256 := by
  have hfixed : ([.kipMagic Config.kipMagic, .kipName h.name, .kipTitleId h.titleId
      , .kipProcessCategory h.processCategory, .kipThreadPriority h.threadPriority
      , .kipDefaultCpuId h.defaultCpuId, .kipReserved h.reserved, .kipFlags h.flags].flatMap encode).length = 32 := by
    simp [encode]
  have hseg : (((List.finRange 6).map fun i => Instr.kipSeg i h.seg[i]).flatMap encode).length = 6 * 16 := by
    simp [List.length_flatMap, Function.comp_def, encode_kipSeg_length]
  have hcap : (((List.finRange 32).map fun j => Instr.kipCap j h.cap[j]).flatMap encode).length = 32 * 4 := by
    simp [List.length_flatMap, Function.comp_def, encode_kipCap_length]
  rw [headerBytes, headerItems, List.flatMap_append, List.flatMap_append, List.length_append, List.length_append,
    hfixed, hseg, hcap]

/-! ### The file (rules R103, R221) -/

theorem fileBytes_length (k : KipRegs) :
    (fileBytes k).length = 256 + (k.stored.toList.map List.length).sum + k.trailing.length := by
  simp only [fileBytes, List.length_append, headerBytes_length, List.length_flatten]

/-- `KIP.SERIALIZE` when the file's length is below `MAX_LEN`: its operands pass the command start, and it writes
`OUT`. -/
theorem exec_kipSerialize_of_fits {s : State} (h : ∀ m, s.cmd.maxLen = some m → (fileBytes s.kip).length < m) :
    exec .kipSerialize s = .next
      (((startCommand .kipSerialize s).withOut (Buffer.ofBytes (fileBytes s.kip))).withStatus
        { (startCommand .kipSerialize s).status with err := .ok, outLen := (fileBytes s.kip).length }) :=
  if_pos (belowMax_iff (s := startCommand .kipSerialize s).mpr h)

/-- Settles O57: the file is `fileBytes` of the operands, whose header part always has 256 bytes. -/
theorem serializeWritesFile : Obligations.SerializeWritesFile := by
  intro s hroom
  have hlength := fileBytes_length s.kip
  have hexec := exec_kipSerialize_of_fits (s := s) fun m hm => hlength ▸ hroom m hm
  refine ⟨_, hexec, rfl, rfl, rfl, rfl, ?_, ?_⟩
  · exact hlength
  · exact Buffer.toBytes_ofBytes _

end Sys2Proof.Machine
end

section
/-! Strict decoding gives what the block says: two runs on the same block, whatever else their states hold, end alike,
and no run faults (rules R169 to R180, R205).  So the decode of a segment inside `KIP.PARSE` is `BLZ.DECOMPRESS.S` on
its bytes. -/

namespace Sys2Proof.Machine

/-! ### Two token loops in step (rules R169 to R176) -/

/-- The operands and the KIP registers are those of `p`: what a decode inside a container command has to leave alone. -/
structure KeepsCommand (p s : State) : Prop where
  cmd : s.cmd = p.cmd
  kip : s.kip = p.kip

/-- DEC's registers agree as far as a later token reads them: the flags only while some remain, `DEC.len` and `DEC.off`
not at all.  Both cursors stand inside the decoded region. -/
structure SameCursors (d e : DecRegs) : Prop where
  r : d.r = e.r
  w : d.w = e.w
  k : d.k = e.k
  base : d.base = e.base
  outLen : d.outLen = e.outLen
  ctrl : d.k ≠ 0 → d.ctrl = e.ctrl
  readInside : d.r ≤ d.outLen
  writeInside : d.w ≤ d.outLen

/-- Two strict token loops at the same point, the first one in the command of `p`. -/
structure InStep (p s u : State) : Prop where
  kept : KeepsCommand p s
  strict : s.cmd.op ≠ .blzDecompressP
  strict' : u.cmd.op ≠ .blzDecompressP
  cursors : SameCursors s.dec u.dec
  out : s.mem.out = u.mem.out
  region : s.dec.base + s.dec.outLen ≤ s.mem.out.len

/-- How the operations of the two loops may end: both go on in step, or both raise `OutOfBounds`. -/
inductive EndInStep (p : State) : Ctl → Ctl → Prop
  | ok {s u : State} (h : InStep p s u) : EndInStep p (.ok s) (.ok u)
  | raised {s u : State} (i j : Info) (h : KeepsCommand p s) :
      EndInStep p (.raised .outOfBounds i s) (.raised .outOfBounds j u)

theorem EndInStep.andThen {p : State} {c d : Ctl} {f : State → Ctl} (h : EndInStep p c d)
    (hf : ∀ s u, InStep p s u → EndInStep p (f s) (f u)) : EndInStep p (c.andThen f) (d.andThen f) := by
  cases h with
  | ok h => exact hf _ _ h
  | raised i j h => exact .raised i j h

section Strict
variable {s : State} (hop : s.cmd.op ≠ .blzDecompressP)
include hop

/-- In strict mode `O` is a window of `OUT` (rule R180). -/
theorem oBuf_of_strict : oBuf s = s.mem.out := by simp [oBuf, oName, hop, Memory.buf]

theorem oGet_of_strict {k : Nat} (hk : s.dec.base + k < s.mem.out.len) :
    oGet s k = some (cellsGet s.mem.out.cells (s.dec.base + k)) := by
  simp [oGet, oBuf_of_strict hop, Buffer.get, hk]

theorem oSet_of_strict {k : Nat} (b : Byte) (hk : s.dec.base + k < s.mem.out.len) :
    oSet s k b = some (s.withOut { s.mem.out with cells := cellsSet s.mem.out.cells (s.dec.base + k) b }) := by
  simp [oSet, oBuf_of_strict hop, Buffer.set, hk, hop]

end Strict

section Tokens
variable {p s u : State} (h : InStep p s u)
include h

theorem InStep.withDec {d e : DecRegs} (hcursors : SameCursors d e) (hbase : d.base = s.dec.base)
    (houtLen : d.outLen = s.dec.outLen) : InStep p (s.withDec d) (u.withDec e) :=
  ⟨⟨h.kept.cmd, h.kept.kip⟩, h.strict, h.strict', hcursors, h.out, by
    simpa [hbase, houtLen] using h.region⟩

/-- A byte read from the decoded region. -/
theorem InStep.load {k : Nat} (hk : k < s.dec.outLen) : ∃ b, oGet s k = some b ∧ oGet u k = some b := by
  have hregion := h.region
  refine ⟨_, oGet_of_strict h.strict (by omega), ?_⟩
  rw [oGet_of_strict h.strict' (by rw [← h.cursors.base, ← h.out]; omega), h.cursors.base, h.out]

/-- A byte stored in the decoded region. -/
theorem InStep.store {k : Nat} (b : Byte) (hk : k < s.dec.outLen) :
    ∃ t v, oSet s k b = some t ∧ oSet u k b = some v ∧ InStep p t v ∧ t.dec = s.dec ∧ v.dec = u.dec := by
  have hregion := h.region
  have hs := oSet_of_strict h.strict b (k := k) (by omega)
  have hu := oSet_of_strict h.strict' b (k := k) (by rw [← h.cursors.base, ← h.out]; omega)
  refine ⟨_, _, hs, hu, ⟨⟨h.kept.cmd, h.kept.kip⟩, h.strict, h.strict', h.cursors, ?_, hregion⟩, rfl, rfl⟩
  simp [h.out, h.cursors.base]

theorem decCtrl_inStep (f : Byte) : EndInStep p (decCtrl f s) (decCtrl f u) := by
  obtain ⟨hr, hw, hk, hbase, houtLen, -, hread, hwrite⟩ := h.cursors
  by_cases hshort : s.dec.r < 1
  · rw [decCtrl, decCtrl, if_pos hshort, if_pos (hr ▸ hshort)]
    exact .raised _ _ h.kept
  · rw [decCtrl_of_room (by omega), decCtrl_of_room (by omega)]
    exact .ok (h.withDec ⟨congrArg (· - 1) hr, hw, rfl, hbase, houtLen, fun _ => rfl,
      Nat.le_trans (Nat.sub_le ..) hread, hwrite⟩ rfl rfl)

theorem decLit_inStep (b : Byte) (hw0 : s.dec.w ≠ 0) : EndInStep p (decLit b s) (decLit b u) := by
  obtain ⟨hr, hw, hk, hbase, houtLen, hctrl, hread, hwrite⟩ := h.cursors
  by_cases hshort : s.dec.r < 1
  · rw [decLit, decLit, if_pos hshort, if_pos (hr ▸ hshort)]
    exact .raised _ _ h.kept
  · have hmoved : InStep p (litStart s) (litStart u) :=
      h.withDec ⟨congrArg (· - 1) hr, congrArg (· - 1) hw, hk, hbase, houtLen, hctrl,
        Nat.le_trans (Nat.sub_le ..) hread, Nat.le_trans (Nat.sub_le ..) hwrite⟩ rfl rfl
    obtain ⟨t, v, ht, hv, hstored, -⟩ := hmoved.store (k := s.dec.w - 1) b
      (show s.dec.w - 1 < s.dec.outLen by omega)
    rw [decLit_eq_store (by omega) (by omega), decLit_eq_store (by omega) (by omega), ← hw, ht, hv]
    exact .ok hstored

end Tokens

/-- The state in which one byte of a copy is read and written: `DEC.w` moved down (rule R173). -/
def copyStart (s : State) : State := s.withDec { s.dec with w := s.dec.w - 1 }

/-- One byte copied (rule R174). -/
theorem copyBack_of_source {n : Nat} {s t : State} {b : Byte} (hsrc : s.dec.w - 1 + s.dec.off < s.dec.outLen)
    (hload : oGet (copyStart s) (s.dec.w - 1 + s.dec.off) = some b)
    (hstore : oSet (copyStart s) (s.dec.w - 1) b = some t) : copyBack (n + 1) s = copyBack n t := by
  have hstep : copyBack (n + 1) s =
      if s.dec.outLen ≤ s.dec.w - 1 + s.dec.off then .raised .outOfBounds (sourceInfo (copyStart s)) (copyStart s)
      else match oGet (copyStart s) (s.dec.w - 1 + s.dec.off) with
        | none => .fault .outsideBuffer
        | some b => match oSet (copyStart s) (s.dec.w - 1) b with
          | none => .fault .outsideBuffer
          | some s2 => copyBack n s2 := rfl
  rw [hstep, if_neg (Nat.not_le.mpr hsrc), hload]
  simp only [hstore]

/-- The copy: each source byte lies above its place and below `DEC.out_len`, so both exist (rule R176 d). -/
theorem copyBack_inStep {p : State} (n : Nat) :
    ∀ {s u : State}, InStep p s u → s.dec.off = u.dec.off → EndInStep p (copyBack n s) (copyBack n u) := by
  induction n with
  | zero => exact fun h _ => .ok h
  | succ n ih =>
    intro s u h hoff
    obtain ⟨hr, hw, hk, hbase, houtLen, hctrl, hread, hwrite⟩ := h.cursors
    have hmoved : InStep p (copyStart s) (copyStart u) :=
      h.withDec ⟨hr, congrArg (· - 1) hw, hk, hbase, houtLen, hctrl, hread, Nat.le_trans (Nat.sub_le ..) hwrite⟩
        rfl rfl
    by_cases hsrc : s.dec.outLen ≤ s.dec.w - 1 + s.dec.off
    · rw [copyBack_raises hsrc, copyBack_raises (by omega)]
      exact .raised _ _ hmoved.kept
    · obtain ⟨b, hs, hu⟩ := hmoved.load (Nat.lt_of_not_le hsrc)
      obtain ⟨t, v, ht, hv, hstored, hdec, hdec'⟩ := hmoved.store (k := s.dec.w - 1) b
        (show s.dec.w - 1 < s.dec.outLen by omega)
      rw [copyBack_of_source (by omega) hs ht,
        copyBack_of_source (t := v) (b := b) (by omega) (by rw [← hw, ← hoff]; exact hu) (by rw [← hw]; exact hv)]
      exact ih hstored (by rw [hdec, hdec']; exact hoff)

section Loop
variable {p s u : State} (h : InStep p s u)
include h

theorem decRef_inStep (l : BitVec 4) (o : BitVec 12) : EndInStep p (decRef l o s) (decRef l o u) := by
  obtain ⟨hr, hw, hk, hbase, houtLen, hctrl, hread, hwrite⟩ := h.cursors
  by_cases hshort : s.dec.r < 2
  · rw [decRef, decRef, if_pos hshort, if_pos (hr ▸ hshort)]
    exact .raised _ _ h.kept
  · have hstart : InStep p (refStart l o s) (refStart l o u) :=
      h.withDec ⟨congrArg (· - 2) hr, hw, hk, hbase, houtLen, hctrl, Nat.le_trans (Nat.sub_le ..) hread, hwrite⟩
        rfl rfl
    rw [decRef_eq_copyBack (by omega), decRef_eq_copyBack (by omega), ← hw]
    exact copyBack_inStep _ hstart rfl

/-- The next flag is read only where flags remain (rule R170). -/
theorem tokenSlot_of_inStep : tokenSlot u = tokenSlot s := by
  have hk := h.cursors.k
  by_cases h0 : s.dec.k = 0
  · rw [tokenSlot_of_empty h0, tokenSlot_of_empty (hk ▸ h0)]
  · rw [tokenSlot, tokenSlot, nextFlag, nextFlag, ← hk, h.cursors.ctrl h0]

theorem tokenState_inStep : InStep p (tokenState s) (tokenState u) := by
  obtain ⟨hr, hw, hk, hbase, houtLen, hctrl, hread, hwrite⟩ := h.cursors
  by_cases h0 : s.dec.k = 0
  · rw [tokenState_of_empty h0, tokenState_of_empty (hk ▸ h0)]
    exact h
  · rw [tokenState_of_flag (Nat.pos_of_ne_zero h0), tokenState_of_flag (Nat.pos_of_ne_zero (hk ▸ h0))]
    refine h.withDec ⟨hr, hw, congrArg (· - 1) hk, hbase, houtLen, fun _ => ?_, hread, hwrite⟩ rfl rfl
    rw [hctrl h0]

end Loop

theorem tokenSlot_cases (s : State) : tokenSlot s = .ctrl ∨ tokenSlot s = .lit ∨ tokenSlot s = .ref := by
  unfold tokenSlot
  split
  · exact .inl rfl
  split
  · exact .inr (.inr rfl)
  · exact .inr (.inl rfl)

/-- The bytes at the token position always decode, and to a token (rules R80, R170). -/
theorem decode_of_token {p : Slot} {bs : Bytes} (hp : p = .ctrl ∨ p = .lit ∨ p = .ref) (hlen : p.size ≤ bs.length) :
    (∃ f, decode p bs = .ok (.ctrl f, bs.drop p.size)) ∨ (∃ b, decode p bs = .ok (.lit b, bs.drop p.size)) ∨
      ∃ l o, decode p bs = .ok (.ref l o, bs.drop p.size) := by
  obtain rfl | rfl | rfl := hp
  · exact .inl ⟨_, if_neg (Nat.not_lt.mpr hlen)⟩
  · exact .inr (.inl ⟨_, if_neg (Nat.not_lt.mpr hlen)⟩)
  · exact .inr (.inr ⟨_, _, if_neg (Nat.not_lt.mpr hlen)⟩)

/-- A token whose bytes could be fetched is executed (rule R80). -/
theorem decodeToken_of_room {s : State} {bs rest : Bytes} {i : Instr} (hw : s.dec.w ≠ 0)
    (hr : (tokenSlot s).size ≤ s.dec.r)
    (hslice : (oBuf s).slice (s.dec.base + (s.dec.r - (tokenSlot s).size)) (tokenSlot s).size = some bs)
    (hdecode : decode (tokenSlot s) bs = .ok (i, rest)) : decodeToken s = runToken i (tokenState s) := by
  simp [decodeToken, fetchToken, hw, Nat.not_lt.mpr hr, hslice, hdecode]

theorem decodeToken_of_short {s : State} (hw : s.dec.w ≠ 0) (hr : s.dec.r < (tokenSlot s).size) :
    decodeToken s = .raised .outOfBounds (fetchInfo s (tokenSlot s).size) (tokenState s) := by
  simp [decodeToken, fetchToken, hw, hr]

/-- One turn of the loop: the bytes of a token lie in the decoded region, so they exist and decode. -/
theorem decodeToken_inStep {p s u : State} (h : InStep p s u) (hw : s.dec.w ≠ 0) :
    EndInStep p (decodeToken s) (decodeToken u) := by
  have hslot := tokenSlot_of_inStep h
  have hstate := tokenState_inStep h
  have hregion := h.region
  have hread := h.cursors.readInside
  have hw' : u.dec.w ≠ 0 := h.cursors.w ▸ hw
  by_cases hr : s.dec.r < (tokenSlot s).size
  · rw [decodeToken_of_short hw hr, decodeToken_of_short hw' (by rw [hslot, ← h.cursors.r]; exact hr)]
    exact .raised _ _ hstate.kept
  · obtain ⟨bs, hslice, hlen⟩ : ∃ bs,
        (oBuf s).slice (s.dec.base + (s.dec.r - (tokenSlot s).size)) (tokenSlot s).size = some bs ∧
          (tokenSlot s).size ≤ bs.length :=
      ⟨_, Buffer.slice_eq (by rw [oBuf_of_strict h.strict]; omega), (cellsSlice_length ..).ge⟩
    have hslice' : (oBuf u).slice (u.dec.base + (u.dec.r - (tokenSlot u).size)) (tokenSlot u).size = some bs := by
      rw [oBuf_of_strict h.strict', hslot, ← h.out, ← h.cursors.base, ← h.cursors.r, ← oBuf_of_strict h.strict]
      exact hslice
    have hw1 : (tokenState s).dec.w ≠ 0 := by rw [(tokenState_eq s).1]; exact hw
    have hrun {i : Instr} {rest : Bytes} (hdecode : decode (tokenSlot s) bs = .ok (i, rest))
        (hi : EndInStep p (runToken i (tokenState s)) (runToken i (tokenState u))) :
        EndInStep p (decodeToken s) (decodeToken u) := by
      rw [decodeToken_of_room hw (Nat.le_of_not_lt hr) hslice hdecode,
        decodeToken_of_room hw' (by rw [hslot, ← h.cursors.r]; omega) hslice' (hslot ▸ hdecode)]
      exact hi
    obtain ⟨f, hctrl⟩ | ⟨b, hlit⟩ | ⟨l, o, href⟩ := decode_of_token (tokenSlot_cases s) hlen
    · exact hrun hctrl (decCtrl_inStep hstate f)
    · exact hrun hlit (decLit_inStep hstate b hw1)
    · exact hrun href (decRef_inStep hstate l o)

theorem tokenLoop_inStep {p : State} (fuel : Nat) :
    ∀ {s u : State}, InStep p s u → EndInStep p (tokenLoop fuel s) (tokenLoop fuel u) := by
  induction fuel with
  | zero =>
    intro s u h
    rw [tokenLoop, tokenLoop, ← h.cursors.w]
    split
    · exact .ok h
    next hw => exact decodeToken_inStep h hw
  | succ n ih =>
    intro s u h
    rw [tokenLoop, tokenLoop, ← h.cursors.w]
    split
    · exact .ok h
    next hw => exact (decodeToken_inStep h hw).andThen fun _ _ => ih

/-! ### FTR on one block (rules R151 to R158) -/

/-- Two strict decodes of one block under the same parameters. -/
structure SameBlock (s u : State) : Prop where
  strict : s.cmd.op ≠ .blzDecompressP
  strict' : u.cmd.op ≠ .blzDecompressP
  inp : s.mem.inp = u.mem.inp
  hdrMax : s.cmd.hdrMax = u.cmd.hdrMax
  maxLen : s.cmd.maxLen = u.cmd.maxLen

/-- FTR's two verdicts: both accept, with the same registers, and a proper footer delimits the decoded region inside the
output; or both refuse. -/
inductive SameVerdict : Ctl → Ctl → Prop
  | accepted {t v : State} (hftr : t.ftr = v.ftr)
      (hregion : t.ftr.degenerate = false → t.ftr.prefixLen + t.ftr.outLen = blockLen t + t.ftr.extraSize.toNat ∧
        t.ftr.readStart ≤ t.ftr.outLen) : SameVerdict (.ok t) (.ok v)
  | refused (i j : Info) (t v : State) :
      SameVerdict (.raised .malformedFooter i t) (.raised .malformedFooter j v)

theorem blockBuf_of_strict {s : State} (hop : s.cmd.op ≠ .blzDecompressP) : blockBuf s = s.mem.inp := if_neg hop

theorem blockLen_of_strict {s : State} (hop : s.cmd.op ≠ .blzDecompressP) : blockLen s = s.mem.inp.len := if_neg hop

section Verdict
variable {s u : State} (h : SameBlock s u)
include h

theorem blockLen_of_sameBlock : blockLen u = blockLen s := by
  rw [blockLen_of_strict h.strict, blockLen_of_strict h.strict', h.inp]

/-- FTR's tests read the block's length, the three words and the parameters alone. -/
theorem footerTests_sameVerdict (htotal : s.ftr.totalSize = u.ftr.totalSize)
    (hheader : s.ftr.headerLen = u.ftr.headerLen) (hextra : s.ftr.extraSize = u.ftr.extraSize) :
    SameVerdict (footerTests s) (footerTests u) := by
  have hmax (n : Nat) : belowMax u n = belowMax s n := by simp only [belowMax, h.maxLen]
  unfold footerTests
  dsimp only
  simp only [blockLen_of_sameBlock h, ← htotal, ← hheader, ← hextra, ← h.hdrMax, hmax]
  split
  · split
    · exact .accepted (by simp [footerDone, htotal, hheader, hextra]) fun hd => by cases hd
    · exact .refused ..
  split
  · exact .refused ..
  next htotalLe =>
  split
  · exact .refused ..
  next hheaderIn =>
  split
  · refine .accepted (by simp [footerDone, htotal, hheader, hextra]) fun _ => ?_
    show blockLen s - _ + (_ + _) = blockLen s + s.ftr.extraSize.toNat ∧ _ - _ ≤ _ + _
    omega
  · exact .refused ..

theorem footer_sameVerdict : SameVerdict (footer s) (footer u) := by
  have hlen := blockLen_of_sameBlock h
  by_cases hshort : blockLen s < 12
  · rw [footer_of_short hshort, footer_of_short (hlen ▸ hshort)]
    exact .refused ..
  · have hbuf : blockBuf u = blockBuf s := by
      rw [blockBuf_of_strict h.strict, blockBuf_of_strict h.strict', h.inp]
    have hloaded : SameBlock (loadWords s) (loadWords u) := ⟨h.strict, h.strict', h.inp, h.hdrMax, h.maxLen⟩
    rw [footer_of_room (Nat.le_of_not_lt hshort), footer_of_room (by omega)]
    refine footerTests_sameVerdict hloaded ?_ ?_ ?_ <;> simp [loadWords, hlen, hbuf]

end Verdict

/-! ### The whole decode (rules R165 to R180) -/

/-- How two strict decodes of one block end: with the same output, or with the same malformed-input kind. -/
inductive SameDecode (p : State) : Ctl → Ctl → Prop
  | decoded {t v : State} (hkept : KeepsCommand p t) (hout : t.mem.out = v.mem.out) (herr : v.status.err = .ok) :
      SameDecode p (.ok t) (.ok v)
  | refused {k : ErrKind} {i j : Info} {t v : State} (hkept : KeepsCommand p t)
      (hkind : k = .malformedFooter ∨ k = .outOfBounds) : SameDecode p (.raised k i t) (.raised k j v)

theorem SameButFtr.keepsCommand {s t : State} (h : SameButFtr s t) : KeepsCommand s t :=
  ⟨h.cmd, by rw [h]⟩

section StrictParts
variable {s : State} (hop : s.cmd.op ≠ .blzDecompressP)
include hop

theorem allocate_of_strict :
    allocate s = s.withOut ⟨blockLen s + s.ftr.extraSize.toNat, s.mem.inp.cells⟩ := if_neg hop

theorem degenerateDone_of_strict :
    degenerateDone s = ((s.withDec { s.dec with run := .done }).withStatus
      { s.status with err := .ok, degenerate := true, outLen := 0 }).withOut ⟨0, []⟩ := if_neg hop

theorem capacityTest_of_strict : capacityTest s = .ok s := capacityTest_of_fits fun h => absurd h hop

end StrictParts

/-- DEC's initialisation on the same registers of FTR (rule R168). -/
theorem startDecode_inStep {p s u : State} (h : SameBlock s u) (hkept : KeepsCommand p s) (hftr : s.ftr = u.ftr)
    (hregion : s.ftr.prefixLen + s.ftr.outLen = blockLen s + s.ftr.extraSize.toNat ∧ s.ftr.readStart ≤ s.ftr.outLen) :
    InStep p (startDecode s) (startDecode u) := by
  obtain ⟨hend, hread⟩ := hregion
  have hcursors : SameCursors (startDecode s).dec (startDecode u).dec :=
    ⟨congrArg FtrRegs.readStart hftr, congrArg FtrRegs.outLen hftr, rfl, congrArg FtrRegs.prefixLen hftr,
      congrArg FtrRegs.outLen hftr, fun hk => absurd rfl hk, hread, Nat.le_refl _⟩
  have hout : (startDecode s).mem.out = (startDecode u).mem.out := by
    simp [startDecode, allocate_of_strict h.strict, allocate_of_strict h.strict', blockLen_of_sameBlock h, hftr, h.inp]
  rw [startDecode, startDecode, allocate_of_strict h.strict, allocate_of_strict h.strict'] at hcursors hout ⊢
  exact ⟨⟨hkept.cmd, hkept.kip⟩, h.strict, h.strict', hcursors, hout, hend.le⟩

/-- Everything after FTR. -/
theorem decodeBody_sameDecode {p s u : State} (h : SameBlock s u) (hkept : KeepsCommand p s) (hftr : s.ftr = u.ftr)
    (hregion : s.ftr.degenerate = false → s.ftr.prefixLen + s.ftr.outLen = blockLen s + s.ftr.extraSize.toNat ∧
      s.ftr.readStart ≤ s.ftr.outLen) : SameDecode p (decodeBody s) (decodeBody u) := by
  unfold decodeBody
  rw [← hftr]
  split
  · rw [degenerateDone_of_strict h.strict, degenerateDone_of_strict h.strict']
    exact .decoded ⟨hkept.cmd, hkept.kip⟩ rfl rfl
  next hproper =>
    have hloop := tokenLoop_inStep s.ftr.readStart (startDecode_inStep h hkept hftr (hregion (by simpa using hproper)))
    generalize tokenLoop s.ftr.readStart (startDecode s) = c at hloop ⊢
    generalize tokenLoop s.ftr.readStart (startDecode u) = d at hloop ⊢
    cases hloop with
    | ok hstep => exact .decoded ⟨hstep.kept.cmd, hstep.kept.kip⟩ hstep.out rfl
    | raised i j hkept => exact .refused hkept (.inr rfl)

/-- Strict decoding is a function of the block and the parameters, and never faults. -/
theorem decodeBlock_sameDecode {s u : State} (h : SameBlock s u) : SameDecode s (decodeBlock s) (decodeBlock u) := by
  have hs := footer_keepsAllButFtr s
  have hu := footer_keepsAllButFtr u
  have hverdict := footer_sameVerdict h
  unfold decodeBlock
  generalize footer s = c at hs hverdict ⊢
  generalize footer u = d at hu hverdict ⊢
  cases hverdict with
  | @accepted t v hftr hregion =>
    replace hs : SameButFtr s t := hs
    replace hu : SameButFtr u v := hu
    have hblock : SameBlock t v := by
      constructor <;> simp only [hs.cmd, hu.cmd, hs.mem, hu.mem]
      exacts [h.strict, h.strict', h.inp, h.hdrMax, h.maxLen]
    rw [Ctl.andThen_ok, Ctl.andThen_ok, capacityTest_of_strict hblock.strict, capacityTest_of_strict hblock.strict']
    exact decodeBody_sameDecode hblock hs.keepsCommand hftr hregion
  | refused i j t v =>
    obtain ⟨-, hs⟩ := hs
    exact .refused hs.keepsCommand (.inl rfl)

end Sys2Proof.Machine
end

section
/-! The segments in index order, and `KIP.PARSE` of a file that holds them all (rules R201 to R209). -/

namespace Sys2Proof.Machine

/-! ### The segments in index order (rules R203, R211) -/

/-- What every segment keeps, its index counted, holds after a run of them: for `KIP.PARSE` and for `KIP.BUILD`, whose
loops differ in how they end (`one` on a segment, `all` on a list of them). -/
theorem segments_invariant {σ : Type} {one : Fin 6 → σ → σ → Prop} {all : List (Fin 6) → σ → σ → Prop}
    (hnil : ∀ s, all [] s s) (hcons : ∀ {i l s t u}, one i s t → all l t u → all (i :: l) s u) {P : Nat → σ → Prop}
    (hstep : ∀ i s, P i.val s → ∃ t, one i s t ∧ P (i.val + 1) t) :
    ∀ (l : List (Fin 6)) (n : Nat) (s : σ), l.map Fin.val = List.range' n l.length → P n s →
      ∃ t, all l s t ∧ P (n + l.length) t := by
  intro l
  induction l with
  | nil => exact fun n s _ h => ⟨s, hnil s, h⟩
  | cons i l ih =>
    intro n s hl h
    obtain ⟨rfl, hl⟩ := List.cons.inj hl
    obtain ⟨t, ht, hnext⟩ := hstep i s h
    obtain ⟨u, hu, hend⟩ := ih _ t hl hnext
    refine ⟨u, hcons ht hu, ?_⟩
    rwa [List.length_cons, Nat.add_comm l.length, ← Nat.add_assoc]

/-! ### The extents (rule R203) -/

theorem segStart_succ (h : KipHeader) (i : Fin 6) :
    segStart h (i.val + 1) = segStart h i.val + (h.seg[i]).compressedSize.toNat := by
  have hi : i.val < h.seg.toList.length := by simp
  simp only [segStart, List.take_add_one, List.getElem?_eq_getElem hi, List.map_append, List.sum_append]
  simp [Nat.add_assoc]

theorem segStart_le (h : KipHeader) (i : Nat) : segStart h i ≤ segStart h 6 := by
  have hall : h.seg.toList.take 6 = h.seg.toList := List.take_of_length_le (by simp)
  rw [segStart, segStart, hall]
  refine Nat.add_le_add_left ?_ 256
  exact ((List.take_sublist i _).map _).sum_le_sum fun _ _ => Nat.zero_le _

/-! ### One segment (rules R204 to R208) -/

/-- What is recorded of a segment whose stored bytes `BLZ.DECOMPRESS.S` is given on their own (rules R205 to R207). -/
def DecodedAlone (s : State) (desc : SegDesc) (stored : Bytes) (d : Option Bytes) (st : SegStat) : Prop :=
  ∃ u, exec .blzDecompressS (giveInput stored s) = .next u ∧
    (u.status.err = .ok → d = some u.mem.out.toBytes ∧
      st = if u.mem.out.len = desc.decompressedSize.toNat then .decoded else .sizeMismatch) ∧
    (u.status.err = .malformedFooter → d = none ∧ st = .failed .malformedFooter) ∧
    (u.status.err = .outOfBounds → d = none ∧ st = .failed .outOfBounds)

/-- What `KIP.PARSE` records of segment `i` from its stored bytes (rule R204). -/
def SegmentRecord (s : State) (h : KipHeader) (i : Fin 6) (stored : Bytes) (d : Option Bytes) (st : SegStat) : Prop :=
  if (h.seg[i]).compressedSize = 0 then st = .absent ∧ d = some []
  else if i.val < 3 ∧ h.flags.getLsbD i.val = true then DecodedAlone s h.seg[i] stored d st
  else st = .verbatim ∧ d = some stored

/-- The state after the first `n` segments. -/
structure ParsedUpTo (s : State) (n : Nat) (t : State) : Prop where
  mem : t.mem = s.mem
  cmd : t.cmd = { s.cmd with op := .kipParse }
  hdr : t.kip.hdr = readHeader s.mem.inp
  pos : t.kip.pos = segStart (readHeader s.mem.inp) n
  segments : ∀ j : Fin 6, j.val < n → ∃ stored,
    s.mem.inp.slice (segStart (readHeader s.mem.inp) j.val) ((readHeader s.mem.inp).seg[j]).compressedSize.toNat
      = some stored ∧
    SegmentRecord s (readHeader s.mem.inp) j stored t.kip.data[j] t.kip.segstat[j]

/-- `KIP.pos` moved behind segment `i` (rule R203). -/
def pastSegment (i : Fin 6) (t : State) : State :=
  t.withKip { t.kip with pos := t.kip.pos + (t.kip.hdr.seg[i]).compressedSize.toNat }

/-- Recording the next segment, with `KIP.pos` moved behind it. -/
theorem ParsedUpTo.record {s t u : State} {i : Fin 6} {stored : Bytes} {d : Option Bytes} {st : SegStat}
    (h : ParsedUpTo s i.val t)
    (hslice : t.mem.inp.slice t.kip.pos (t.kip.hdr.seg[i]).compressedSize.toNat = some stored)
    (hmem : u.mem = t.mem) (hcmd : u.cmd = t.cmd) (hkip : u.kip = (pastSegment i t).kip)
    (hrecord : SegmentRecord s t.kip.hdr i stored d st) : ParsedUpTo s (i.val + 1) (setSegment i d st u) := by
  obtain ⟨-, hdata, hstat, hother⟩ := setSegment_spec i d st u
  refine ⟨hmem.trans h.mem, hcmd.trans h.cmd, ?_, ?_, fun j hj => ?_⟩
  · exact (congrArg KipRegs.hdr hkip).trans h.hdr
  · rw [segStart_succ, ← h.pos, ← h.hdr]
    exact congrArg KipRegs.pos hkip
  · by_cases hji : j = i
    · subst hji
      rw [h.mem, h.pos, h.hdr] at hslice
      rw [hdata, hstat]
      exact ⟨stored, hslice, h.hdr ▸ hrecord⟩
    · obtain ⟨hdata, hstat⟩ := hother j hji
      rw [hdata, hstat, hkip]
      exact h.segments j (by omega)

theorem segCompressed_eq_true_iff {flags : Byte} {i : Nat} :
    segCompressed flags i = true ↔ i < 3 ∧ flags.getLsbD i = true := by
  simp [segCompressed, segFlag]

/-- The decode inside `KIP.PARSE` and the command on the same bytes (rules R205 to R208). -/
theorem decodeSegment_decodedAlone {s t : State} (i : Fin 6) (stored : Bytes)
    (hcmd : t.cmd = { s.cmd with op := .kipParse }) :
    ∃ u d st, decodeSegment i stored t = .ok (setSegment i d st u) ∧ u.mem = t.mem ∧ u.cmd = t.cmd ∧ u.kip = t.kip ∧
      DecodedAlone s t.kip.hdr.seg[i] stored d st := by
  have hblock : SameBlock (enterDecode stored t) (startCommand .blzDecompressS (giveInput stored s)) := by
    constructor <;> simp [enterDecode, giveInput, hcmd]
  have hdecode := decodeBlock_sameDecode hblock
  simp only [DecodedAlone, exec_blzDecompressS, decodeSegment]
  generalize decodeBlock (enterDecode stored t) = c at hdecode ⊢
  generalize decodeBlock (startCommand .blzDecompressS (giveInput stored s)) = c' at hdecode ⊢
  cases hdecode with
  | @decoded v w hkept hout herr =>
    refine ⟨_, _, _, rfl, rfl, hkept.cmd, hkept.kip, w, rfl, fun _ => ?_, ?_⟩
    · rw [hout, Buffer.toBytes_length]
      exact ⟨rfl, rfl⟩
    · simp [herr]
  | @refused k j j' v w hkept hkind =>
    refine ⟨_, _, _, rfl, rfl, hkept.cmd, hkept.kip, takeRaise k j' w, rfl, ?_⟩
    obtain rfl | rfl := hkind <;> simp [decErrOf, freeStatus]

/-- One segment of a file that holds it. -/
theorem parseSegment_parsed {s t : State} {i : Fin 6} (hroom : segStart (readHeader s.mem.inp) 6 ≤ s.mem.inp.len)
    (h : ParsedUpTo s i.val t) : ∃ u, parseSegment i t = .ok u ∧ ParsedUpTo s (i.val + 1) u := by
  have hend := Nat.le_trans (segStart_le (readHeader s.mem.inp) (i.val + 1)) hroom
  rw [segStart_succ, ← h.pos, ← h.hdr, ← h.mem] at hend
  have hslice := Buffer.slice_eq hend
  obtain ⟨h0, hparse⟩ | ⟨-, hcut, -⟩ | ⟨h0, -, hflag, hparse⟩ | ⟨h0, -, hflag, hparse⟩ := parseSegment_cases i t
  · have hkip : t.kip = (pastSegment i t).kip := by rw [pastSegment, h0]; rfl
    refine ⟨_, hparse, h.record hslice rfl rfl hkip ?_⟩
    rw [SegmentRecord, if_pos (BitVec.eq_of_toNat_eq h0)]
    exact ⟨rfl, rfl⟩
  · omega
  · obtain ⟨u, d, st, hdecode, hmem, hcmd, hkip, halone⟩ :=
      decodeSegment_decodedAlone (s := s) (t := pastSegment i t) i _ h.cmd
    refine ⟨_, hparse.trans hdecode, h.record hslice hmem hcmd hkip ?_⟩
    rw [SegmentRecord, if_neg (mt (congrArg BitVec.toNat) h0), if_pos (segCompressed_eq_true_iff.mp hflag)]
    exact halone
  · refine ⟨_, hparse, h.record (u := pastSegment i t) hslice rfl rfl rfl ?_⟩
    rw [SegmentRecord, if_neg (mt (congrArg BitVec.toNat) h0),
      if_neg (by rw [← segCompressed_eq_true_iff, hflag]; simp)]
    exact ⟨rfl, rfl⟩

/-! ### The command -/

/-- A file with a whole header and the magic passes the checks (rules R201, R202). -/
theorem parseHeader_of_magic {s : State} (hlen : 256 ≤ s.mem.inp.len)
    (hmagic : (readHeader s.mem.inp).magic = Config.kipMagic) :
    parseHeader s = .ok (s.withKip { s.kip with hdr := readHeader s.mem.inp, pos := 256 }) := by
  have hword : ¬ BitVec.ofNat 32 (s.mem.inp.read 0 4) ≠ Config.kipMagic := not_not.mpr hmagic
  simp only [parseHeader, Config.kipHdrLen]
  rw [if_neg (by omega), if_neg hword, if_neg (by omega)]

theorem exec_kipParse_of_parts {s t u : State} (hmax : ∀ m, s.cmd.maxLen = some m → s.mem.inp.len < m)
    (hheader : parseHeader (startCommand .kipParse s) = .ok t)
    (hsegments : parseSegments (List.finRange 6) t = .ok u) : exec .kipParse s = .next (parseDone u) := by
  have hexec : exec .kipParse s = execKipParse s := rfl
  rw [hexec, execKipParse, if_pos (belowMax_iff.mpr hmax), hheader, Ctl.andThen_ok, hsegments]
  rfl

/-- The segments of a file that holds them all. -/
theorem parseSegments_parsed {s t : State} (hroom : segStart (readHeader s.mem.inp) 6 ≤ s.mem.inp.len)
    (h : ParsedUpTo s 0 t) : ∃ u, parseSegments (List.finRange 6) t = .ok u ∧ ParsedUpTo s 6 u :=
  segments_invariant (one := fun i s t => parseSegment i s = .ok t) (all := fun l s t => parseSegments l s = .ok t)
    (fun _ => rfl) (fun hone hall => by rw [parseSegments, hone, Ctl.andThen_ok, hall])
    (fun _ _ => parseSegment_parsed hroom) (List.finRange 6) 0 t rfl h

/-- Settles O54: the header passes, and each segment is recorded as `SegmentRecord` says (`parseSegment_parsed`); that a
decode inside the command ends as the command on its bytes does is `decodeBlock_sameDecode`. -/
theorem parseSplitsFile : Obligations.ParseSplitsFile := by
  intro s hmax hlen hmagic hroom h
  obtain ⟨u, hheader, hstart⟩ : ∃ u, parseHeader (startCommand .kipParse s) = .ok u ∧ ParsedUpTo s 0 u :=
    ⟨_, parseHeader_of_magic hlen hmagic, rfl, rfl, rfl, rfl, fun j hj => absurd hj (Nat.not_lt_zero _)⟩
  obtain ⟨t, hsegments, hparsed⟩ := parseSegments_parsed hroom hstart
  have htrailing : s.mem.inp.slice (segStart h 6) (s.mem.inp.len - segStart h 6) = some (parseDone t).kip.trailing := by
    have hrest : segStart h 6 + (s.mem.inp.len - segStart h 6) ≤ s.mem.inp.len := (Nat.add_sub_of_le hroom).le
    simp only [Buffer.slice_eq hrest, parseDone, hparsed.mem, hparsed.pos]
    rfl
  exact ⟨_, exec_kipParse_of_parts hmax hheader hsegments, rfl, hparsed.mem, hparsed.hdr, hparsed.pos, htrailing,
    fun i => hparsed.segments i i.isLt⟩

end Sys2Proof.Machine
end

section
/-! The block ENC makes is a function of the data, of `CMD.best` and of `MATCH_OVERLAP`: the registers an earlier run
left and the values drawn for a register that holds none reach no byte of it (rules R28, R120 to R139).  So the block
inside `KIP.BUILD` is that of `BLZ.COMPRESS` on the same data. -/

namespace Sys2Proof.Machine

/-- ENC's registers agree as far as a later item or the block reads them: the flag index only while a group is open, the
search registers not at all. -/
structure SameScan (e f : EncRegs) : Prop where
  n : e.n = f.n
  i : e.i = f.i
  cnt : e.cnt = f.cnt
  stream : e.stream = f.stream
  pakBest : e.pakBest = f.pakBest
  rawBest : e.rawBest = f.rawBest
  flg : e.cnt ≠ 0 → e.flg = f.flg

/-- `SEARCH` draws no free value (rule R123). -/
theorem searchFrom_epoch (x : EncInput) (epoch i count : Nat) : ∀ (pos : Nat) (best : Nat × Nat),
    searchFrom { x with epoch := epoch } i count pos best = searchFrom x i count pos best := by
  induction count with
  | zero => exact fun _ _ => rfl
  | succ count ih =>
    intro pos best
    simp only [searchFrom, ih]

theorem search_epoch (x : EncInput) (epoch i : Nat) : search { x with epoch := epoch } i = search x i :=
  searchFrom_epoch ..

section Item
variable {x : EncInput} {e f : EncRegs} (epoch : Nat)

theorem openGroup_sameScan (h : SameScan e f) :
    SameScan (openGroup e) (openGroup f) ∧ (openGroup e).flg = (openGroup f).flg := by
  obtain ⟨hn, hi, hcnt, hstream, hpak, hraw, hflg⟩ := h
  unfold openGroup
  rw [← hcnt]
  split
  · exact ⟨⟨hn, hi, rfl, by rw [hstream], hpak, hraw, fun _ => by rw [hstream]⟩, by rw [hstream]⟩
  next hopen => exact ⟨⟨hn, hi, hcnt, hstream, hpak, hraw, hflg⟩, hflg hopen⟩

/-- The choice reads the position alone; the offset is drawn only where there is no match (rules R126 to R128). -/
theorem choose_epoch (hn : e.n = f.n) (hi : e.i = f.i) :
    (choose x e).bestLen = (choose { x with epoch := epoch } f).bestLen ∧
      (2 < (choose x e).bestLen → (choose x e).bestOff = (choose { x with epoch := epoch } f).bestOff) := by
  have hdegrades : Degrades { x with epoch := epoch } f ↔ Degrades x e := by
    simp only [Degrades, search_epoch, hn, hi]
  by_cases h : Degrades x e
  · rw [choose_of_degrades h, choose_of_degrades (hdegrades.mpr h)]
    exact ⟨rfl, fun hlong => by omega⟩
  · obtain ⟨hlen, hoff⟩ := choose_of_not_degrades h
    obtain ⟨hlen', hoff'⟩ := choose_of_not_degrades (mt hdegrades.mp h)
    rw [search_epoch, ← hi] at hlen' hoff'
    rw [hlen, hlen']
    exact ⟨rfl, fun hlong => (hoff hlong).trans (hoff' hlong).symm⟩

/-- Choosing touches nothing that the block is made of. -/
theorem choose_sameScan (h : SameScan e f) :
    SameScan (choose x e) (choose { x with epoch := epoch } f) := by
  rw [choose_spec, choose_spec { x with epoch := epoch } f]
  exact ⟨h.n, h.i, h.cnt, h.stream, h.pakBest, h.rawBest, h.flg⟩

theorem choose_flg (x : EncInput) (e : EncRegs) : (choose x e).flg = e.flg := by rw [choose_spec]

theorem emitItem_sameScan (h : SameScan e f) (hflg : e.flg = f.flg) (hlen : e.bestLen = f.bestLen)
    (hoff : 2 < e.bestLen → e.bestOff = f.bestOff) :
    SameScan (emitItem x e) (emitItem { x with epoch := epoch } f) := by
  unfold emitItem
  rw [← hlen, ← h.i, ← h.cnt, ← h.stream, ← hflg]
  split
  next hlong => exact ⟨h.n, rfl, rfl, by rw [hoff hlong], h.pakBest, h.rawBest, fun _ => rfl⟩
  next => exact ⟨h.n, rfl, rfl, rfl, h.pakBest, h.rawBest, fun _ => rfl⟩

theorem track_sameScan (h : SameScan e f) : SameScan (track e) (track f) := by
  obtain ⟨hn, hi, hcnt, hstream, hpak, hraw, hflg⟩ := h
  unfold track
  rw [← hstream, ← hn, ← hi, ← hpak, ← hraw]
  split
  · exact ⟨rfl, rfl, hcnt, rfl, rfl, rfl, hflg⟩
  · exact ⟨hn, hi, hcnt, hstream, hpak, hraw, hflg⟩

/-- One item of two scans of the same data (rules R128, R129, R132). -/
theorem encodeItem_sameScan (h : SameScan e f) :
    SameScan (encodeItem x e) (encodeItem { x with epoch := epoch } f) := by
  obtain ⟨hopen, hflg⟩ := openGroup_sameScan h
  obtain ⟨hlen, hoff⟩ := choose_epoch (x := x) epoch hopen.n hopen.i
  exact track_sameScan (emitItem_sameScan epoch (choose_sameScan epoch hopen)
    (by rw [choose_flg, choose_flg, hflg]) hlen hoff)

end Item

theorem scan_sameScan (x : EncInput) (epoch fuel : Nat) :
    ∀ {e f : EncRegs}, SameScan e f → SameScan (scan x fuel e) (scan { x with epoch := epoch } fuel f) := by
  induction fuel with
  | zero => exact fun h => h
  | succ fuel ih =>
    intro e f h
    rw [scan, scan, ← h.n, ← h.i]
    split
    · exact ih (encodeItem_sameScan epoch h)
    · exact h

/-- Whatever ENC's registers held, its initialisation sets the ones that are read (rule R121). -/
theorem encodeRegs_sameScan (raw : Bytes) (best : Bool) {s u : State} (h : s.cmd.matchOverlap = u.cmd.matchOverlap) :
    SameScan (encodeRegs raw best s) (encodeRegs raw best u) := by
  unfold encodeRegs
  rw [h]
  exact scan_sameScan ⟨raw.reverse, best, u.cmd.matchOverlap, s.free⟩ u.free raw.length
    ⟨rfl, rfl, rfl, rfl, rfl, rfl, fun hopen => absurd rfl hopen⟩

/-- The block reads only what two scans share (rules R135 to R139). -/
theorem finishEncode_sameScan {raw : Bytes} {e f : EncRegs} (h : SameScan e f) :
    finishEncode raw e = finishEncode raw f := by
  have hpad : padOf e = padOf f := by simp only [padOf, h.pakBest, h.rawBest]
  have hlen : compressedLen e = compressedLen f := by simp only [compressedLen, hpad, h.pakBest, h.rawBest]
  have hform : chooseForm e = chooseForm f := by rw [chooseForm, chooseForm, h.pakBest, h.n, hlen]
  have hblock : compressedBlock raw e = compressedBlock raw f := by
    simp only [compressedBlock, encFooter, hpad, hlen, h.n, h.stream, h.pakBest, h.rawBest]
  rw [finishEncode, finishEncode, hform, hblock]

/-- `BLZ.COMPRESS` in best mode on data handed over as its input, next to a run of ENC inside another command. -/
theorem exec_blzCompress_giveInput {s t : State} {d : Bytes} (hoverlap : t.cmd.matchOverlap = s.cmd.matchOverlap)
    (hroom : ∀ m, s.cmd.maxLen = some m → d.length + 7 < m ∧ d.length + (d.length + 7) / 8 < m) :
    ∃ u, exec .blzCompress (setBest true (giveInput d s)) = .next u ∧
      u.mem.out.toBytes = finishEncode d (encodeRegs d true t) := by
  have hinp : (setBest true (giveInput d s)).mem.inp.toBytes = d := Buffer.toBytes_ofBytes d
  obtain ⟨u, hexec, -, -, -, -, hout, -⟩ := exec_blzCompress_of_fits (s := setBest true (giveInput d s))
    (hinp.symm ▸ encodeFits_of_room hroom)
  rw [hinp] at hout
  exact ⟨u, hexec, hout.trans (finishEncode_sameScan (encodeRegs_sameScan d true hoverlap.symm))⟩

end Sys2Proof.Machine
end

section
/-! `KIP.BUILD` (rules R211 to R217). -/

namespace Sys2Proof.Machine

/-! ### The flag bits (rules R211, R215) -/

/-- Bits 2 to 0 of the rewritten flags are those given, the others stay. -/
theorem getLsbD_rewriteFlags (flags : Byte) {bits : Nat} (h : bits < 2 ^ 3) (b : Nat) :
    (rewriteFlags flags bits).getLsbD b = if b < 3 then bits.testBit b else flags.getLsbD b := by
  have hword : flags.toNat - flags.toNat % 8 + bits = 2 ^ 3 * (flags.toNat / 2 ^ 3) + bits := by omega
  rw [rewriteFlags, hword, BitVec.getLsbD_ofNat, Nat.testBit_two_pow_mul_add _ h]
  by_cases hb : b < 3
  · simp [hb, Nat.lt_trans hb]
  · rw [if_neg hb, if_neg hb, Nat.testBit_div_two_pow, Nat.sub_add_cancel (Nat.le_of_not_lt hb)]
    by_cases h8 : b < 8
    · simp [h8, BitVec.testBit_toNat]
    · simp [h8, BitVec.getLsbD_of_ge flags b (Nat.le_of_not_lt h8)]

/-- One more flag bit above those so far. -/
theorem testBit_add_flag {bits i : Nat} (h : bits < 2 ^ i) (flag : Bool) (j : Nat) :
    (2 ^ i * flag.toNat + bits).testBit j = if j < i then bits.testBit j else flag.toNat.testBit (j - i) :=
  Nat.testBit_two_pow_mul_add _ h j

theorem add_flag_lt {bits i : Nat} (h : bits < 2 ^ i) (flag : Bool) : 2 ^ i * flag.toNat + bits < 2 ^ (i + 1) := by
  have hflag := Nat.mul_le_mul_left (2 ^ i) (Bool.toNat_le flag)
  rw [Nat.pow_succ]
  omega

theorem testBit_add_flag_self {bits i : Nat} (h : bits < 2 ^ i) (flag : Bool) :
    (2 ^ i * flag.toNat + bits).testBit i = flag := by
  rw [testBit_add_flag h, if_neg (Nat.lt_irrefl i), Nat.sub_self]
  cases flag <;> rfl

/-- Only the first three segments have a flag bit (rule R32). -/
theorem add_flag_lt_eight {bits i : Nat} {flag : Bool} (h : bits < 2 ^ i) (h8 : bits < 2 ^ 3)
    (hflag : flag = true → i < 3) : 2 ^ i * flag.toNat + bits < 2 ^ 3 := by
  cases flag with
  | false => simpa using h8
  | true => exact Nat.lt_of_lt_of_le (add_flag_lt h true) (Nat.pow_le_pow_right Nat.two_pos (hflag rfl))

/-! ### One segment (rules R211 to R213) -/

/-- What is stored of a segment with data `d`, and its flag bit: what `BLZ.COMPRESS` in best mode says (rules R212,
R213). -/
def SegmentStored (s : State) (bits : Nat) (i : Fin 6) (d stored : Bytes) : Prop :=
  if i.val < 3 then
    ∃ u, exec .blzCompress (setBest true (giveInput d s)) = .next u ∧
      stored = (if u.mem.out.len < d.length then u.mem.out.toBytes else d) ∧
      bits.testBit i.val = decide (u.mem.out.len < d.length)
  else stored = d

theorem SegmentStored.congr {s : State} {bits bits' : Nat} {i : Fin 6} {d stored : Bytes}
    (h : SegmentStored s bits i d stored) (hbit : bits'.testBit i.val = bits.testBit i.val) :
    SegmentStored s bits' i d stored := by
  rw [SegmentStored, hbit]
  exact h

/-- Every length of a run of ENC on `d` is below `MAX_LEN`. -/
def RoomFor (s : State) (d : Bytes) : Prop :=
  ∀ m, s.cmd.maxLen = some m → d.length + 7 < m ∧ d.length + (d.length + 7) / 8 < m

/-- The state after the first `n` segments, with the flag bits collected. -/
structure BuiltUpTo (s : State) (n bits : Nat) (t : State) : Prop where
  mem : t.mem = s.mem
  cmd : t.cmd = { s.cmd with op := .kipBuild }
  hdr : t.kip.hdr = s.kip.hdr
  data : t.kip.data = s.kip.data
  trailing : t.kip.trailing = s.kip.trailing
  bits_lt : bits < 2 ^ n
  bits_lt_eight : bits < 2 ^ 3
  segments : ∀ (j : Fin 6) (d : Bytes), j.val < n → s.kip.data[j] = some d →
    SegmentStored s bits j d t.kip.stored[j]

/-- Storing the next segment and collecting its flag bit. -/
theorem BuiltUpTo.record {s t u : State} {i : Fin 6} {bits : Nat} {flag : Bool} {d stored : Bytes}
    (h : BuiltUpTo s i.val bits t) (hmem : u.mem = t.mem) (hcmd : u.cmd = t.cmd) (hkip : u.kip = t.kip)
    (hdata : s.kip.data[i] = some d) (hflag : flag = true → i.val < 3)
    (hstored : SegmentStored s (2 ^ i.val * flag.toNat + bits) i d stored) :
    BuiltUpTo s (i.val + 1) (2 ^ i.val * flag.toNat + bits)
      (u.withKip { u.kip with stored := u.kip.stored.set i stored }) := by
  obtain ⟨htmem, htcmd, hhdr, htdata, htrailing, hlt, hlt8, hsegments⟩ := h
  refine ⟨hmem.trans htmem, hcmd.trans htcmd, by simp [hkip, hhdr], by simp [hkip, htdata], by simp [hkip, htrailing],
    add_flag_lt hlt flag, add_flag_lt_eight hlt hlt8 hflag, fun j d' hj hd' => ?_⟩
  by_cases hji : j = i
  · subst hji
    obtain rfl : d = d' := Option.some.inj (hdata.symm.trans hd')
    simpa using hstored
  · have hbelow : j.val < i.val := by omega
    have hkept : (u.kip.stored.set i.val stored)[j] = t.kip.stored[j] := by
      rw [hkip]
      exact Vector.getElem_set_ne _ _ (fun hij => hji (Fin.ext hij.symm))
    show SegmentStored s _ j d' (u.kip.stored.set i.val stored)[j]
    rw [hkept]
    exact (hsegments j d' hbelow hd').congr (by rw [testBit_add_flag hlt, if_pos hbelow])

/-- The block of segment data in best mode is kept: of one of the first three segments, and strictly shorter
(rule R212). -/
def keepsBlock (i : Fin 6) (d block : Bytes) : Bool := decide (i.val < 3 ∧ block.length < d.length)

/-- One segment of `KIP.BUILD` when no length reaches `MAX_LEN`: the flag bit and what is stored, and ENC touches no
buffer, operand or KIP register. -/
theorem buildSegment_of_fits {i : Fin 6} (bits : Nat) {t : State} {d block : Bytes} (hd : dataOf t.kip i = d)
    (hmax : belowMax t d.length = true) (hfits : encodeFits d true t = true)
    (hblock : finishEncode d (encodeRegs d true t) = block) :
    ∃ u : State, u.mem = t.mem ∧ u.cmd = t.cmd ∧ u.kip = t.kip ∧
      buildSegment i bits t = some (2 ^ i.val * (keepsBlock i d block).toNat + bits,
        u.withKip { u.kip with stored := u.kip.stored.set i (if keepsBlock i d block then block else d) }) := by
  obtain ⟨v, hrun, hmem, hcmd, hkip⟩ : ∃ v, compressInto d true t = some (finishEncode d (encodeRegs d true t), v) ∧
      v.mem = t.mem ∧ v.cmd = t.cmd ∧ v.kip = t.kip :=
    ⟨_, (compressInto_spec d true t).2 hfits, rfl, rfl, rfl⟩
  rw [hblock] at hrun
  by_cases henc : i.val < 3 ∧ 0 < d.length
  · refine ⟨v, hmem, hcmd, hkip, ?_⟩
    by_cases hshort : block.length < d.length
    · simp [buildSegment, keepsBlock, hd, hmax, henc, hrun, hshort, Nat.add_comm]
    · simp [buildSegment, keepsBlock, hd, hmax, henc, hrun, hshort]
  · refine ⟨t, rfl, rfl, rfl, ?_⟩
    have hraw : keepsBlock i d block = false := by
      simp only [keepsBlock, decide_eq_false_iff_not]
      omega
    simp [buildSegment, hraw, hd, hmax, henc]

/-- One segment of data with room. -/
theorem buildSegment_built {s t : State} {i : Fin 6} {bits : Nat} {d : Bytes} (hdata : s.kip.data[i] = some d)
    (hroom : RoomFor s d) (h : BuiltUpTo s i.val bits t) :
    ∃ bits' u, buildSegment i bits t = some (bits', u) ∧ BuiltUpTo s (i.val + 1) bits' u := by
  have hd : dataOf t.kip i = d := by simp [dataOf, h.data, hdata]
  have hroom' : RoomFor t d := fun m hm => hroom m (by simpa [h.cmd] using hm)
  have hmax : belowMax t d.length = true := belowMax_iff.mpr fun m hm => by have := hroom' m hm; omega
  obtain ⟨v, hexec, hout⟩ := exec_blzCompress_giveInput (t := t) (by rw [h.cmd]) hroom
  obtain ⟨u, hmem, hcmd, hkip, hbuild⟩ := buildSegment_of_fits bits hd hmax (encodeFits_of_room hroom') hout.symm
  refine ⟨_, _, hbuild, h.record hmem hcmd hkip hdata (fun hf => (of_decide_eq_true hf).1) ?_⟩
  unfold SegmentStored
  split
  next hi =>
    have hkeeps : keepsBlock i d v.mem.out.toBytes = decide (v.mem.out.len < d.length) := by
      simp [keepsBlock, hi]
    refine ⟨v, hexec, ?_, by rw [testBit_add_flag_self h.bits_lt, hkeeps]⟩
    rw [hkeeps]
    simp
  next hi => simp [keepsBlock, hi]

/-! ### The command -/

/-- The segments of a container with data and room for each. -/
theorem buildSegments_built {s t : State} (hdata : ∀ i : Fin 6, ∃ d, s.kip.data[i] = some d ∧ RoomFor s d)
    (h : BuiltUpTo s 0 0 t) :
    ∃ bits u, buildSegments (List.finRange 6) 0 t = some (bits, u) ∧ BuiltUpTo s 6 bits u := by
  obtain ⟨⟨bits, u⟩, hall, hbuilt⟩ := segments_invariant
    (one := fun i x y => buildSegment i x.1 x.2 = some y) (all := fun l x y => buildSegments l x.1 x.2 = some y)
    (P := fun n x => BuiltUpTo s n x.1 x.2) (fun _ => rfl)
    (fun hone hall => by rw [buildSegments, hone]; exact hall)
    (fun i x hx => by
      obtain ⟨d, hd, hroom⟩ := hdata i
      obtain ⟨bits, u, hbuild, hnext⟩ := buildSegment_built hd hroom hx
      exact ⟨(bits, u), hbuild, hnext⟩)
    (List.finRange 6) 0 (0, t) rfl h
  exact ⟨bits, u, hall, hbuilt⟩

theorem allData_of_ne_none {k : KipRegs} (h : ∀ i : Fin 6, k.data[i] ≠ none) : allData k = true := by
  refine List.all_eq_true.mpr fun d hd => ?_
  obtain ⟨i, hi, rfl⟩ := Vector.getElem_of_mem (Vector.mem_toList_iff.mp hd)
  exact Option.isSome_iff_ne_none.mpr (h ⟨i, hi⟩)

theorem exec_kipBuild_of_segments {s t : State} {bits : Nat} (hdata : allData s.kip = true)
    (hsegments : buildSegments (List.finRange 6) 0 (startCommand .kipBuild s) = some (bits, t)) :
    exec .kipBuild s = .next ((t.withHdr (buildHeader bits t.kip)).withStatus { t.status with err := .ok }) := by
  have hexec : exec .kipBuild s = execKipBuild s := rfl
  simp [hexec, execKipBuild, hdata, hsegments]

theorem sizeField_toNat {n : Nat} (h : n < 2 ^ 32) : (sizeField n).toNat = n := by
  rw [sizeField, if_pos h, BitVec.toNat_ofNat, Nat.mod_eq_of_lt h]

/-- Settles O56: each segment is stored as `SegmentStored` says (`buildSegment_built`), and the header takes the lengths
and the flag bits; that ENC inside the command makes the block of `BLZ.COMPRESS` is `finishEncode_sameScan`. -/
theorem buildStoresSegments : Obligations.BuildStoresSegments := by
  intro s hdata hroom
  have hready (i : Fin 6) : ∃ d, s.kip.data[i] = some d ∧ RoomFor s d := by
    obtain ⟨d, hd⟩ := Option.ne_none_iff_exists'.mp (hdata i)
    exact ⟨d, hd, fun m hm => hroom m i d hm hd⟩
  have hstart : BuiltUpTo s 0 0 (startCommand .kipBuild s) :=
    ⟨rfl, rfl, rfl, rfl, rfl, by decide, by decide, fun j _ hj => absurd hj (Nat.not_lt_zero _)⟩
  obtain ⟨bits, t, hsegments, hbuilt⟩ := buildSegments_built hready hstart
  refine ⟨_, exec_kipBuild_of_segments (allData_of_ne_none hdata) hsegments, rfl, hbuilt.mem, ?_, fun b hb => ?_,
    fun i d hd => ⟨?_, fun hlen => ?_, ?_⟩⟩
  · show { t.kip with hdr := buildHeader bits t.kip } = _
    simp [buildHeader, hbuilt.hdr, hbuilt.data, hbuilt.trailing]
  · show (rewriteFlags t.kip.hdr.flags bits).getLsbD b = _
    rw [getLsbD_rewriteFlags _ hbuilt.bits_lt_eight, if_neg (Nat.not_lt.mpr hb), hbuilt.hdr]
  · simp [buildHeader, hbuilt.hdr]
  · show (((buildHeader bits t.kip).seg)[i]).compressedSize.toNat = _
    simpa [buildHeader] using sizeField_toNat hlen
  · have hstored := hbuilt.segments i d i.isLt hd
    unfold SegmentStored at hstored
    split
    next hi =>
      rw [if_pos hi] at hstored
      obtain ⟨u, hexec, hblock, hbit⟩ := hstored
      refine ⟨u, hexec, hblock, ?_⟩
      show (rewriteFlags t.kip.hdr.flags bits).getLsbD i.val = _
      rw [getLsbD_rewriteFlags _ hbuilt.bits_lt_eight, if_pos hi, hbit]
    next hi =>
      rw [if_neg hi] at hstored
      exact hstored

end Sys2Proof.Machine
end

section
/-! Taking an error: what it writes and what survives it (rules R245, R246). -/

namespace Sys2Proof.Machine

/-- The container-level kinds, those after which no KIP register holds a value (rule R210). -/
theorem ErrKind.isContainer_iff {k : ErrKind} : k.isContainer = true ↔ k = .invalidMagic ∨ k = .truncated := by
  cases k <;> simp [ErrKind.isContainer]

/-- A raise inside the decode keeps the KIP registers (rules R210, R246). -/
theorem takeRaise_kip_of_not_container {k : ErrKind} (info : Info) (s : State) (hmagic : k ≠ .invalidMagic)
    (htruncated : k ≠ .truncated) : (takeRaise k info s).kip = s.kip := by
  have hkind : ¬ k.isContainer = true := fun h => (ErrKind.isContainer_iff.mp h).elim hmagic htruncated
  rw [takeRaise_kip, if_neg hkind]

/-- Only a running token loop in place loses bytes of `M` (rule R186). -/
theorem takeRaise_m_of_not_inPlaceLoop {s : State} (k : ErrKind) (info : Info)
    (h : ¬(s.dec.run = .run ∧ s.cmd.op = .blzDecompressP)) : (takeRaise k info s).mem.m = s.mem.m := by
  rw [takeRaise_mem_m, if_neg h]

/-- Settles O10: `STATUS` as written, DEC by `takeRaise_dec_eq`, the two cases of `DEC.run` by `decActive_iff`, and `M` by
`takeRaise_outside`; the registers and the input that no point of rule R245 names are those of `s`. -/
theorem raiseEndsCommand : Obligations.RaiseEndsCommand := by
  intro k info s
  obtain ⟨hdec, hatWork, hnotAtWork⟩ := takeRaise_dec_eq k info s
  refine ⟨rfl, rfl, hdec, fun hrun => ?faults, fun hrun hstrict hinPlace => ?keepsRun, rfl, rfl, rfl, rfl, rfl,
    takeRaise_kip_of_not_container info s, takeRaise_m_of_not_inPlaceLoop k info,
    fun hwf => ⟨takeRaise_wf hwf, takeRaise_outside k info hwf⟩⟩
  case faults => exact hatWork (decActive_iff.mpr (.inl hrun))
  case keepsRun =>
    have hidle : ¬ decActive s = true := fun h =>
      (decActive_iff.mp h).elim hrun fun hop => hop.elim hstrict hinPlace
    exact hnotAtWork (Bool.eq_false_of_not_eq_true hidle)

end Sys2Proof.Machine
end

section
/-! Decoder and encoder are inverse to each other at every position (rules R80 to R114). -/

namespace Sys2Proof

/-! ### One byte, one word -/

theorem leBytes_one (v : Nat) : leBytes 1 v = [BitVec.ofNat 8 v] := rfl

/-- The number a sequence of the right length makes is stored as that sequence. -/
theorem leBytes_leNat_of_length {a : Bytes} {n : Nat} (h : a.length = n) : leBytes n (leNat a) = a :=
  h ▸ leBytes_leNat a

/-- Bytes `n` and above of a number are those of its quotient. -/
theorem leBytes_add (m n : Nat) : ∀ v, leBytes (m + n) v = leBytes m v ++ leBytes n (v / 256 ^ m) := by
  induction m with
  | zero => intro v; simp
  | succ m ih =>
    intro v
    rw [Nat.add_right_comm, leBytes_succ, leBytes_succ, ih, Nat.div_div_eq_div_mul, Nat.pow_succ', List.cons_append]

/-- Only the `n` low-order bytes are stored. -/
theorem leBytes_mod (n : Nat) : ∀ v, leBytes n (v % 256 ^ n) = leBytes n v := by
  intro v
  have h := leBytes_leNat_of_length (leBytes_length n v)
  rwa [leNat_leBytes] at h

theorem leBytes_ofNat {w n : Nat} (hw : 2 ^ w = 256 ^ n) (v : Nat) :
    leBytes n (BitVec.ofNat w v).toNat = leBytes n v := by
  rw [BitVec.toNat_ofNat, hw, leBytes_mod]

theorem ofNat_leNat_leBytes {w n : Nat} (hw : 2 ^ w = 256 ^ n) (v : BitVec w) :
    BitVec.ofNat w (leNat (leBytes n v.toNat)) = v := by
  rw [leNat_leBytes, ← hw, Nat.mod_eq_of_lt v.isLt, BitVec.ofNat_toNat, BitVec.setWidth_eq]

theorem ofNat_leNat_singleton (b : Byte) : BitVec.ofNat 8 (leNat [b]) = b := by simp

/-! ### Encoding, then decoding -/

theorem encode_length (i : Instr) : (encode i).length = i.slot.size := by
  cases i <;> simp [encode, Instr.slot, Slot.size]

/-- The two fields of a `REF` are read back from its word (rule R84). -/
theorem ref_fields_of_refWord (l : BitVec 4) (o : BitVec 12) :
    BitVec.ofNat 4 (refWord l o / 4096) = l ∧ BitVec.ofNat 12 (refWord l o % 4096) = o := by
  have hl := l.isLt
  have ho := o.isLt
  constructor <;> apply BitVec.eq_of_toNat_eq <;> simp only [refWord, BitVec.toNat_ofNat] <;> omega

/-- The number the 16 bytes of a descriptor make. -/
theorem leNat_encode_kipSeg (i : Fin 6) (d : SegDesc) :
    leNat (encode (.kipSeg i d)) = d.dstOffset.toNat + 2 ^ 32 * d.decompressedSize.toNat
      + 2 ^ 64 * d.compressedSize.toNat + 2 ^ 96 * d.attr.toNat := by
  have h1 := d.dstOffset.isLt
  have h2 := d.decompressedSize.isLt
  have h3 := d.compressedSize.isLt
  have h4 := d.attr.isLt
  simp only [encode, leNat_append, leNat_leBytes, List.length_append, leBytes_length]
  omega

/-- The number an encoding makes is the instruction at its position. -/
theorem decodeWord_leNat_encode {i : Instr} (h : i.wellFormed = true) :
    decodeWord i.slot (leNat (encode i)) = .ok i := by
  cases i with
  | ref l o =>
    obtain ⟨hl, ho⟩ := ref_fields_of_refWord l o
    have hword : leNat (encode (.ref l o)) = refWord l o := by
      rw [encode, leNat_leBytes]
      exact Nat.mod_eq_of_lt (refWord_lt l o)
    rw [hword, Instr.slot, decodeWord, hl, ho]
  | kipMagic w =>
    obtain rfl : w = Config.kipMagic := by simpa [Instr.wellFormed] using h
    rfl
  | kipSeg i d =>
    rw [leNat_encode_kipSeg, Instr.slot, decodeWord]
    have h1 := d.dstOffset.isLt
    have h2 := d.decompressedSize.isLt
    have h3 := d.compressedSize.isLt
    have h4 := d.attr.isLt
    congr 2
    cases d
    congr 1 <;> apply BitVec.eq_of_toNat_eq <;> simp only [BitVec.toNat_ofNat] at * <;> omega
  | ctrl v | lit v | pad v | kipThreadPriority v | kipDefaultCpuId v | kipReserved v | kipFlags v =>
    simp only [encode, Instr.slot, decodeWord, ofNat_leNat_singleton]
  | footerTotal v | footerHdr v | footerExtra v | kipProcessCategory v | kipCap _ v =>
    simp only [encode, Instr.slot, decodeWord, ofNat_leNat_leBytes (w := 32) (n := 4) rfl]
  | kipTitleId v => simp only [encode, Instr.slot, decodeWord, ofNat_leNat_leBytes (w := 64) (n := 8) rfl]
  | kipName v => simp only [encode, Instr.slot, decodeWord, ofNat_leNat_leBytes (w := 96) (n := 12) rfl]
  | storedTerm | blzCompress | blzFooter | blzDecompressS | blzDecompressP | kipParse | kipBuild | kipSerialize => rfl

/-- Settles O1: an encoding fills its position, so the decoder takes exactly its bytes, and the number they make decodes
to the instruction. -/
theorem decodeOfEncodeGivesInstruction : Obligations.DecodeOfEncodeGivesInstruction := by
  intro i rest h
  have hsize := encode_length i
  refine decode_ok_iff.mpr ⟨?_, ?_, ?_⟩
  · rw [List.length_append]
    omega
  · rw [List.take_left' hsize, decodeWord_leNat_encode h]
  · rw [List.drop_left' hsize]

/-! ### Decoding, then encoding -/

/-- What a command's ordinal decodes to stands at the command position and is encoded as that ordinal (rule R110). -/
theorem encode_of_decodeOp {v : Nat} {i : Instr} (h : decodeOp v = .ok i) :
    i.slot = .command ∧ encode i = leBytes 1 v := by
  match v, h with
  | 0, rfl | 1, rfl | 2, rfl | 3, rfl | 4, rfl | 5, rfl | 6, rfl => exact ⟨rfl, rfl⟩

/-- The word of a `REF` is its two fields (rule R84). -/
theorem refWord_of_fields {v : Nat} (h : v < 2 ^ 16) :
    refWord (BitVec.ofNat 4 (v / 4096)) (BitVec.ofNat 12 (v % 4096)) = v := by
  simp only [refWord, BitVec.toNat_ofNat]
  omega

/-- The four words of a descriptor, stored in order, are the bytes of the number they were taken from (rule R30). -/
theorem encode_kipSeg_of_word (i : Fin 6) (v : Nat) :
    encode (.kipSeg i ⟨BitVec.ofNat 32 v, BitVec.ofNat 32 (v / 2 ^ 32), BitVec.ofNat 32 (v / 2 ^ 64),
      BitVec.ofNat 32 (v / 2 ^ 96)⟩) = leBytes 16 v := by
  have hsplit : leBytes 16 v = leBytes (4 + 4 + 4 + 4) v := rfl
  rw [hsplit, leBytes_add, leBytes_add, leBytes_add]
  simp only [encode, leBytes_ofNat (w := 32) (n := 4) rfl]
  rfl

/-- What decodes as a well-formed instruction stands at its position, and is encoded as the number it was decoded from. -/
theorem encode_of_decodeWord {p : Slot} {v : Nat} {i : Instr} (hv : v < 256 ^ p.size) (h : decodeWord p v = .ok i)
    (hwf : i.wellFormed = true) : i.slot = p ∧ encode i = leBytes p.size v := by
  cases p with
  | command => exact encode_of_decodeOp h
  | ref =>
    cases h
    exact ⟨rfl, congrArg (leBytes 2) (refWord_of_fields hv)⟩
  | storedTerm =>
    obtain ⟨rfl, rfl⟩ : v = 0 ∧ Instr.storedTerm = i := by
      simp only [decodeWord] at h
      split at h
      · cases h; exact ⟨‹_›, rfl⟩
      · cases h
    exact ⟨rfl, rfl⟩
  | kipMagic =>
    cases h
    have hmagic : BitVec.ofNat 32 v = Config.kipMagic := by simpa [Instr.wellFormed] using hwf
    refine ⟨rfl, ?_⟩
    rw [encode, ← hmagic, leBytes_ofNat (n := 4) rfl]
    rfl
  | kipSeg i =>
    cases h
    exact ⟨rfl, encode_kipSeg_of_word i v⟩
  | ctrl | lit | pad | kipThreadPriority | kipDefaultCpuId | kipReserved | kipFlags =>
    cases h
    exact ⟨rfl, rfl⟩
  | footerTotal | footerHdr | footerExtra | kipProcessCategory | kipCap j =>
    cases h
    exact ⟨rfl, leBytes_ofNat (n := 4) rfl v⟩
  | kipTitleId =>
    cases h
    exact ⟨rfl, leBytes_ofNat (n := 8) rfl v⟩
  | kipName =>
    cases h
    exact ⟨rfl, leBytes_ofNat (n := 12) rfl v⟩

/-- Settles O2: the bytes the decoder takes are those of the number it decodes, and `encode_of_decodeWord` stores that
number again. -/
theorem encodeOfDecodeGivesBytes : Obligations.EncodeOfDecodeGivesBytes := by
  intro p bs rest i h hwf
  obtain ⟨hlen, hword, rfl⟩ := decode_ok_iff.mp h
  have htake : (bs.take p.size).length = p.size := List.length_take_of_le hlen
  have hv : leNat (bs.take p.size) < 256 ^ p.size := by
    have hlt := leNat_lt (bs.take p.size)
    rwa [htake] at hlt
  obtain ⟨hslot, hbytes⟩ := encode_of_decodeWord hv hword hwf
  refine ⟨hslot, ?_⟩
  rw [hbytes, leBytes_leNat_of_length htake, List.take_append_drop]

/-- Settles O3: the decoder evaluated on each of the six words. -/
theorem specWordsDecode : Obligations.SpecWordsDecode :=
  ⟨by decide, by decide, by decide, by decide, by decide, by decide⟩

end Sys2Proof
end

section
/-! Bytes that stand at an offset of a byte sequence, and reads of them (rules R14, R56). -/

namespace Sys2Proof.Machine

/-- The bytes `x` stand at offset `a` of `l`. -/
def HoldsAt (l : Bytes) (a : Nat) (x : Bytes) : Prop := ∃ p q, l = p ++ x ++ q ∧ p.length = a

theorem HoldsAt.append_right {l x : Bytes} {a : Nat} (h : HoldsAt l a x) (r : Bytes) : HoldsAt (l ++ r) a x := by
  obtain ⟨p, q, rfl, hp⟩ := h
  exact ⟨p, q ++ r, by simp, hp⟩

theorem HoldsAt.append_left {l x : Bytes} {a : Nat} (h : HoldsAt l a x) (r : Bytes) :
    HoldsAt (r ++ l) (r.length + a) x := by
  obtain ⟨p, q, rfl, hp⟩ := h
  exact ⟨r ++ p, q, by simp, by simp [hp]⟩

theorem HoldsAt.self (x : Bytes) : HoldsAt x 0 x := ⟨[], [], by simp, rfl⟩

theorem HoldsAt.length_le {l x : Bytes} {a : Nat} (h : HoldsAt l a x) : a + x.length ≤ l.length := by
  obtain ⟨p, q, rfl, rfl⟩ := h
  simp only [List.length_append]
  omega

/-- A byte of the buffer of a sequence. -/
theorem cellsGet_ofBytes {l : Bytes} {i : Nat} (h : i < l.length) : cellsGet (Buffer.ofBytes l).cells i = l[i] := by
  show cellsGet (cellsOf 0 l) i = l[i]
  rw [cellsGet_of, dif_pos ⟨Nat.zero_le _, by simpa using h⟩]
  rfl

/-- Slices of the buffer of a sequence are its sublists. -/
theorem cellsSlice_ofBytes {l : Bytes} {i n : Nat} (h : i + n ≤ l.length) :
    cellsSlice (Buffer.ofBytes l).cells i n = (l.drop i).take n := by
  apply List.ext_getElem
  · simp
    omega
  · intro k hk _
    rw [cellsSlice_length] at hk
    rw [cellsSlice_getElem, cellsGet_ofBytes (by omega), List.getElem_take, List.getElem_drop]

theorem HoldsAt.cellsSlice {l x : Bytes} {a : Nat} (h : HoldsAt l a x) :
    cellsSlice (Buffer.ofBytes l).cells a x.length = x := by
  rw [cellsSlice_ofBytes h.length_le]
  obtain ⟨p, q, rfl, rfl⟩ := h
  simp

theorem HoldsAt.slice {l x : Bytes} {a n : Nat} (h : HoldsAt l a x) (hn : n = x.length) :
    (Buffer.ofBytes l).slice a n = some x := by
  rw [hn, Buffer.slice_eq h.length_le, h.cellsSlice]

theorem HoldsAt.read {l x : Bytes} {a n : Nat} (h : HoldsAt l a x) (hn : n = x.length) :
    (Buffer.ofBytes l).read a n = leNat x := by
  rw [hn, Buffer.read, h.cellsSlice]

/-- Two reads one above the other make one (rule R56). -/
theorem Buffer.read_add (b : Buffer) (a m n : Nat) :
    b.read a (m + n) = b.read a m + 256 ^ m * b.read (a + m) n := by
  rw [Buffer.read, cellsSlice_add, leNat_append, cellsSlice_length]
  rfl

theorem Buffer.read_lt (b : Buffer) (a n : Nat) : b.read a n < 256 ^ n := by
  have h := leNat_lt (Sys2Proof.Machine.cellsSlice b.cells a n)
  rwa [cellsSlice_length] at h

end Sys2Proof.Machine
end

section
/-! The KIP1 header image: its items, where they stand, and the round trip through its 256 bytes (rules R29 to R32, R202,
R222). -/

namespace Sys2Proof.Machine

/-! ### The fields in the order of their offsets -/

/-- The positions of the header's fields. -/
def headerSlots : List Slot :=
  [.kipMagic, .kipName, .kipTitleId, .kipProcessCategory, .kipThreadPriority, .kipDefaultCpuId, .kipReserved, .kipFlags]
    ++ (List.finRange 6).map Slot.kipSeg ++ (List.finRange 32).map Slot.kipCap

/-- The offset of a header field in the file (rules R29 to R31). -/
def fieldOffset (p : Slot) : Nat := (itemOffset p Config.kipHdrLen 0).getD 0

/-- The fields of a list stand one after the other from an offset on. -/
def contiguousFrom : Nat → List Slot → Bool
  | _, [] => true
  | a, p :: ps => fieldOffset p == a && contiguousFrom (a + p.size) ps

theorem contiguousFrom_cons {a : Nat} {p : Slot} {ps : List Slot} :
    contiguousFrom a (p :: ps) = true ↔ fieldOffset p = a ∧ contiguousFrom (a + p.size) ps = true := by
  simp [contiguousFrom]

theorem headerSlots_contiguous : contiguousFrom 0 headerSlots = true := by decide

theorem map_slot_headerItems (h : KipHeader) : (headerItems h).map Instr.slot = headerSlots := by
  simp [headerItems, headerSlots, Instr.slot, Function.comp_def]

/-- Every item of a header image, kind by kind. -/
theorem mem_headerItems {h : KipHeader} {i : Instr} :
    i ∈ headerItems h ↔ (i = .kipMagic Config.kipMagic ∨ i = .kipName h.name ∨ i = .kipTitleId h.titleId ∨
      i = .kipProcessCategory h.processCategory ∨ i = .kipThreadPriority h.threadPriority ∨
      i = .kipDefaultCpuId h.defaultCpuId ∨ i = .kipReserved h.reserved ∨ i = .kipFlags h.flags) ∨
      (∃ n : Fin 6, i = .kipSeg n h.seg[n]) ∨ ∃ n : Fin 32, i = .kipCap n h.cap[n] := by
  simp [headerItems, or_assoc, eq_comm]

/-- Items whose positions follow one another stand at their offsets in the bytes they are encoded to. -/
theorem holdsAt_flatMap_encode {i : Instr} (rest : Bytes) : ∀ (items : List Instr) (before : Bytes), i ∈ items →
    contiguousFrom before.length (items.map Instr.slot) = true →
    HoldsAt (before ++ items.flatMap encode ++ rest) (fieldOffset i.slot) (encode i) := by
  intro items
  induction items with
  | nil => exact fun _ hi => absurd hi List.not_mem_nil
  | cons j items ih =>
    intro before hi hslots
    obtain ⟨hoffset, hnext⟩ := contiguousFrom_cons.mp hslots
    obtain rfl | hi := List.mem_cons.mp hi
    · exact ⟨before, items.flatMap encode ++ rest, by simp, hoffset.symm⟩
    · have hrest := ih (before ++ encode j) hi (by rwa [List.length_append, encode_length])
      simpa using hrest

theorem holdsAt_headerBytes {h : KipHeader} {i : Instr} (hi : i ∈ headerItems h) (rest : Bytes) :
    HoldsAt (headerBytes h ++ rest) (fieldOffset i.slot) (encode i) := by
  have hslots : contiguousFrom ([] : Bytes).length ((headerItems h).map Instr.slot) = true := by
    rw [map_slot_headerItems]
    exact headerSlots_contiguous
  have hholds := holdsAt_flatMap_encode rest (headerItems h) [] hi hslots
  rwa [List.nil_append] at hholds

/-! ### Written, then read -/

/-- The descriptor in a 16-byte number (rule R30). -/
def segOfWord (v : Nat) : SegDesc where
  dstOffset := BitVec.ofNat 32 v
  decompressedSize := BitVec.ofNat 32 (v / 2 ^ 32)
  compressedSize := BitVec.ofNat 32 (v / 2 ^ 64)
  attr := BitVec.ofNat 32 (v / 2 ^ 96)

/-- The four words of a descriptor read at once. -/
theorem readSeg_eq (f : Buffer) (b : Nat) : readSeg f b = segOfWord (f.read b 16) := by
  have hsplit : f.read b 16 = f.read b 4 + 2 ^ 32 * f.read (b + 4) 4 + 2 ^ 64 * f.read (b + 8) 4
      + 2 ^ 96 * f.read (b + 12) 4 := by
    rw [show (16 : Nat) = 4 + 4 + 4 + 4 from rfl, Buffer.read_add, Buffer.read_add, Buffer.read_add]
    norm_num
  have h0 := f.read_lt b 4
  have h4 := f.read_lt (b + 4) 4
  have h8 := f.read_lt (b + 8) 4
  have h12 := f.read_lt (b + 12) 4
  rw [hsplit, readSeg, segOfWord, SegDesc.mk.injEq]
  refine ⟨?_, ?_, ?_, ?_⟩ <;> apply BitVec.eq_of_toNat_eq <;> simp only [BitVec.toNat_ofNat] <;> omega

/-- The number a header field reads as. -/
def fieldWord (f : Buffer) (p : Slot) : Nat := f.read (fieldOffset p) p.size

theorem decodeWord_kipSeg (i : Fin 6) (v : Nat) : decodeWord (.kipSeg i) v = .ok (.kipSeg i (segOfWord v)) := rfl

/-- Each item of the image read from a file is what the decoder makes of the bytes at its position (rule R202). -/
theorem decodeWord_fieldWord {f : Buffer} (hmagic : (readHeader f).magic = Config.kipMagic) {i : Instr}
    (hi : i ∈ headerItems (readHeader f)) : decodeWord i.slot (fieldWord f i.slot) = .ok i := by
  obtain (rfl | rfl | rfl | rfl | rfl | rfl | rfl | rfl) | ⟨n, rfl⟩ | ⟨n, rfl⟩ := mem_headerItems.mp hi
  case inl.inl => exact congrArg (fun w => Except.ok (Instr.kipMagic w)) hmagic
  case inr.inl =>
    have hseg : (readHeader f).seg[n] = segOfWord (fieldWord f (.kipSeg n)) := by
      simp only [readHeader, Fin.getElem_fin, Vector.getElem_ofFn, readSeg_eq]
      rfl
    rw [hseg]
    rfl
  case inr.inr =>
    have hcap : (readHeader f).cap[n] = BitVec.ofNat 32 (fieldWord f (.kipCap n)) := by
      simp only [readHeader, Fin.getElem_fin, Vector.getElem_ofFn]
      rfl
    rw [hcap]
    rfl
  all_goals rfl

theorem wellFormed_of_mem_headerItems {h : KipHeader} {i : Instr} (hi : i ∈ headerItems h) : i.wellFormed = true := by
  obtain (rfl | rfl | rfl | rfl | rfl | rfl | rfl | rfl) | ⟨n, rfl⟩ | ⟨n, rfl⟩ := mem_headerItems.mp hi <;> rfl

/-- The image read back from its bytes, whatever follows them: field for field, the magic the constant (rule R222). -/
theorem readHeader_headerBytes (h : KipHeader) (rest : Bytes) :
    readHeader (Buffer.ofBytes (headerBytes h ++ rest)) = { h with magic := Config.kipMagic } := by
  have hword {i : Instr} (hi : i ∈ headerItems h) :
      decodeWord i.slot (fieldWord (Buffer.ofBytes (headerBytes h ++ rest)) i.slot) = .ok i := by
    rw [fieldWord, (holdsAt_headerBytes hi rest).read (encode_length i).symm,
      decodeWord_leNat_encode (wellFormed_of_mem_headerItems hi)]
  generalize Buffer.ofBytes (headerBytes h ++ rest) = f at hword
  have hmagic := Instr.kipMagic.inj (Except.ok.inj (hword (i := .kipMagic Config.kipMagic) (mem_headerItems.mpr (by simp))))
  have hname := Instr.kipName.inj (Except.ok.inj (hword (i := .kipName h.name) (mem_headerItems.mpr (by simp))))
  have htitle := Instr.kipTitleId.inj (Except.ok.inj (hword (i := .kipTitleId h.titleId) (mem_headerItems.mpr (by simp))))
  have hcategory := Instr.kipProcessCategory.inj (Except.ok.inj (hword (i := .kipProcessCategory h.processCategory) (mem_headerItems.mpr (by simp))))
  have hpriority := Instr.kipThreadPriority.inj (Except.ok.inj (hword (i := .kipThreadPriority h.threadPriority) (mem_headerItems.mpr (by simp))))
  have hcpu := Instr.kipDefaultCpuId.inj (Except.ok.inj (hword (i := .kipDefaultCpuId h.defaultCpuId) (mem_headerItems.mpr (by simp))))
  have hreserved := Instr.kipReserved.inj (Except.ok.inj (hword (i := .kipReserved h.reserved) (mem_headerItems.mpr (by simp))))
  have hflags := Instr.kipFlags.inj (Except.ok.inj (hword (i := .kipFlags h.flags) (mem_headerItems.mpr (by simp))))
  have hseg (n : Fin 6) := (Instr.kipSeg.inj (Except.ok.inj (hword (i := .kipSeg n h.seg[n]) (mem_headerItems.mpr (by simp))))).2
  have hcap (n : Fin 32) := (Instr.kipCap.inj (Except.ok.inj (hword (i := .kipCap n h.cap[n]) (mem_headerItems.mpr (by simp))))).2
  have hsegs : (readHeader f).seg = h.seg := Vector.ext fun n hn => by
    simp only [readHeader, Vector.getElem_ofFn, readSeg_eq]
    exact hseg ⟨n, hn⟩
  have hcaps : (readHeader f).cap = h.cap := Vector.ext fun n hn => by
    simp only [readHeader, Vector.getElem_ofFn]
    exact hcap ⟨n, hn⟩
  exact (KipHeader.mk.injEq ..).mpr
    ⟨hmagic, hname, htitle, hcategory, hpriority, hcpu, hreserved, hflags, hsegs, hcaps⟩

/-! ### Read, then written -/

/-- Fields one after the other are a slice of the file. -/
theorem flatMap_cellsSlice_of_contiguous (c : List Host.Cell) : ∀ (ps : List Slot) (a : Nat),
    contiguousFrom a ps = true →
    ps.flatMap (fun p => cellsSlice c (fieldOffset p) p.size) = cellsSlice c a (ps.map Slot.size).sum := by
  intro ps
  induction ps with
  | nil => exact fun _ _ => rfl
  | cons p ps ih =>
    intro a h
    obtain ⟨hoffset, hnext⟩ := contiguousFrom_cons.mp h
    rw [List.flatMap_cons, ih _ hnext, hoffset, List.map_cons, List.sum_cons, cellsSlice_add]

/-- The image of a file whose magic matches writes the file's first 256 bytes. -/
theorem headerBytes_readHeader {f : Buffer} (hmagic : (readHeader f).magic = Config.kipMagic) :
    headerBytes (readHeader f) = cellsSlice f.cells 0 256 := by
  have hitem : ∀ i ∈ headerItems (readHeader f), encode i = cellsSlice f.cells (fieldOffset i.slot) i.slot.size := by
    intro i hi
    have hdecode := decodeWord_fieldWord hmagic hi
    rw [(encode_of_decodeWord (f.read_lt _ _) hdecode (wellFormed_of_mem_headerItems hi)).2]
    exact leBytes_leNat_of_length (cellsSlice_length ..)
  calc headerBytes (readHeader f)
      = ((headerItems (readHeader f)).map Instr.slot).flatMap fun p => cellsSlice f.cells (fieldOffset p) p.size := by
        rw [List.flatMap_map]
        exact List.flatMap_congr hitem
    _ = cellsSlice f.cells 0 256 := by
        rw [map_slot_headerItems]
        exact flatMap_cellsSlice_of_contiguous f.cells headerSlots 0 headerSlots_contiguous

/-- Settles O51: the items stand at the offsets they are read from, and each is encoded as the bytes it was decoded
from. -/
theorem headerImageRoundTrip : Obligations.HeaderImageRoundTrip :=
  ⟨fun h rest => ⟨headerBytes_length h, readHeader_headerBytes h rest⟩,
    fun _ hlen hmagic => (Buffer.slice_eq (by omega)).trans (congrArg some (headerBytes_readHeader hmagic).symm)⟩

end Sys2Proof.Machine
end

section
/-! The structural items, written or read (rules R91, R93, R96, R101, R151, R202, R222): what executing one does. -/

namespace Sys2Proof.Machine

/-- What reading a structural item does; a token or a command is not read this way. -/
def loadItem (i : Instr) (s : State) : Ctl :=
  match i with
  | .footerTotal v => .ok (loadTotal v s)
  | .footerHdr v => .ok (loadHeaderLen v s)
  | .footerExtra v => footerTests (loadExtra v s)
  | .kipMagic w =>
    if w = Config.kipMagic then loadHdr (fun h => { h with magic := w }) s else .raised .invalidMagic (magicInfo s) s
  | .kipName v => loadHdr (fun h => { h with name := v }) s
  | .kipTitleId v => loadHdr (fun h => { h with titleId := v }) s
  | .kipProcessCategory v => loadHdr (fun h => { h with processCategory := v }) s
  | .kipThreadPriority v => loadHdr (fun h => { h with threadPriority := v }) s
  | .kipDefaultCpuId v => loadHdr (fun h => { h with defaultCpuId := v }) s
  | .kipReserved v => loadHdr (fun h => { h with reserved := v }) s
  | .kipFlags v => loadHdr (fun h => { h with flags := v }) s
  | .kipSeg i d => loadHdr (fun h => { h with seg := h.seg.set i d }) s
  | .kipCap j v => loadHdr (fun h => { h with cap := h.cap.set j v }) s
  | _ => .ok s

/-- Executing a structural item writes it while the sequencer emits, else reads it. -/
theorem exec_structural {i : Instr} (h : isStructural i) (s : State) : exec i s = emitOr i (loadItem i) s := by
  obtain ⟨hctrl, hlit, href, hcommand⟩ := h
  cases i with
  | ctrl => exact absurd rfl hctrl
  | lit => exact absurd rfl hlit
  | ref => exact absurd rfl href
  | blzCompress | blzFooter | blzDecompressS | blzDecompressP | kipParse | kipBuild | kipSerialize =>
    exact absurd rfl hcommand
  | _ => rfl

theorem exec_emitted {i : Instr} {s : State} {p : Slot} (h : isStructural i) (hseq : s.seq = .emit p) :
    exec i s = .next (appendOut (encode i) s) := by
  rw [exec_structural h, emitOr_emit hseq]

theorem exec_loaded {i : Instr} {s : State} (h : isStructural i) (hseq : ∀ p, s.seq ≠ .emit p) :
    exec i s = (loadItem i s).outcome := by
  rw [exec_structural h, emitOr_load hseq]

/-- Settles O23: writing an item is `appendOut` of its encoding, and a longer `OUT` keeps what it held. -/
theorem emittedItemGoesToOutput : Obligations.EmittedItemGoesToOutput := by
  rintro i s h ⟨p, hseq⟩ hwf
  have hout := (Memory.wf_iff.mp hwf).2.1
  refine ⟨_, exec_emitted h hseq, rfl, Buffer.toBytes_append _ hout, fun a ha => ?_⟩
  have hnew := cellsOf_ok (encode i) s.mem.out.len _ (Nat.le_refl _)
  have hkept : cellsGet (s.mem.out.append (encode i)).cells a = cellsGet s.mem.out.cells a :=
    cellsGet_append a hout ha hnew
  show (s.mem.out.append (encode i)).get a = s.mem.out.get a
  simp only [Buffer.get, hkept, Buffer.append_len]
  rw [if_pos (by omega), if_pos ha]

/-- Settles O25: each of the two words read is its `load`. -/
theorem footerWordsLoadRegisters : Obligations.FooterWordsLoadRegisters :=
  fun v _ hseq => ⟨exec_loaded (i := .footerTotal v) ⟨nofun, nofun, nofun, nofun⟩ hseq,
    exec_loaded (i := .footerHdr v) ⟨nofun, nofun, nofun, nofun⟩ hseq⟩

/-- Settles O49: each field read is the update of its register; the magic is compared first. -/
theorem headerFieldsLoadRegisters : Obligations.HeaderFieldsLoadRegisters := by
  intro s hseq
  have hload {i : Instr} (h : isStructural i) : exec i s = (loadItem i s).outcome := exec_loaded h hseq
  refine ⟨?_, fun v => ?_, fun v => ?_, fun v => ?_, fun v => ?_, fun v => ?_, fun v => ?_, fun v => ?_,
    fun i d => ?_, fun j v => ?_⟩ <;> exact hload ⟨nofun, nofun, nofun, nofun⟩

/-- Settles O26: reading the last word is `footerTests` with it loaded, whose branches are those of the statement. -/
theorem lastFooterWordDecidesVerdict : Obligations.LastFooterWordDecidesVerdict := by
  intro v s hseq n total hdr
  have hexec : exec (.footerExtra v) s = (footerTests (loadExtra v s)).outcome :=
    exec_loaded ⟨nofun, nofun, nofun, nofun⟩ hseq
  rw [hexec]
  have hmax (k : Nat) : belowMax (loadExtra v s) k = true ↔ ∀ m, s.cmd.maxLen = some m → k < m := belowMax_iff
  have hrefused (info : Info) (t : State) (hmem : t.mem = s.mem) (hdec : t.dec = s.dec) (hkip : t.kip = s.kip) :
      ∃ u, (Ctl.raised .malformedFooter info t).outcome = .next u ∧ u.status.err = .malformedFooter ∧
        u.mem.inp = s.mem.inp ∧ (s.dec.run ≠ .run → u.mem.m = s.mem.m) ∧ u.kip = s.kip := by
    refine ⟨_, rfl, rfl, (takeRaise_mem_inp ..).trans (congrArg Memory.inp hmem), fun hrun => ?_, hkip⟩
    rw [takeRaise_m_of_not_running _ _ (hdec ▸ hrun), hmem]
  obtain ⟨hzero, hlimit, htests⟩ | ⟨hzero, hlimit, htests⟩ | ⟨hproper, info, htests⟩ |
    ⟨hproper, htotal, h12, hhdr, hhdrMax, hlimit, htests⟩ := footerTests_cases (loadExtra v s)
  · rw [if_pos ⟨hzero, (hmax _).mp hlimit⟩, htests]
    rfl
  · have hover : ¬ ∀ m, s.cmd.maxLen = some m → n < m := fun h =>
      Bool.false_ne_true (hlimit.symm.trans ((hmax _).mpr h))
    rw [if_neg fun h => hover h.2, if_neg fun h => h.1 hzero, htests]
    exact hrefused _ _ rfl rfl rfl
  · rw [if_neg fun h => hproper h.1, if_neg, htests]
    · exact hrefused _ _ rfl rfl rfl
    · rintro ⟨-, htotal, h12, hhdr, hhdrMax, hlimit⟩
      have haccepts : footerTests (loadExtra v s) = .ok (footerDone false (n - total) (total - hdr) (total + v.toNat)
          (loadExtra v s)) := by
        have hhdrs : ¬ (hdr < Config.footerLen ∨ total < hdr ∨ s.cmd.hdrMax < hdr) := by simp only [Config.footerLen]; omega
        exact (if_neg hproper).trans ((if_neg (Nat.not_lt.mpr htotal)).trans
          ((if_neg hhdrs).trans (if_pos ((hmax _).mpr hlimit))))
      rw [haccepts] at htests
      cases htests
  · rw [if_neg fun h => hproper h.1, if_pos ⟨hproper, htotal, h12, hhdr, hhdrMax, (hmax _).mp hlimit⟩, htests]
    rfl

end Sys2Proof.Machine
end

section
/-! A step at each position of the sequencer, and several steps in a row (rules R114, R280). -/

namespace Sys2Proof.Machine

/-! ### One step -/

theorem step_of_idle {s : State} (hseq : s.seq = .idle) : step s = .next s := by simp [step, fetch, hseq]

/-- The ordinal of a command decodes to the command (rule R110). -/
theorem fetchCommand_eq (s : State) : fetchCommand s = .got s.cmd.op.instr s := by
  unfold fetchCommand
  cases s.cmd.op <;> rfl

theorem step_of_command {s : State} (hseq : s.seq = .command) :
    step s = settle .command (exec s.cmd.op.instr s) := by
  simp only [step, fetch, hseq, fetchCommand_eq]

/-- Reading an item that decodes. -/
theorem readItem_of_decode {s : State} {p : Slot} {a : Nat} {bs rest : Bytes} {i : Instr}
    (hslice : (itemBuf p s).slice a p.size = some bs) (hdecode : decode p bs = .ok (i, rest)) :
    readItem p a s = .got i s := by
  simp only [readItem, hslice, hdecode]

theorem step_of_load {s : State} {p : Slot} {a : Nat} {i : Instr} (hseq : s.seq = .load p)
    (hcheck : itemCheck p (itemLen p s) = none) (hoffset : itemOffset p (itemLen p s) (blockHdrLen s) = some a)
    (hread : readItem p a s = .got i s) : step s = settle (.load p) (exec i s) := by
  simp only [step, fetch, hseq, fetchItem, hcheck, hoffset, hread]

/-- A structure too short for the item raises before it is read (rules R151, R201). -/
theorem step_of_load_short {s : State} {p : Slot} {k : ErrKind} {info : Info} (hseq : s.seq = .load p)
    (hcheck : itemCheck p (itemLen p s) = some (k, info)) : step s = .next (takeRaise k info s) := by
  simp only [step, fetch, hseq, fetchItem, hcheck]

theorem step_of_loadPad {s : State} {a : Nat} {i : Instr} (hseq : s.seq = .loadPad a) (hin : inPadding a s = true)
    (hread : readItem .pad a s = .got i s) : step s = settle (.loadPad a) (exec i s) := by
  simp only [step, fetch, hseq, fetchPad, hin, if_true, hread]

theorem step_of_emit {s : State} {p : Slot} {i : Instr} (hseq : s.seq = .emit p) (hitem : itemToEmit p s = some i) :
    step s = settle (.emit p) (exec i s) := by
  simp only [step, fetch, hseq, hitem]

/-- An instruction that leaves the sequencer where it was moves on to the next position. -/
theorem settle_next {q : Seq} {t : State} (h : t.seq = q) : settle q (.next t) = .next (t.withSeq (nextSeq q t)) := by
  simp [settle, h]

/-- An instruction that ended the command leaves the engine at rest. -/
theorem settle_next_of_ne {q : Seq} {t : State} (h : t.seq ≠ q) : settle q (.next t) = .next t := by
  simp [settle, h]

theorem decode_pad_singleton (b : Byte) : decode .pad [b] = .ok (.pad b, []) :=
  decode_ok_iff.mpr ⟨Nat.le_refl _, by simp [decodeWord, Slot.size], rfl⟩

/-- The bytes of an item decode as the number they make. -/
theorem readItem_of_word {s : State} {p : Slot} {a : Nat} {i : Instr} (hroom : a + p.size ≤ (itemBuf p s).len)
    (hword : decodeWord p ((itemBuf p s).read a p.size) = .ok i) : readItem p a s = .got i s := by
  refine readItem_of_decode (Buffer.slice_eq hroom) (rest := []) (decode_ok_iff.mpr ⟨?_, ?_, ?_⟩)
  · rw [cellsSlice_length]
  · rw [List.take_of_length_le (cellsSlice_length ..).le]
    exact hword
  · rw [List.drop_of_length_le (cellsSlice_length ..).le]

/-- Settles O4: one lemma for each kind of position. -/
theorem stepRunsDecodedInstruction : Obligations.StepRunsDecodedInstruction := by
  refine ⟨fun s bs rest i hseq hw hr => step_token_executes hseq hw hr, fun s => step_of_command,
    fun s p a bs rest i hseq hcheck hoffset hslice hdecode =>
      step_of_load hseq hcheck hoffset (readItem_of_decode hslice hdecode),
    fun s a b hseq hin hget => step_of_loadPad hseq hin ?_, fun s p i => step_of_emit⟩
  refine readItem_of_decode (bs := [b]) ?_ (decode_pad_singleton b)
  rw [Slot.size, Buffer.slice_one]
  exact congrArg (Option.map _) hget

/-- Settles O6: the three facts are about one concrete state, evaluated. -/
theorem resetIsIdle : Obligations.ResetIsIdle := ⟨rfl, rfl, step_of_idle rfl⟩

/-- Settles O7: `reset_mem_wf`, and an idle sequencer requires nothing. -/
theorem invariantHoldsAtReset : Obligations.InvariantHoldsAtReset :=
  ⟨reset_mem_wf, Nat.zero_le _, trivial⟩

/-! ### Steps in a row -/

theorem runSteps_succ_of_step {n : Nat} {s t : State} (h : step s = .next t) :
    runSteps (n + 1) s = runSteps n t := by
  rw [runSteps, h]

theorem runSteps_of_idle {s : State} (hseq : s.seq = .idle) : ∀ n, runSteps n s = .next s := by
  intro n
  induction n with
  | zero => rfl
  | succ n ih => rw [runSteps_succ_of_step (step_of_idle hseq), ih]

theorem runSteps_succ_of_run : ∀ {n : Nat} {s t : State}, runSteps n s = .next t → runSteps (n + 1) s = step t := by
  intro n
  induction n with
  | zero =>
    intro s t h
    cases h
    rw [runSteps]
    cases step s <;> rfl
  | succ n ih =>
    intro s t h
    rw [runSteps] at h ⊢
    cases hstep : step s with
    | next u =>
      rw [hstep] at h
      exact ih h
    | fault f =>
      rw [hstep] at h
      cases h
    | refused r =>
      rw [hstep] at h
      cases h

end Sys2Proof.Machine
end

section
/-! The padding read byte by byte, and the footer read word by word (rules R63, R93, R114, R151). -/

namespace Sys2Proof.Machine

/-! ### The padding -/

/-- A pad byte read changes nothing but the sequencer. -/
theorem readItem_pad {a : Nat} {s : State} (hlen : blockLen s ≤ (blockBuf s).len) (hin : inPadding a s = true) :
    ∃ b, readItem .pad a s = .got (.pad b) s := by
  have hbelow := (inPadding_iff.mp hin).2.2
  have hroom : a + 1 ≤ (itemBuf .pad s).len := Nat.le_trans (by omega) hlen
  exact ⟨_, readItem_of_word (p := .pad) hroom rfl⟩

theorem exec_pad_loaded {s : State} (b : Byte) (hseq : ∀ p, s.seq ≠ .emit p) : exec (.pad b) s = .next s :=
  exec_loaded ⟨nofun, nofun, nofun, nofun⟩ hseq

theorem step_padding {s : State} {a : Nat} (hlen : blockLen s ≤ (blockBuf s).len) (hseq : s.seq = .loadPad a)
    (hin : inPadding a s = true) : step s = .next (s.withSeq (nextPad a s)) := by
  obtain ⟨b, hread⟩ := readItem_pad hlen hin
  rw [step_of_loadPad hseq hin hread, exec_pad_loaded b (by simp [hseq]), settle_next hseq]
  rfl

theorem step_padding_first {s : State} (hlen : blockLen s ≤ (blockBuf s).len) (hseq : s.seq = .load .pad)
    (h12 : 12 < blockHdrLen s) (hhdr : blockHdrLen s ≤ blockLen s) :
    step s = .next (s.withSeq (nextPad (blockLen s - blockHdrLen s) s)) := by
  obtain ⟨hoffset, hin⟩ := itemOffset_pad h12 hhdr
  obtain ⟨b, hread⟩ := readItem_pad hlen hin
  rw [step_of_load hseq rfl hoffset hread, exec_pad_loaded b (by simp [hseq]), settle_next hseq]
  rfl

/-- Where the sequencer stands before pad byte `j` (log 29). -/
def padSeq (s : State) (j : Nat) : Seq :=
  if j < blockHdrLen s - 12 then .loadPad (blockLen s - blockHdrLen s + j) else .idle

theorem nextPad_eq_padSeq {s : State} {j : Nat} (h12 : 12 < blockHdrLen s) (hhdr : blockHdrLen s ≤ blockLen s) :
    nextPad (blockLen s - blockHdrLen s + j) s = padSeq s (j + 1) := by
  have hiff : inPadding (blockLen s - blockHdrLen s + j + 1) s = true ↔ j + 1 < blockHdrLen s - 12 := by
    rw [inPadding_iff]
    omega
  rw [nextPad, padSeq]
  by_cases h : j + 1 < blockHdrLen s - 12
  · rw [if_pos (hiff.mpr h), if_pos h]
    rfl
  · rw [if_neg (mt hiff.mp h), if_neg h]

/-- One step for each byte of the padding. -/
theorem runSteps_padding {s : State} (hseq : s.seq = .load .pad) (hlen : blockLen s ≤ (blockBuf s).len)
    (h12 : 12 < blockHdrLen s) (hhdr : blockHdrLen s ≤ blockLen s) :
    ∀ j, j + 1 ≤ blockHdrLen s - 12 → runSteps (j + 1) s = .next (s.withSeq (padSeq s (j + 1))) := by
  intro j
  induction j with
  | zero =>
    intro _
    rw [runSteps_succ_of_step (step_padding_first hlen hseq h12 hhdr)]
    exact congrArg (fun q => Host.Outcome.next (s.withSeq q)) (nextPad_eq_padSeq (j := 0) h12 hhdr)
  | succ j ih =>
    intro hj
    have hpos : padSeq s (j + 1) = .loadPad (blockLen s - blockHdrLen s + (j + 1)) := if_pos hj
    have hin : inPadding (blockLen s - blockHdrLen s + (j + 1)) s = true := inPadding_iff.mpr (by omega)
    rw [runSteps_succ_of_run (ih (by omega)), hpos, ← nextPad_eq_padSeq h12 hhdr]
    exact step_padding (s := s.withSeq (.loadPad _)) hlen rfl hin

/-- Settles O24: neither item loads anything, and `runSteps_padding` steps through the padding. -/
theorem padAndTerminatorLoadNothing : Obligations.PadAndTerminatorLoadNothing := by
  refine ⟨fun s hseq => ⟨fun b => exec_pad_loaded b hseq, exec_loaded ⟨nofun, nofun, nofun, nofun⟩ hseq⟩,
    fun s hseq hlen h12 hhdr => ⟨fun j hpos hj => ?_, ?_⟩⟩
  · obtain ⟨j, rfl⟩ := Nat.exists_eq_add_one.mpr hpos
    rw [runSteps_padding hseq hlen h12 hhdr j (Nat.le_of_lt hj), padSeq, if_pos hj]
  · obtain ⟨j, hj⟩ := Nat.exists_eq_add_one.mpr (Nat.sub_pos_of_lt h12)
    rw [hj, runSteps_padding hseq hlen h12 hhdr j hj.ge, padSeq, if_neg (by omega)]

/-! ### The footer -/

/-- The state an operation ends in, with the sequencer at another position. -/
def Ctl.withSeq (q : Seq) : Ctl → Ctl
  | .ok t => .ok (t.withSeq q)
  | .raised k info t => .raised k info (t.withSeq q)
  | .fault f => .fault f

/-- FTR's tests do not read the sequencer's position. -/
theorem footerTests_withSeq (q : Seq) (s : State) : footerTests (s.withSeq q) = (footerTests s).withSeq q := by
  have hmax (n : Nat) : belowMax (s.withSeq q) n = belowMax s n := rfl
  have hlen : blockLen (s.withSeq q) = blockLen s := rfl
  unfold footerTests
  simp only [hmax, hlen, State.withSeq_ftr, State.withSeq_cmd]
  split
  · split <;> rfl
  split
  · rfl
  split
  · rfl
  split <;> rfl

/-- The last of the three loads ends FTR, whichever verdict it gives. -/
theorem settle_outcome_withSeq {q : Seq} (c : Ctl) (hq : q ≠ .idle) (hnext : ∀ t, nextSeq q t = .idle) :
    settle q (c.withSeq q).outcome = match c with
      | .ok t => .next (t.withSeq .idle)
      | .raised k info t => .next (takeRaise k info t)
      | .fault f => .fault f := by
  cases c with
  | ok t => exact (settle_next rfl).trans (congrArg (fun q' => Host.Outcome.next (t.withSeq q')) (hnext _))
  | raised k info t => exact settle_next_of_ne hq.symm
  | fault f => rfl

/-- The footer word `p` of a block with room for a footer, read and executed. -/
theorem step_footerWord {s : State} {p : Slot} {a : Nat} {i : Instr} (hseq : s.seq = .load p)
    (hroom : 12 ≤ blockLen s) (hlen : blockLen s ≤ (blockBuf s).len) (hp : p = .footerTotal ∨ p = .footerHdr ∨ p = .footerExtra)
    (hoffset : itemOffset p (blockLen s) (blockHdrLen s) = some a) (ha : a + 4 ≤ blockLen s)
    (hword : decodeWord p ((blockBuf s).read a 4) = .ok i) : step s = settle (.load p) (exec i s) := by
  have hsize : p.size = 4 := by obtain rfl | rfl | rfl := hp <;> rfl
  have hbuf : itemBuf p s = blockBuf s := by obtain rfl | rfl | rfl := hp <;> rfl
  have hblock : itemLen p s = blockLen s := by obtain rfl | rfl | rfl := hp <;> rfl
  have hcheck : itemCheck p (blockLen s) = none := by
    obtain rfl | rfl | rfl := hp <;> exact if_neg (Nat.not_lt.mpr hroom)
  refine step_of_load hseq (hblock ▸ hcheck) (hblock ▸ hoffset) (readItem_of_word ?_ ?_)
  · rw [hbuf, hsize]
    omega
  · rw [hbuf, hsize]
    exact hword

/-- The block is where the operands say, whatever the registers hold. -/
theorem blockLen_congr {s t : State} (hcmd : t.cmd = s.cmd) (hmem : t.mem = s.mem) : blockLen t = blockLen s := by
  rw [blockLen, blockLen, hcmd, hmem]

theorem blockBuf_congr {s t : State} (hcmd : t.cmd = s.cmd) (hmem : t.mem = s.mem) : blockBuf t = blockBuf s := by
  rw [blockBuf, blockBuf, hcmd, hmem]

section FooterWords
variable {s : State} (hroom : 12 ≤ blockLen s) (hlen : blockLen s ≤ (blockBuf s).len)
include hroom hlen

theorem step_footerTotal (hseq : s.seq = .load .footerTotal) :
    step s = .next ((loadTotal (BitVec.ofNat 32 ((blockBuf s).read (blockLen s - 12) 4)) s).withSeq
      (.load .footerHdr)) := by
  rw [step_footerWord hseq hroom hlen (.inl rfl) (if_pos hroom) (by omega) rfl,
    (footerWordsLoadRegisters _ s (by simp [hseq])).1]
  exact settle_next hseq

theorem step_footerHdr (hseq : s.seq = .load .footerHdr) :
    step s = .next ((loadHeaderLen (BitVec.ofNat 32 ((blockBuf s).read (blockLen s - 8) 4)) s).withSeq
      (.load .footerExtra)) := by
  rw [step_footerWord hseq hroom hlen (.inr (.inl rfl)) (if_pos hroom) (by omega) rfl,
    (footerWordsLoadRegisters _ s (by simp [hseq])).2]
  exact settle_next hseq

theorem step_footerExtra (hseq : s.seq = .load .footerExtra) :
    step s = settle (.load .footerExtra)
      (footerTests (loadExtra (BitVec.ofNat 32 ((blockBuf s).read (blockLen s - 4) 4)) s)).outcome := by
  rw [step_footerWord hseq hroom hlen (.inr (.inr rfl)) (if_pos hroom) (by omega) rfl,
    exec_loaded (i := .footerExtra _) ⟨nofun, nofun, nofun, nofun⟩ (by simp [hseq])]
  rfl

end FooterWords

/-- The three words loaded one at a time, the sequencer moving on. -/
theorem loads_withSeq (v h e : W32) (q r : Seq) (s : State) :
    loadExtra e ((loadHeaderLen h ((loadTotal v s).withSeq q)).withSeq r) =
      (s.withFtr { s.ftr with totalSize := v, headerLen := h, extraSize := e }).withSeq r := rfl

/-- Settles O28: two words are loaded, the third ends FTR; on a shorter block the first step takes FTR's error. -/
theorem footerStepsMatchFooter : Obligations.FooterStepsMatchFooter := by
  intro s hseq hlen
  by_cases hroom : 12 ≤ blockLen s
  · have hfirst := step_footerTotal hroom hlen hseq
    generalize hs1 : (loadTotal (BitVec.ofNat 32 ((blockBuf s).read (blockLen s - 12) 4)) s).withSeq
      (.load .footerHdr) = s1 at hfirst
    have hlen1 : blockLen s1 = blockLen s := blockLen_congr (hs1 ▸ rfl) (hs1 ▸ rfl)
    have hbuf1 : blockBuf s1 = blockBuf s := blockBuf_congr (hs1 ▸ rfl) (hs1 ▸ rfl)
    have hsecond := step_footerHdr (s := s1) (hlen1 ▸ hroom) (hlen1 ▸ hbuf1 ▸ hlen) (hs1 ▸ rfl)
    rw [hlen1, hbuf1] at hsecond
    generalize hs2 : (loadHeaderLen (BitVec.ofNat 32 ((blockBuf s).read (blockLen s - 8) 4)) s1).withSeq
      (.load .footerExtra) = s2 at hsecond
    have hlen2 : blockLen s2 = blockLen s := (blockLen_congr (hs2 ▸ rfl) (hs2 ▸ rfl)).trans hlen1
    have hbuf2 : blockBuf s2 = blockBuf s := (blockBuf_congr (hs2 ▸ rfl) (hs2 ▸ rfl)).trans hbuf1
    have hthird := step_footerExtra (s := s2) (hlen2 ▸ hroom) (hlen2 ▸ hbuf2 ▸ hlen) (hs2 ▸ rfl)
    rw [hlen2, hbuf2] at hthird
    have hwords : loadExtra (BitVec.ofNat 32 ((blockBuf s).read (blockLen s - 4) 4)) s2 =
        (loadWords s).withSeq (.load .footerExtra) := by
      rw [← hs2, ← hs1, loads_withSeq, loadWords]
    rw [runSteps_succ_of_step hfirst, runSteps_succ_of_run (n := 1) (runSteps_succ_of_step hsecond), hthird, hwords,
      footerTests_withSeq, footer_of_room hroom]
    exact settle_outcome_withSeq _ nofun fun _ => rfl
  · have hcheck : itemCheck .footerTotal (itemLen .footerTotal s) = some (.malformedFooter, ⟨0, 12, blockLen s⟩) :=
      if_pos (Nat.lt_of_not_le hroom)
    rw [runSteps_succ_of_step (step_of_load_short hseq hcheck), runSteps_of_idle rfl,
      footer_of_short (Nat.lt_of_not_le hroom)]

end Sys2Proof.Machine
end

section
/-! The KIP1 header stepped field by field, read and written (rules R202, R222; log 1). -/

namespace Sys2Proof.Machine

/-! ### The order of the fields -/

/-- Each field of a list is followed by the next one, the last by none (rule R29). -/
def chained : List Slot → Bool
  | [] => true
  | p :: ps => decide (nextField p = ps.head?) && chained ps

theorem chained_cons {p : Slot} {ps : List Slot} :
    chained (p :: ps) = true ↔ nextField p = ps.head? ∧ chained ps = true := by
  simp [chained]

theorem headerSlots_chained : chained headerSlots = true := by decide

/-- The sequencer's position in front of a list of fields. -/
def seqBefore (c : Slot → Seq) (ps : List Slot) : Seq := ps.head?.elim .idle c

theorem nextSeq_load_eq {p : Slot} (h : p ≠ .pad) (t : State) :
    nextSeq (.load p) t = (nextField p).elim .idle .load := by
  cases p with
  | pad => exact absurd rfl h
  | kipCap j =>
    show (match nextField (.kipCap j) with | some x => Seq.load x | none => .idle) = _
    cases nextField (.kipCap j) <;> rfl
  | _ => rfl

theorem nextSeq_emit_eq {p : Slot} (h : p ≠ .pad) (t : State) :
    nextSeq (.emit p) t = (nextField p).elim .idle .emit := by
  cases p with
  | pad => exact absurd rfl h
  | kipCap j =>
    show (match nextField (.kipCap j) with | some x => Seq.emit x | none => .idle) = _
    cases nextField (.kipCap j) <;> rfl
  | _ => rfl

/-- The fields' positions are no padding. -/
theorem slot_ne_pad_of_mem {h : KipHeader} {i : Instr} (hi : i ∈ headerItems h) : i.slot ≠ .pad := by
  obtain (rfl | rfl | rfl | rfl | rfl | rfl | rfl | rfl) | ⟨n, rfl⟩ | ⟨n, rfl⟩ := mem_headerItems.mp hi <;> nofun

theorem isStructural_of_mem {h : KipHeader} {i : Instr} (hi : i ∈ headerItems h) : isStructural i := by
  obtain (rfl | rfl | rfl | rfl | rfl | rfl | rfl | rfl) | ⟨n, rfl⟩ | ⟨n, rfl⟩ := mem_headerItems.mp hi <;>
    exact ⟨nofun, nofun, nofun, nofun⟩

/-! ### Reading -/

/-- The register a header field loads (rules R29 to R32). -/
def setField (h : KipHeader) : Instr → KipHeader
  | .kipMagic w => { h with magic := w }
  | .kipName v => { h with name := v }
  | .kipTitleId v => { h with titleId := v }
  | .kipProcessCategory v => { h with processCategory := v }
  | .kipThreadPriority v => { h with threadPriority := v }
  | .kipDefaultCpuId v => { h with defaultCpuId := v }
  | .kipReserved v => { h with reserved := v }
  | .kipFlags v => { h with flags := v }
  | .kipSeg i d => { h with seg := h.seg.set i d }
  | .kipCap j v => { h with cap := h.cap.set j v }
  | _ => h

theorem loadItem_of_mem {g : KipHeader} {i : Instr} (hi : i ∈ headerItems g) (s : State) :
    loadItem i s = .ok (s.withHdr (setField s.kip.hdr i)) := by
  obtain (rfl | rfl | rfl | rfl | rfl | rfl | rfl | rfl) | ⟨n, rfl⟩ | ⟨n, rfl⟩ := mem_headerItems.mp hi <;> rfl

/-- Setting every element of a vector in turn. -/
theorem foldl_set_finRange {α : Type} {n : Nat} (g : Vector α n) :
    ∀ (l : List (Fin n)) (v : Vector α n) (k : Nat) (hk : k < n),
      (l.foldl (fun v i => v.set i.val g[i]) v)[k] = if (⟨k, hk⟩ : Fin n) ∈ l then g[k] else v[k] := by
  intro l
  induction l with
  | nil => intro v k hk; simp
  | cons i l ih =>
    intro v k hk
    rw [List.foldl_cons, ih]
    by_cases hmem : (⟨k, hk⟩ : Fin n) ∈ l
    · simp [hmem]
    · by_cases hik : i.val = k
      · subst hik
        simp
      · have hne : (⟨k, hk⟩ : Fin n) ≠ i := fun h => hik (congrArg Fin.val h).symm
        simp [hmem, hne, Vector.getElem_set_ne, hik]

theorem foldl_set_all {α : Type} {n : Nat} (g v : Vector α n) :
    (List.finRange n).foldl (fun v i => v.set i.val g[i]) v = g :=
  Vector.ext fun k hk => by rw [foldl_set_finRange]; simp

theorem foldl_setField_seg (g : KipHeader) : ∀ (l : List (Fin 6)) (h : KipHeader),
    (l.map fun i => Instr.kipSeg i g.seg[i]).foldl setField h =
      { h with seg := l.foldl (fun v i => v.set i.val g.seg[i]) h.seg } := by
  intro l
  induction l with
  | nil => exact fun _ => rfl
  | cons i l ih => exact fun h => ih _

theorem foldl_setField_cap (g : KipHeader) : ∀ (l : List (Fin 32)) (h : KipHeader),
    (l.map fun i => Instr.kipCap i g.cap[i]).foldl setField h =
      { h with cap := l.foldl (fun v i => v.set i.val g.cap[i]) h.cap } := by
  intro l
  induction l with
  | nil => exact fun _ => rfl
  | cons i l ih => exact fun h => ih _

/-- All the fields loaded in turn make the image. -/
theorem foldl_setField_headerItems (g h : KipHeader) :
    (headerItems g).foldl setField h = { g with magic := Config.kipMagic } := by
  rw [headerItems, List.foldl_append, List.foldl_append, foldl_setField_seg, foldl_setField_cap, foldl_set_all,
    foldl_set_all]
  rfl

theorem itemLen_of_header {p : Slot} (h : inHeader p = true) (s : State) : itemLen p s = s.mem.inp.len := if_pos h

theorem itemBuf_of_header {p : Slot} (h : inHeader p = true) (s : State) : itemBuf p s = s.mem.inp := if_pos h

/-- A header field lies inside the first 256 bytes of the file, where the length checks find it (rules R29 to R31). -/
theorem field_inside {h : KipHeader} {i : Instr} (hi : i ∈ headerItems h) (n hdr : Nat) :
    inHeader i.slot = true ∧ itemOffset i.slot n hdr = some (fieldOffset i.slot) ∧
      fieldOffset i.slot + i.slot.size ≤ 256 ∧ (256 ≤ n → itemCheck i.slot n = none) := by
  obtain (rfl | rfl | rfl | rfl | rfl | rfl | rfl | rfl) | ⟨k, rfl⟩ | ⟨k, rfl⟩ := mem_headerItems.mp hi
  case inl.inl => exact ⟨rfl, rfl, Nat.le_of_ble_eq_true rfl, fun hn => if_neg (by omega)⟩
  case inr.inl =>
    have hk := k.isLt
    refine ⟨rfl, rfl, ?_, fun hn => if_neg (Nat.not_lt.mpr hn)⟩
    show 0x20 + 16 * k.val + 16 ≤ 256
    omega
  case inr.inr =>
    have hk := k.isLt
    refine ⟨rfl, rfl, ?_, fun hn => if_neg (Nat.not_lt.mpr hn)⟩
    show 0x80 + 4 * k.val + 4 ≤ 256
    omega
  all_goals exact ⟨rfl, rfl, Nat.le_of_ble_eq_true rfl, fun hn => if_neg (Nat.not_lt.mpr hn)⟩

/-- One field of a file whose magic matches, read and loaded. -/
theorem step_loads_field {s : State} {i : Instr} (hlen : 256 ≤ s.mem.inp.len)
    (hmagic : (readHeader s.mem.inp).magic = Config.kipMagic) (hi : i ∈ headerItems (readHeader s.mem.inp))
    (hseq : s.seq = .load i.slot) {ps : List Slot} (hnext : nextField i.slot = ps.head?) :
    step s = .next ((s.withHdr (setField s.kip.hdr i)).withSeq (seqBefore .load ps)) := by
  obtain ⟨hheader, hoffset, hinside, hcheck⟩ := field_inside hi s.mem.inp.len (blockHdrLen s)
  have hread : readItem i.slot (fieldOffset i.slot) s = .got i s := by
    refine readItem_of_word ?_ ?_ <;> rw [itemBuf_of_header hheader]
    · omega
    · exact decodeWord_fieldWord hmagic hi
  rw [step_of_load hseq (by rw [itemLen_of_header hheader]; exact hcheck hlen)
      (by rw [itemLen_of_header hheader]; exact hoffset) hread,
    exec_loaded (isStructural_of_mem hi) (by simp [hseq]), loadItem_of_mem hi, Ctl.outcome_ok,
    settle_next (t := s.withHdr (setField s.kip.hdr i)) hseq,
    nextSeq_load_eq (slot_ne_pad_of_mem hi), hnext, seqBefore]

/-- The fields of a list read in turn. -/
theorem runSteps_loads_fields {f : Buffer} (hlen : 256 ≤ f.len) (hmagic : (readHeader f).magic = Config.kipMagic) :
    ∀ (items : List Instr) (s : State), (∀ i ∈ items, i ∈ headerItems (readHeader f)) →
      chained (items.map Instr.slot) = true → s.mem.inp = f → s.seq = seqBefore .load (items.map Instr.slot) →
      runSteps items.length s = .next ((s.withHdr (items.foldl setField s.kip.hdr)).withSeq .idle) := by
  intro items
  induction items with
  | nil =>
    intro s _ _ _ hseq
    have hsame : (s.withHdr s.kip.hdr).withSeq .idle = s.withSeq s.seq := by rw [hseq]; rfl
    exact congrArg Host.Outcome.next hsame.symm
  | cons i items ih =>
    intro s hmem hchain hinp hseq
    obtain ⟨hnext, hrest⟩ := chained_cons.mp hchain
    have hstep := step_loads_field (s := s) (by rw [hinp]; exact hlen) (by rw [hinp]; exact hmagic)
      (by rw [hinp]; exact hmem i List.mem_cons_self) hseq hnext
    rw [List.length_cons, runSteps_succ_of_step hstep,
      ih ((s.withHdr (setField s.kip.hdr i)).withSeq (seqBefore .load (items.map Instr.slot)))
        (fun j hj => hmem j (List.mem_cons_of_mem i hj)) hrest hinp rfl]
    rfl

/-! ### Writing -/

theorem itemToEmit_of_mem {s : State} {i : Instr} (hi : i ∈ headerItems s.kip.hdr) :
    itemToEmit i.slot s = some i := by
  obtain (rfl | rfl | rfl | rfl | rfl | rfl | rfl | rfl) | ⟨n, rfl⟩ | ⟨n, rfl⟩ := mem_headerItems.mp hi <;> rfl

/-- One field of the image, written. -/
theorem step_emits_field {s : State} {i : Instr} (hi : i ∈ headerItems s.kip.hdr) (hseq : s.seq = .emit i.slot)
    {ps : List Slot} (hnext : nextField i.slot = ps.head?) :
    step s = .next ((appendOut (encode i) s).withSeq (seqBefore .emit ps)) := by
  rw [step_of_emit hseq (itemToEmit_of_mem hi), exec_emitted (isStructural_of_mem hi) hseq,
    settle_next (t := appendOut (encode i) s) hseq,
    nextSeq_emit_eq (slot_ne_pad_of_mem hi), hnext, seqBefore]

/-- The fields of a list written in turn. -/
theorem runSteps_emits_fields : ∀ (items : List Instr) (s : State), (∀ i ∈ items, i ∈ headerItems s.kip.hdr) →
    chained (items.map Instr.slot) = true → s.mem.out.wf = true → s.seq = seqBefore .emit (items.map Instr.slot) →
    ∃ t, runSteps items.length s = .next t ∧ t = { s with mem := { s.mem with out := t.mem.out }, seq := .idle } ∧
      t.mem.out.toBytes = s.mem.out.toBytes ++ items.flatMap encode := by
  intro items
  induction items with
  | nil =>
    intro s _ _ _ hseq
    refine ⟨s, rfl, ?_, by simp⟩
    have hsame : s = s.withSeq s.seq := rfl
    rw [hseq] at hsame
    exact hsame
  | cons i items ih =>
    intro s hmem hchain hwf hseq
    obtain ⟨hnext, hrest⟩ := chained_cons.mp hchain
    have hstep := step_emits_field (hmem i List.mem_cons_self) hseq hnext
    obtain ⟨t, hrun, ht, hout⟩ := ih ((appendOut (encode i) s).withSeq (seqBefore .emit (items.map Instr.slot)))
      (fun j hj => hmem j (List.mem_cons_of_mem i hj)) hrest
      (Buffer.append_wf (encode i) hwf) rfl
    refine ⟨t, by rw [List.length_cons, runSteps_succ_of_step hstep, hrun], ht, hout.trans ?_⟩
    show (s.mem.out.append (encode i)).toBytes ++ _ = _
    rw [Buffer.toBytes_append _ hwf, List.flatMap_cons, List.append_assoc]

theorem length_headerItems (h : KipHeader) : (headerItems h).length = 46 := by simp [headerItems]

theorem seqBefore_headerItems (c : Slot → Seq) (h : KipHeader) :
    seqBefore c ((headerItems h).map Instr.slot) = c .kipMagic := by
  rw [map_slot_headerItems]
  rfl

/-- Settles O52: the fields follow one another from the magic on, and the 46 loads make the image, the 46 writes its
bytes. -/
theorem headerStepsMatchImage : Obligations.HeaderStepsMatchImage := by
  have hchain (h : KipHeader) : chained ((headerItems h).map Instr.slot) = true := by
    rw [map_slot_headerItems]
    exact headerSlots_chained
  constructor
  · intro s hseq hlen hmagic
    have hrun := runSteps_loads_fields hlen hmagic (headerItems (readHeader s.mem.inp)) s (fun _ hi => hi) (hchain _) rfl
      (hseq.trans (seqBefore_headerItems _ _).symm)
    rw [length_headerItems, foldl_setField_headerItems, ← hmagic] at hrun
    exact hrun
  · intro s hseq hwf
    have hrun := runSteps_emits_fields (headerItems s.kip.hdr) s (fun _ hi => hi) (hchain _) (Memory.wf_iff.mp hwf).2.1
      (hseq.trans (seqBefore_headerItems _ _).symm)
    rwa [length_headerItems] at hrun

end Sys2Proof.Machine
end

section
/-! What one token of a running loop does, in either mode: it never faults, it touches DEC's registers and bytes of `O`
alone, and it makes progress (rules R17, R24 to R26, R52, R169 to R176, R188). -/

namespace Sys2Proof.Machine

/-! ### The effect of a token -/

/-- Both cursors stand inside the decoded region, and the region inside its buffer (rules R24, R25, R52). -/
structure Inside (s : State) : Prop where
  read : s.dec.r ≤ s.dec.outLen
  write : s.dec.w ≤ s.dec.outLen
  region : s.dec.base + s.dec.outLen ≤ (oBuf s).len

theorem tokenOk_iff {s : State} : tokenOk s ↔ s.dec.run = .run ∧ Inside s :=
  ⟨fun ⟨hrun, hread, hwrite, hregion⟩ => ⟨hrun, hread, hwrite, hregion⟩,
    fun ⟨hrun, hread, hwrite, hregion⟩ => ⟨hrun, hread, hwrite, hregion⟩⟩

/-- Everything an operation of the token loop leaves alone: all but the cursors, the flags and bytes of `O`. -/
structure TokenEffect (s t : State) : Prop where
  eq : t = { s with dec := t.dec, mem := t.mem }
  run : t.dec.run = s.dec.run
  base : t.dec.base = s.dec.base
  outLen : t.dec.outLen = s.dec.outLen
  r : t.dec.r ≤ s.dec.r
  w : t.dec.w ≤ s.dec.w
  k : s.dec.k ≤ 8 → t.dec.k ≤ 8
  len : (oBuf t).len = (oBuf s).len
  others : ∀ b, b ≠ oName s → t.mem.buf b = s.mem.buf b
  wf : s.mem.wf = true → t.mem.wf = true

theorem TokenEffect.refl (s : State) : TokenEffect s s :=
  ⟨rfl, rfl, rfl, rfl, Nat.le_refl _, Nat.le_refl _, id, rfl, fun _ _ => rfl, id⟩

theorem TokenEffect.cmd {s t : State} (h : TokenEffect s t) : t.cmd = s.cmd := by rw [h.eq]

theorem TokenEffect.seq {s t : State} (h : TokenEffect s t) : t.seq = s.seq := by rw [h.eq]

theorem TokenEffect.kip {s t : State} (h : TokenEffect s t) : t.kip = s.kip := by rw [h.eq]

theorem TokenEffect.trans {s t u : State} (h : TokenEffect s t) (g : TokenEffect t u) : TokenEffect s u where
  eq := g.eq.trans (by rw [h.eq])
  run := g.run.trans h.run
  base := g.base.trans h.base
  outLen := g.outLen.trans h.outLen
  r := Nat.le_trans g.r h.r
  w := Nat.le_trans g.w h.w
  k hk := g.k (h.k hk)
  len := g.len.trans h.len
  others b hb := (g.others b (by rwa [oName_eq h.cmd])).trans (h.others b hb)
  wf hwf := g.wf (h.wf hwf)

theorem Inside.after {s t : State} (h : Inside s) (g : TokenEffect s t) : Inside t where
  read := g.outLen ▸ Nat.le_trans g.r h.read
  write := g.outLen ▸ Nat.le_trans g.w h.write
  region := g.base ▸ g.outLen ▸ g.len ▸ h.region

/-- The input is never DEC's working buffer. -/
theorem TokenEffect.inp {s t : State} (h : TokenEffect s t) : t.mem.inp = s.mem.inp :=
  h.others .inp (by unfold oName; split <;> nofun)

/-- Moving the cursors and loading the flags touches no byte. -/
theorem TokenEffect.withDec {s : State} {d : DecRegs} (hrun : d.run = s.dec.run) (hbase : d.base = s.dec.base)
    (houtLen : d.outLen = s.dec.outLen) (hr : d.r ≤ s.dec.r) (hw : d.w ≤ s.dec.w) (hk : s.dec.k ≤ 8 → d.k ≤ 8) :
    TokenEffect s (s.withDec d) :=
  ⟨rfl, hrun, hbase, houtLen, hr, hw, hk, rfl, fun _ _ => rfl, id⟩

/-- A store at a byte that exists. -/
theorem TokenEffect.store {s : State} {k : Nat} (b : Byte) (hk : s.dec.base + k < (oBuf s).len) :
    ∃ t, oSet s k b = some t ∧ TokenEffect s t ∧ t.dec = s.dec := by
  cases hstore : oSet s k b with
  | none => exact absurd (oSet_eq_none.mp hstore) (Nat.not_le.mpr hk)
  | some t =>
    obtain ⟨-, ht, hlen, hinp, hout, hm, hwf⟩ := oSet_inv hstore
    have hdec : t.dec = s.dec := by rw [ht]
    refine ⟨t, rfl, ⟨?_, by rw [hdec], by rw [hdec], by rw [hdec], by rw [hdec], by rw [hdec], by rw [hdec]; exact id, hlen,
      fun n hn => ?_, hwf⟩, hdec⟩
    · rw [hdec]
      exact ht
    · unfold oName at hn
      by_cases hop : s.cmd.op = .blzDecompressP
      · rw [if_pos hop] at hn
        cases n with
        | inp => exact hinp
        | out => exact hout hop
        | m => exact absurd rfl hn
      · rw [if_neg hop] at hn
        cases n with
        | inp => exact hinp
        | out => exact absurd rfl hn
        | m => exact hm hop

/-- How an operation of the token loop may end: going on with DEC's registers as told, or raising `OutOfBounds`, and
never in a fault. -/
def TokenEnds (s : State) (d : DecRegs) : Ctl → Prop
  | .ok t => TokenEffect s t ∧ t.dec = d
  | .raised k _ t => k = .outOfBounds ∧ TokenEffect s t
  | .fault _ => False

theorem TokenEnds.after {s t : State} {d : DecRegs} {c : Ctl} (h : TokenEffect s t) (hc : TokenEnds t d c) :
    TokenEnds s d c := by
  cases c with
  | ok u => exact ⟨h.trans hc.1, hc.2⟩
  | raised k info u => exact ⟨hc.1, h.trans hc.2⟩
  | fault f => exact hc

/-! ### Each token -/

section Tokens
variable {s : State}

theorem decCtrl_ends (f : Byte) :
    TokenEnds s { s.dec with r := s.dec.r - 1, ctrl := f, k := 8 } (decCtrl f s) := by
  by_cases hr : s.dec.r < 1
  · rw [decCtrl, if_pos hr]
    exact ⟨rfl, .refl s⟩
  · rw [decCtrl_of_room (Nat.le_of_not_lt hr)]
    exact ⟨.withDec rfl rfl rfl (Nat.sub_le ..) (Nat.le_refl _) (fun _ => Nat.le_refl 8), rfl⟩

theorem decLit_ends (b : Byte) (hin : Inside s) (hw : s.dec.w ≠ 0) :
    TokenEnds s { s.dec with r := s.dec.r - 1, w := s.dec.w - 1 } (decLit b s) := by
  by_cases hr : s.dec.r < 1
  · rw [decLit, if_pos hr]
    exact ⟨rfl, .refl s⟩
  · have hmoved : TokenEffect s (litStart s) := .withDec rfl rfl rfl (Nat.sub_le ..) (Nat.sub_le ..) id
    have hwrite := hin.write
    have hregion := hin.region
    obtain ⟨t, hstore, heffect, hdec⟩ := TokenEffect.store (s := litStart s) (k := s.dec.w - 1) b
      (show s.dec.base + (s.dec.w - 1) < (oBuf s).len by omega)
    rw [decLit_eq_store (Nat.le_of_not_lt hr) (Nat.pos_of_ne_zero hw), hstore]
    exact ⟨hmoved.trans heffect, hdec⟩

/-- The source test of each copied byte holds source and place inside the region (rule R176 d). -/
theorem copyBack_ends (n : Nat) : ∀ {s : State}, Inside s → n ≤ s.dec.w →
    TokenEnds s { s.dec with w := s.dec.w - n } (copyBack n s) := by
  induction n with
  | zero => exact fun _ _ => ⟨.refl _, rfl⟩
  | succ n ih =>
    intro s hin hn
    have hmoved : TokenEffect s (copyStart s) := .withDec rfl rfl rfl (Nat.le_refl _) (Nat.sub_le ..) id
    by_cases hsrc : s.dec.outLen ≤ s.dec.w - 1 + s.dec.off
    · rw [copyBack_raises hsrc]
      exact ⟨rfl, hmoved⟩
    · have hwrite := hin.write
      have hregion := hin.region
      have hsource : s.dec.base + (s.dec.w - 1 + s.dec.off) < (oBuf s).len := by omega
      obtain ⟨b, hload⟩ := Option.isSome_iff_exists.mp (Buffer.get_isSome.mpr hsource)
      obtain ⟨t, hstore, heffect, hdec⟩ := TokenEffect.store (s := copyStart s) (k := s.dec.w - 1) b
        (show s.dec.base + (s.dec.w - 1) < (oBuf s).len by omega)
      have hall := hmoved.trans heffect
      have hw : t.dec.w = s.dec.w - 1 := by rw [hdec]; rfl
      have hrest := ih (hin.after hall) (by omega)
      have hcopied : { t.dec with w := t.dec.w - n } = { s.dec with w := s.dec.w - (n + 1) } := by
        rw [hw, hdec, Nat.sub_sub, Nat.add_comm 1]
        rfl
      rw [copyBack_of_source (Nat.lt_of_not_le hsrc) hload hstore, ← hcopied]
      exact .after hall hrest

theorem decRef_ends (l : BitVec 4) (o : BitVec 12) (hin : Inside s) :
    TokenEnds s { s.dec with r := s.dec.r - 2, w := s.dec.w - min (refLen l) s.dec.w
                             len := min (refLen l) s.dec.w, off := refOff o } (decRef l o s) := by
  by_cases hr : s.dec.r < 2
  · rw [decRef, if_pos hr]
    exact ⟨rfl, .refl s⟩
  · have hstart : TokenEffect s (refStart l o s) := .withDec rfl rfl rfl (Nat.sub_le ..) (Nat.le_refl _) id
    rw [decRef_eq_copyBack (Nat.le_of_not_lt hr)]
    exact .after hstart (copyBack_ends _ (hin.after hstart) (Nat.min_le_right ..))

theorem tokenState_effect : TokenEffect s (tokenState s) := by
  unfold tokenState
  split
  · exact .refl s
  · exact .withDec rfl rfl rfl (Nat.le_refl _) (Nat.le_refl _) fun hk => Nat.le_trans (Nat.sub_le ..) hk

end Tokens

/-! ### One turn of the loop -/

/-- A turn that goes on: it consumed a byte, and it either loaded eight flags or consumed one and wrote a byte
(rules R24 to R26, R170). -/
structure Turn (s t : State) : Prop where
  effect : TokenEffect s t
  r_lt : t.dec.r < s.dec.r
  progress : (s.dec.k = 0 ∧ t.dec.k = 8 ∧ t.dec.w = s.dec.w) ∨
    (0 < s.dec.k ∧ t.dec.k = s.dec.k - 1 ∧ t.dec.w < s.dec.w)

/-- How a turn may end. -/
def TurnEnds (s : State) : Ctl → Prop
  | .ok t => Turn s t
  | .raised k _ t => k = .outOfBounds ∧ TokenEffect s t
  | .fault _ => False

theorem TurnEnds.of_token {s t : State} {d : DecRegs} {c : Ctl} (h : TokenEffect s t) (hc : TokenEnds t d c)
    (hr : d.r < s.dec.r) (hprogress : (s.dec.k = 0 ∧ d.k = 8 ∧ d.w = s.dec.w) ∨
      (0 < s.dec.k ∧ d.k = s.dec.k - 1 ∧ d.w < s.dec.w)) : TurnEnds s c := by
  cases c with
  | ok u =>
    obtain ⟨heffect, rfl⟩ := hc
    exact ⟨h.trans heffect, hr, hprogress⟩
  | raised k info u => exact ⟨hc.1, h.trans hc.2⟩
  | fault f => exact hc

/-- What fetching a token finds while the loop runs: the bytes are there, and they decode to a token that fits the flag
(rules R80, R170). -/
theorem fetched_of_inside {s : State} (hin : Inside s) (hr : (tokenSlot s).size ≤ s.dec.r) :
    ∃ bs i rest, (oBuf s).slice (s.dec.base + (s.dec.r - (tokenSlot s).size)) (tokenSlot s).size = some bs ∧
      decode (tokenSlot s) bs = .ok (i, rest) ∧ i.slot = tokenSlot s := by
  have hread := hin.read
  have hregion := hin.region
  have hslice := Buffer.slice_eq (b := oBuf s) (i := s.dec.base + (s.dec.r - (tokenSlot s).size))
    (n := (tokenSlot s).size) (by omega)
  obtain ⟨f, h⟩ | ⟨b, h⟩ | ⟨l, o, h⟩ := decode_of_token (tokenSlot_cases s) (cellsSlice_length ..).ge
  all_goals exact ⟨_, _, _, hslice, h, (encodeOfDecodeGivesBytes _ _ _ _ h rfl).1⟩

/-- Every item has at least one byte. -/
theorem slot_size_pos (p : Slot) : 0 < p.size := by
  cases p <;> exact Nat.succ_pos _

/-- One turn of a running loop. -/
theorem decodeToken_ends {s : State} (hin : Inside s) (hw : s.dec.w ≠ 0) : TurnEnds s (decodeToken s) := by
  by_cases hr : s.dec.r < (tokenSlot s).size
  · rw [decodeToken_of_short hw hr]
    exact ⟨rfl, tokenState_effect⟩
  · obtain ⟨bs, i, rest, hslice, hdecode, hslot⟩ := fetched_of_inside hin (Nat.le_of_not_lt hr)
    rw [decodeToken_of_room hw (Nat.le_of_not_lt hr) hslice hdecode]
    have hstate : TokenEffect s (tokenState s) := tokenState_effect
    have hin1 := hin.after hstate
    have hsize := slot_size_pos (tokenSlot s)
    by_cases hk : s.dec.k = 0
    · rw [tokenState_of_empty hk] at hstate ⊢
      rw [tokenSlot_of_empty hk] at hslot
      cases i with
      | ctrl f =>
        refine .of_token hstate (decCtrl_ends f) ?_ (.inl ⟨hk, rfl, rfl⟩)
        show s.dec.r - 1 < s.dec.r
        omega
      | _ => cases hslot
    · have hpos := Nat.pos_of_ne_zero hk
      rw [tokenState_of_flag hpos] at hstate hin1 ⊢
      rw [tokenSlot_of_flag hpos] at hslot
      cases i with
      | lit b =>
        refine .of_token hstate (decLit_ends b hin1 hw) ?_ (.inr ⟨hpos, rfl, ?_⟩)
        · show s.dec.r - 1 < s.dec.r
          omega
        · show s.dec.w - 1 < s.dec.w
          omega
      | ref l o =>
        refine .of_token hstate (decRef_ends l o hin1) ?_ (.inr ⟨hpos, rfl, ?_⟩)
        · show s.dec.r - 2 < s.dec.r
          omega
        · show s.dec.w - min (refLen l) s.dec.w < s.dec.w
          have hlen : 0 < refLen l := Nat.succ_pos _
          omega
      | _ => split at hslot <;> cases hslot

/-- A turn goes on or raises. -/
theorem turn_cases {s : State} (hin : Inside s) (hw : s.dec.w ≠ 0) :
    (∃ t, decodeToken s = .ok t ∧ Turn s t) ∨
      ∃ info t, decodeToken s = .raised .outOfBounds info t ∧ TokenEffect s t := by
  have hturn := decodeToken_ends hin hw
  cases hc : decodeToken s with
  | ok t =>
    rw [hc] at hturn
    exact .inl ⟨t, rfl, hturn⟩
  | raised k info t =>
    rw [hc] at hturn
    obtain ⟨rfl, heffect⟩ := hturn
    exact .inr ⟨info, t, rfl, heffect⟩
  | fault f =>
    rw [hc] at hturn
    exact hturn.elim

/-! ### The loop -/

/-- How a loop may end: with `DEC.w = 0`, or raising `OutOfBounds`, and never in a fault. -/
def LoopEnds (s : State) : Ctl → Prop
  | .ok t => TokenEffect s t ∧ t.dec.w = 0
  | .raised k _ t => k = .outOfBounds ∧ TokenEffect s t
  | .fault _ => False

theorem LoopEnds.after {s t : State} {c : Ctl} (h : TokenEffect s t) (hc : LoopEnds t c) : LoopEnds s c := by
  cases c with
  | ok u => exact ⟨h.trans hc.1, hc.2⟩
  | raised k info u => exact ⟨hc.1, h.trans hc.2⟩
  | fault f => exact hc

theorem tokenLoop_of_end {s : State} (fuel : Nat) (hw : s.dec.w = 0) : tokenLoop fuel s = .ok s := by
  cases fuel <;> exact if_pos hw

/-- A loop that raises does so with any number of turns left. -/
theorem tokenLoop_of_raised {s t : State} {k : ErrKind} {info : Info} (fuel : Nat) (hw : s.dec.w ≠ 0)
    (h : decodeToken s = .raised k info t) : tokenLoop fuel s = .raised k info t := by
  cases fuel with
  | zero => exact (if_neg hw).trans h
  | succ n => exact (if_neg hw).trans (by rw [h]; rfl)

/-- A turn that goes on leaves the rest of the loop one turn fewer; with no byte below `DEC.r` there is none. -/
theorem tokenLoop_of_turn {s t : State} {fuel : Nat} (hw : s.dec.w ≠ 0) (hr : s.dec.r ≤ fuel) (hturn : Turn s t)
    (h : decodeToken s = .ok t) : ∃ n, fuel = n + 1 ∧ t.dec.r ≤ n ∧ tokenLoop fuel s = tokenLoop n t := by
  have hlt := hturn.r_lt
  obtain ⟨n, rfl⟩ := Nat.exists_eq_add_one.mpr (show 0 < fuel by omega)
  exact ⟨n, rfl, by omega, (if_neg hw).trans (by rw [h]; rfl)⟩

/-- The loop with as many turns as bytes below `DEC.r`: at `DEC.r = 0` a further token raises (rule R176). -/
theorem tokenLoop_ends (fuel : Nat) : ∀ {s : State}, Inside s → s.dec.r ≤ fuel → LoopEnds s (tokenLoop fuel s) := by
  induction fuel using Nat.strong_induction_on with
  | _ fuel ih =>
    intro s hin hr
    by_cases hw : s.dec.w = 0
    · rw [tokenLoop_of_end fuel hw]
      exact ⟨.refl s, hw⟩
    obtain ⟨t, hc, hturn⟩ | ⟨info, t, hc, heffect⟩ := turn_cases hin hw
    · obtain ⟨n, rfl, hrn, hloop⟩ := tokenLoop_of_turn hw hr hturn hc
      rw [hloop]
      exact .after hturn.effect (ih n (Nat.lt_succ_self n) (hin.after hturn.effect) hrn)
    · rw [tokenLoop_of_raised fuel hw hc]
      exact ⟨rfl, heffect⟩

end Sys2Proof.Machine
end

section
/-! The token loop stepped one token at a time (rules R20, R166, R169, R188). -/

namespace Sys2Proof.Machine

/-- A token executed as an instruction is the token executed inside a command. -/
theorem exec_token {i : Instr} (h : i.slot = .ctrl ∨ i.slot = .lit ∨ i.slot = .ref) (s : State) :
    exec i s = (runToken i s).outcome := by
  cases i with
  | ctrl | lit | ref => rfl
  | _ => obtain h | h | h := h <;> cases h

/-- At the token position with bytes to decode a step is a turn of the loop. -/
theorem step_token {s : State} (hseq : s.seq = .token) (hin : Inside s) (hw : s.dec.w ≠ 0) :
    step s = (decodeToken s).outcome := by
  have hpos := Nat.pos_of_ne_zero hw
  by_cases hr : s.dec.r < (tokenSlot s).size
  · rw [decodeToken_of_short hw hr]
    exact step_token_raises hseq hpos hr
  · obtain ⟨bs, i, rest, hslice, hdecode, hslot⟩ := fetched_of_inside hin (Nat.le_of_not_lt hr)
    rw [step_token_executes hseq hpos (Nat.le_of_not_lt hr) hslice hdecode,
      decodeToken_of_room hw (Nat.le_of_not_lt hr) hslice hdecode]
    exact exec_token (hslot ▸ tokenSlot_cases s) _

theorem step_token_end {s : State} (hseq : s.seq = .token) (hw : s.dec.w = 0) : step s = .next (endDecode s) := by
  simp only [step, fetch, hseq, fetchToken, hw, if_true]

/-- Settles O18: the step is `endDecode`. -/
theorem tokenLoopEndsAtZero : Obligations.TokenLoopEndsAtZero := fun _ hseq hw => step_token_end hseq hw

/-- A bound on the items and control bytes left: one control byte for each eight items beyond the flags loaded. -/
def itemsLeft (s : State) : Nat := s.dec.w + (s.dec.w - s.dec.k + 7) / 8

theorem itemsLeft_decreases {s t : State} (h : Turn s t) (hw : s.dec.w ≠ 0) : itemsLeft t < itemsLeft s := by
  unfold itemsLeft
  obtain ⟨h0, h8, hwt⟩ | ⟨hpos, hk, hwt⟩ := h.progress <;> omega

/-- Any measure that every turn lowers bounds the number of steps to the end of the command. -/
theorem runSteps_halts_of_measure {μ : State → Nat} (hμ : ∀ s t, Turn s t → s.dec.w ≠ 0 → μ t < μ s) :
    ∀ (n : Nat) (s : State), s.seq = .token → Inside s → μ s ≤ n → ∃ t, runSteps (n + 1) s = .next t ∧ t.seq = .idle := by
  intro n
  induction n using Nat.strong_induction_on with
  | _ n ih =>
    intro s hseq hin hn
    by_cases hw : s.dec.w = 0
    · exact ⟨_, (runSteps_succ_of_step (step_token_end hseq hw)).trans (runSteps_of_idle rfl _), rfl⟩
    have hstep := step_token hseq hin hw
    obtain ⟨t, hc, hturn⟩ | ⟨info, t, hc, -⟩ := turn_cases hin hw <;> rw [hc] at hstep
    · have hlt := hμ s t hturn hw
      obtain ⟨m, rfl⟩ := Nat.exists_eq_add_one.mpr (show 0 < n by omega)
      rw [runSteps_succ_of_step hstep]
      exact ih m (Nat.lt_succ_self m) t (hturn.effect.seq.trans hseq) (hin.after hturn.effect) (by omega)
    · exact ⟨_, (runSteps_succ_of_step hstep).trans (runSteps_of_idle rfl _), rfl⟩

/-- Settles O21: every turn lowers `DEC.r`, and every turn lowers `itemsLeft`. -/
theorem tokenLoopHalts : Obligations.TokenLoopHalts := by
  rintro s ⟨-, -, hpos⟩ hseq
  rw [seqOk, hseq] at hpos
  obtain ⟨-, hin⟩ := tokenOk_iff.mp hpos
  refine ⟨runSteps_halts_of_measure (μ := fun s => s.dec.r) (fun _ _ h _ => h.r_lt) _ s hseq hin (Nat.le_refl _),
    runSteps_halts_of_measure (fun _ _ => itemsLeft_decreases) (s.dec.w + s.dec.w / 8 + 1) s hseq hin ?_⟩
  unfold itemsLeft
  omega

/-- Stepping the loop to its end is the loop run at once, and the result of a decode that went to its end. -/
theorem runSteps_token_eq_tokenLoop (n : Nat) : ∀ (s : State), s.seq = .token → Inside s → s.dec.r ≤ n →
    runSteps (n + 1) s = ((tokenLoop n s).andThen fun t => .ok (endDecode t)).outcome := by
  induction n using Nat.strong_induction_on with
  | _ n ih =>
    intro s hseq hin hr
    by_cases hw : s.dec.w = 0
    · rw [runSteps_succ_of_step (step_token_end hseq hw), tokenLoop_of_end n hw]
      exact runSteps_of_idle rfl _
    have hstep := step_token hseq hin hw
    obtain ⟨t, hc, hturn⟩ | ⟨info, t, hc, -⟩ := turn_cases hin hw <;> rw [hc] at hstep
    · obtain ⟨m, rfl, hrm, hloop⟩ := tokenLoop_of_turn hw hr hturn hc
      rw [runSteps_succ_of_step hstep, hloop]
      exact ih m (Nat.lt_succ_self m) t (hturn.effect.seq.trans hseq) (hin.after hturn.effect) hrm
    · rw [runSteps_succ_of_step hstep, tokenLoop_of_raised n hw hc]
      exact runSteps_of_idle rfl _

end Sys2Proof.Machine
end

section
/-! How a decode ends, in either mode: its kinds, what it leaves alone, and that it never faults (rules R165 to R189). -/

namespace Sys2Proof.Machine

/-! ### Where the token loop starts -/

/-- A capacity above the real buffer is refused before a decode starts (rule R183; U10). -/
def CapacityReal (s : State) : Prop := s.cmd.op = .blzDecompressP → s.cmd.cap ≤ s.mem.m.len

/-- The registers of a proper footer FTR accepts: the decoded region ends where the block and its extra bytes do, and the
tokens lie inside the block (rule R156). -/
structure ProperFooter (u : State) : Prop where
  regionEnd : u.ftr.prefixLen + u.ftr.outLen = blockLen u + u.ftr.extraSize.toNat
  tokensInside : u.ftr.prefixLen + u.ftr.readStart ≤ blockLen u
  readInside : u.ftr.readStart ≤ u.ftr.outLen

/-- Where FTR goes on it has ended with `OK`, the two degenerate flags agree, and a proper footer delimits the region
(rules R153, R156). -/
theorem footer_eq_ok {s u : State} (h : footer s = .ok u) :
    u.status.err = .ok ∧ u.status.degenerate = u.ftr.degenerate ∧ (u.ftr.degenerate = false → ProperFooter u) := by
  obtain ⟨-, hshort⟩ | ⟨-, v, total, hdr, extra, -, -, -, -, hfooter⟩ := footer_cases s
  · rw [hshort] at h
    cases h
  · rw [hfooter] at h
    obtain ⟨-, -, htests⟩ | ⟨-, -, htests⟩ | ⟨-, info, htests⟩ | ⟨-, htotal, h12, hhdr, -, -, htests⟩ :=
      footerTests_cases v <;> rw [htests] at h <;> cases h
    · exact ⟨rfl, rfl, nofun⟩
    · refine ⟨rfl, rfl, fun _ => ⟨?_, ?_, ?_⟩⟩
      · show blockLen v - _ + (_ + _) = blockLen v + v.ftr.extraSize.toNat
        omega
      · show blockLen v - _ + (_ - _) ≤ blockLen v
        omega
      · show _ - _ ≤ _ + _
        omega

/-- An accepted capacity holds the output (rule R184). -/
theorem room_of_capacityTest {u v : State} (h : capacityTest u = .ok v) (hop : u.cmd.op = .blzDecompressP) :
    blockLen u + u.ftr.extraSize.toNat ≤ u.cmd.cap := by
  by_contra hover
  rw [capacityTest_of_overflow hop (Nat.lt_of_not_le hover)] at h
  cases h

theorem startDecode_dec (u : State) : (startDecode u).dec = { u.dec with
    base := u.ftr.prefixLen, outLen := u.ftr.outLen, r := u.ftr.readStart, w := u.ftr.outLen, k := 0, run := .run } := rfl

theorem startDecode_eq (u : State) :
    startDecode u = { u with dec := (startDecode u).dec, mem := (startDecode u).mem, seq := .token } := by
  unfold startDecode allocate
  split <;> rfl

theorem startDecode_cmd (u : State) : (startDecode u).cmd = u.cmd := by rw [startDecode_eq]

/-- DEC's initialisation puts both cursors inside the region, and the region inside its buffer (rules R168, R180, R183). -/
theorem startDecode_inside {u : State} (hproper : ProperFooter u) (hcap : CapacityReal u)
    (htest : capacityTest u = .ok u) : Inside (startDecode u) := by
  obtain ⟨hend, -, hread⟩ := hproper
  refine ⟨hread, Nat.le_refl _, ?_⟩
  show u.ftr.prefixLen + u.ftr.outLen ≤ _
  rw [hend, oBuf, oName_eq (startDecode_cmd u), oName]
  by_cases hop : u.cmd.op = .blzDecompressP
  · rw [if_pos hop, startDecode_mem_of_inPlace hop]
    exact Nat.le_trans (room_of_capacityTest htest hop) (hcap hop)
  · rw [if_neg hop, startDecode, allocate_of_strict hop]
    exact Nat.le_refl _

/-- Allocating touches no buffer but `O`, and the output starts in canonical form (rule R180). -/
theorem startDecode_others (u : State) {b : BufName} (hb : b ≠ oName u) :
    (startDecode u).mem.buf b = u.mem.buf b := by
  unfold oName at hb
  by_cases hop : u.cmd.op = .blzDecompressP
  · rw [startDecode_mem_of_inPlace hop]
  · rw [if_neg hop] at hb
    rw [startDecode, allocate_of_strict hop]
    cases b with
    | out => exact absurd rfl hb
    | inp | m => rfl

theorem startDecode_wf {u : State} (hwf : u.mem.wf = true) : (startDecode u).mem.wf = true := by
  by_cases hop : u.cmd.op = .blzDecompressP
  · rwa [startDecode_mem_of_inPlace hop]
  · obtain ⟨hinp, -, hm⟩ := Memory.wf_iff.mp hwf
    rw [startDecode, allocate_of_strict hop]
    refine Memory.wf_iff.mpr ⟨hinp, Buffer.extend_wf hinp ?_, hm⟩
    rw [blockLen_of_strict hop]
    exact Nat.le_add_right ..

/-! ### The end of a decode -/

/-- What a decode leaves alone: the operands, the KIP registers and every buffer but `O`. -/
structure DecodeKept (s t : State) : Prop where
  cmd : t.cmd = s.cmd
  kip : t.kip = s.kip
  others : ∀ b, b ≠ oName s → t.mem.buf b = s.mem.buf b
  wf : s.mem.wf = true → t.mem.wf = true
  k : s.dec.k ≤ 8 → t.dec.k ≤ 8

theorem DecodeKept.of_sameButFtr {s t : State} (h : SameButFtr s t) : DecodeKept s t :=
  ⟨h.cmd, by rw [h], fun _ _ => by rw [h.mem], fun hwf => by rwa [h.mem], fun hk => by rwa [h.dec]⟩

theorem DecodeKept.trans {s t u : State} (h : DecodeKept s t) (g : DecodeKept t u) : DecodeKept s u where
  cmd := g.cmd.trans h.cmd
  kip := g.kip.trans h.kip
  others b hb := (g.others b (by rwa [oName_eq h.cmd])).trans (h.others b hb)
  wf hwf := g.wf (h.wf hwf)
  k hk := g.k (h.k hk)

theorem DecodeKept.start (u : State) : DecodeKept u (startDecode u) :=
  ⟨startDecode_cmd u, by rw [startDecode_eq], fun _ => startDecode_others u, startDecode_wf, fun _ => Nat.zero_le _⟩

theorem DecodeKept.of_effect {s t : State} (h : TokenEffect s t) : DecodeKept s t :=
  ⟨h.cmd, h.kip, h.others, h.wf, h.k⟩

theorem DecodeKept.degenerate (u : State) : DecodeKept u (degenerateDone u) := by
  by_cases hop : u.cmd.op = .blzDecompressP
  · have hmem := degenerateDone_mem_of_inPlace hop
    refine ⟨?_, ?_, fun _ _ => by rw [hmem], fun hwf => by rwa [hmem], fun hk => ?_⟩ <;>
      simp only [degenerateDone, if_pos hop]
    · rfl
    · rfl
    · exact hk
  · rw [degenerateDone_of_strict hop]
    refine ⟨rfl, rfl, fun b hb => ?_, fun hwf => ?_, id⟩
    · unfold oName at hb
      rw [if_neg hop] at hb
      cases b with
      | out => exact absurd rfl hb
      | inp | m => rfl
    · obtain ⟨hinp, -, hm⟩ := Memory.wf_iff.mp hwf
      exact Memory.wf_iff.mpr ⟨hinp, rfl, hm⟩

/-- How a decode may end: with `OK` and `DEC.run = DONE`; raising `MalformedFooter` before its token loop; or raising
`OutOfBounds` inside it (rules R189, R244). -/
def DecodeEnds (s : State) : Ctl → Prop
  | .ok t => DecodeKept s t ∧ t.status.err = .ok ∧ t.dec.run = .done ∧ (s.seq = .idle → t.seq = .idle)
  | .raised k _ t => k = .malformedFooter ∧ SameButFtr s t ∨ k = .outOfBounds ∧ DecodeKept s t
  | .fault _ => False

theorem degenerateDone_done (u : State) :
    (degenerateDone u).status.err = .ok ∧ (degenerateDone u).dec.run = .done ∧ (degenerateDone u).seq = u.seq := by
  unfold degenerateDone
  dsimp only
  split <;> exact ⟨rfl, rfl, rfl⟩

theorem SameButFtr.seq {s t : State} (h : SameButFtr s t) : t.seq = s.seq := by rw [h]

theorem decodeBody_ends {u : State} (hproper : u.ftr.degenerate = false → ProperFooter u) (hcap : CapacityReal u)
    (htest : capacityTest u = .ok u) : DecodeEnds u (decodeBody u) := by
  unfold decodeBody
  split
  · obtain ⟨herr, hrun, hseq⟩ := degenerateDone_done u
    exact ⟨.degenerate u, herr, hrun, fun hidle => hseq.trans hidle⟩
  next hdeg =>
    have hloop := tokenLoop_ends u.ftr.readStart
      (startDecode_inside (hproper (Bool.eq_false_of_not_eq_true hdeg)) hcap htest) (Nat.le_refl _)
    have hstart := DecodeKept.start u
    cases hc : tokenLoop u.ftr.readStart (startDecode u) with
    | ok t =>
      rw [hc] at hloop
      have hkept := hstart.trans (.of_effect hloop.1)
      exact ⟨⟨hkept.cmd, hkept.kip, hkept.others, hkept.wf, hkept.k⟩, rfl, rfl, fun _ => rfl⟩
    | raised k info t =>
      rw [hc] at hloop
      exact .inr ⟨hloop.1, hstart.trans (.of_effect hloop.2)⟩
    | fault f =>
      rw [hc] at hloop
      exact hloop.elim

/-- Every decode ends, in one of the ways its rules name. -/
theorem decodeBlock_ends {s : State} (hcap : CapacityReal s) : DecodeEnds s (decodeBlock s) := by
  have hftr := footer_keepsAllButFtr s
  unfold decodeBlock
  cases hfooter : footer s with
  | raised k info t =>
    rw [hfooter] at hftr
    exact .inl hftr
  | fault f =>
    rw [hfooter] at hftr
    exact hftr.elim
  | ok u =>
    rw [hfooter] at hftr
    replace hftr : SameButFtr s u := hftr
    have htest := capacityTest_keepsAllButFtr u
    rw [Ctl.andThen_ok]
    cases hc : capacityTest u with
    | raised k info t =>
      rw [hc] at htest
      exact .inl ⟨htest.1, hftr.trans htest.2⟩
    | fault f =>
      rw [hc] at htest
      exact htest.elim
    | ok v =>
      obtain rfl := capacityTest_eq_ok hc
      have hcap' : CapacityReal v := by
        unfold CapacityReal
        rw [hftr.cmd, hftr.mem]
        exact hcap
      have hbody := decodeBody_ends (footer_eq_ok hfooter).2.2 hcap' hc
      rw [Ctl.andThen_ok]
      cases hb : decodeBody v with
      | ok t =>
        rw [hb] at hbody
        obtain ⟨hkept, herr, hrun, hseq⟩ := hbody
        exact ⟨(DecodeKept.of_sameButFtr hftr).trans hkept, herr, hrun, fun hidle => hseq (hftr.seq.trans hidle)⟩
      | raised k info t =>
        rw [hb] at hbody
        exact hbody.imp (fun h => ⟨h.1, hftr.trans h.2⟩) fun h => ⟨h.1, (DecodeKept.of_sameButFtr hftr).trans h.2⟩
      | fault f =>
        rw [hb] at hbody
        exact hbody.elim

/-! ### A decode is its steps -/

/-- After an accepted proper footer and capacity a decode is the token loop stepped to its end. -/
theorem decodeBlock_outcome_eq_runSteps {s u : State} (hcap : CapacityReal u) (hfooter : footer s = .ok u)
    (hproper : u.ftr.degenerate = false) (htest : capacityTest u = .ok u) :
    (decodeBlock s).outcome = runSteps (u.ftr.readStart + 1) (startDecode u) := by
  have hin := startDecode_inside ((footer_eq_ok hfooter).2.2 hproper) hcap htest
  rw [decodeBlock, hfooter, Ctl.andThen_ok, htest, Ctl.andThen_ok, decodeBody, hproper,
    runSteps_token_eq_tokenLoop u.ftr.readStart _ rfl hin (Nat.le_refl _)]
  rfl

/-- Settles O22: both commands are `decodeBlock`, and `runSteps_token_eq_tokenLoop` steps its loop. -/
theorem decodeCommandIsItsSteps : Obligations.DecodeCommandIsItsSteps := by
  constructor
  · intro s t hfooter hproper
    have hftr := footer_keepsAllButFtr (startCommand .blzDecompressS s)
    rw [hfooter] at hftr
    replace hftr : SameButFtr _ t := hftr
    have hop : t.cmd.op ≠ .blzDecompressP := by rw [hftr.cmd]; nofun
    rw [exec_blzDecompressS]
    exact decodeBlock_outcome_eq_runSteps (fun h => absurd h hop) hfooter hproper (capacityTest_of_strict hop)
  · intro s t hn hcap hmax hfooter hproper hroom
    have hftr := footer_keepsAllButFtr (startCommand .blzDecompressP s)
    rw [hfooter] at hftr
    replace hftr : SameButFtr _ t := hftr
    have hreal : CapacityReal t := fun _ => by
      rw [hftr.cmd, hftr.mem]
      exact hcap
    have htest : capacityTest t = .ok t := capacityTest_of_fits fun _ => by
      rw [blockLen_congr hftr.cmd hftr.mem, hftr.cmd]
      exact hroom
    rw [exec_blzDecompressP_of_operands hn hcap hmax]
    exact decodeBlock_outcome_eq_runSteps hreal hfooter hproper htest

end Sys2Proof.Machine
end

section
/-! The end of each command: its kinds, and what it leaves alone (rules R20, R51, R54, R242). -/

namespace Sys2Proof.Machine

/-- The next state of a command: the engine rests, the kind is one of the command's own, and of the buffers and the
registers the caller owns only its results have changed (rules R51, R54, R242). -/
structure CommandEnd (op : Op) (s t : State) : Prop where
  seq : t.seq = .idle
  kind : t.status.err ∈ allowedKinds op
  cmd : t.cmd = { s.cmd with op := op }
  inp : t.mem.inp = s.mem.inp
  m : op ≠ .blzDecompressP → t.mem.m = s.mem.m
  out : op = .blzFooter ∨ op = .blzDecompressP ∨ op = .kipParse ∨ op = .kipBuild → t.status.err = .ok →
    t.mem.out = s.mem.out
  build : op = .kipBuild → t.kip.data = s.kip.data ∧ t.kip.trailing = s.kip.trailing
  serialize : op = .kipSerialize →
    t.kip.hdr = s.kip.hdr ∧ t.kip.stored = s.kip.stored ∧ t.kip.trailing = s.kip.trailing
  wf : s.mem.wf = true → t.mem.wf = true
  k : t.dec.k ≤ 8
  run : op = .blzDecompressS ∨ op = .blzDecompressP → t.dec.run = if t.status.err = .ok then .done else .fault

/-- How a command may end: in such a state, or refused, and never in a fault. -/
def CommandEnds (op : Op) (s : State) : Host.Outcome State Fault Refusal → Prop
  | .next t => CommandEnd op s t
  | .refused _ => True
  | .fault _ => False

/-- The flags a command starts with are in their range (rule R26). -/
theorem startCommand_k (op : Op) (s : State) : (startCommand op s).dec.k ≤ 8 :=
  Nat.le_of_lt_succ (Nat.mod_lt _ (by decide))

theorem takeRaise_k (k : ErrKind) (info : Info) (s : State) : (takeRaise k info s).dec.k = s.dec.k := by
  rw [(takeRaise_dec_eq k info s).1]

/-! ### `BLZ.COMPRESS` -/

theorem exec_blzCompress_eq (s : State) : exec .blzCompress s =
    match compressInto s.mem.inp.toBytes s.cmd.best (startCommand .blzCompress s) with
    | none => .refused .lengthLimit
    | some (block, t) => .next ((t.withOut (Buffer.ofBytes block)).withStatus { t.status with err := .ok }) := rfl

/-- `BLZ.COMPRESS` is refused, or its run fits. -/
theorem exec_blzCompress_of_not_fits {s : State}
    (h : encodeFits s.mem.inp.toBytes s.cmd.best (startCommand .blzCompress s) = false) :
    exec .blzCompress s = .refused .lengthLimit := by
  rw [exec_blzCompress_eq, (compressInto_spec _ _ _).1 h]

theorem blzCompress_ends (s : State) : CommandEnds .blzCompress s (exec .blzCompress s) := by
  cases hfits : encodeFits s.mem.inp.toBytes s.cmd.best (startCommand .blzCompress s) with
  | false =>
    rw [exec_blzCompress_of_not_fits hfits]
    trivial
  | true =>
    rw [exec_blzCompress_eq, (compressInto_spec _ _ _).2 hfits]
    refine ⟨rfl, List.mem_singleton_self _, rfl, rfl, fun _ => rfl, ?_, nofun, nofun, fun hwf => ?_,
      startCommand_k .blzCompress s, ?_⟩
    · rintro (h | h | h | h) <;> cases h
    · obtain ⟨hinp, -, hm⟩ := Memory.wf_iff.mp hwf
      exact Memory.wf_iff.mpr ⟨hinp, Buffer.ofBytes_wf _, hm⟩
    · rintro (h | h) <;> cases h

/-! ### `BLZ.FOOTER` -/

theorem blzFooter_ends (s : State) : CommandEnds .blzFooter s (exec .blzFooter s) := by
  have hftr := footer_keepsAllButFtr (startCommand .blzFooter s)
  rw [exec_blzFooter]
  cases hc : footer (startCommand .blzFooter s) with
  | ok t =>
    rw [hc] at hftr
    replace hftr : SameButFtr _ t := hftr
    refine ⟨hftr.seq, ?_, hftr.cmd, by rw [hftr.mem]; rfl, fun _ => by rw [hftr.mem]; rfl,
      fun _ _ => by rw [hftr.mem]; rfl, nofun, nofun, fun hwf => by rw [hftr.mem]; exact hwf, ?_, ?_⟩
    · rw [(footer_eq_ok hc).1]
      decide
    · rw [hftr.dec]
      exact startCommand_k .blzFooter s
    · rintro (h | h) <;> cases h
  | raised k info t =>
    rw [hc] at hftr
    obtain ⟨rfl, hftr⟩ := hftr
    have hrun : t.dec.run ≠ .run := by rw [hftr.dec]; nofun
    refine ⟨rfl, List.mem_cons_of_mem _ (List.mem_singleton_self _), hftr.cmd,
      (takeRaise_mem_inp ..).trans (congrArg Memory.inp hftr.mem),
      fun _ => (takeRaise_m_of_not_running _ _ hrun).trans (congrArg Memory.m hftr.mem), fun _ h => (by cases h), nofun, nofun,
      fun hwf => takeRaise_wf (by rw [hftr.mem]; exact hwf), ?_, ?_⟩
    · rw [takeRaise_k, hftr.dec]
      exact startCommand_k .blzFooter s
    · rintro (h | h) <;> cases h
  | fault f =>
    rw [hc] at hftr
    exact hftr.elim

/-! ### `BLZ.DECOMPRESS` -/

theorem takeRaise_m_of_strict {s : State} (k : ErrKind) (info : Info) (hop : s.cmd.op ≠ .blzDecompressP) :
    (takeRaise k info s).mem.m = s.mem.m :=
  takeRaise_m_of_not_inPlaceLoop k info fun h => hop h.2

/-- A decode issued as a command. -/
theorem decode_commandEnds {op : Op} {s : State} (hop : op = .blzDecompressS ∨ op = .blzDecompressP)
    (hcap : CapacityReal (startCommand op s)) : CommandEnds op s (decodeBlock (startCommand op s)).outcome := by
  have hends := decodeBlock_ends hcap
  have hkinds : ∀ k, k = .ok ∨ k = .malformedFooter ∨ k = .outOfBounds → k ∈ allowedKinds op := by
    obtain rfl | rfl := hop <;> simp [allowedKinds]
  have hbuild : op ≠ .kipBuild := by obtain rfl | rfl := hop <;> nofun
  have hserialize : op ≠ .kipSerialize := by obtain rfl | rfl := hop <;> nofun
  have hinp : BufName.inp ≠ oName (startCommand op s) := by unfold oName; split <;> nofun
  have hm : op ≠ .blzDecompressP → BufName.m ≠ oName (startCommand op s) := fun h => by
    rw [oName, startCommand_cmd, if_neg h]
    nofun
  have hraised {k : ErrKind} (info : Info) {t : State} (hk : k = .malformedFooter ∨ k = .outOfBounds)
      (hkept : DecodeKept (startCommand op s) t) : CommandEnd op s (takeRaise k info t) := by
    have hactive : decActive t = true := decActive_iff.mpr (.inr (by rw [hkept.cmd]; exact hop))
    have herr : (takeRaise k info t).status.err ≠ .ok := by obtain rfl | rfl := hk <;> nofun
    refine ⟨rfl, hkinds _ (.inr hk), hkept.cmd, hkept.others .inp hinp, fun h => ?_, fun _ h => absurd h herr,
      fun h => absurd h hbuild, fun h => absurd h hserialize, fun hwf => takeRaise_wf (hkept.wf hwf), ?_, fun _ => ?_⟩
    · rw [takeRaise_m_of_strict _ _ (by rw [hkept.cmd]; exact h)]
      exact hkept.others .m (hm h)
    · rw [takeRaise_k]
      exact hkept.k (startCommand_k op s)
    · rw [if_neg herr]
      exact (takeRaise_dec_eq k info t).2.1 hactive
  cases hc : decodeBlock (startCommand op s) with
  | ok t =>
    rw [hc] at hends
    obtain ⟨hkept, herr, hrun, hseq⟩ := hends
    refine ⟨hseq rfl, hkinds _ (.inl herr), hkept.cmd, hkept.others .inp hinp, fun h => hkept.others .m (hm h),
      fun h _ => hkept.others .out ?_, fun h => absurd h hbuild, fun h => absurd h hserialize, hkept.wf,
      hkept.k (startCommand_k op s), fun _ => by rw [hrun, if_pos herr]⟩
    obtain rfl | rfl := hop
    · obtain h | h | h | h := h <;> cases h
    · nofun
  | raised k info t =>
    rw [hc] at hends
    obtain ⟨hk, hftr⟩ | ⟨hk, hkept⟩ := hends
    · exact hraised info (.inl hk) (.of_sameButFtr hftr)
    · exact hraised info (.inr hk) hkept
  | fault f =>
    rw [hc] at hends
    exact hends.elim

theorem blzDecompressS_ends (s : State) : CommandEnds .blzDecompressS s (exec .blzDecompressS s) :=
  decode_commandEnds (.inl rfl) nofun

/-- `BLZ.DECOMPRESS.P` is refused, or its operands have a meaning. -/
theorem exec_blzDecompressP_cases (s : State) :
    ((s.cmd.cap < s.cmd.n ∨ s.mem.m.len < s.cmd.cap) ∧ exec .blzDecompressP s = .refused .capacityOperand) ∨
    (s.cmd.n ≤ s.cmd.cap ∧ s.cmd.cap ≤ s.mem.m.len ∧ belowMax s s.cmd.cap = false ∧
      exec .blzDecompressP s = .refused .lengthLimit) ∨
    (s.cmd.n ≤ s.cmd.cap ∧ s.cmd.cap ≤ s.mem.m.len ∧ belowMax s s.cmd.cap = true ∧
      exec .blzDecompressP s = (decodeBlock (startCommand .blzDecompressP s)).outcome) := by
  have hexec : exec .blzDecompressP s = execBlzDecompressP s := rfl
  rw [hexec, execBlzDecompressP]
  by_cases hop : s.cmd.cap < s.cmd.n ∨ s.mem.m.len < s.cmd.cap
  · exact .inl ⟨hop, if_pos hop⟩
  · rw [if_neg hop]
    cases hmax : belowMax s s.cmd.cap with
    | false => exact .inr (.inl ⟨by omega, by omega, rfl, rfl⟩)
    | true => exact .inr (.inr ⟨by omega, by omega, rfl, rfl⟩)

theorem blzDecompressP_ends (s : State) : CommandEnds .blzDecompressP s (exec .blzDecompressP s) := by
  obtain ⟨-, h⟩ | ⟨-, -, -, h⟩ | ⟨-, hcap, -, h⟩ := exec_blzDecompressP_cases s <;> rw [h]
  · trivial
  · trivial
  · exact decode_commandEnds (.inr rfl) fun _ => hcap

/-! ### `KIP.PARSE` -/

/-- What the segments of `KIP.PARSE` keep. -/
structure ParseKept (s t : State) : Prop where
  cmd : t.cmd = s.cmd
  mem : t.mem = s.mem
  seq : t.seq = s.seq
  k : s.dec.k ≤ 8 → t.dec.k ≤ 8

/-- How the parts of `KIP.PARSE` may end. -/
def ParseEnds (s : State) : Ctl → Prop
  | .ok t => ParseKept s t
  | .raised k _ t => (k = .truncated ∨ k = .invalidMagic) ∧ ParseKept s t
  | .fault _ => False

theorem ParseKept.refl (s : State) : ParseKept s s := ⟨rfl, rfl, rfl, id⟩

theorem ParseKept.trans {s t u : State} (h : ParseKept s t) (g : ParseKept t u) : ParseKept s u :=
  ⟨g.cmd.trans h.cmd, g.mem.trans h.mem, g.seq.trans h.seq, fun hk => g.k (h.k hk)⟩

theorem ParseEnds.after {s t : State} {c : Ctl} (h : ParseKept s t) (hc : ParseEnds t c) : ParseEnds s c := by
  cases c with
  | ok u => exact ParseKept.trans h hc
  | raised k info u => exact ⟨hc.1, h.trans hc.2⟩
  | fault r => exact hc

theorem ParseEnds.andThen {s : State} {c : Ctl} {f : State → Ctl} (hc : ParseEnds s c)
    (hf : ∀ t, ParseKept s t → ParseEnds t (f t)) : ParseEnds s (c.andThen f) := by
  cases c with
  | ok t => exact .after hc (hf t hc)
  | raised k info t => exact hc
  | fault r => exact hc

theorem decodeSegment_ends {i : Fin 6} {stored : Bytes} {s : State} (hop : s.cmd.op = .kipParse) :
    ParseEnds s (decodeSegment i stored s) := by
  have hends := decodeBlock_ends (s := enterDecode stored s) fun h => by
    rw [show (enterDecode stored s).cmd = s.cmd from rfl, hop] at h
    cases h
  have hfree : (enterDecode stored s).dec.k ≤ 8 := Nat.le_of_lt_succ (Nat.mod_lt _ (by decide))
  unfold decodeSegment
  cases hc : decodeBlock (enterDecode stored s) with
  | ok t =>
    rw [hc] at hends
    exact ⟨hends.1.cmd, rfl, rfl, fun _ => hends.1.k hfree⟩
  | raised k info t =>
    rw [hc] at hends
    obtain ⟨-, hftr⟩ | ⟨-, hkept⟩ := hends
    · exact ⟨hftr.cmd, rfl, rfl, fun _ => (DecodeKept.of_sameButFtr hftr).k hfree⟩
    · exact ⟨hkept.cmd, rfl, rfl, fun _ => hkept.k hfree⟩
  | fault f =>
    rw [hc] at hends
    exact hends.elim

theorem parseSegment_ends (i : Fin 6) {s : State} (hop : s.cmd.op = .kipParse) : ParseEnds s (parseSegment i s) := by
  obtain ⟨-, h⟩ | ⟨-, -, h⟩ | ⟨-, -, -, h⟩ | ⟨-, -, -, h⟩ := parseSegment_cases i s <;> rw [h]
  · exact ⟨rfl, rfl, rfl, id⟩
  · exact ⟨.inl rfl, .refl s⟩
  · exact .after (t := pastSegment i s) ⟨rfl, rfl, rfl, id⟩ (decodeSegment_ends (s := pastSegment i s) hop)
  · exact ⟨rfl, rfl, rfl, id⟩

theorem parseSegments_ends : ∀ (l : List (Fin 6)) {s : State}, s.cmd.op = .kipParse → ParseEnds s (parseSegments l s) := by
  intro l
  induction l with
  | nil => exact fun _ => .refl _
  | cons i l ih => exact fun hop => (parseSegment_ends i hop).andThen fun t ht => ih (by rw [ht.cmd]; exact hop)

theorem parseHeader_ends (s : State) : ParseEnds s (parseHeader s) := by
  unfold parseHeader
  dsimp only
  split
  · exact ⟨.inl rfl, .refl s⟩
  split
  · exact ⟨.inr rfl, .refl s⟩
  split
  · exact ⟨.inl rfl, .refl s⟩
  · exact ⟨rfl, rfl, rfl, id⟩

theorem kipParse_ends (s : State) : CommandEnds .kipParse s (exec .kipParse s) := by
  have hexec : exec .kipParse s = execKipParse s := rfl
  rw [hexec, execKipParse]
  split
  · have hends : ParseEnds (startCommand .kipParse s) ((parseHeader (startCommand .kipParse s)).andThen fun t =>
        (parseSegments (List.finRange 6) t).andThen fun u => .ok (parseDone u)) :=
      (parseHeader_ends _).andThen fun t ht =>
        (parseSegments_ends _ (by rw [ht.cmd]; rfl)).andThen fun u _ => ⟨rfl, rfl, rfl, id⟩
    have hdone : ∀ t, (parseHeader (startCommand .kipParse s)).andThen (fun t =>
        (parseSegments (List.finRange 6) t).andThen fun u => .ok (parseDone u)) = .ok t → t.status.err = .ok := by
      intro t ht
      obtain ⟨u, -, hu⟩ := Ctl.andThen_eq_ok ht
      obtain ⟨v, -, hv⟩ := Ctl.andThen_eq_ok hu
      cases hv
      rfl
    generalize (parseHeader (startCommand .kipParse s)).andThen _ = c at hends hdone
    cases c with
    | ok t =>
      obtain ⟨hcmd, hmem, hseq, hk⟩ := hends
      have herr := hdone t rfl
      refine ⟨hseq, by rw [herr]; decide, hcmd, by rw [hmem]; rfl, fun _ => by rw [hmem]; rfl, fun _ _ => by rw [hmem]; rfl,
        nofun, nofun, fun hwf => by rw [hmem]; exact hwf, hk (startCommand_k .kipParse s), ?_⟩
      rintro (h | h) <;> cases h
    | raised k info t =>
      obtain ⟨hkind, hcmd, hmem, hseq, hk⟩ := hends
      have herr : (takeRaise k info t).status.err ≠ .ok := by obtain rfl | rfl := hkind <;> nofun
      refine ⟨rfl, ?_, hcmd, (takeRaise_mem_inp ..).trans (congrArg Memory.inp hmem), fun _ => ?_,
        fun _ h => absurd h herr, nofun, nofun,
        fun hwf => takeRaise_wf (by rw [hmem]; exact hwf), ?_, ?_⟩
      · show k ∈ [.ok, .invalidMagic, .truncated]
        obtain rfl | rfl := hkind <;> decide
      · rw [takeRaise_m_of_strict _ _ (by rw [hcmd]; nofun)]
        exact congrArg Memory.m hmem
      · rw [takeRaise_k]
        exact hk (startCommand_k .kipParse s)
      · rintro (h | h) <;> cases h
    | fault f => exact hends.elim
  · trivial

/-! ### `KIP.BUILD` -/

/-- What the segments of `KIP.BUILD` keep: they write ENC's registers, the status and `KIP.STORED` alone. -/
def BuildKept (s t : State) : Prop :=
  t = { s with enc := t.enc, status := t.status, free := t.free, kip := { s.kip with stored := t.kip.stored } }

theorem BuildKept.trans {s t u : State} (h : BuildKept s t) (g : BuildKept t u) : BuildKept s u :=
  Eq.trans g (by rw [h])

theorem buildSegment_kept {i : Fin 6} {bits bits' : Nat} {s t : State} (h : buildSegment i bits s = some (bits', t)) :
    BuildKept s t := by
  obtain ⟨-, -, rfl⟩ | ⟨blk, u, -, hrun, h⟩ := buildSegment_cases h
  · exact rfl
  · have hu : BuildKept s u := by
      cases hfits : encodeFits (dataOf s.kip i) true s with
      | false =>
        rw [(compressInto_spec _ _ _).1 hfits] at hrun
        cases hrun
      | true =>
        rw [(compressInto_spec _ _ _).2 hfits] at hrun
        cases hrun
        exact rfl
    obtain ⟨-, -, rfl⟩ | ⟨-, -, rfl⟩ := h
    · exact hu.trans rfl
    · exact hu.trans rfl

theorem buildSegments_kept : ∀ (l : List (Fin 6)) {bits bits' : Nat} {s t : State},
    buildSegments l bits s = some (bits', t) → BuildKept s t := by
  intro l
  induction l with
  | nil =>
    intro bits bits' s t h
    cases h
    exact rfl
  | cons i l ih =>
    intro bits bits' s t h
    rw [buildSegments] at h
    cases hone : buildSegment i bits s with
    | none =>
      rw [hone] at h
      cases h
    | some x =>
      obtain ⟨bits1, s1⟩ := x
      rw [hone] at h
      exact (buildSegment_kept hone).trans (ih h)

/-- `KIP.BUILD` is refused, or its segments are all stored. -/
theorem exec_kipBuild_cases (s : State) :
    (∃ r, exec .kipBuild s = .refused r) ∨
    ∃ bits t, buildSegments (List.finRange 6) 0 (startCommand .kipBuild s) = some (bits, t) ∧
      BuildKept (startCommand .kipBuild s) t ∧
      exec .kipBuild s = .next ((t.withHdr (buildHeader bits t.kip)).withStatus { t.status with err := .ok }) := by
  have hexec : exec .kipBuild s = execKipBuild s := rfl
  cases hdata : allData s.kip with
  | false => exact .inl ⟨_, by rw [hexec, execKipBuild, hdata]; rfl⟩
  | true =>
    cases hsegments : buildSegments (List.finRange 6) 0 (startCommand .kipBuild s) with
    | none => exact .inl ⟨.lengthLimit, by simp [hexec, execKipBuild, hdata, hsegments]⟩
    | some x =>
      obtain ⟨bits, t⟩ := x
      exact .inr ⟨bits, t, rfl, buildSegments_kept _ hsegments, exec_kipBuild_of_segments hdata hsegments⟩

theorem kipBuild_ends (s : State) : CommandEnds .kipBuild s (exec .kipBuild s) := by
  obtain ⟨r, h⟩ | ⟨bits, t, -, hkept, h⟩ := exec_kipBuild_cases s <;> rw [h]
  · trivial
  · have hmem : t.mem = s.mem := by rw [hkept]; rfl
    have hkip : t.kip = { (startCommand .kipBuild s).kip with stored := t.kip.stored } :=
      congrArg State.kip hkept
    refine ⟨by rw [hkept]; rfl, List.mem_singleton_self _, by rw [hkept]; rfl, congrArg Memory.inp hmem,
      fun _ => congrArg Memory.m hmem, fun _ _ => congrArg Memory.out hmem, fun _ => ⟨?_, ?_⟩, nofun,
      fun hwf => (congrArg Memory.wf hmem).trans hwf, ?_, ?_⟩
    · show t.kip.data = s.kip.data
      rw [hkip]
      rfl
    · show t.kip.trailing = s.kip.trailing
      rw [hkip]
      rfl
    · have hdec : t.dec = (startCommand .kipBuild s).dec := by rw [hkept]
      show t.dec.k ≤ 8
      rw [hdec]
      exact startCommand_k .kipBuild s
    · rintro (h | h) <;> cases h

/-! ### `KIP.SERIALIZE` -/

theorem exec_kipSerialize_of_over {s : State} (h : belowMax s (fileBytes s.kip).length = false) :
    exec .kipSerialize s = .refused .lengthLimit := if_neg (by
  show ¬ belowMax s (fileBytes s.kip).length = true
  rw [h]
  exact Bool.false_ne_true)

theorem kipSerialize_ends (s : State) : CommandEnds .kipSerialize s (exec .kipSerialize s) := by
  cases hmax : belowMax s (fileBytes s.kip).length with
  | false =>
    rw [exec_kipSerialize_of_over hmax]
    trivial
  | true =>
    rw [exec_kipSerialize_of_fits (belowMax_iff.mp hmax)]
    refine ⟨rfl, List.mem_singleton_self _, rfl, rfl, fun _ => rfl, ?_, nofun, fun _ => ⟨rfl, rfl, rfl⟩, fun hwf => ?_,
      startCommand_k .kipSerialize s, ?_⟩
    · rintro (h | h | h | h) <;> cases h
    · obtain ⟨hinp, -, hm⟩ := Memory.wf_iff.mp hwf
      exact Memory.wf_iff.mpr ⟨hinp, Buffer.ofBytes_wf _, hm⟩
    · rintro (h | h) <;> cases h

/-! ### All commands -/

/-- Every command ends, and in which states. -/
theorem exec_command_ends (op : Op) (s : State) : CommandEnds op s (exec op.instr s) := by
  cases op with
  | blzCompress => exact blzCompress_ends s
  | blzFooter => exact blzFooter_ends s
  | blzDecompressS => exact blzDecompressS_ends s
  | blzDecompressP => exact blzDecompressP_ends s
  | kipParse => exact kipParse_ends s
  | kipBuild => exact kipBuild_ends s
  | kipSerialize => exact kipSerialize_ends s

theorem commandEnd_of_next {op : Op} {s t : State} (h : exec op.instr s = .next t) : CommandEnd op s t := by
  have hends := exec_command_ends op s
  rwa [h] at hends

theorem command_noFault (op : Op) (s : State) : NoFault (exec op.instr s) := by
  intro f hf
  have hends := exec_command_ends op s
  rw [hf] at hends
  exact hends

/-- Settles O37: `exec_command_ends` for every command. -/
theorem commandsEndWithTheirKinds : Obligations.CommandsEndWithTheirKinds :=
  fun op s => ⟨command_noFault op s, fun _ h => (commandEnd_of_next h).kind⟩

/-- Settles O38: the frame clauses of `CommandEnd`. -/
theorem commandsKeepOtherBuffers : Obligations.CommandsKeepOtherBuffers := fun _ _ _ h =>
  have hend := commandEnd_of_next h
  ⟨hend.cmd, hend.inp, hend.m, hend.out, hend.build, hend.serialize⟩

/-- After a command the sequencer has nothing to move on. -/
theorem settle_command (op : Op) (s : State) : settle .command (exec op.instr s) = exec op.instr s := by
  have hends := exec_command_ends op s
  cases h : exec op.instr s with
  | next t =>
    rw [h] at hends
    exact settle_next_of_ne (by rw [hends.seq]; nofun)
  | fault f => rfl
  | refused r => rfl

/-- Settles O5: every next state of a command rests (`CommandEnd.seq`). -/
theorem commandStepEndsIdle : Obligations.CommandStepEndsIdle :=
  ⟨fun _ _ _ h => (commandEnd_of_next h).seq, fun s hseq => (step_of_command hseq).trans (settle_command s.cmd.op s)⟩

end Sys2Proof.Machine
end

section
/-! The invariant of the engine: every step keeps it, and from a state that meets it no step faults (rules R17, R24 to
R26, R52, R54, R65). -/

namespace Sys2Proof.Machine

/-! ### Reading and writing items -/

/-- Reading an item loads registers of FTR and KIP and the status, and nothing else. -/
def SameButUnits (s t : State) : Prop := t = { s with ftr := t.ftr, status := t.status, kip := t.kip }

/-- How reading an item may end. -/
def LoadEnds (s : State) : Ctl → Prop
  | .ok t => SameButUnits s t
  | .raised _ _ t => SameButUnits s t
  | .fault _ => False

theorem loadItem_ends (i : Instr) (s : State) : LoadEnds s (loadItem i s) := by
  cases i with
  | footerExtra v =>
    obtain ⟨-, -, h⟩ | ⟨-, -, h⟩ | ⟨-, info, h⟩ | ⟨-, -, -, -, -, -, h⟩ := footerTests_cases (loadExtra v s) <;>
      rw [loadItem, h] <;> exact rfl
  | kipMagic w =>
    unfold loadItem
    dsimp only
    split <;> exact rfl
  | _ => exact rfl

theorem SameButUnits.cmd {s t : State} (h : SameButUnits s t) : t.cmd = s.cmd := by rw [h]

theorem SameButUnits.dec {s t : State} (h : SameButUnits s t) : t.dec = s.dec := by rw [h]

theorem SameButUnits.mem {s t : State} (h : SameButUnits s t) : t.mem = s.mem := by rw [h]

theorem SameButUnits.seq {s t : State} (h : SameButUnits s t) : t.seq = s.seq := by rw [h]

/-- What the decoder makes of a word stands at the word's position (rule R114). -/
theorem slot_of_decodeWord {p : Slot} {v : Nat} {i : Instr} (h : decodeWord p v = .ok i) : i.slot = p := by
  cases p with
  | command => exact (encode_of_decodeOp h).1
  | storedTerm =>
    simp only [decodeWord] at h
    split at h <;> cases h
    rfl
  | _ =>
    cases h
    rfl

/-- An item read at a position stands at it. -/
theorem slot_of_readItem {p : Slot} {a : Nat} {s s1 : State} {i : Instr} (h : readItem p a s = .got i s1) :
    i.slot = p ∧ s1 = s := by
  unfold readItem at h
  split at h
  · cases h
  · split at h
    · rename_i hdecode
      cases h
      exact ⟨slot_of_decodeWord (decode_ok_iff.mp hdecode).2.1, rfl⟩
    · cases h

/-- An item inside its structure is read, or its bytes are refused. -/
theorem readItem_inside {p : Slot} {a : Nat} {s : State} (h : a + p.size ≤ (itemBuf p s).len) :
    readItem p a s ≠ .outside := by
  simp only [readItem, Buffer.slice_eq h]
  split <;> nofun

/-- Where the length check passes, the item lies inside the structure (rules R63, R151, R201). -/
theorem item_inside {p : Slot} {n hdr a : Nat} (hcheck : itemCheck p n = none) (hoffset : itemOffset p n hdr = some a) :
    a + p.size ≤ n ∧ p ≠ .ctrl ∧ p ≠ .lit ∧ p ≠ .ref ∧ p ≠ .command := by
  cases p with
  | ctrl | lit | ref | command => cases hoffset
  | pad =>
    simp only [itemOffset, Option.ite_none_right_eq_some, Option.some.injEq] at hoffset
    obtain ⟨hin, rfl⟩ := hoffset
    exact ⟨by simp only [Slot.size]; omega, nofun, nofun, nofun, nofun⟩
  | footerTotal | footerHdr | footerExtra | storedTerm =>
    simp only [itemOffset, Option.ite_none_right_eq_some, Option.some.injEq] at hoffset
    obtain ⟨hin, rfl⟩ := hoffset
    exact ⟨by simp only [Slot.size]; omega, nofun, nofun, nofun, nofun⟩
  | kipSeg i =>
    have hi := i.isLt
    simp only [itemCheck, Config.kipHdrLen, ite_eq_right_iff, reduceCtorEq, imp_false, Nat.not_lt] at hcheck
    cases hoffset
    exact ⟨by simp only [Slot.size]; omega, nofun, nofun, nofun, nofun⟩
  | kipCap j =>
    have hj := j.isLt
    simp only [itemCheck, Config.kipHdrLen, ite_eq_right_iff, reduceCtorEq, imp_false, Nat.not_lt] at hcheck
    cases hoffset
    exact ⟨by simp only [Slot.size]; omega, nofun, nofun, nofun, nofun⟩
  | _ =>
    simp only [itemCheck, Config.kipHdrLen, ite_eq_right_iff, reduceCtorEq, imp_false, Nat.not_lt] at hcheck
    cases hoffset
    exact ⟨by simp only [Slot.size]; omega, nofun, nofun, nofun, nofun⟩

/-! ### What the sequencer stands at next -/

theorem itemLen_congr {s t : State} (p : Slot) (hcmd : t.cmd = s.cmd) (hmem : t.mem = s.mem) :
    itemLen p t = itemLen p s := by
  rw [itemLen, itemLen, hmem, blockLen_congr hcmd hmem]

theorem itemBuf_congr {s t : State} (p : Slot) (hcmd : t.cmd = s.cmd) (hmem : t.mem = s.mem) :
    itemBuf p t = itemBuf p s := by
  rw [itemBuf, itemBuf, hmem, blockBuf_congr hcmd hmem]

theorem blockHdrLen_congr {s t : State} (hcmd : t.cmd = s.cmd) (hmem : t.mem = s.mem) :
    blockHdrLen t = blockHdrLen s := by
  rw [blockHdrLen, blockHdrLen, blockBuf_congr hcmd hmem, blockLen_congr hcmd hmem]

theorem inPadding_congr {s t : State} (a : Nat) (hcmd : t.cmd = s.cmd) (hmem : t.mem = s.mem) :
    inPadding a t = inPadding a s := by
  rw [inPadding, inPadding, blockHdrLen_congr hcmd hmem, blockLen_congr hcmd hmem]

/-- A field that follows another belongs to the same structure, and its own check or its offset is there. -/
theorem nextField_served {p q : Slot} (h : nextField p = some q) :
    inHeader q = inHeader p ∧ q ≠ .pad ∧ ∀ n hdr, (itemOffset q n hdr).isSome ∨ (itemCheck q n).isSome := by
  have hword (n k : Nat) : (if 12 ≤ n then some (n - k) else none).isSome ∨
      (if n < Config.footerLen then some (ErrKind.malformedFooter, Info.mk 0 Config.footerLen n) else none).isSome := by
    by_cases hn : 12 ≤ n
    · rw [if_pos hn]
      exact .inl rfl
    · rw [if_pos (show n < Config.footerLen from Nat.lt_of_not_le hn)]
      exact .inr rfl
  cases p with
  | pad | footerTotal | footerHdr =>
    cases h
    exact ⟨rfl, nofun, fun n _ => hword n _⟩
  | kipSeg i =>
    simp only [nextField, Option.some.injEq] at h
    split at h <;> cases h <;> exact ⟨rfl, nofun, fun _ _ => .inl rfl⟩
  | kipCap j =>
    simp only [nextField] at h
    split at h <;> cases h
    exact ⟨rfl, nofun, fun _ _ => .inl rfl⟩
  | _ => cases h <;> exact ⟨rfl, nofun, fun _ _ => .inl rfl⟩

/-- A field that can be read can be written. -/
theorem itemToEmit_isSome {q : Slot} {n hdr : Nat} (h : (itemOffset q n hdr).isSome ∨ (itemCheck q n).isSome)
    (t : State) : (itemToEmit q t).isSome = true := by
  cases q with
  | ctrl | lit | ref | command => simp [itemOffset, itemCheck] at h
  | _ => rfl

theorem seqOk_nextPad {a : Nat} {t : State} (hlen : blockLen t ≤ (blockBuf t).len) :
    seqOk (t.withSeq (nextPad a t)) := by
  unfold nextPad
  split
  next hin => exact ⟨hlen, hin⟩
  next => trivial

theorem seqOk_nextSeq_load {p : Slot} {t : State} (hlen : itemLen p t ≤ (itemBuf p t).len) :
    seqOk (t.withSeq (nextSeq (.load p) t)) := by
  by_cases hp : p = .pad
  · subst hp
    exact seqOk_nextPad hlen
  · rw [nextSeq_load_eq hp]
    cases hnext : nextField p with
    | none => trivial
    | some q =>
      obtain ⟨hheader, -, hserved⟩ := nextField_served hnext
      refine ⟨?_, hserved _ _⟩
      show itemLen q t ≤ (itemBuf q t).len
      rwa [itemLen, itemBuf, hheader]

theorem seqOk_nextSeq_emit (p : Slot) (t : State) : seqOk (t.withSeq (nextSeq (.emit p) t)) := by
  by_cases hp : p = .pad
  · subst hp
    show seqOk (t.withSeq (if t.mem.out.len % Config.blockAlign = 0 then .emit .footerTotal else .emit .pad))
    split <;> exact rfl
  · rw [nextSeq_emit_eq hp]
    cases hnext : nextField p with
    | none => trivial
    | some q => exact itemToEmit_isSome ((nextField_served hnext).2.2 0 0) _

/-! ### The invariant -/

theorem Inv.idle {t : State} (hwf : t.mem.wf = true) (hk : t.dec.k ≤ 8) (hseq : t.seq = .idle) : Inv t :=
  ⟨hwf, hk, by rw [seqOk, hseq]; trivial⟩

theorem Inv.takeRaise {t : State} (k : ErrKind) (info : Info) (hwf : t.mem.wf = true) (hk : t.dec.k ≤ 8) :
    Inv (takeRaise k info t) :=
  .idle (takeRaise_wf hwf) (by rw [takeRaise_k]; exact hk) rfl

/-- An outcome of a step from a good state: a good state or a refusal. -/
def GoodOutcome : Host.Outcome State Fault Refusal → Prop
  | .next t => Inv t
  | .refused _ => True
  | .fault _ => False

/-- An item of a structure, read: the registers it loads are no part of the invariant, and the sequencer moves on. -/
theorem settle_loaded_good {i : Instr} {s : State} {q : Seq} (hi : isStructural i) (hwf : s.mem.wf = true)
    (hk : s.dec.k ≤ 8) (hseq : s.seq = q) (hemit : ∀ p, q ≠ .emit p) (hidle : q ≠ .idle)
    (hnext : ∀ t : State, t.cmd = s.cmd → t.mem = s.mem → seqOk (t.withSeq (nextSeq q t))) :
    GoodOutcome (settle q (exec i s)) := by
  have hends := loadItem_ends i s
  rw [exec_loaded hi (hseq ▸ hemit)]
  cases hc : loadItem i s with
  | ok t =>
    rw [hc] at hends
    replace hends : SameButUnits s t := hends
    rw [Ctl.outcome_ok, settle_next (hends.seq.trans hseq)]
    exact ⟨by rw [State.withSeq_mem, hends.mem]; exact hwf, by rw [State.withSeq_dec, hends.dec]; exact hk,
      hnext t hends.cmd hends.mem⟩
  | raised k info t =>
    rw [hc] at hends
    replace hends : SameButUnits s t := hends
    rw [Ctl.outcome_raised, settle_next_of_ne (t := Sys2Proof.Machine.takeRaise k info t) hidle.symm]
    exact .takeRaise k info (by rw [hends.mem]; exact hwf) (by rw [hends.dec]; exact hk)
  | fault f =>
    rw [hc] at hends
    exact hends.elim

section Positions
variable {s : State} (hwf : s.mem.wf = true) (hk : s.dec.k ≤ 8)
include hwf hk

theorem step_token_good (hseq : s.seq = .token) (hok : tokenOk s) : GoodOutcome (step s) := by
  obtain ⟨hrun, hin⟩ := tokenOk_iff.mp hok
  by_cases hw : s.dec.w = 0
  · rw [step_token_end hseq hw]
    exact .idle hwf hk rfl
  rw [step_token hseq hin hw]
  obtain ⟨t, hc, hturn⟩ | ⟨info, t, hc, heffect⟩ := turn_cases hin hw <;> rw [hc]
  · have heffect := hturn.effect
    refine ⟨heffect.wf hwf, heffect.k hk, ?_⟩
    rw [seqOk, heffect.seq, hseq]
    exact tokenOk_iff.mpr ⟨heffect.run.trans hrun, hin.after heffect⟩
  · exact .takeRaise _ info (heffect.wf hwf) (heffect.k hk)

omit hk in
theorem step_command_good (hseq : s.seq = .command) : GoodOutcome (step s) := by
  have hends := exec_command_ends s.cmd.op s
  rw [step_of_command hseq, settle_command]
  cases hc : exec s.cmd.op.instr s with
  | next t =>
    rw [hc] at hends
    exact .idle (hends.wf hwf) hends.k hends.seq
  | refused r => trivial
  | fault f =>
    rw [hc] at hends
    exact hends.elim

theorem step_load_good {p : Slot} (hseq : s.seq = .load p) (hlen : itemLen p s ≤ (itemBuf p s).len)
    (hok : loadOk p s) : GoodOutcome (step s) := by
  cases hcheck : itemCheck p (itemLen p s) with
  | some x =>
    obtain ⟨k, info⟩ := x
    rw [step_of_load_short hseq hcheck]
    exact .takeRaise k info hwf hk
  | none =>
    rw [loadOk, hcheck] at hok
    obtain ⟨a, hoffset⟩ := Option.isSome_iff_exists.mp (hok.resolve_right nofun)
    obtain ⟨hinside, hctrl, hlit, href, hcommand⟩ := item_inside hcheck hoffset
    have houtside := readItem_inside (s := s) (p := p) (a := a) (Nat.le_trans hinside hlen)
    cases hread : readItem p a s with
    | got i s1 =>
      obtain ⟨hslot, rfl⟩ := slot_of_readItem hread
      rw [step_of_load hseq hcheck hoffset hread]
      subst hslot
      refine settle_loaded_good ⟨hctrl, hlit, href, hcommand⟩ hwf hk hseq nofun nofun fun t hcmd hmem => ?_
      exact seqOk_nextSeq_load (by rwa [itemLen_congr _ hcmd hmem, itemBuf_congr _ hcmd hmem])
    | undecodable =>
      simp only [step, fetch, hseq, fetchItem, hcheck, hoffset, hread]
      trivial
    | outside => exact absurd hread houtside
    | nothing | finish | raises =>
      unfold readItem at hread
      split at hread
      · cases hread
      · split at hread <;> cases hread

theorem step_loadPad_good {a : Nat} (hseq : s.seq = .loadPad a) (hlen : blockLen s ≤ (blockBuf s).len)
    (hin : inPadding a s = true) : GoodOutcome (step s) := by
  rw [step_padding hlen hseq hin]
  exact ⟨hwf, hk, seqOk_nextPad hlen⟩

theorem step_emit_good {p : Slot} (hseq : s.seq = .emit p) (hok : (itemToEmit p s).isSome = true) :
    GoodOutcome (step s) := by
  obtain ⟨i, hitem⟩ := Option.isSome_iff_exists.mp hok
  have hi : isStructural i := by
    cases p with
    | ctrl | lit | ref | command => cases hitem
    | _ =>
      cases hitem
      exact ⟨nofun, nofun, nofun, nofun⟩
  obtain ⟨hinp, hout, hm⟩ := Memory.wf_iff.mp hwf
  rw [step_of_emit hseq hitem, exec_emitted hi hseq, settle_next (t := appendOut (encode i) s) hseq]
  exact ⟨Memory.wf_iff.mpr ⟨hinp, Buffer.append_wf _ hout, hm⟩, hk, seqOk_nextSeq_emit p _⟩

end Positions

/-- A step from a good state ends in a good state or is refused. -/
theorem step_good {s : State} (h : Inv s) : GoodOutcome (step s) := by
  obtain ⟨hwf, hk, hpos⟩ := h
  unfold seqOk at hpos
  cases hseq : s.seq with
  | idle =>
    rw [step_of_idle hseq]
    exact .idle hwf hk hseq
  | command => exact step_command_good hwf hseq
  | token =>
    rw [hseq] at hpos
    exact step_token_good hwf hk hseq hpos
  | load p =>
    rw [hseq] at hpos
    exact step_load_good hwf hk hseq hpos.1 hpos.2
  | loadPad a =>
    rw [hseq] at hpos
    exact step_loadPad_good hwf hk hseq hpos.1 hpos.2
  | emit p =>
    rw [hseq] at hpos
    exact step_emit_good hwf hk hseq hpos

/-- Settles O8: `step_good`, position by position. -/
theorem invariantKeptByEveryStep : Obligations.InvariantKeptByEveryStep := by
  intro s t h hstep
  have hgood := step_good h
  rwa [hstep] at hgood

/-- Settles O9: a fault is no `GoodOutcome`. -/
theorem goodStateNeverFaults : Obligations.GoodStateNeverFaults := by
  intro s h f hstep
  have hgood := step_good h
  rwa [hstep] at hgood

end Sys2Proof.Machine
end

section
/-! The three tokens: their whole effect, their faults outside the buffer, and the step at a `REF` (rules R14, R50, R171
to R178). -/

namespace Sys2Proof.Machine

/-- Settles O11: `decCtrl_of_room`. -/
theorem ctrlLoadsEightFlags : Obligations.CtrlLoadsEightFlags := by
  intro f s hr
  rw [exec_ctrl, decCtrl_of_room hr, Ctl.outcome_ok]

/-- Settles O12: `decLit_stores`. -/
theorem litStoresOneByte : Obligations.LitStoresOneByte := by
  intro b s hwf hr hw hlen
  obtain ⟨t, hlit, ht, hread⟩ := decLit_stores (b := b) hwf hr hw hlen
  exact ⟨t, by rw [exec_lit, hlit, Ctl.outcome_ok], ht, hread⟩

/-- A copy whose source byte does not exist stops. -/
theorem copyBack_of_no_source {n : Nat} {s : State} (hsrc : s.dec.w - 1 + s.dec.off < s.dec.outLen)
    (hload : oGet (copyStart s) (s.dec.w - 1 + s.dec.off) = none) : copyBack (n + 1) s = .fault .outsideBuffer := by
  have hstep : copyBack (n + 1) s =
      if s.dec.outLen ≤ s.dec.w - 1 + s.dec.off then .raised .outOfBounds (sourceInfo (copyStart s)) (copyStart s)
      else match oGet (copyStart s) (s.dec.w - 1 + s.dec.off) with
        | none => .fault .outsideBuffer
        | some b => match oSet (copyStart s) (s.dec.w - 1) b with
          | none => .fault .outsideBuffer
          | some s2 => copyBack n s2 := rfl
  rw [hstep, if_neg (Nat.not_le.mpr hsrc), hload]

/-- Settles O19: the test of `LIT`'s write cursor, its store, and the first read of a `REF`'s copy. -/
theorem tokenOutsideBufferFaults : Obligations.TokenOutsideBufferFaults := by
  refine ⟨fun b s hr hw => ?cursor, fun b s hr hw hlen => ?lit, fun l o s hr hw hsrc hlen => ?ref⟩
  case cursor => rw [exec_lit, decLit, if_neg (Nat.not_lt.mpr hr), if_pos (by omega)]; rfl
  case lit =>
    have hnone : oSet (litStart s) (s.dec.w - 1) b = none := oSet_eq_none.mpr hlen
    rw [exec_lit, decLit_eq_store hr hw, hnone]
    rfl
  case ref =>
    obtain ⟨n, hn⟩ : ∃ n, min (refLen l) s.dec.w = n + 1 :=
      Nat.exists_eq_add_one.mpr (Nat.lt_min.mpr ⟨Nat.succ_pos _, hw⟩)
    have hload : oGet (copyStart (refStart l o s)) (s.dec.w - 1 + refOff o) = none := by
      refine Option.not_isSome_iff_eq_none.mp fun h => ?_
      exact Nat.not_lt.mpr hlen (Buffer.get_isSome.mp h)
    rw [exec_ref, decRef_eq_copyBack hr, hn, copyBack_of_no_source (s := refStart l o s) hsrc hload]
    rfl

/-! ### The step at a `REF` -/

/-- A two-byte slice is two reads. -/
theorem Buffer.slice_two {b : Buffer} {i : Nat} {lo hi : Byte} (hlo : b.get i = some lo) (hhi : b.get (i + 1) = some hi) :
    b.slice i 2 = some [lo, hi] := by
  have hlen : i + 1 < b.len := Buffer.get_isSome.mp (hhi ▸ rfl)
  have hlo' : cellsGet b.cells i = lo := by simpa [Buffer.get, Nat.lt_of_succ_lt hlen] using hlo
  have hhi' : cellsGet b.cells (i + 1) = hi := by simpa [Buffer.get, hlen] using hhi
  rw [Buffer.slice_eq (by omega), cellsSlice, cellsSlice, cellsSlice, hlo', hhi']

/-- The fields of the two bytes of a `REF`, little-endian (rules R84, R86). -/
theorem decode_ref_pair (lo hi : Byte) :
    ∃ (l : BitVec 4) (o : BitVec 12), decode .ref [lo, hi] = .ok (.ref l o, []) ∧
      l.toNat = (lo.toNat + 256 * hi.toNat) / 4096 ∧ o.toNat = (lo.toNat + 256 * hi.toNat) % 4096 := by
  have hlo := lo.isLt
  have hhi := hi.isLt
  refine ⟨_, _, decode_ok_iff.mpr ⟨Nat.le_refl _, rfl, rfl⟩, ?_, ?_⟩ <;>
    simp only [Slot.size, List.take, leNat_cons, leNat_nil, BitVec.toNat_ofNat] <;> omega

/-- Settles O17: a 1 flag selects `REF`, executed with the flag consumed; its source test is `tokenRaisesOutOfBounds`,
its copy `refCopiesFromAbove`. -/
theorem refTokenStep : Obligations.RefTokenStep := by
  intro s s1 hseq hwf hok hw hk hflag hs1
  obtain ⟨-, hrle, hwle, hregion⟩ := hok
  obtain rfl : s1 = consumeFlag s := hs1.trans (consumeFlag_eq s).symm
  have hslot : tokenSlot s = .ref := by rw [tokenSlot_of_flag hk, hflag]; rfl
  have hsize : (tokenSlot s).size = 2 := congrArg Slot.size hslot
  constructor
  · intro hr
    rw [step_token_raises hseq hw (hsize ▸ hr), hsize, tokenState_of_flag hk]
    rfl
  · intro lo hi hr hlo hhi v len off
    obtain ⟨l, o, hdecode, hl, ho⟩ := decode_ref_pair lo hi
    have hnext : s.dec.base + (s.dec.r - 2) + 1 = s.dec.base + (s.dec.r - 1) := by omega
    have hslice : (oBuf s).slice (s.dec.base + (s.dec.r - 2)) 2 = some [lo, hi] :=
      Buffer.slice_two hlo (hnext ▸ hhi)
    have hstep : step s = exec (.ref l o) (consumeFlag s) := by
      rw [step_token_executes hseq hw (hsize ▸ hr) (hsize ▸ hslice) (hslot ▸ hdecode), tokenState_of_flag hk]
    have hlen : min (l.toNat + 3) s.dec.w = len := by rw [hl]
    have hoff : o.toNat + 3 = off := by rw [ho]
    rw [hstep]
    split
    next hsrc =>
      rw [tokenRaisesOutOfBounds.2.2.2 l o (consumeFlag s) hr hw (hoff ▸ hsrc), ← hlen, ← hoff]
      rfl
    next hsrc =>
      obtain ⟨t, hexec, ht, hcopy, hframe⟩ := refCopiesFromAbove l o (consumeFlag s) hwf hr hwle hregion
        (.inr (by rw [hoff]; exact Nat.lt_of_not_le hsrc))
      refine ⟨t, hexec, ?_, ?_, ?_⟩
      · rw [← hlen, ← hoff]
        exact ht
      · rw [← hlen, ← hoff]
        exact hcopy
      · rw [← hlen]
        exact hframe

end Sys2Proof.Machine
end

section
/-! Operands the model refuses, and the container-level errors of `KIP.PARSE` (rules R50, R201 to R203, R210; U10, U12,
U14). -/

namespace Sys2Proof.Machine

/-! ### Refusals -/

theorem belowMax_of_le {s : State} {m n : Nat} (hm : s.cmd.maxLen = some m) (h : m ≤ n) : belowMax s n = false :=
  belowMax_eq_false_iff.mpr ⟨m, hm, h⟩

theorem encodeFits_of_over {raw : Bytes} {best : Bool} {s : State} {m : Nat} (hm : s.cmd.maxLen = some m)
    (h : m ≤ raw.length ∨ m ≤ (encodeRegs raw best s).stream.length) : encodeFits raw best s = false := by
  refine Bool.eq_false_of_not_eq_true fun hfits => ?_
  obtain ⟨hraw, hstream, -⟩ := encodeFits_iff.mp hfits m hm
  omega

/-- Data at or above `MAX_LEN` refuses the container, whichever segment it stands in. -/
theorem buildSegments_of_over {i : Fin 6} : ∀ (l : List (Fin 6)) (bits : Nat) (s : State), i ∈ l →
    belowMax s (dataOf s.kip i).length = false → buildSegments l bits s = none := by
  intro l
  induction l with
  | nil => exact fun _ _ h => absurd h List.not_mem_nil
  | cons j l ih =>
    intro bits s hi hover
    rw [buildSegments]
    cases hone : buildSegment j bits s with
    | none => rfl
    | some x =>
      obtain ⟨bits1, s1⟩ := x
      have hkept := buildSegment_kept hone
      obtain rfl | hi := List.mem_cons.mp hi
      · have hnone : buildSegment i bits s = none := by
          rw [buildSegment]
          exact if_pos (by rw [hover]; rfl)
        rw [hnone] at hone
        cases hone
      · refine ih bits1 s1 hi ?_
        have hdata : dataOf s1.kip i = dataOf s.kip i := by rw [hkept]; rfl
        have hcmd : s1.cmd = s.cmd := by rw [hkept]
        rw [hdata, belowMax, hcmd]
        exact hover

theorem exec_kipBuild_eq (s : State) : exec .kipBuild s = execKipBuild s := rfl

/-- Settles O40: each operand's test, in its command. -/
theorem outsideDomainIsRefused : Obligations.OutsideDomainIsRefused := by
  refine ⟨fun s h => if_pos h, fun s m hn hcap hm hle => ?_, fun s i hdata => ?_, fun s m hm hle => ⟨?_, ?_⟩,
    fun s m hm hle => ?_, fun s m i d hm hdata hd hle => ?_, fun s m hm hle => ?_, fun s bs hseq hlen hslice hne => ?_⟩
  · obtain ⟨h, -⟩ | ⟨-, -, -, h⟩ | ⟨-, -, h, -⟩ := exec_blzDecompressP_cases s
    · omega
    · exact h
    · rw [belowMax_of_le hm hle] at h
      cases h
  · have hall : allData s.kip = false := by
      refine Bool.eq_false_of_not_eq_true fun h => ?_
      have hsome := List.all_eq_true.mp h s.kip.data[i] (Vector.mem_toList_iff.mpr (Vector.getElem_mem i.isLt))
      rw [hdata] at hsome
      cases hsome
    rw [exec_kipBuild_eq, execKipBuild, hall]
    rfl
  · exact exec_blzCompress_of_not_fits (encodeFits_of_over hm (.inl (by simpa using hle)))
  · exact if_neg (by rw [belowMax_of_le hm hle]; exact Bool.false_ne_true)
  · exact exec_blzCompress_of_not_fits (encodeFits_of_over hm (.inr hle))
  · have hover : belowMax (startCommand .kipBuild s) (dataOf (startCommand .kipBuild s).kip i).length = false := by
      have hdataOf : dataOf (startCommand .kipBuild s).kip i = d := by simp [dataOf, hd]
      rw [hdataOf]
      exact belowMax_of_le (s := startCommand .kipBuild s) hm hle
    have hnone := buildSegments_of_over (List.finRange 6) 0 _ (List.mem_finRange i) hover
    rw [exec_kipBuild_eq, execKipBuild, allData_of_ne_none hdata, hnone]
    rfl
  · exact exec_kipSerialize_of_over (belowMax_of_le hm (by rw [fileBytes_length]; exact hle))
  · have hitem : readItem .storedTerm (blockLen s - 4) s = .undecodable := by
      have hdecode : decode .storedTerm bs = .error .nonzeroTerminator := by
        have hbs : bs.length = 4 := by
          rw [Buffer.slice] at hslice
          split at hslice <;> cases hslice
          exact cellsSlice_length ..
        rw [decode, if_neg (by rw [hbs]; exact Nat.lt_irrefl 4), show Slot.storedTerm.size = 4 from rfl,
          List.take_of_length_le (Nat.le_of_eq hbs), decodeWord,
          if_neg hne]
      have hslice' : (itemBuf .storedTerm s).slice (blockLen s - 4) Slot.storedTerm.size = some bs := hslice
      simp only [readItem, hslice', hdecode]
    have hoffset : itemOffset .storedTerm (itemLen .storedTerm s) (blockHdrLen s) = some (blockLen s - 4) := if_pos hlen
    have hcheck : itemCheck .storedTerm (itemLen .storedTerm s) = none := rfl
    simp only [step, fetch, hseq, fetchItem, hcheck, hoffset, hitem]

/-! ### The container-level checks -/

theorem exec_kipParse_of_raised {s t : State} {k : ErrKind} {info : Info}
    (hmax : ∀ m, s.cmd.maxLen = some m → s.mem.inp.len < m)
    (hraised : (parseHeader (startCommand .kipParse s)).andThen (fun t =>
      (parseSegments (List.finRange 6) t).andThen fun u => .ok (parseDone u)) = .raised k info t) :
    exec .kipParse s = .next (takeRaise k info t) := by
  have hexec : exec .kipParse s = execKipParse s := rfl
  rw [hexec, execKipParse, if_pos (belowMax_iff.mpr hmax), hraised]
  rfl

theorem exec_kipParse_of_header_raised {s t : State} {k : ErrKind} {info : Info}
    (hmax : ∀ m, s.cmd.maxLen = some m → s.mem.inp.len < m)
    (hraised : parseHeader (startCommand .kipParse s) = .raised k info t) :
    exec .kipParse s = .next (takeRaise k info t) :=
  exec_kipParse_of_raised hmax (by rw [hraised]; rfl)

/-- Settles O53: the three tests of `parseHeader`, in their order. -/
theorem parseChecksContainer : Obligations.ParseChecksContainer := by
  intro s hmax n
  have hword : BitVec.ofNat 32 (s.mem.inp.read 0 4) = Config.kipMagic ↔ s.mem.inp.read 0 4 = 0x3150494B :=
    ⟨fun h => (toNat_ofNat_read _ _).symm.trans (congrArg BitVec.toNat h), fun h => congrArg (BitVec.ofNat 32) h⟩
  refine ⟨fun hshort => ?_, fun h4 hmagic => ?_, fun h4 hmagic hshort => ?_⟩
  · exact ⟨_, exec_kipParse_of_header_raised hmax (if_pos hshort), rfl, rfl⟩
  · have hraised : parseHeader (startCommand .kipParse s) = .raised .invalidMagic (magicInfo _) _ :=
      (if_neg (Nat.not_lt.mpr h4)).trans (if_pos (mt hword.mp hmagic))
    exact ⟨_, exec_kipParse_of_header_raised hmax hraised, rfl, rfl⟩
  · have hraised : parseHeader (startCommand .kipParse s) = .raised .truncated ⟨0, 256, n⟩ _ :=
      (if_neg (Nat.not_lt.mpr h4)).trans ((if_neg (not_not.mpr (hword.mpr hmagic))).trans (if_pos hshort))
    exact ⟨_, exec_kipParse_of_header_raised hmax hraised, rfl, rfl⟩

/-! ### A file that ends inside a segment -/

/-- `KIP.PARSE` stands before segment `n` of the file in `s`. -/
structure StandsAt (s : State) (n : Nat) (t : State) : Prop where
  mem : t.mem = s.mem
  cmd : t.cmd = { s.cmd with op := .kipParse }
  hdr : t.kip.hdr = readHeader s.mem.inp
  pos : t.kip.pos = segStart (readHeader s.mem.inp) n

/-- A segment the file holds is passed, whatever becomes of it. -/
theorem parseSegment_passes {s t : State} {i : Fin 6} (h : StandsAt s i.val t)
    (hend : segStart (readHeader s.mem.inp) (i.val + 1) ≤ s.mem.inp.len) :
    ∃ u, parseSegment i t = .ok u ∧ StandsAt s (i.val + 1) u := by
  have hnext := segStart_succ (readHeader s.mem.inp) i
  have hpast : StandsAt s (i.val + 1) (pastSegment i t) :=
    ⟨h.mem, h.cmd, h.hdr, by rw [hnext, ← h.pos, ← h.hdr]; rfl⟩
  obtain ⟨h0, hparse⟩ | ⟨-, hcut, -⟩ | ⟨-, -, -, hparse⟩ | ⟨-, -, -, hparse⟩ := parseSegment_cases i t
  · exact ⟨_, hparse, h.mem, h.cmd, h.hdr, h.pos.trans (by rw [hnext, ← h.hdr, h0]; rfl)⟩
  · rw [h.mem, h.pos, h.hdr] at hcut
    omega
  · obtain ⟨u, d, st, hdecode, hmem, hcmd, hkip, -⟩ := decodeSegment_decodedAlone (s := s) (t := pastSegment i t) i _ h.cmd
    exact ⟨_, hparse.trans hdecode, hmem.trans hpast.mem, hcmd.trans hpast.cmd,
      (congrArg KipRegs.hdr hkip).trans hpast.hdr, (congrArg KipRegs.pos hkip).trans hpast.pos⟩
  · exact ⟨_, hparse, hpast.mem, hpast.cmd, hpast.hdr, hpast.pos⟩

/-- What is reported of segment `i` of a file that ends inside it. -/
def cutInfo (f : Buffer) (i : Fin 6) : Info :=
  ⟨segStart (readHeader f) i.val, ((readHeader f).seg[i]).compressedSize.toNat, f.len - segStart (readHeader f) i.val⟩

theorem parseSegment_cut {s t : State} {i : Fin 6} (h : StandsAt s i.val t)
    (hstart : segStart (readHeader s.mem.inp) i.val ≤ s.mem.inp.len)
    (hend : s.mem.inp.len < segStart (readHeader s.mem.inp) (i.val + 1)) :
    parseSegment i t = .raised .truncated (cutInfo s.mem.inp i) t := by
  rw [segStart_succ] at hend
  obtain ⟨h0, -⟩ | ⟨-, -, hparse⟩ | ⟨-, hroom, -, -⟩ | ⟨-, hroom, -, -⟩ := parseSegment_cases i t
  · rw [h.hdr] at h0
    omega
  · rw [hparse, h.mem, h.pos, h.hdr]
    rfl
  all_goals
    rw [h.mem, h.pos, h.hdr] at hroom
    omega

theorem segStart_mono (h : KipHeader) {m n : Nat} (hmn : m ≤ n) : segStart h m ≤ segStart h n :=
  Nat.add_le_add_left (((List.take_sublist_take_left hmn).map _).sum_le_sum fun _ _ => Nat.zero_le _) 256

/-- The segments in front of the cut are passed, the one that is cut raises. -/
theorem parseSegments_cut {s : State} {i : Fin 6} (hstart : segStart (readHeader s.mem.inp) i.val ≤ s.mem.inp.len)
    (hend : s.mem.inp.len < segStart (readHeader s.mem.inp) (i.val + 1)) :
    ∀ (l : List (Fin 6)) (n : Nat) (t : State), l.map Fin.val = List.range' n l.length → n ≤ i.val → i.val < n + l.length →
      StandsAt s n t → ∃ u, parseSegments l t = .raised .truncated (cutInfo s.mem.inp i) u := by
  intro l
  induction l with
  | nil => exact fun n t _ hle hlt => absurd hlt (Nat.not_lt.mpr hle)
  | cons j l ih =>
    intro n t hl hle hlt h
    obtain ⟨rfl, hl⟩ := List.cons.inj hl
    obtain heq | hbefore := Nat.eq_or_lt_of_le hle
    · obtain rfl := Fin.ext heq
      exact ⟨t, by rw [parseSegments, parseSegment_cut h hstart hend]; rfl⟩
    · obtain ⟨u, hparse, hu⟩ := parseSegment_passes h (Nat.le_trans (segStart_mono _ hbefore) hstart)
      obtain ⟨v, hv⟩ := ih _ u hl hbefore (by rw [List.length_cons] at hlt; omega) hu
      exact ⟨v, by rw [parseSegments, hparse, Ctl.andThen_ok, hv]⟩

/-- Settles O55: the header passes, the segments before the cut are passed (`parseSegments_cut`). -/
theorem parseShortSegmentTruncated : Obligations.ParseShortSegmentTruncated := by
  intro s i hmax hlen hmagic hstart hend
  obtain ⟨u, hheader, hat⟩ : ∃ u, parseHeader (startCommand .kipParse s) = .ok u ∧ StandsAt s 0 u :=
    ⟨_, parseHeader_of_magic hlen hmagic, rfl, rfl, rfl, rfl⟩
  obtain ⟨t, hcut⟩ := parseSegments_cut hstart hend (List.finRange 6) 0 u rfl (Nat.zero_le _) (by simp) hat
  exact ⟨_, exec_kipParse_of_raised hmax (by rw [hheader, Ctl.andThen_ok, hcut]; rfl), rfl, rfl⟩

end Sys2Proof.Machine
end

section
/-! The scan of ENC item by item (rules R128 to R132): what an item adds, what every point of a scan keeps, and the best
point. -/

namespace Sys2Proof.Machine

/-! ### One item -/

/-- The choice does not look at the group. -/
theorem choose_openGroup (x : EncInput) (e : EncRegs) :
    (choose x (openGroup e)).bestLen = (choose x e).bestLen ∧
      (2 < (choose x e).bestLen → (choose x (openGroup e)).bestOff = (choose x e).bestOff) := by
  obtain ⟨hlen, hoff⟩ := choose_epoch (x := x) (e := e) (f := openGroup e) x.epoch (openGroup_n e).symm (openGroup_i e).symm
  exact ⟨hlen.symm, fun h => (hoff h).symm⟩

theorem openGroup_flg (e : EncRegs) : (openGroup e).flg = if e.cnt = 0 then e.stream.length else e.flg := by
  unfold openGroup
  split <;> rfl

theorem openGroup_stream (e : EncRegs) :
    (openGroup e).stream = if e.cnt = 0 then e.stream ++ [0x00#8] else e.stream := by
  unfold openGroup
  split <;> rfl

@[simp] theorem track_flg (e : EncRegs) : (track e).flg = e.flg := by rw [(track_spec e).1]

theorem emitItem_flg (x : EncInput) (e : EncRegs) : (emitItem x e).flg = e.flg := by
  unfold emitItem
  split <;> rfl

/-- What every item does, whichever it is (rules R128, R129). -/
theorem encodeItem_counts (x : EncInput) (e : EncRegs) :
    (encodeItem x e).flg = (openGroup e).flg ∧ (encodeItem x e).cnt = (e.cnt + 1) % 8 ∧ (encodeItem x e).n = e.n := by
  obtain ⟨hn, -, hcnt, -, -⟩ := emitItem_progress x (choose x (openGroup e))
  simp only [encodeItem, track_flg, track_cnt, track_n, emitItem_flg, choose_flg, hn, hcnt, choose_n, choose_cnt,
    openGroup_n, openGroup_cnt, true_and]

theorem emitItem_of_match (x : EncInput) {e : EncRegs} (h : 2 < e.bestLen) :
    (emitItem x e).i = e.i + e.bestLen ∧ (emitItem x e).stream =
      (e.stream.modify e.flg fun c => c + groupFlag e.cnt) ++ refStream e.bestLen e.bestOff := by
  rw [emitItem, if_pos h]
  exact ⟨rfl, rfl⟩

/-- A match: its flag is set and its two bytes are appended (rule R129). -/
theorem encodeItem_of_match {x : EncInput} {e : EncRegs} (h : 2 < (choose x e).bestLen) :
    (encodeItem x e).i = e.i + (choose x e).bestLen ∧
      (encodeItem x e).stream = ((openGroup e).stream.modify (openGroup e).flg fun c => c + groupFlag e.cnt)
        ++ refStream (choose x e).bestLen (choose x e).bestOff := by
  obtain ⟨hlen, hoff⟩ := choose_openGroup x e
  have hlong : 2 < (choose x (openGroup e)).bestLen := hlen.symm ▸ h
  obtain ⟨hpos, hstream⟩ := emitItem_of_match x hlong
  simp only [encodeItem, track_i, track_stream, hpos, hstream, choose_i, choose_flg, choose_cnt, choose_stream,
    openGroup_i, openGroup_cnt, hlen, hoff h, true_and]

/-- Any other choice: the next byte is appended (rule R129). -/
theorem encodeItem_of_literal {x : EncInput} {e : EncRegs} (h : ¬ 2 < (choose x e).bestLen) (hi : e.i < x.rev.length) :
    (encodeItem x e).i = e.i + 1 ∧ (encodeItem x e).stream = (openGroup e).stream ++ [x.rev[e.i]] := by
  have hshort : ¬ 2 < (choose x (openGroup e)).bestLen := by rw [(choose_openGroup x e).1]; exact h
  have hbyte : (x.rev.drop e.i).take 1 = [x.rev[e.i]] := by
    rw [List.drop_eq_getElem_cons hi]
    rfl
  simp only [encodeItem, track_i, track_stream, emitItem, if_neg hshort, choose_i, choose_stream, openGroup_i, hbyte,
    true_and]

/-- The tracked pair becomes the new point exactly when its sum is strictly smaller (rule R132). -/
theorem encodeItem_tracks (x : EncInput) (e : EncRegs) :
    if (encodeItem x e).stream.length + (e.n - (encodeItem x e).i) < e.pakBest + e.rawBest then
      (encodeItem x e).pakBest = (encodeItem x e).stream.length ∧ (encodeItem x e).rawBest = e.n - (encodeItem x e).i
    else (encodeItem x e).pakBest = e.pakBest ∧ (encodeItem x e).rawBest = e.rawBest := by
  obtain ⟨hn, -, -, hpak, hraw⟩ := emitItem_progress x (choose x (openGroup e))
  have hpak' : (emitItem x (choose x (openGroup e))).pakBest = e.pakBest := by
    rw [hpak, choose_spec, (openGroup_spec e).1]
  have hraw' : (emitItem x (choose x (openGroup e))).rawBest = e.rawBest := by
    rw [hraw, choose_spec, (openGroup_spec e).1]
  have hn' : (emitItem x (choose x (openGroup e))).n = e.n := by rw [hn, choose_n, openGroup_n]
  simp only [encodeItem, track_i, track_stream]
  rw [← hpak', ← hraw', ← hn', track]
  split <;> exact ⟨rfl, rfl⟩

/-- The two bytes of a match are the field word, high byte first (rules R86, R129). -/
theorem refStream_eq (len off : Nat) : refStream len off =
    [BitVec.ofNat 8 (((len - 3) * 4096 + (off - 3)) / 256), BitVec.ofNat 8 (((len - 3) * 4096 + (off - 3)) % 256)] := by
  have hhigh : (len - 3) * 16 + (off - 3) / 256 = ((len - 3) * 4096 + (off - 3)) / 256 := by omega
  have hlow : (off - 3) % 256 = ((len - 3) * 4096 + (off - 3)) % 256 := by omega
  rw [refStream, hhigh, hlow]

theorem groupFlag_eq {cnt : Nat} (h : cnt < 8) : groupFlag cnt = BitVec.ofNat 8 (2 ^ (7 - cnt)) := by
  interval_cases cnt <;> rfl

/-- An open group's control byte stands in the stream. -/
theorem openGroup_flg_lt {e : EncRegs} (h : e.cnt ≠ 0 → e.flg < e.stream.length) :
    (openGroup e).flg < (openGroup e).stream.length := by
  rw [openGroup_flg, openGroup_stream]
  split
  · simp
  next hopen => exact h hopen

/-- Settles O60: each part of an item by its own lemma. -/
theorem encodeItemEmitsAndTracks : Obligations.EncodeItemEmitsAndTracks := by
  intro x e hi hcnt hflg group at' L P r
  have hgroup : (openGroup e).stream = group := openGroup_stream e
  have hat : (openGroup e).flg = at' := openGroup_flg e
  have hlt : at' < group.length := hat ▸ hgroup ▸ openGroup_flg_lt hflg
  obtain ⟨hflag, hcount, hn⟩ := encodeItem_counts x e
  refine ⟨?_, hflag.trans hat, hcount, hn, encodeItem_tracks x e⟩
  split
  next hmatch =>
    obtain ⟨hpos, hstream⟩ := encodeItem_of_match hmatch
    refine ⟨hpos, group[at'], List.getElem?_eq_getElem hlt, ?_⟩
    rw [hgroup, hat, List.modify_eq_set_get _ hlt, groupFlag_eq hcnt, refStream_eq] at hstream
    exact hstream
  next hliteral =>
    obtain ⟨hpos, hstream⟩ := encodeItem_of_literal hliteral hi
    exact ⟨hpos, x.rev[e.i], List.getElem?_eq_getElem hi, by rw [← hgroup]; exact hstream⟩

/-! ### The points of a scan -/

theorem scan_succ (x : EncInput) (k : Nat) (e : EncRegs) :
    scan x (k + 1) e = if (scan x k e).i < (scan x k e).n then encodeItem x (scan x k e) else scan x k e := by
  rw [scan_add]
  rfl

/-- Point `k` of the scan of `raw` (rule R122). -/
def scanPoint (x : EncInput) (raw : Bytes) (e : EncRegs) (k : Nat) : EncRegs := scan x k (startEncode raw e)

/-- What ENC reads when a command runs it on `raw` in state `s`. -/
def encInput (raw : Bytes) (best : Bool) (s : State) : EncInput := ⟨raw.reverse, best, s.cmd.matchOverlap, s.free⟩

theorem encodeRegs_eq_scanPoint (raw : Bytes) (best : Bool) (s : State) :
    encodeRegs raw best s = scanPoint (encInput raw best s) raw (freeEnc s.free) raw.length := rfl

section Points
variable {x : EncInput} {raw : Bytes} (e : EncRegs)

theorem scanPoint_zero : scanPoint x raw e 0 = startEncode raw e := rfl

/-- What the first point has and every item keeps holds of every point. -/
theorem scanPoint_invariant {P : Nat → EncRegs → Prop} (hstart : P 0 (startEncode raw e))
    (hitem : ∀ k e', P k e' → e'.i < e'.n → P (k + 1) (encodeItem x e'))
    (hdone : ∀ k e', P k e' → ¬ e'.i < e'.n → P (k + 1) e') : ∀ k, P k (scanPoint x raw e k) := by
  intro k
  induction k with
  | zero => exact hstart
  | succ k ih =>
    rw [scanPoint, scan_succ]
    split
    next hlt => exact hitem k _ ih hlt
    next hge => exact hdone k _ ih hge

/-- Every point stands in the data, and point `k` has passed at least `k` bytes or all of them (rule R131). -/
structure PointBounded (raw : Bytes) (k : Nat) (e : EncRegs) : Prop where
  size : e.n = raw.length
  inside : e.i ≤ raw.length
  passed : k ≤ e.i ∨ e.i = raw.length
  count : e.cnt < 8
  flag : e.cnt ≠ 0 → e.flg < e.stream.length

theorem encodeItem_stream_length_ge {x : EncInput} {e : EncRegs} (hi : e.i < x.rev.length) :
    (openGroup e).stream.length + 1 ≤ (encodeItem x e).stream.length := by
  by_cases hmatch : 2 < (choose x e).bestLen
  · rw [(encodeItem_of_match hmatch).2]
    simp [refStream]
  · rw [(encodeItem_of_literal hmatch hi).2]
    simp

theorem PointBounded.afterItem {k : Nat} {e : EncRegs} (hrev : x.rev = raw.reverse) (h : PointBounded raw k e)
    (hlt : e.i < e.n) : PointBounded raw (k + 1) (encodeItem x e) := by
  have hlen : x.rev.length = raw.length := by rw [hrev, List.length_reverse]
  have hi : e.i < x.rev.length := by rw [hlen, ← h.size]; exact hlt
  obtain ⟨hn, hcnt, len, hpos, heq, hfits, -⟩ := encodeItem_progress hi
  refine ⟨hn.trans h.size, by omega, ?_, by omega, fun _ => ?_⟩
  · obtain hk | hend := h.passed <;> omega
  · rw [(encodeItem_counts x e).1]
    exact Nat.lt_trans (openGroup_flg_lt h.flag) (encodeItem_stream_length_ge hi)

theorem scanPoint_bounded (hrev : x.rev = raw.reverse) (k : Nat) : PointBounded raw k (scanPoint x raw e k) :=
  scanPoint_invariant e (P := PointBounded raw)
    ⟨rfl, Nat.zero_le _, .inl (Nat.le_refl 0), (by decide : 0 < 8), fun h => absurd rfl h⟩
    (fun _ _ h => h.afterItem hrev)
    (fun _ _ h hge => ⟨h.size, h.inside, .inr (by have := h.size; have := h.inside; omega), h.count, h.flag⟩) k

/-- `raw.length` items suffice (rule R131). -/
theorem scanPoint_end (hrev : x.rev = raw.reverse) : (scanPoint x raw e raw.length).i = raw.length := by
  obtain ⟨-, hinside, hpassed, -, -⟩ := scanPoint_bounded e hrev raw.length
  omega

/-- The stream only grows. -/
theorem scanPoint_stream_length_mono (hrev : x.rev = raw.reverse) {j k : Nat} (h : j ≤ k) :
    (scanPoint x raw e j).stream.length ≤ (scanPoint x raw e k).stream.length := by
  induction k, h using Nat.le_induction with
  | base => exact Nat.le_refl _
  | succ k hjk ih =>
    refine Nat.le_trans ih ?_
    have hb := scanPoint_bounded (x := x) e hrev k
    rw [scanPoint, scanPoint, scan_succ]
    split
    next hlt =>
      have hgroup := (openGroup_spec (scan x k (startEncode raw e))).2
      have hi : (scan x k (startEncode raw e)).i < x.rev.length := by
        rw [hrev, List.length_reverse]
        exact Nat.lt_of_lt_of_eq hlt hb.size
      have hgrow := encodeItem_stream_length_ge (x := x) hi
      omega
    next => exact Nat.le_refl _

/-! ### The best point (rule R132) -/

/-- The bytes a point leads to: the stream so far, and the data not yet passed. -/
def pointSum (x : EncInput) (raw : Bytes) (e : EncRegs) (k : Nat) : Nat :=
  (scanPoint x raw e k).stream.length + (raw.length - (scanPoint x raw e k).i)

/-- Point `k` is the earliest of those of least sum among points 0 to `m`, and it is the one tracked. -/
structure BestPoint (x : EncInput) (raw : Bytes) (e : EncRegs) (m k : Nat) : Prop where
  le : k ≤ m
  pak : (scanPoint x raw e m).pakBest = (scanPoint x raw e k).stream.length
  raws : (scanPoint x raw e m).rawBest = raw.length - (scanPoint x raw e k).i
  least : ∀ j, j ≤ m → pointSum x raw e k ≤ pointSum x raw e j
  earliest : ∀ j, j < k → pointSum x raw e k < pointSum x raw e j

theorem bestPoint_succ (hrev : x.rev = raw.reverse) {m k : Nat} (h : BestPoint x raw e m k) :
    ∃ k', BestPoint x raw e (m + 1) k' := by
  have hn := (scanPoint_bounded (x := x) e hrev m).size
  have hsucc : scanPoint x raw e (m + 1) =
      if (scanPoint x raw e m).i < (scanPoint x raw e m).n then encodeItem x (scanPoint x raw e m)
      else scanPoint x raw e m := scan_succ x m _
  have hold : (scanPoint x raw e m).pakBest + (scanPoint x raw e m).rawBest = pointSum x raw e k := by
    rw [h.pak, h.raws]
    rfl
  have hle : ∀ j, j ≤ m + 1 → j ≤ m ∨ j = m + 1 := fun j hj => by omega
  split at hsucc
  next =>
    have htrack := encodeItem_tracks x (scanPoint x raw e m)
    rw [hold, ← hsucc, hn] at htrack
    split at htrack
    next hlt =>
      refine ⟨m + 1, Nat.le_refl _, htrack.1, htrack.2, fun j hj => ?_, fun j hj => ?_⟩
      · obtain hj | rfl := hle j hj
        · exact Nat.le_trans (Nat.le_of_lt hlt) (h.least j hj)
        · exact Nat.le_refl _
      · exact Nat.lt_of_lt_of_le hlt (h.least j (Nat.le_of_lt_succ hj))
    next hge =>
      refine ⟨k, Nat.le_succ_of_le h.le, htrack.1.trans h.pak, htrack.2.trans h.raws, fun j hj => ?_, h.earliest⟩
      obtain hj | rfl := hle j hj
      · exact h.least j hj
      · exact Nat.le_of_not_lt hge
  next =>
    refine ⟨k, Nat.le_succ_of_le h.le, hsucc ▸ h.pak, hsucc ▸ h.raws, fun j hj => ?_, h.earliest⟩
    obtain hj | rfl := hle j hj
    · exact h.least j hj
    · exact Nat.le_trans (h.least m (Nat.le_refl m)) (by rw [pointSum, pointSum, hsucc])

theorem exists_bestPoint (hrev : x.rev = raw.reverse) : ∀ m, ∃ k, BestPoint x raw e m k := by
  intro m
  induction m with
  | zero =>
    refine ⟨0, Nat.le_refl 0, rfl, rfl, fun j hj => ?_, fun j hj => absurd hj (Nat.not_lt_zero j)⟩
    rw [Nat.le_zero.mp hj]
  | succ m ih =>
    obtain ⟨k, hk⟩ := ih
    exact bestPoint_succ e hrev hk

end Points

/-- `BLZ.COMPRESS` that answers a next state: its run fits, and the state is that of the finished scan. -/
theorem blzCompress_next {s t : State} (h : exec .blzCompress s = .next t) :
    let e := encodeRegs s.mem.inp.toBytes s.cmd.best (startCommand .blzCompress s)
    t.status.form = chooseForm e ∧ t.status.outLen = t.mem.out.len ∧
      t.mem.out.toBytes = finishEncode s.mem.inp.toBytes e ∧ t.enc = { e with stream := t.enc.stream } := by
  cases hfits : encodeFits s.mem.inp.toBytes s.cmd.best (startCommand .blzCompress s) with
  | false =>
    rw [exec_blzCompress_of_not_fits hfits] at h
    cases h
  | true =>
    obtain ⟨u, hexec, -, hform, hlen, -, hout, -, henc⟩ := exec_blzCompress_of_fits hfits
    rw [hexec] at h
    cases h
    exact ⟨hform, hlen, hout, henc⟩

/-- The books at the end of a scan (rules R53, R131, R132). -/
theorem encodeRegs_books (raw : Bytes) (best : Bool) (s : State) :
    (encodeRegs raw best s).i = raw.length ∧ (encodeRegs raw best s).cnt < 8 ∧
      (encodeRegs raw best s).pakBest + (encodeRegs raw best s).rawBest ≤ raw.length ∧
      (encodeRegs raw best s).pakBest + (encodeRegs raw best s).rawBest ≤ (encodeRegs raw best s).stream.length := by
  have hrev : (encInput raw best s).rev = raw.reverse := rfl
  have hend := scanPoint_end (freeEnc s.free) hrev
  obtain ⟨k, hk⟩ := exists_bestPoint (freeEnc s.free) hrev raw.length
  have hfirst : pointSum (encInput raw best s) raw (freeEnc s.free) k ≤ 0 + (raw.length - 0) := hk.least 0 (Nat.zero_le _)
  have hlast := hk.least _ (Nat.le_refl _)
  have hcnt := (scanPoint_bounded (freeEnc s.free) hrev raw.length).count
  have hbest : (encodeRegs raw best s).pakBest + (encodeRegs raw best s).rawBest =
      pointSum (encInput raw best s) raw (freeEnc s.free) k := by
    rw [encodeRegs_eq_scanPoint, hk.pak, hk.raws]
    rfl
  rw [← hbest, pointSum, hend, ← encodeRegs_eq_scanPoint] at hlast
  exact ⟨hend, hcnt, by omega, by omega⟩

/-- Settles O46: every point is bounded, and some point is the earliest of least sum. -/
theorem scanConsumesWholeInput : Obligations.ScanConsumesWholeInput := by
  refine ⟨fun s t h => ?_, fun x raw e hrev => ?_⟩
  · obtain ⟨-, -, -, henc⟩ := blzCompress_next h
    obtain ⟨hn, -, hstream⟩ := encodeRegs_bounded s.mem.inp.toBytes s.cmd.best (startCommand .blzCompress s)
    obtain ⟨hi, hcnt, hsum, hsumStream⟩ := encodeRegs_books s.mem.inp.toBytes s.cmd.best (startCommand .blzCompress s)
    exact ⟨henc, hn.trans (Buffer.toBytes_length _), hi.trans hn.symm, Nat.le_of_lt_succ hcnt, hn ▸ hstream, hn ▸ hsum,
      hsumStream⟩
  · intro point sum
    obtain ⟨k, hk⟩ := exists_bestPoint (x := x) e hrev raw.length
    exact ⟨k, hk.le, hk.pak, hk.raws, fun j hj => ⟨hk.least j hj, hk.earliest j⟩⟩

end Sys2Proof.Machine
end

section
/-! Lengths of the block ENC makes (rules R135, R136, R140), and an input that reaches the least of them. -/

namespace Sys2Proof.Machine

/-- The compressed form has the length its test uses (rules R134, R135). -/
theorem compressedBlock_length {raw : Bytes} {e : EncRegs} (hraw : e.rawBest ≤ raw.length)
    (hpak : e.pakBest ≤ e.stream.length) : (compressedBlock raw e).length = compressedLen e := by
  simp only [compressedBlock, encFooter, flatMap_encode_footerItems, compressedLen, List.length_append,
    List.length_take, List.length_reverse, List.length_replicate, leBytes_length, Config.footerLen]
  omega

theorem compressedLen_eq (e : EncRegs) : compressedLen e = align4 (e.rawBest + e.pakBest) + 12 := by
  have halign := (align4_spec (e.rawBest + e.pakBest)).1
  simp only [compressedLen, padOf, Config.footerLen]
  omega

theorem encodeRegs_best_le (raw : Bytes) (best : Bool) (s : State) :
    (encodeRegs raw best s).pakBest ≤ (encodeRegs raw best s).stream.length ∧ (encodeRegs raw best s).rawBest ≤ raw.length := by
  obtain ⟨-, -, hraw, hpak⟩ := encodeRegs_books raw best s
  omega

/-- The block of either form is a multiple of 4 long (rule R60). -/
theorem finishEncode_length_mod (raw : Bytes) (best : Bool) (s : State) :
    (finishEncode raw (encodeRegs raw best s)).length % 4 = 0 := by
  obtain ⟨hpak, hraw⟩ := encodeRegs_best_le raw best s
  by_cases h : (encodeRegs raw best s).pakBest = 0 ∨ (encodeRegs raw best s).n < compressedLen (encodeRegs raw best s)
  · have halign := (align4_spec raw.length).2.2
    rw [(finishEncode_stored h).2, storedBlock_length]
    omega
  · have halign := (align4_spec ((encodeRegs raw best s).rawBest + (encodeRegs raw best s).pakBest)).2.2
    rw [(finishEncode_compressed h).2, compressedBlock_length hraw hpak, compressedLen_eq]
    omega

/-- Settles O43: the bound of either form, and its alignment. -/
theorem compressNeverExpandsBeyondSeven : Obligations.CompressNeverExpandsBeyondSeven := by
  intro s t h
  obtain ⟨-, -, hout, -⟩ := blzCompress_next h
  have hn := (encodeRegs_bounded s.mem.inp.toBytes s.cmd.best (startCommand .blzCompress s)).1
  have hlen : t.mem.out.len = (finishEncode s.mem.inp.toBytes
      (encodeRegs s.mem.inp.toBytes s.cmd.best (startCommand .blzCompress s))).length := by
    rw [← hout, Buffer.toBytes_length]
  rw [hlen]
  refine ⟨?_, finishEncode_length_mod _ _ _⟩
  have hle := finishEncode_length_le hn
  rwa [Buffer.toBytes_length] at hle

/-! ### At least six encoded bytes (rule R136) -/

/-- No point of a scan has encoded as many bytes as it passed before six bytes are encoded: the first match needs three
bytes before it. -/
def EncodesSlowly (e : EncRegs) : Prop :=
  (e.i = 0 ∧ e.cnt = 0 ∧ e.stream = []) ∨ e.i < e.stream.length ∨ 6 ≤ e.stream.length

/-- A match repeats bytes at least three back (rule R125). -/
theorem three_le_of_match {x : EncInput} {e : EncRegs} (h : 2 < (choose x e).bestLen) : 3 ≤ e.i := by
  by_cases hd : Degrades x e
  · rw [choose_of_degrades hd] at h
    omega
  · rw [(choose_of_not_degrades hd).1] at h
    obtain ⟨hnone, -⟩ | ⟨q, ⟨h3, -, hqi⟩, -⟩ := search_cases x e.i
    · rw [hnone] at h
      exact absurd h (Nat.lt_irrefl 2)
    · exact Nat.le_trans h3 hqi

theorem EncodesSlowly.afterItem {x : EncInput} {e : EncRegs} (h : EncodesSlowly e) (hi : e.i < x.rev.length) :
    EncodesSlowly (encodeItem x e) := by
  have hgroup := (openGroup_spec e).2
  by_cases hmatch : 2 < (choose x e).bestLen
  · have h3 := three_le_of_match hmatch
    obtain ⟨-, hstream⟩ := encodeItem_of_match hmatch
    have hlen : (encodeItem x e).stream.length = (openGroup e).stream.length + 2 := by
      rw [hstream]
      simp [refStream]
    obtain ⟨h0, -⟩ | hslow | hsix := h
    · omega
    · exact .inr (.inr (by omega))
    · exact .inr (.inr (by omega))
  · obtain ⟨hpos, hstream⟩ := encodeItem_of_literal hmatch hi
    have hlen : (encodeItem x e).stream.length = (openGroup e).stream.length + 1 := by
      rw [hstream]
      simp
    obtain ⟨h0, hcnt, hnil⟩ | hslow | hsix := h
    · rw [hnil, if_pos hcnt, List.length_nil] at hgroup
      exact .inr (.inl (by omega))
    · exact .inr (.inl (by omega))
    · exact .inr (.inr (by omega))

theorem scanPoint_encodesSlowly {x : EncInput} {raw : Bytes} (e : EncRegs) (hrev : x.rev = raw.reverse) (k : Nat) :
    EncodesSlowly (scanPoint x raw e k) := by
  have h := scanPoint_invariant (x := x) (raw := raw) e (P := fun _ e => e.n = raw.length ∧ EncodesSlowly e)
    ⟨rfl, .inl ⟨rfl, rfl, rfl⟩⟩
    (fun _ _ h hlt => ⟨(encodeItem_counts _ _).2.2.trans h.1,
      h.2.afterItem (by rw [hrev, List.length_reverse, ← h.1]; exact hlt)⟩)
    (fun _ _ h _ => h) k
  exact h.2

/-- A compressed form no longer than its input has at least six encoded bytes. -/
theorem six_le_pakBest {raw : Bytes} {best : Bool} {s : State}
    (h : ¬ ((encodeRegs raw best s).pakBest = 0 ∨ (encodeRegs raw best s).n < compressedLen (encodeRegs raw best s))) :
    6 ≤ (encodeRegs raw best s).pakBest := by
  have hrev : (encInput raw best s).rev = raw.reverse := rfl
  obtain ⟨k, hk⟩ := exists_bestPoint (freeEnc s.free) hrev raw.length
  have hslow := scanPoint_encodesSlowly (freeEnc s.free) hrev k
  have hinside := (scanPoint_bounded (freeEnc s.free) hrev k).inside
  have halign := (align4_spec ((encodeRegs raw best s).rawBest + (encodeRegs raw best s).pakBest)).1
  rw [compressedLen_eq, (encodeRegs_bounded raw best s).1] at h
  have hpak := hk.pak
  have hraws := hk.raws
  rw [← encodeRegs_eq_scanPoint] at hpak hraws
  obtain ⟨-, -, hnil⟩ | hslow | hsix := hslow
  · rw [hnil, List.length_nil] at hpak
    omega
  · omega
  · omega

theorem compressed_of_form {e : EncRegs} (h : chooseForm e = .compressed) : ¬ (e.pakBest = 0 ∨ e.n < compressedLen e) := by
  intro hstored
  rw [chooseForm, if_pos hstored] at h
  cases h

/-! ### Twenty equal bytes (rule R142) -/

theorem matchLen_replicate (b : Byte) : ∀ l m n : Nat,
    matchLen l (List.replicate m b) (List.replicate n b) = min l (min m n) := by
  intro l
  induction l with
  | zero => intro m n; simp [matchLen]
  | succ l ih =>
    intro m n
    cases m with
    | zero => simp [matchLen]
    | succ m =>
      cases n with
      | zero => rfl
      | succ n =>
        rw [List.replicate_succ, List.replicate_succ, matchLen, if_pos rfl, ih]
        omega

/-- The input of rule R142 for a byte `b`, as ENC reads it. -/
structure TwentyBytes (b : Byte) (x : EncInput) : Prop where
  rev : x.rev = List.replicate 20 b
  overlap : x.overlap = true

section Twenty
variable {b : Byte} {x : EncInput} {e : EncRegs}

/-- Below position 3 there is no offset to search. -/
theorem choose_literal_of_lt (h : e.i < 3) : ¬ 2 < (choose x e).bestLen :=
  fun hmatch => Nat.not_le_of_lt h (three_le_of_match hmatch)

/-- At position 3 the rest repeats the byte three back. -/
theorem TwentyBytes.choose_three (hx : TwentyBytes b x) (hi : e.i = 3) (hn : e.n = 20) :
    (choose x e).bestLen = 17 ∧ (choose x e).bestOff = 3 := by
  have hoffset : offsetLen x 3 3 = 17 := by
    rw [offsetLen, matchLimit, if_pos hx.overlap, hx.rev, List.drop_replicate, List.drop_replicate, matchLen_replicate]
    rfl
  have hsearch : search x e.i = (17, 3) := by
    rw [hi]
    obtain ⟨-, hnone⟩ | ⟨q, ⟨h3, -, hq3⟩, -, heq, -⟩ := search_cases x 3
    · have h17 := hnone 3 (Nat.le_refl 3) (by decide) (Nat.le_refl 3)
      omega
    · obtain rfl : q = 3 := by omega
      rw [heq, hoffset]
  have hkeep : ¬ Degrades x e := by
    rintro ⟨-, -, hend, -⟩
    rw [hsearch, hi, hn] at hend
    exact absurd hend (Nat.lt_irrefl 20)
  obtain ⟨hlen, hoff⟩ := choose_of_not_degrades hkeep
  rw [hsearch] at hlen hoff
  exact ⟨hlen, hoff (by decide)⟩

/-- The scan after `k` literals. -/
structure AfterLiterals (b : Byte) (k : Nat) (e : EncRegs) : Prop where
  n : e.n = 20
  i : e.i = k
  cnt : e.cnt = k
  group : (openGroup e).stream = 0x00#8 :: List.replicate k b
  flg : (openGroup e).flg = 0
  pak : e.pakBest = 0
  raws : e.rawBest = 20

theorem AfterLiterals.literal (hx : TwentyBytes b x) {k : Nat} (hk : k < 3) (h : AfterLiterals b k e) :
    AfterLiterals b (k + 1) (encodeItem x e) := by
  have hi : e.i < x.rev.length := by rw [hx.rev, List.length_replicate, h.i]; omega
  obtain ⟨hflg, hcnt, hn⟩ := encodeItem_counts x e
  obtain ⟨hpos, hstream⟩ := encodeItem_of_literal (choose_literal_of_lt (by rw [h.i]; exact hk)) hi
  have hbyte : x.rev[e.i] = b := List.eq_of_mem_replicate (n := 20) (by rw [← hx.rev]; exact List.getElem_mem hi)
  rw [h.group, hbyte, List.cons_append, ← List.replicate_succ'] at hstream
  have hcnt' : (encodeItem x e).cnt = k + 1 := by rw [hcnt, h.cnt]; omega
  have htrack := encodeItem_tracks x e
  rw [hstream, hpos, h.i, h.n, h.pak, h.raws, if_neg (by simp; omega)] at htrack
  refine ⟨hn.trans h.n, by rw [hpos, h.i], hcnt', ?_, ?_, htrack.1, htrack.2⟩
  · rw [openGroup_stream, if_neg (by omega), hstream]
  · rw [openGroup_flg, if_neg (by omega), hflg, h.flg]

/-- The match that ends the scan: the whole of it is the best point. -/
theorem AfterLiterals.lastMatch (hx : TwentyBytes b x) (h : AfterLiterals b 3 e) :
    (encodeItem x e).n = 20 ∧ (encodeItem x e).i = 20 ∧ (encodeItem x e).stream = [0x10#8, b, b, b, 0xE0#8, 0x00#8] ∧
      (encodeItem x e).pakBest = 6 ∧ (encodeItem x e).rawBest = 0 := by
  obtain ⟨hlen, hoff⟩ := hx.choose_three h.i h.n
  obtain ⟨hpos, hstream⟩ := encodeItem_of_match (x := x) (e := e) (by rw [hlen]; decide)
  rw [hlen, hoff, h.group, h.flg, h.cnt] at hstream
  replace hstream : (encodeItem x e).stream = [0x10#8, b, b, b, 0xE0#8, 0x00#8] := hstream
  rw [hlen, h.i] at hpos
  have htrack := encodeItem_tracks x e
  rw [hstream, hpos, h.n, h.pak, h.raws, if_pos (by simp)] at htrack
  exact ⟨(encodeItem_counts x e).2.2.trans h.n, hpos, hstream, htrack⟩

theorem scan_of_done (x : EncInput) (k : Nat) {e : EncRegs} (h : ¬ e.i < e.n) : scan x k e = e := by
  cases k with
  | zero => rfl
  | succ k => exact if_neg h

theorem scan_of_item (x : EncInput) (k : Nat) {e : EncRegs} (h : e.i < e.n) : scan x (k + 1) e = scan x k (encodeItem x e) :=
  if_pos h

theorem scan_twenty (hx : TwentyBytes b x) (f : EncRegs) :
    ∃ e, scan x 20 (startEncode (List.replicate 20 b) f) = e ∧ e.n = 20 ∧ e.stream = [0x10#8, b, b, b, 0xE0#8, 0x00#8] ∧
      e.pakBest = 6 ∧ e.rawBest = 0 := by
  have h0 : AfterLiterals b 0 (startEncode (List.replicate 20 b) f) := by
    constructor <;> simp [startEncode, openGroup]
  have h1 := h0.literal hx (by decide)
  have h2 := h1.literal hx (by decide)
  have h3 := h2.literal hx (by decide)
  obtain ⟨hn, hi, hstream, hpak, hraw⟩ := h3.lastMatch hx
  refine ⟨_, ?_, hn, hstream, hpak, hraw⟩
  rw [scan_of_item x 19 (by rw [h0.i, h0.n]; decide), scan_of_item x 18 (by rw [h1.i, h1.n]; decide),
    scan_of_item x 17 (by rw [h2.i, h2.n]; decide), scan_of_item x 16 (by rw [h3.i, h3.n]; decide),
    scan_of_done x 16 (by rw [hi, hn]; decide)]

end Twenty

theorem encodeRegs_twenty (b : Byte) (best : Bool) {s : State} (h : s.cmd.matchOverlap = true) :
    (encodeRegs (List.replicate 20 b) best s).n = 20 ∧
      (encodeRegs (List.replicate 20 b) best s).stream = [0x10#8, b, b, b, 0xE0#8, 0x00#8] ∧
      (encodeRegs (List.replicate 20 b) best s).pakBest = 6 ∧ (encodeRegs (List.replicate 20 b) best s).rawBest = 0 := by
  have hx : TwentyBytes b (encInput (List.replicate 20 b) best s) := ⟨List.reverse_replicate, h⟩
  obtain ⟨e, heq, hregs⟩ := scan_twenty hx (freeEnc s.free)
  have henc : encodeRegs (List.replicate 20 b) best s = e := by
    rw [encodeRegs, List.length_replicate]
    exact heq
  rw [henc]
  exact hregs

/-- The registers of rule R142 make the compressed form. -/
theorem finishEncode_twenty {b : Byte} {e : EncRegs} (hn : e.n = 20) (hstream : e.stream = [0x10#8, b, b, b, 0xE0#8, 0x00#8])
    (hpak : e.pakBest = 6) (hraw : e.rawBest = 0) : chooseForm e = .compressed ∧
      finishEncode (List.replicate 20 b) e = [0x00, 0xE0, b, b, b, 0x10, 0xFF, 0xFF, 0x14, 0x00, 0x00, 0x00,
        0x0E, 0x00, 0x00, 0x00, 0x00, 0x00, 0x00, 0x00] := by
  have hpad : padOf e = 2 := by rw [padOf, hpak, hraw]; rfl
  have hlen : compressedLen e = 20 := by rw [compressedLen_eq, hpak, hraw]; rfl
  obtain ⟨hform, hblock⟩ := finishEncode_compressed (raw := List.replicate 20 b) (e := e) (by
    rw [hpak, hn, hlen]
    decide)
  refine ⟨hform, ?_⟩
  rw [hblock, compressedBlock_eq, hpad, hlen, hn, hpak, hraw, hstream]
  rfl

/-- Settles O42: six encoded bytes (`six_le_pakBest`), and the run on twenty equal bytes. -/
theorem compressedFormBounds : Obligations.CompressedFormBounds := by
  refine ⟨fun s t h hcompressed => ?_, fun b s hinp hoverlap hmax => ?_⟩
  · obtain ⟨hform, hlen, hout, henc⟩ := blzCompress_next h
    obtain ⟨hpak, hraw⟩ := encodeRegs_best_le s.mem.inp.toBytes s.cmd.best (startCommand .blzCompress s)
    have hchoice := compressed_of_form (hform.symm.trans hcompressed)
    have hsix := six_le_pakBest hchoice
    have hmod := finishEncode_length_mod s.mem.inp.toBytes s.cmd.best (startCommand .blzCompress s)
    have hn := (encodeRegs_bounded s.mem.inp.toBytes s.cmd.best (startCommand .blzCompress s)).1
    rw [Buffer.toBytes_length] at hn hraw
    rw [henc]
    generalize encodeRegs s.mem.inp.toBytes s.cmd.best (startCommand .blzCompress s) = e at *
    have hblock : t.status.outLen = compressedLen e := by
      rw [hlen, ← Buffer.toBytes_length, hout, (finishEncode_compressed hchoice).2,
        compressedBlock_length (by rw [Buffer.toBytes_length]; exact hraw) hpak]
    rw [hblock]
    rw [← hout, Buffer.toBytes_length, ← hlen, hblock] at hmod
    have halign := align4_spec (e.rawBest + e.pakBest)
    rw [compressedLen_eq] at hchoice hmod ⊢
    exact ⟨hsix, by omega, by omega, hmod, hpak, hraw⟩
  · have hbytes : s.mem.inp.toBytes = List.replicate 20 b := by rw [hinp, Buffer.toBytes_ofBytes]
    obtain ⟨hn, hstream, hpak, hraw⟩ := encodeRegs_twenty b s.cmd.best (s := startCommand .blzCompress s) hoverlap
    obtain ⟨hform, hblock⟩ := finishEncode_twenty hn hstream hpak hraw
    have hfits : encodeFits s.mem.inp.toBytes s.cmd.best (startCommand .blzCompress s) = true := by
      refine encodeFits_iff.mpr fun m hm => ?_
      have h20 := hmax m hm
      rw [hbytes, hblock, hstream, List.length_replicate]
      exact ⟨h20, Nat.lt_trans (show 6 < 20 by decide) h20, h20⟩
    obtain ⟨t, hexec, herr, hform', hlen, -, hout, -, -⟩ := exec_blzCompress_of_fits hfits
    rw [hbytes] at hform' hout
    refine ⟨t, hexec, herr, hform'.trans hform, ?_, hout.trans hblock⟩
    rw [hlen, ← Buffer.toBytes_length, hout, hblock]
    rfl

end Sys2Proof.Machine
end

section
/-! Two token loops side by side, in any modes, on buffers related in a way each token keeps: they go on together or
raise together (rules R169 to R176). -/

namespace Sys2Proof.Machine

/-! ### The relation of the buffers -/

/-- The buffer with one byte stored. -/
def Buffer.put (b : Buffer) (i : Nat) (v : Byte) : Buffer := { b with cells := cellsSet b.cells i v }

/-- A relation of the two working buffers, DEC's registers given, that tells the loops nothing apart: a byte a token may
read, below `DEC.r` or from `DEC.w` upward, is the same in both, and storing a byte below `DEC.w` in both keeps it. -/
structure Indistinct (R : DecRegs → Buffer → Buffer → Prop) : Prop where
  move : ∀ {d e : DecRegs} {b c : Buffer}, R d b c → e.base = d.base → e.outLen = d.outLen → e.r ≤ d.r → e.w = d.w → R e b c
  load : ∀ {d : DecRegs} {b c : Buffer} {k : Nat}, R d b c → k < d.outLen → k < d.r ∨ d.w ≤ k →
    cellsGet b.cells (d.base + k) = cellsGet c.cells (d.base + k)
  store : ∀ {d e : DecRegs} {b c : Buffer} {w : Nat} (v : Byte), R d b c → e.base = d.base → e.outLen = d.outLen →
    e.r ≤ d.r → e.w = w → d.w = w + 1 → d.base + w < b.len → d.base + w < c.len → R e (b.put (d.base + w) v) (c.put (d.base + w) v)

/-- Equal buffers. -/
theorem indistinct_eq : Indistinct fun _ b c => b = c where
  move h _ _ _ _ := h
  load h _ _ := by rw [h]
  store _ h _ _ _ _ _ _ _ := by rw [h]

/-- Buffers in canonical form that agree on what a token may still read, and below the decoded region. -/
structure AgreeAround (d : DecRegs) (b c : Buffer) : Prop where
  wf : b.wf = true
  wf' : c.wf = true
  agree : ∀ i, i < d.base + d.outLen → i < d.base + d.r ∨ d.base + d.w ≤ i → cellsGet b.cells i = cellsGet c.cells i

theorem Buffer.put_get {b : Buffer} (hwf : b.wf = true) (i : Nat) (v : Byte) (j : Nat) :
    cellsGet (b.put i v).cells j = if i = j then v else cellsGet b.cells j := cellsGet_set i v j hwf

theorem Buffer.put_wf {b : Buffer} (hwf : b.wf = true) {i : Nat} (hi : i < b.len) (v : Byte) : (b.put i v).wf = true :=
  cellsSet_ok hwf (Nat.zero_le _) hi

theorem indistinct_agreeAround : Indistinct AgreeAround where
  move h hbase hout hr hw := ⟨h.wf, h.wf', fun i hi hread => h.agree i (by omega) (by omega)⟩
  load h hk hread := h.agree _ (by omega) (by omega)
  store v h hbase hout hr hw hw1 hb hc := by
    refine ⟨Buffer.put_wf h.wf hb v, Buffer.put_wf h.wf' hc v, fun i hi hread => ?_⟩
    rw [Buffer.put_get h.wf, Buffer.put_get h.wf']
    split
    · rfl
    next hne => exact h.agree i (by omega) (by omega)

/-! ### Two loops at the same point -/

/-- Two token loops at the same point, on buffers related by `R`. -/
structure Alongside (R : DecRegs → Buffer → Buffer → Prop) (s u : State) : Prop where
  cursors : SameCursors s.dec u.dec
  fits : s.dec.base + s.dec.outLen ≤ (oBuf s).len
  fits' : s.dec.base + s.dec.outLen ≤ (oBuf u).len
  shared : R s.dec (oBuf s) (oBuf u)

/-- How the operations of the two loops may end: both go on, or both raise `OutOfBounds`. -/
inductive EndAlongside (R : DecRegs → Buffer → Buffer → Prop) : Ctl → Ctl → Prop
  | ok {s u : State} (h : Alongside R s u) : EndAlongside R (.ok s) (.ok u)
  | raised (i j : Info) (s u : State) : EndAlongside R (.raised .outOfBounds i s) (.raised .outOfBounds j u)

theorem EndAlongside.andThen {R : DecRegs → Buffer → Buffer → Prop} {c d : Ctl} {f : State → Ctl} (h : EndAlongside R c d)
    (hf : ∀ s u, Alongside R s u → EndAlongside R (f s) (f u)) : EndAlongside R (c.andThen f) (d.andThen f) := by
  cases h with
  | ok h => exact hf _ _ h
  | raised i j s u => exact .raised i j s u

/-- A store at a byte that exists, in either mode. -/
theorem oSet_eq_put {s : State} {k : Nat} (b : Byte) (hk : s.dec.base + k < (oBuf s).len) :
    ∃ t, oSet s k b = some t ∧ t.dec = s.dec ∧ oBuf t = (oBuf s).put (s.dec.base + k) b := by
  have hset : (oBuf s).set (s.dec.base + k) b = some ((oBuf s).put (s.dec.base + k) b) := if_pos hk
  unfold oSet
  rw [hset]
  by_cases hop : s.cmd.op = .blzDecompressP
  · exact ⟨_, rfl, by rw [if_pos hop]; rfl, by simp [oBuf, oName, hop, Memory.buf]⟩
  · exact ⟨_, rfl, by rw [if_neg hop]; rfl, by simp [oBuf, oName, hop, Memory.buf]⟩

theorem oGet_eq_cellsGet {s : State} {k : Nat} (hk : s.dec.base + k < (oBuf s).len) :
    oGet s k = some (cellsGet (oBuf s).cells (s.dec.base + k)) := if_pos hk

section Tokens
variable {R : DecRegs → Buffer → Buffer → Prop} (hR : Indistinct R) {s u : State} (h : Alongside R s u)
include hR h

theorem Alongside.withDec {d e : DecRegs} (hcursors : SameCursors d e) (hbase : d.base = s.dec.base)
    (houtLen : d.outLen = s.dec.outLen) (hr : d.r ≤ s.dec.r) (hw : d.w = s.dec.w) :
    Alongside R (s.withDec d) (u.withDec e) where
  cursors := hcursors
  fits := by show d.base + d.outLen ≤ _; rw [hbase, houtLen]; exact h.fits
  fits' := by show d.base + d.outLen ≤ _; rw [hbase, houtLen]; exact h.fits'
  shared := hR.move h.shared hbase houtLen hr hw

/-- A byte read below `DEC.r` or at or above `DEC.w`. -/
theorem Alongside.load {k : Nat} (hk : k < s.dec.outLen) (hread : k < s.dec.r ∨ s.dec.w ≤ k) :
    ∃ b, oGet s k = some b ∧ oGet u k = some b := by
  have hfits := h.fits
  have hfits' := h.fits'
  refine ⟨_, oGet_eq_cellsGet (by omega), ?_⟩
  rw [oGet_eq_cellsGet (by rw [← h.cursors.base]; omega), ← h.cursors.base, hR.load h.shared hk hread]

/-- A byte stored just below `DEC.w`, which moves down to it. -/
theorem Alongside.store {d e : DecRegs} {w : Nat} (v : Byte) (hcursors : SameCursors d e) (hbase : d.base = s.dec.base)
    (houtLen : d.outLen = s.dec.outLen) (hr : d.r ≤ s.dec.r) (hw : d.w = w) (hw1 : s.dec.w = w + 1) :
    ∃ t t', oSet (s.withDec d) w v = some t ∧ oSet (u.withDec e) w v = some t' ∧ Alongside R t t' ∧ t.dec = d ∧
      t'.dec = e := by
  have hfits := h.fits
  have hfits' := h.fits'
  have hwrite := h.cursors.writeInside
  have hbase' : e.base = s.dec.base := hcursors.base.symm.trans hbase
  obtain ⟨t, ht, hdec, hbuf⟩ := oSet_eq_put (s := s.withDec d) (k := w) v (by
    show d.base + w < (oBuf s).len
    omega)
  obtain ⟨t', ht', hdec', hbuf'⟩ := oSet_eq_put (s := u.withDec e) (k := w) v (by
    show e.base + w < (oBuf u).len
    omega)
  replace hdec : t.dec = d := hdec
  replace hdec' : t'.dec = e := hdec'
  replace hbuf : oBuf t = (oBuf s).put (s.dec.base + w) v := by rw [hbuf, ← hbase]; rfl
  replace hbuf' : oBuf t' = (oBuf u).put (s.dec.base + w) v := by rw [hbuf', ← hbase']; rfl
  refine ⟨t, t', ht, ht', ⟨by rw [hdec, hdec']; exact hcursors, ?_, ?_, ?_⟩, hdec, hdec'⟩
  · rw [hdec, hbuf, hbase, houtLen]
    exact hfits
  · rw [hdec, hbuf', hbase, houtLen]
    exact hfits'
  · rw [hdec, hbuf, hbuf']
    exact hR.store v h.shared hbase houtLen hr hw hw1 (by omega) (by omega)

theorem decCtrl_alongside (f : Byte) : EndAlongside R (decCtrl f s) (decCtrl f u) := by
  obtain ⟨hr, hw, hk, hbase, houtLen, -, hread, hwrite⟩ := h.cursors
  by_cases hshort : s.dec.r < 1
  · rw [decCtrl, decCtrl, if_pos hshort, if_pos (hr ▸ hshort)]
    exact .raised ..
  · rw [decCtrl_of_room (by omega), decCtrl_of_room (by omega)]
    exact .ok (h.withDec hR ⟨congrArg (· - 1) hr, hw, rfl, hbase, houtLen, fun _ => rfl,
      Nat.le_trans (Nat.sub_le ..) hread, hwrite⟩ rfl rfl (Nat.sub_le ..) rfl)

theorem decLit_alongside (b : Byte) (hw0 : s.dec.w ≠ 0) : EndAlongside R (decLit b s) (decLit b u) := by
  obtain ⟨hr, hw, hk, hbase, houtLen, hctrl, hread, hwrite⟩ := h.cursors
  by_cases hshort : s.dec.r < 1
  · rw [decLit, decLit, if_pos hshort, if_pos (hr ▸ hshort)]
    exact .raised ..
  · obtain ⟨t, t', ht, ht', hstored, -⟩ := h.store hR (w := s.dec.w - 1) b
      (d := (litStart s).dec) (e := (litStart u).dec)
      ⟨congrArg (· - 1) hr, congrArg (· - 1) hw, hk, hbase, houtLen, hctrl, Nat.le_trans (Nat.sub_le ..) hread,
        Nat.le_trans (Nat.sub_le ..) hwrite⟩ rfl rfl (Nat.sub_le ..) rfl (by omega)
    have hs : oSet (litStart s) (s.dec.w - 1) b = some t := ht
    have hu : oSet (litStart u) (s.dec.w - 1) b = some t' := ht'
    rw [decLit_eq_store (by omega) (by omega), decLit_eq_store (by omega) (by omega), ← hw, hs, hu]
    exact .ok hstored

end Tokens

section Loop
variable {R : DecRegs → Buffer → Buffer → Prop} (hR : Indistinct R)
include hR

/-- The copy: each source byte lies at or above `DEC.w` and below `DEC.out_len` (rule R176 d). -/
theorem copyBack_alongside (n : Nat) : ∀ {s u : State}, Alongside R s u → s.dec.off = u.dec.off → 1 ≤ s.dec.off →
    n ≤ s.dec.w → EndAlongside R (copyBack n s) (copyBack n u) := by
  induction n with
  | zero => exact fun h _ _ _ => .ok h
  | succ n ih =>
    intro s u h hoff hoff1 hn
    obtain ⟨hr, hw, hk, hbase, houtLen, hctrl, hread, hwrite⟩ := h.cursors
    by_cases hsrc : s.dec.outLen ≤ s.dec.w - 1 + s.dec.off
    · rw [copyBack_raises hsrc, copyBack_raises (by omega)]
      exact .raised ..
    · obtain ⟨b, hs, hu⟩ := h.load hR (k := s.dec.w - 1 + s.dec.off) (Nat.lt_of_not_le hsrc) (.inr (by omega))
      obtain ⟨t, t', ht, ht', hstored, hdec, hdec'⟩ := h.store hR (w := s.dec.w - 1) b
        (d := (copyStart s).dec) (e := (copyStart u).dec)
        ⟨hr, congrArg (· - 1) hw, hk, hbase, houtLen, hctrl, hread, Nat.le_trans (Nat.sub_le ..) hwrite⟩ rfl rfl
        (Nat.le_refl _) rfl (by omega)
      have hload : oGet (copyStart u) (u.dec.w - 1 + u.dec.off) = some b := by rw [← hw, ← hoff]; exact hu
      have hstore : oSet (copyStart u) (u.dec.w - 1) b = some t' := by rw [← hw]; exact ht'
      rw [copyBack_of_source (by omega) hs ht, copyBack_of_source (by omega) hload hstore]
      exact ih hstored (by rw [hdec, hdec']; exact hoff) (by rw [hdec]; exact hoff1)
        (by rw [hdec]; show n ≤ s.dec.w - 1; omega)

section Turn
variable {s u : State} (h : Alongside R s u)
include h

theorem decRef_alongside (l : BitVec 4) (o : BitVec 12) : EndAlongside R (decRef l o s) (decRef l o u) := by
  obtain ⟨hr, hw, hk, hbase, houtLen, hctrl, hread, hwrite⟩ := h.cursors
  by_cases hshort : s.dec.r < 2
  · rw [decRef, decRef, if_pos hshort, if_pos (hr ▸ hshort)]
    exact .raised ..
  · have hstart : Alongside R (refStart l o s) (refStart l o u) :=
      h.withDec hR ⟨congrArg (· - 2) hr, hw, hk, hbase, houtLen, hctrl, Nat.le_trans (Nat.sub_le ..) hread, hwrite⟩
        rfl rfl (Nat.sub_le ..) rfl
    rw [decRef_eq_copyBack (by omega), decRef_eq_copyBack (by omega), ← hw]
    exact copyBack_alongside hR _ hstart rfl (Nat.succ_pos _) (Nat.min_le_right ..)

omit hR in
theorem tokenSlot_of_alongside : tokenSlot u = tokenSlot s := by
  have hk := h.cursors.k
  by_cases h0 : s.dec.k = 0
  · rw [tokenSlot_of_empty h0, tokenSlot_of_empty (hk ▸ h0)]
  · rw [tokenSlot, tokenSlot, nextFlag, nextFlag, ← hk, h.cursors.ctrl h0]

theorem tokenState_alongside : Alongside R (tokenState s) (tokenState u) := by
  obtain ⟨hr, hw, hk, hbase, houtLen, hctrl, hread, hwrite⟩ := h.cursors
  by_cases h0 : s.dec.k = 0
  · rw [tokenState_of_empty h0, tokenState_of_empty (hk ▸ h0)]
    exact h
  · rw [tokenState_of_flag (Nat.pos_of_ne_zero h0), tokenState_of_flag (Nat.pos_of_ne_zero (hk ▸ h0))]
    refine h.withDec hR ⟨hr, hw, congrArg (· - 1) hk, hbase, houtLen, fun _ => ?_, hread, hwrite⟩ rfl rfl (Nat.le_refl _) rfl
    rw [hctrl h0]

/-- The bytes of a token, both the same. -/
theorem Alongside.fetch {n : Nat} (hn : n ≤ s.dec.r) : ∃ bs,
    (oBuf s).slice (s.dec.base + (s.dec.r - n)) n = some bs ∧ (oBuf u).slice (u.dec.base + (u.dec.r - n)) n = some bs ∧
      bs.length = n := by
  have hfits := h.fits
  have hfits' := h.fits'
  have hread := h.cursors.readInside
  refine ⟨_, Buffer.slice_eq (by omega), ?_, cellsSlice_length ..⟩
  rw [← h.cursors.base, ← h.cursors.r, Buffer.slice_eq (by omega)]
  refine congrArg some (cellsSlice_congr fun j hlo hhi => ?_)
  obtain ⟨k, rfl⟩ := Nat.exists_eq_add_of_le (show s.dec.base ≤ j by omega)
  exact (hR.load h.shared (by omega) (.inl (by omega))).symm

/-- One turn of the two loops. -/
theorem decodeToken_alongside (hw : s.dec.w ≠ 0) : EndAlongside R (decodeToken s) (decodeToken u) := by
  have hslot := tokenSlot_of_alongside h
  have hstate := tokenState_alongside hR h
  have hw' : u.dec.w ≠ 0 := h.cursors.w ▸ hw
  by_cases hr : s.dec.r < (tokenSlot s).size
  · rw [decodeToken_of_short hw hr, decodeToken_of_short hw' (by rw [hslot, ← h.cursors.r]; exact hr)]
    exact .raised ..
  · obtain ⟨bs, hslice, hslice', hlen⟩ := h.fetch hR (Nat.le_of_not_lt hr)
    have hw1 : (tokenState s).dec.w ≠ 0 := by rw [(tokenState_eq s).1]; exact hw
    have hrun {i : Instr} {rest : Bytes} (hdecode : decode (tokenSlot s) bs = .ok (i, rest))
        (hi : EndAlongside R (runToken i (tokenState s)) (runToken i (tokenState u))) :
        EndAlongside R (decodeToken s) (decodeToken u) := by
      rw [decodeToken_of_room hw (Nat.le_of_not_lt hr) hslice hdecode,
        decodeToken_of_room hw' (by rw [hslot, ← h.cursors.r]; omega) (hslot ▸ hslice') (hslot ▸ hdecode)]
      exact hi
    obtain ⟨f, hctrl⟩ | ⟨b, hlit⟩ | ⟨l, o, href⟩ := decode_of_token (tokenSlot_cases s) hlen.ge
    · exact hrun hctrl (decCtrl_alongside hR hstate f)
    · exact hrun hlit (decLit_alongside hR hstate b hw1)
    · exact hrun href (decRef_alongside hR hstate l o)

end Turn

theorem tokenLoop_alongside (fuel : Nat) :
    ∀ {s u : State}, Alongside R s u → EndAlongside R (tokenLoop fuel s) (tokenLoop fuel u) := by
  induction fuel with
  | zero =>
    intro s u h
    rw [tokenLoop, tokenLoop, ← h.cursors.w]
    split
    · exact .ok h
    next hw => exact decodeToken_alongside hR h hw
  | succ n ih =>
    intro s u h
    rw [tokenLoop, tokenLoop, ← h.cursors.w]
    split
    · exact .ok h
    next hw => exact (decodeToken_alongside hR h hw).andThen fun _ _ => ih

end Loop

end Sys2Proof.Machine
end

section
/-! FTR and the whole decode on one block, in any modes (rules R151 to R158, R165 to R187). -/

namespace Sys2Proof.Machine

/-! ### FTR reads the block's length and its three words -/

/-- The block of two states has the same footer, and the parameters FTR reads are the same (rules R151, R155, R157). -/
structure SameFooter (s u : State) : Prop where
  len : blockLen u = blockLen s
  word : ∀ i, i + 4 ≤ blockLen s → (blockBuf u).read i 4 = (blockBuf s).read i 4
  hdrMax : u.cmd.hdrMax = s.cmd.hdrMax
  maxLen : u.cmd.maxLen = s.cmd.maxLen

/-- FTR's two verdicts: both accept, with the same registers, or both refuse, with the same context. -/
inductive FootersAgree : Ctl → Ctl → Prop
  | accepted {t v : State} (hftr : t.ftr = v.ftr) : FootersAgree (.ok t) (.ok v)
  | refused (i : Info) (t v : State) : FootersAgree (.raised .malformedFooter i t) (.raised .malformedFooter i v)

section Footer
variable {s u : State} (h : SameFooter s u)
include h

theorem footerTests_agree (htotal : s.ftr.totalSize = u.ftr.totalSize) (hheader : s.ftr.headerLen = u.ftr.headerLen)
    (hextra : s.ftr.extraSize = u.ftr.extraSize) : FootersAgree (footerTests s) (footerTests u) := by
  have hmax (n : Nat) : belowMax u n = belowMax s n := by simp only [belowMax, h.maxLen]
  unfold footerTests
  dsimp only
  simp only [h.len, ← htotal, ← hheader, ← hextra, h.hdrMax, hmax, h.maxLen]
  split
  · split
    · exact .accepted (by simp [footerDone, htotal, hheader, hextra])
    · exact .refused ..
  split
  · exact .refused ..
  split
  · exact .refused ..
  split
  · exact .accepted (by simp [footerDone, htotal, hheader, hextra])
  · exact .refused ..

theorem footer_agree : FootersAgree (footer s) (footer u) := by
  by_cases hshort : blockLen s < 12
  · rw [footer_of_short hshort, footer_of_short (h.len ▸ hshort), h.len]
    exact .refused ..
  · have hroom := Nat.le_of_not_lt hshort
    have hloaded : SameFooter (loadWords s) (loadWords u) := ⟨h.len, h.word, h.hdrMax, h.maxLen⟩
    have hword {k : Nat} (hk : 4 ≤ k) (hk' : k ≤ 12) : BitVec.ofNat 32 ((blockBuf s).read (blockLen s - k) 4) =
        BitVec.ofNat 32 ((blockBuf u).read (blockLen u - k) 4) := by
      rw [h.len, h.word _ (by omega)]
    rw [footer_of_room hroom, footer_of_room (h.len ▸ hroom)]
    exact footerTests_agree hloaded (hword (by decide) (by decide)) (hword (by decide) (by decide))
      (hword (by decide) (by decide))

end Footer

/-- The footer of a command on a state is that of another command on a state with the same block. -/
theorem sameFooter_of_bytes {s u : State} {l : Bytes} (hs : (blockBuf s).slice 0 (blockLen s) = some l)
    (hu : (blockBuf u).slice 0 (blockLen u) = some l) (hhdrMax : u.cmd.hdrMax = s.cmd.hdrMax)
    (hmaxLen : u.cmd.maxLen = s.cmd.maxLen) : SameFooter s u := by
  unfold Buffer.slice at hs hu
  split at hs <;> cases hs
  split at hu
  case isFalse => cases hu
  have hcells := Option.some.inj hu
  have hlen : blockLen u = blockLen s := by
    rw [← cellsSlice_length (blockBuf u).cells (blockLen u) 0, hcells, cellsSlice_length]
  refine ⟨hlen, fun i hi => ?_, hhdrMax, hmaxLen⟩
  refine congrArg leNat (cellsSlice_congr fun j hlo hhi => ?_)
  have hj : j < blockLen s := by omega
  have hget := cellsSlice_getElem (blockBuf u).cells (blockLen u) 0 j (by rw [cellsSlice_length, hlen]; exact hj)
  simp only [hcells] at hget
  rw [cellsSlice_getElem, Nat.zero_add] at hget
  exact hget.symm

/-! ### The whole decode -/

/-- How two decodes of one block end: both degenerate, both with their token loops side by side to the end, or both
raising the same kind. -/
inductive DecodesAgree (R : DecRegs → Buffer → Buffer → Prop) (s u : State) : Ctl → Ctl → Prop
  | degenerate {t v : State} (ht : SameButFtr s t) (hv : SameButFtr u v) :
      DecodesAgree R s u (.ok (degenerateDone t)) (.ok (degenerateDone v))
  | decoded {s' u' t v : State} (hs : SameButFtr s s') (hu : SameButFtr u u') (hproper : ProperFooter s')
      (ht : TokenEffect (startDecode s') t) (hv : TokenEffect (startDecode u') v) (hw : t.dec.w = 0)
      (h : Alongside R t v) : DecodesAgree R s u (.ok (endDecode t)) (.ok (endDecode v))
  | raised {k : ErrKind} (hk : k = .malformedFooter ∨ k = .outOfBounds) (i j : Info) (t v : State) :
      DecodesAgree R s u (.raised k i t) (.raised k j v)

/-- Once FTR has accepted one block for both, the decodes agree when the capacity tests do and the loops start side by
side. -/
theorem decodeBlock_agree {R : DecRegs → Buffer → Buffer → Prop} (hR : Indistinct R) {s u : State} (h : SameFooter s u)
    (hcap : CapacityReal s) (hcap' : CapacityReal u)
    (htest : ∀ t v, footer s = .ok t → footer u = .ok v → t.ftr = v.ftr →
      (capacityTest t = .ok t ∧ capacityTest v = .ok v) ∨
        ∃ i j, capacityTest t = .raised .malformedFooter i t ∧ capacityTest v = .raised .malformedFooter j v)
    (hstart : ∀ t v, SameButFtr s t → SameButFtr u v → t.ftr = v.ftr → ProperFooter t → 
      R (startDecode t).dec (oBuf (startDecode t)) (oBuf (startDecode v))) :
    DecodesAgree R s u (decodeBlock s) (decodeBlock u) := by
  have hs := footer_keepsAllButFtr s
  have hu := footer_keepsAllButFtr u
  have hagree := footer_agree h
  unfold decodeBlock
  cases hfs : footer s with
  | fault f => rw [hfs] at hs; exact hs.elim
  | raised k i t =>
    rw [hfs] at hagree
    generalize footer u = d at hagree
    cases hagree
    exact .raised (.inl rfl) ..
  | ok t =>
    rw [hfs] at hagree hs
    replace hs : SameButFtr s t := hs
    cases hfu : footer u with
    | fault f => rw [hfu] at hagree; cases hagree
    | raised k i v => rw [hfu] at hagree; cases hagree
    | ok v =>
      rw [hfu] at hagree hu
      replace hu : SameButFtr u v := hu
      cases hagree with
      | accepted hftr =>
        rw [Ctl.andThen_ok, Ctl.andThen_ok]
        obtain ⟨ht, hv⟩ | ⟨i, j, ht, hv⟩ := htest t v hfs hfu hftr
        · rw [ht, hv, Ctl.andThen_ok, Ctl.andThen_ok, decodeBody, decodeBody, ← hftr]
          split
          · exact .degenerate hs hu
          next hdeg =>
            have hproper := (footer_eq_ok hfs).2.2 (Bool.eq_false_of_not_eq_true hdeg)
            have hproper' := (footer_eq_ok hfu).2.2 (by rw [← hftr]; exact Bool.eq_false_of_not_eq_true hdeg)
            have hreal : CapacityReal t := by unfold CapacityReal; rw [hs.cmd, hs.mem]; exact hcap
            have hreal' : CapacityReal v := by unfold CapacityReal; rw [hu.cmd, hu.mem]; exact hcap'
            have hin := startDecode_inside hproper hreal ht
            have hin' := startDecode_inside hproper' hreal' hv
            have hbase : (startDecode v).dec.base + (startDecode v).dec.outLen =
                (startDecode t).dec.base + (startDecode t).dec.outLen := by
              simp only [startDecode_dec, hftr]
            have hbeside : Alongside R (startDecode t) (startDecode v) := by
              refine ⟨?_, hin.region, hbase ▸ hin'.region, hstart t v hs hu hftr hproper⟩
              simp only [startDecode_dec, hftr]
              exact ⟨rfl, rfl, rfl, rfl, rfl, fun hk => absurd rfl hk, hftr ▸ hproper.readInside, Nat.le_refl _⟩
            have hends := tokenLoop_ends t.ftr.readStart hin (Nat.le_refl _)
            have hends' := tokenLoop_ends v.ftr.readStart hin' (Nat.le_refl _)
            have hloop := tokenLoop_alongside hR t.ftr.readStart hbeside
            rw [← hftr] at hends'
            generalize tokenLoop t.ftr.readStart (startDecode t) = c at hloop hends ⊢
            generalize tokenLoop t.ftr.readStart (startDecode v) = d at hloop hends' ⊢
            cases hloop with
            | ok hend => exact .decoded hs hu hproper hends.1 hends'.1 hends.2 hend
            | raised i j => exact .raised (.inr rfl) ..
        · rw [ht, hv]
          exact .raised (.inl rfl) ..

end Sys2Proof.Machine
end

section
/-! What follows for the decode commands: FTR's error is theirs (rules R165, R166, R186), the modes are equivalent
(rule R187), a block that lost its last byte is refused (rule R160). -/

namespace Sys2Proof.Machine

/-! ### FTR's error -/

/-- A decode of a block FTR refuses ends with its error before the token loop. -/
theorem decodeBlock_of_footer_refused {s t u : State} (h : SameFooter s u) (hfooter : (footer s).outcome = .next t)
    (herr : t.status.err ≠ .ok) : t.status.err = .malformedFooter ∧ ∃ v, SameButFtr u v ∧
      decodeBlock u = .raised .malformedFooter t.status.info v := by
  have hagree := footer_agree h
  have hkept := footer_keepsAllButFtr u
  unfold decodeBlock
  cases hfs : footer s with
  | ok t' =>
    rw [hfs] at hfooter
    cases hfooter
    exact absurd (footer_eq_ok hfs).1 herr
  | fault f =>
    rw [hfs] at hfooter
    cases hfooter
  | raised k i t' =>
    rw [hfs] at hfooter hagree
    cases hfooter
    generalize footer u = d at hagree hkept
    cases hagree with
    | refused _ _ v => exact ⟨rfl, v, hkept.2, rfl⟩

/-- Settles O33: FTR refuses for the decoder too (`decodeBlock_of_footer_refused`); how DEC ends is `CommandEnd.run`. -/
theorem decodeTakesFooterError : Obligations.DecodeTakesFooterError := by
  refine ⟨fun s t hexec herr => ?_, fun s t l hn hcap hmax hslice hexec herr => ?_, fun op s t hop hexec =>
    (commandEnd_of_next hexec).run hop⟩
  · have hsame : SameFooter (startCommand .blzFooter s) (startCommand .blzDecompressS s) := ⟨rfl, fun _ _ => rfl, rfl, rfl⟩
    obtain ⟨hkind, v, -, hdecode⟩ := decodeBlock_of_footer_refused hsame hexec herr
    have hnext : exec .blzDecompressS s = .next (takeRaise .malformedFooter t.status.info v) := by
      rw [exec_blzDecompressS, hdecode]
      rfl
    exact ⟨_, hnext, hkind.symm, rfl, (commandEnd_of_next (op := .blzDecompressS) hnext).run (.inl rfl)⟩
  · have hsame : SameFooter (startCommand .blzFooter (giveInput l s)) (startCommand .blzDecompressP s) :=
      sameFooter_of_bytes (l := l) ((HoldsAt.self l).slice rfl) hslice rfl rfl
    obtain ⟨hkind, v, hkept, hdecode⟩ := decodeBlock_of_footer_refused hsame hexec herr
    have hnext : exec .blzDecompressP s = .next (takeRaise .malformedFooter t.status.info v) := by
      rw [exec_blzDecompressP_of_operands hn hcap hmax, hdecode]
      rfl
    have hrun : v.dec.run ≠ .run := by rw [hkept.dec]; nofun
    refine ⟨_, hnext, hkind.symm, rfl, (commandEnd_of_next (op := .blzDecompressP) hnext).run (.inr rfl), ?_⟩
    exact (takeRaise_m_of_not_running _ _ hrun).trans (congrArg Memory.m hkept.mem)

/-! ### The two modes -/

/-- An accepted footer: there was room for it, and the register holds its last word. -/
theorem footer_ok_extraSize {s u : State} (h : footer s = .ok u) :
    12 ≤ blockLen s ∧ u.ftr.extraSize.toNat = (blockBuf s).read (blockLen s - 4) 4 := by
  by_cases hshort : blockLen s < 12
  · rw [footer_of_short hshort] at h
    cases h
  · have hroom := Nat.le_of_not_lt hshort
    refine ⟨hroom, ?_⟩
    rw [footer_of_room hroom] at h
    rw [← loadWords_extraSize s]
    obtain ⟨-, -, htests⟩ | ⟨-, -, htests⟩ | ⟨-, info, htests⟩ | ⟨-, -, -, -, -, -, htests⟩ :=
      footerTests_cases (loadWords s) <;> rw [htests] at h <;> cases h <;> rfl

/-- The output buffer of strict mode, as DEC starts (rule R180). -/
theorem oBuf_startDecode_of_strict {u : State} (hop : u.cmd.op ≠ .blzDecompressP) :
    oBuf (startDecode u) = ⟨blockLen u + u.ftr.extraSize.toNat, u.mem.inp.cells⟩ := by
  rw [oBuf, oName_eq (startDecode_cmd u), oName, if_neg hop, startDecode, allocate_of_strict hop]
  rfl

/-- In place, `M` as it stands (rule R183). -/
theorem oBuf_startDecode_of_inPlace {u : State} (hop : u.cmd.op = .blzDecompressP) :
    oBuf (startDecode u) = u.mem.m := by
  rw [oBuf, oName_eq (startDecode_cmd u), oName, if_pos hop, startDecode_mem_of_inPlace hop]
  rfl

/-- Two slices that are the same bytes hold the same cells. -/
theorem cellsGet_of_slices {b c : Buffer} {n : Nat} {l : Bytes} (hb : b.slice 0 n = some l) (hc : c.slice 0 n = some l)
    {i : Nat} (hi : i < n) : cellsGet b.cells i = cellsGet c.cells i := by
  have hget {d : Buffer} (hd : d.slice 0 n = some l) (hlen : i < l.length) : l[i] = cellsGet d.cells i := by
    unfold Buffer.slice at hd
    split at hd <;> cases hd
    rw [cellsSlice_getElem, Nat.zero_add]
  have hlen : l.length = n := by
    unfold Buffer.slice at hb
    split at hb <;> cases hb
    exact cellsSlice_length ..
  rw [← hget hb (hlen ▸ hi), ← hget hc (hlen ▸ hi)]

/-- What a decode leaves when its loop has ended (rule R179). -/
theorem endDecode_status (t : State) : (endDecode t).status.err = .ok ∧ (endDecode t).status.degenerate = false ∧
    (endDecode t).status.outLen = t.dec.base + t.dec.outLen ∧ (endDecode t).mem = t.mem := ⟨rfl, rfl, rfl, rfl⟩

/-- What a degenerate footer leaves (rule R167). -/
theorem degenerateDone_status (t : State) : (degenerateDone t).status.err = .ok ∧
    (degenerateDone t).status.degenerate = true ∧ (degenerateDone t).status.outLen = 0 := by
  unfold degenerateDone
  dsimp only
  split <;> exact ⟨rfl, rfl, rfl⟩

theorem ne_ok_of_decodeKind {k : ErrKind} (h : k = .malformedFooter ∨ k = .outOfBounds) : k ≠ .ok := by
  obtain rfl | rfl := h <;> nofun

/-- The two modes on one block with room for its output: both decodes start on the bytes of the block, and the bytes above
it, which differ, are read only after they are written. -/
theorem decodeBlock_modes_agree {s : State} (hwf : s.mem.wf = true) (hn : s.cmd.n = s.mem.inp.len)
    (hslice : s.mem.m.slice 0 s.cmd.n = some s.mem.inp.toBytes) (hcap : s.cmd.cap ≤ s.mem.m.len)
    (hroom : 12 ≤ s.cmd.n → s.cmd.n + s.mem.inp.read (s.cmd.n - 4) 4 ≤ s.cmd.cap) :
    DecodesAgree AgreeAround (startCommand .blzDecompressS s) (startCommand .blzDecompressP s)
      (decodeBlock (startCommand .blzDecompressS s)) (decodeBlock (startCommand .blzDecompressP s)) := by
  have hblock : s.mem.inp.slice 0 s.cmd.n = some s.mem.inp.toBytes := by
    rw [hn]
    exact Buffer.slice_eq (Nat.le_of_eq (Nat.zero_add _))
  have hsame : SameFooter (startCommand .blzDecompressS s) (startCommand .blzDecompressP s) :=
    sameFooter_of_bytes (l := s.mem.inp.toBytes) (Buffer.slice_eq (Nat.le_of_eq (Nat.zero_add _))) hslice rfl rfl
  refine decodeBlock_agree indistinct_agreeAround hsame (fun h => by cases h) (fun _ => hcap)
    (fun t v hfooter hfooter' hftr => .inl ?_) (fun t v ht hv hftr hproper => ?_)
  · have ht := footer_keepsAllButFtr (startCommand .blzDecompressS s)
    have hv := footer_keepsAllButFtr (startCommand .blzDecompressP s)
    rw [hfooter] at ht
    rw [hfooter'] at hv
    replace ht : SameButFtr _ t := ht
    replace hv : SameButFtr _ v := hv
    obtain ⟨h12, hextra⟩ := footer_ok_extraSize hfooter
    have hread : (blockBuf (startCommand .blzDecompressS s)).read (blockLen (startCommand .blzDecompressS s) - 4) 4 =
      s.mem.inp.read (s.cmd.n - 4) 4 := by rw [hn]; rfl
    refine ⟨capacityTest_of_strict (by rw [ht.cmd]; nofun), capacityTest_of_fits fun _ => ?_⟩
    rw [blockLen_congr hv.cmd hv.mem, hv.cmd, ← hftr, hextra, hread]
    exact hroom (hn ▸ h12)
  · have hop : t.cmd.op ≠ .blzDecompressP := by rw [ht.cmd]; nofun
    have hop' : v.cmd.op = .blzDecompressP := by rw [hv.cmd]; rfl
    obtain ⟨hinp, -, hm⟩ := Memory.wf_iff.mp hwf
    rw [oBuf_startDecode_of_strict hop, oBuf_startDecode_of_inPlace hop', ht.mem, hv.mem]
    refine ⟨Buffer.extend_wf hinp ?_, hm, fun i hi hread => ?_⟩
    · rw [blockLen_of_strict hop, ht.mem]
      exact Nat.le_add_right ..
    · have hlen : blockLen t = s.cmd.n := by rw [blockLen_of_strict hop, ht.mem, hn]; rfl
      have htokens := hproper.tokensInside
      simp only [startDecode_dec] at hi hread
      exact cellsGet_of_slices hblock hslice (by omega)

/-- Settles O35: the two decodes agree (`decodeBlock_modes_agree`), and at their end on the whole output. -/
theorem modesAreEquivalent : Obligations.ModesAreEquivalent := by
  intro s hwf hn hslice hncap hcap hmax hroom
  have hagree := decodeBlock_modes_agree hwf hn hslice hcap hroom
  rw [exec_blzDecompressS, exec_blzDecompressP_of_operands hncap hcap hmax]
  generalize decodeBlock (startCommand .blzDecompressS s) = c at hagree ⊢
  generalize decodeBlock (startCommand .blzDecompressP s) = d at hagree ⊢
  cases hagree with
  | raised hk i j t v => exact ⟨_, _, rfl, rfl, rfl, fun h => absurd h (ne_ok_of_decodeKind hk)⟩
  | @degenerate t v ht hv =>
    obtain ⟨herr, -, hlen⟩ := degenerateDone_status t
    obtain ⟨herr', -, hlen'⟩ := degenerateDone_status v
    have hop : t.cmd.op ≠ .blzDecompressP := by rw [ht.cmd]; nofun
    refine ⟨_, _, rfl, rfl, herr'.trans herr.symm, fun _ => ⟨hlen'.trans hlen.symm, ?_, fun i hi => ?_⟩⟩
    · rw [hlen, degenerateDone_of_strict hop]
      rfl
    · rw [hlen] at hi
      exact absurd hi (Nat.not_lt_zero i)
  | @decoded s' u' t v hs hu hproper ht hv hw h =>
    have hop : s'.cmd.op ≠ .blzDecompressP := by rw [hs.cmd]; nofun
    have hname : oName t = .out := by
      rw [oName_eq ht.cmd, oName_eq (startDecode_cmd s'), oName, if_neg hop]
    have hname' : oName v = .m := by
      rw [oName_eq hv.cmd, oName_eq (startDecode_cmd u'), oName, hu.cmd]
      rfl
    have hlen : t.mem.out.len = t.dec.base + t.dec.outLen := by
      have hbuf := ht.len
      rw [oBuf_startDecode_of_strict hop, oBuf, hname] at hbuf
      rw [ht.base, ht.outLen, startDecode_dec]
      exact hbuf.trans hproper.regionEnd.symm
    have hend : v.dec.base + v.dec.outLen = t.dec.base + t.dec.outLen := by rw [h.cursors.base, h.cursors.outLen]
    refine ⟨_, _, rfl, rfl, rfl, fun _ => ⟨hend, hlen, fun i hi => ?_⟩⟩
    replace hi : i < t.dec.base + t.dec.outLen := hi
    have hcells := h.shared.agree i hi (by omega)
    have hfits := h.fits
    have hfits' := h.fits'
    rw [oBuf, hname] at hcells hfits
    rw [oBuf, hname'] at hcells hfits'
    have hout : t.readByte .out i = some (cellsGet t.mem.out.cells i) := if_pos (Nat.lt_of_lt_of_le hi hfits)
    have hm : v.readByte .m i = some (cellsGet v.mem.m.cells i) := if_pos (Nat.lt_of_lt_of_le hi hfits')
    exact hm.trans ((congrArg some hcells.symm).trans hout.symm)

/-! ### A block without its last byte -/

/-- A proper footer FTR accepts, and what its tests found (rules R154, R155). -/
theorem footer_ok_proper {s u : State} (h : footer s = .ok u) (hproper : u.ftr.degenerate = false) :
    u.ftr.totalSize.toNat = (blockBuf s).read (blockLen s - 12) 4 ∧ 12 ≤ (blockBuf s).read (blockLen s - 8) 4 ∧
      (blockBuf s).read (blockLen s - 8) 4 ≤ u.ftr.totalSize.toNat ∧
      (blockBuf s).read (blockLen s - 8) 4 ≤ s.cmd.hdrMax := by
  have hroom := (footer_ok_extraSize h).1
  rw [footer_of_room hroom] at h
  rw [← loadWords_totalSize s, ← loadWords_headerLen s]
  obtain ⟨-, -, htests⟩ | ⟨-, -, htests⟩ | ⟨-, info, htests⟩ | ⟨-, -, h12, hhdr, hmax, -, htests⟩ :=
    footerTests_cases (loadWords s) <;> rw [htests] at h <;> cases h
  · cases hproper
  · exact ⟨rfl, h12, hhdr, hmax⟩

/-- A footer that is not degenerate and whose `header_len` is above `HDR_MAX` is refused (rules R153, R155). -/
theorem footer_refuses_long_header {s : State} (hroom : 12 ≤ blockLen s)
    (hproper : (blockBuf s).read (blockLen s - 12) 4 + (blockBuf s).read (blockLen s - 4) 4 ≠ 0)
    (hlong : s.cmd.hdrMax < (blockBuf s).read (blockLen s - 8) 4) : ∃ i t, footer s = .raised .malformedFooter i t := by
  rw [footer_of_room hroom]
  rw [← loadWords_totalSize s, ← loadWords_extraSize s] at hproper
  rw [← loadWords_headerLen s] at hlong
  obtain ⟨hzero, -⟩ | ⟨hzero, -⟩ | ⟨-, info, htests⟩ | ⟨-, -, -, -, hmax, -⟩ := footerTests_cases (loadWords s)
  · exact absurd hzero hproper
  · exact absurd hzero hproper
  · exact ⟨info, _, htests⟩
  · exact absurd hlong (Nat.not_lt.mpr hmax)

/-- A word one byte earlier: one byte before it, and the word's three low-order bytes. -/
theorem read_shifted (b : Buffer) (i : Nat) : b.read i 4 = b.read i 1 + 256 * (b.read (i + 1) 4 % 2 ^ 24) := by
  have hhead := Buffer.read_add b i 1 3
  have hword := Buffer.read_add b (i + 1) 3 1
  have hlt := Buffer.read_lt b (i + 1) 3
  rw [hhead, hword]
  omega

theorem read_last_byte (b : Buffer) (i : Nat) : b.read (i + 3) 1 = b.read i 4 / 2 ^ 24 := by
  have hword := Buffer.read_add b i 3 1
  have hlt := Buffer.read_lt b i 3
  rw [hword]
  omega

/-- Bytes at the end of a sequence are not seen by a read in front of them. -/
theorem read_ofBytes_append (l r : Bytes) {i n : Nat} (h : i + n ≤ l.length) :
    (Buffer.ofBytes (l ++ r)).read i n = (Buffer.ofBytes l).read i n := by
  refine congrArg leNat (cellsSlice_congr fun j _ hj => ?_)
  have hj' : j < l.length := by omega
  rw [cellsGet_ofBytes hj', cellsGet_ofBytes (by rw [List.length_append]; omega), List.getElem_append_left hj']

/-- `BLZ.FOOTER` ends with `OK` only where FTR accepts (rule R158). -/
theorem footer_of_next {s t : State} (hexec : exec .blzFooter s = .next t) (herr : t.status.err = .ok) :
    footer (startCommand .blzFooter s) = .ok t := by
  rw [exec_blzFooter] at hexec
  have hkept := footer_keepsAllButFtr (startCommand .blzFooter s)
  cases hf : footer (startCommand .blzFooter s) with
  | ok v =>
    rw [hf] at hexec
    cases hexec
    rfl
  | raised k i v =>
    rw [hf] at hexec hkept
    cases hexec
    obtain ⟨rfl, -⟩ := hkept
    cases herr
  | fault f =>
    rw [hf] at hexec
    cases hexec

/-- Settles O29: the words of the shortened block lie one byte lower, so its `header_len` is at least 3072. -/
theorem truncatedBlockIsMalformed : Obligations.TruncatedBlockIsMalformed := by
  intro s t u b l hinp hmax hexec herr hproper hcond hinp' hmax'
  have hfooter := footer_of_next hexec herr
  have hlen : blockLen (startCommand .blzFooter s) = l.length + 1 := by
    show s.mem.inp.len = _
    rw [hinp, Buffer.ofBytes_len, List.length_append]
    rfl
  have hbuf : blockBuf (startCommand .blzFooter s) = Buffer.ofBytes (l ++ [b]) := hinp
  have hlen' : blockLen (startCommand .blzDecompressS u) = l.length := by
    show u.mem.inp.len = _
    rw [hinp', Buffer.ofBytes_len]
  have hbuf' : blockBuf (startCommand .blzDecompressS u) = Buffer.ofBytes l := hinp'
  obtain ⟨htotal, h12, hhdr, hhdrMax⟩ := footer_ok_proper hfooter hproper
  obtain ⟨hroom, hextra⟩ := footer_ok_extraSize hfooter
  rw [hlen, hbuf] at htotal h12 hhdr hhdrMax hextra
  rw [hlen] at hroom
  rw [hinp] at hcond
  have hrefused : ∃ i w, footer (startCommand .blzDecompressS u) = .raised .malformedFooter i w := by
    by_cases hshort : l.length < 12
    · exact ⟨_, _, footer_of_short (hlen'.symm ▸ hshort)⟩
    obtain ⟨n, hn⟩ := Nat.exists_eq_add_of_le' (Nat.le_of_not_lt hshort)
    generalize hB : Buffer.ofBytes (l ++ [b]) = B at *
    have htotalWord : (Buffer.ofBytes l).read n 4 = B.read n 1 + 256 * (B.read (n + 1) 4 % 2 ^ 24) := by
      rw [← read_shifted, ← hB, read_ofBytes_append l [b] (by omega)]
    have hhdrWord : (Buffer.ofBytes l).read (n + 4) 4 = B.read (n + 1) 4 / 2 ^ 24 + 256 * (B.read (n + 5) 4 % 2 ^ 24) := by
      rw [← read_last_byte, ← read_shifted B (n + 4), ← hB, read_ofBytes_append l [b] (by omega)]
    have hextraWord : (Buffer.ofBytes l).read (n + 8) 4 = B.read (n + 5) 4 / 2 ^ 24 + 256 * (B.read (n + 9) 4 % 2 ^ 24) := by
      rw [← read_last_byte, ← read_shifted B (n + 8), ← hB, read_ofBytes_append l [b] (by omega)]
    have e12 : l.length + 1 - 12 = n + 1 := by omega
    have e8 : l.length + 1 - 8 = n + 5 := by omega
    have e4 : l.length + 1 - 4 = n + 9 := by omega
    have e13 : l.length + 1 - 13 = n := by omega
    rw [e12] at htotal
    rw [e8] at h12 hhdr hhdrMax
    rw [e4] at hextra
    rw [e13] at hcond
    have i12 : l.length - 12 = n := by omega
    have i8 : l.length - 8 = n + 4 := by omega
    have i4 : l.length - 4 = n + 8 := by omega
    replace hhdrMax : _ ≤ s.cmd.hdrMax := hhdrMax
    refine footer_refuses_long_header (by omega) ?_ ?_
    · rw [hlen', hbuf', i12, i4]
      omega
    · rw [hlen', hbuf', i8]
      show u.cmd.hdrMax < _
      omega
  obtain ⟨i, w, hraise⟩ := hrefused
  have hdecode : decodeBlock (startCommand .blzDecompressS u) = .raised .malformedFooter i w := by
    rw [decodeBlock, hraise]
    rfl
  exact ⟨takeRaise .malformedFooter i w, by rw [exec_blzDecompressS, hdecode]; rfl, rfl⟩

end Sys2Proof.Machine
end

section
/-! Two runs of one command on the same operands (rules R35, R281): each command is a function of its operands. -/

namespace Sys2Proof.Machine

/-- Two engines answer a command alike: the same kind and on `OK` the same results, or the same refusal. -/
def AnswerAlike (op : Op) (s u : State) : Prop :=
  (∀ t, exec op.instr s = .next t →
    ∃ v, exec op.instr u = .next v ∧ v.status.err = t.status.err ∧ (t.status.err = .ok → SameResult op t v)) ∧
  ∀ r, exec op.instr s = .refused r → exec op.instr u = .refused r

theorem AnswerAlike.of_refused {op : Op} {s u : State} {r : Refusal} (hs : exec op.instr s = .refused r)
    (hu : exec op.instr u = .refused r) : AnswerAlike op s u := by
  refine ⟨fun t ht => ?_, fun q hq => ?_⟩
  · rw [hs] at ht
    cases ht
  · rw [hs] at hq
    cases hq
    exact hu

theorem AnswerAlike.of_next {op : Op} {s u t v : State} (hs : exec op.instr s = .next t) (hu : exec op.instr u = .next v)
    (herr : v.status.err = t.status.err) (hresult : t.status.err = .ok → SameResult op t v) : AnswerAlike op s u := by
  refine ⟨fun w hw => ?_, fun q hq => ?_⟩
  · rw [hs] at hw
    cases hw
    exact ⟨v, hu, herr, hresult⟩
  · rw [hs] at hq
    cases hq

/-! ### `BLZ.COMPRESS` -/

theorem chooseForm_sameScan {e f : EncRegs} (h : SameScan e f) : chooseForm e = chooseForm f := by
  simp only [chooseForm, compressedLen_eq, h.pakBest, h.rawBest, h.n]

theorem encodeFits_same {raw : Bytes} {best : Bool} {s u : State} (hoverlap : s.cmd.matchOverlap = u.cmd.matchOverlap)
    (hmax : s.cmd.maxLen = u.cmd.maxLen) : encodeFits raw best s = encodeFits raw best u := by
  have hscan := encodeRegs_sameScan raw best hoverlap
  rw [Bool.eq_iff_iff, encodeFits_iff, encodeFits_iff, hmax, hscan.stream, finishEncode_sameScan hscan]

theorem compress_alike {s u : State} (h : SameOperands .blzCompress s u) : AnswerAlike .blzCompress s u := by
  obtain ⟨hmax, hinp, hbest, hoverlap⟩ := h
  have hscan := encodeRegs_sameScan s.mem.inp.toBytes s.cmd.best (s := startCommand .blzCompress s)
    (u := startCommand .blzCompress u) hoverlap
  have hfits := encodeFits_same (raw := s.mem.inp.toBytes) (best := s.cmd.best) (s := startCommand .blzCompress s)
    (u := startCommand .blzCompress u) hoverlap hmax
  cases hs : encodeFits s.mem.inp.toBytes s.cmd.best (startCommand .blzCompress s) with
  | false =>
    exact .of_refused (op := .blzCompress) (exec_blzCompress_of_not_fits hs)
      (exec_blzCompress_of_not_fits (by rw [← hinp, ← hbest, ← hfits, hs]))
  | true =>
    have hrun := (exec_blzCompress_eq s).trans (by rw [(compressInto_spec _ _ _).2 hs])
    have hrun' := (exec_blzCompress_eq u).trans (by
      rw [← hinp, ← hbest, (compressInto_spec _ _ _).2 (hfits ▸ hs)])
    refine .of_next (op := .blzCompress) hrun hrun' rfl fun _ => ⟨?_, ?_, ?_⟩
    · exact congrArg Buffer.ofBytes (finishEncode_sameScan hscan)
    · exact chooseForm_sameScan hscan
    · exact congrArg List.length (finishEncode_sameScan hscan)

/-! ### FTR and the decoders -/

theorem footer_alike {s u : State} (h : SameOperands .blzFooter s u) : AnswerAlike .blzFooter s u := by
  obtain ⟨hmax, hinp, hhdr⟩ := h
  have hsame : SameFooter (startCommand .blzFooter s) (startCommand .blzFooter u) := by
    refine ⟨?_, fun i _ => ?_, hhdr.symm, hmax.symm⟩
    · exact congrArg Buffer.len hinp.symm
    · exact congrArg (fun b => Buffer.read b i 4) hinp.symm
  have hagree := footer_agree hsame
  have hok {w t : State} (hw : footer (startCommand .blzFooter w) = .ok t) : t.status.err = .ok ∧
      t.status.degenerate = t.ftr.degenerate := ⟨(footer_eq_ok hw).1, (footer_eq_ok hw).2.1⟩
  have hs := exec_blzFooter s
  have hu := exec_blzFooter u
  cases hfs : footer (startCommand .blzFooter s) with
  | fault f => rw [hfs] at hagree; cases hagree
  | raised k i t =>
    rw [hfs] at hagree hs
    generalize footer (startCommand .blzFooter u) = d at hagree hu
    cases hagree
    exact .of_next (op := .blzFooter) hs hu rfl nofun
  | ok t =>
    rw [hfs] at hagree hs
    cases hfu : footer (startCommand .blzFooter u) with
    | fault f => rw [hfu] at hagree; cases hagree
    | raised k i v => rw [hfu] at hagree; cases hagree
    | ok v =>
      rw [hfu] at hagree hu
      cases hagree with
      | accepted hftr =>
        refine .of_next (op := .blzFooter) hs hu ((hok hfu).1.trans (hok hfs).1.symm) fun _ => ⟨hftr, ?_⟩
        rw [(hok hfs).2, (hok hfu).2, hftr]

/-- Two decodes in the same mode that agree, on equal working buffers, end alike. -/
theorem decodeEnds_alike {s u : State} {c d : Ctl} (h : DecodesAgree (fun _ b c => b = c) s u c d)
    (hop : s.cmd.op = u.cmd.op) (hm : s.cmd.op = .blzDecompressP → s.mem.m = u.mem.m) :
    ∃ t v, c.outcome = .next t ∧ d.outcome = .next v ∧ v.status.err = t.status.err ∧
      (t.status.err = .ok → v.status.outLen = t.status.outLen ∧ v.status.degenerate = t.status.degenerate ∧
        (s.cmd.op = .blzDecompressP → t.mem.m = v.mem.m) ∧ (s.cmd.op ≠ .blzDecompressP → t.mem.out = v.mem.out)) := by
  cases h with
  | raised hk i j t v => exact ⟨_, _, rfl, rfl, rfl, fun h => absurd h (ne_ok_of_decodeKind hk)⟩
  | @degenerate t v ht hv =>
    obtain ⟨herr, hdeg, hlen⟩ := degenerateDone_status t
    obtain ⟨herr', hdeg', hlen'⟩ := degenerateDone_status v
    refine ⟨_, _, rfl, rfl, herr'.trans herr.symm, fun _ => ⟨hlen'.trans hlen.symm, hdeg'.trans hdeg.symm,
      fun hp => ?_, fun hp => ?_⟩⟩
    · rw [degenerateDone_mem_of_inPlace (by rw [ht.cmd]; exact hp), degenerateDone_mem_of_inPlace (by rw [hv.cmd, ← hop]; exact hp),
        ht.mem, hv.mem]
      exact hm hp
    · rw [degenerateDone_of_strict (by rw [ht.cmd]; exact hp), degenerateDone_of_strict (by rw [hv.cmd, ← hop]; exact hp)]
      rfl
  | @decoded s' u' t v hs hu hproper ht hv hw h =>
    have hend : v.dec.base + v.dec.outLen = t.dec.base + t.dec.outLen := by rw [h.cursors.base, h.cursors.outLen]
    have hbuf : oBuf t = oBuf v := h.shared
    have hopt : t.cmd.op = s.cmd.op := by rw [ht.cmd, startDecode_cmd, hs.cmd]
    have hopv : v.cmd.op = s.cmd.op := by rw [hv.cmd, startDecode_cmd, hu.cmd, hop]
    rw [oBuf, oBuf, oName, oName, hopt, hopv] at hbuf
    refine ⟨_, _, rfl, rfl, rfl, fun _ => ⟨hend, rfl, fun hp => ?_, fun hp => ?_⟩⟩
    · rwa [if_pos hp] at hbuf
    · rwa [if_neg hp] at hbuf

theorem decompressS_agree {s u : State} (hinp : s.mem.inp = u.mem.inp) (hmax : s.cmd.maxLen = u.cmd.maxLen)
    (hhdr : s.cmd.hdrMax = u.cmd.hdrMax) :
    DecodesAgree (fun _ b c => b = c) (startCommand .blzDecompressS s) (startCommand .blzDecompressS u)
      (decodeBlock (startCommand .blzDecompressS s)) (decodeBlock (startCommand .blzDecompressS u)) := by
  have hlen : blockLen (startCommand .blzDecompressS u) = blockLen (startCommand .blzDecompressS s) :=
    congrArg Buffer.len hinp.symm
  have hstrict (w : State) : (startCommand .blzDecompressS w).cmd.op ≠ .blzDecompressP := nofun
  have hop {w t : State} (ht : SameButFtr (startCommand .blzDecompressS w) t) : t.cmd.op ≠ .blzDecompressP := by
    rw [ht.cmd]
    exact hstrict w
  refine decodeBlock_agree indistinct_eq ⟨hlen, fun i _ => congrArg (fun b => Buffer.read b i 4) hinp.symm, hhdr.symm,
    hmax.symm⟩ (fun h => absurd h (hstrict s)) (fun h => absurd h (hstrict u)) (fun t v ht hv _ => .inl ⟨?_, ?_⟩)
    (fun t v ht hv hftr _ => ?_)
  · have hkept := footer_keepsAllButFtr (startCommand .blzDecompressS s)
    rw [ht] at hkept
    exact capacityTest_of_strict (hop hkept)
  · have hkept := footer_keepsAllButFtr (startCommand .blzDecompressS u)
    rw [hv] at hkept
    exact capacityTest_of_strict (hop hkept)
  · rw [oBuf_startDecode_of_strict (hop ht), oBuf_startDecode_of_strict (hop hv), blockLen_congr ht.cmd ht.mem,
      blockLen_congr hv.cmd hv.mem, hlen, hftr, ht.mem, hv.mem]
    exact congrArg (Buffer.mk _) (congrArg Buffer.cells hinp)

theorem decompressS_alike {s u : State} (h : SameOperands .blzDecompressS s u) : AnswerAlike .blzDecompressS s u := by
  obtain ⟨hmax, hinp, hhdr⟩ := h
  obtain ⟨t, v, ht, hv, herr, hresult⟩ := decodeEnds_alike (decompressS_agree hinp hmax hhdr) rfl nofun
  refine .of_next (op := .blzDecompressS) ((exec_blzDecompressS s).trans ht) ((exec_blzDecompressS u).trans hv) herr
    fun hok => ?_
  obtain ⟨hlen, hdeg, -, hout⟩ := hresult hok
  exact ⟨hout nofun, hlen.symm, hdeg.symm⟩

theorem decompressP_agree {s u : State} (hm : s.mem.m = u.mem.m) (hn : s.cmd.n = u.cmd.n) (hcap : s.cmd.cap = u.cmd.cap)
    (hreal : s.cmd.cap ≤ s.mem.m.len) (hmax : s.cmd.maxLen = u.cmd.maxLen) (hhdr : s.cmd.hdrMax = u.cmd.hdrMax) :
    DecodesAgree (fun _ b c => b = c) (startCommand .blzDecompressP s) (startCommand .blzDecompressP u)
      (decodeBlock (startCommand .blzDecompressP s)) (decodeBlock (startCommand .blzDecompressP u)) := by
  have hop {w t : State} (ht : SameButFtr (startCommand .blzDecompressP w) t) : t.cmd.op = .blzDecompressP := by
    rw [ht.cmd]
    rfl
  refine decodeBlock_agree indistinct_eq ⟨hn.symm, fun i _ => congrArg (fun b => Buffer.read b i 4) hm.symm, hhdr.symm,
    hmax.symm⟩ (fun _ => hreal) (fun _ => ?_) (fun t v ht hv hftr => ?_) (fun t v ht hv hftr _ => ?_)
  · show u.cmd.cap ≤ u.mem.m.len
    rw [← hcap, ← hm]
    exact hreal
  · have hkept := footer_keepsAllButFtr (startCommand .blzDecompressP s)
    have hkept' := footer_keepsAllButFtr (startCommand .blzDecompressP u)
    rw [ht] at hkept
    rw [hv] at hkept'
    have hlen : blockLen t = s.cmd.n := blockLen_congr hkept.cmd hkept.mem
    have hlen' : blockLen v = s.cmd.n := (blockLen_congr hkept'.cmd hkept'.mem).trans hn.symm
    have hcapt : t.cmd.cap = s.cmd.cap := by rw [SameButFtr.cmd hkept]; rfl
    have hcapv : v.cmd.cap = s.cmd.cap := by rw [SameButFtr.cmd hkept', hcap]; rfl
    by_cases hroom : s.cmd.n + t.ftr.extraSize.toNat ≤ s.cmd.cap
    · exact .inl ⟨capacityTest_of_fits fun _ => by rwa [hlen, hcapt], capacityTest_of_fits fun _ => by
        rwa [hlen', hcapv, ← hftr]⟩
    · exact .inr ⟨_, _, capacityTest_of_overflow (hop hkept) (by rw [hlen, hcapt]; omega),
        capacityTest_of_overflow (hop hkept') (by rw [hlen', hcapv, ← hftr]; omega)⟩
  · rw [oBuf_startDecode_of_inPlace (hop ht), oBuf_startDecode_of_inPlace (hop hv), ht.mem, hv.mem]
    exact hm

theorem decompressP_alike {s u : State} (h : SameOperands .blzDecompressP s u) : AnswerAlike .blzDecompressP s u := by
  obtain ⟨hmax, hm, hn, hcap, hhdr⟩ := h
  have hbelow : belowMax u u.cmd.cap = belowMax s s.cmd.cap := by simp only [belowMax, hmax, hcap]
  have hrefused {w : State} (hw : w.cmd.cap < w.cmd.n ∨ w.mem.m.len < w.cmd.cap) :
      exec .blzDecompressP w = .refused .capacityOperand := if_pos hw
  have hlimit {w : State} (hw : ¬ (w.cmd.cap < w.cmd.n ∨ w.mem.m.len < w.cmd.cap)) (hb : belowMax w w.cmd.cap = false) :
      exec .blzDecompressP w = .refused .lengthLimit := (if_neg hw).trans (if_neg (by rw [hb]; exact Bool.false_ne_true))
  have hsame : (u.cmd.cap < u.cmd.n ∨ u.mem.m.len < u.cmd.cap) ↔ (s.cmd.cap < s.cmd.n ∨ s.mem.m.len < s.cmd.cap) := by
    rw [hm, hn, hcap]
  by_cases hbad : s.cmd.cap < s.cmd.n ∨ s.mem.m.len < s.cmd.cap
  · exact .of_refused (op := .blzDecompressP) (hrefused hbad) (hrefused (hsame.mpr hbad))
  cases hb : belowMax s s.cmd.cap with
  | false => exact .of_refused (op := .blzDecompressP) (hlimit hbad hb) (hlimit (mt hsame.mp hbad) (hbelow.trans hb))
  | true =>
    have hrun {w : State} (hw : ¬ (w.cmd.cap < w.cmd.n ∨ w.mem.m.len < w.cmd.cap)) (hb : belowMax w w.cmd.cap = true) :
        exec .blzDecompressP w = (decodeBlock (startCommand .blzDecompressP w)).outcome :=
      exec_blzDecompressP_of_operands (by omega) (by omega) (belowMax_iff.mp hb)
    obtain ⟨t, v, ht, hv, herr, hresult⟩ :=
      decodeEnds_alike (decompressP_agree hm hn hcap (by omega) hmax hhdr) rfl fun _ => hm
    refine .of_next (op := .blzDecompressP) ((hrun hbad hb).trans ht)
      ((hrun (mt hsame.mp hbad) (hbelow.trans hb)).trans hv) herr fun hok => ?_
    obtain ⟨hlen, hdeg, hbuf, -⟩ := hresult hok
    exact ⟨hbuf rfl, hlen.symm, hdeg.symm⟩

/-! ### `KIP.PARSE` -/

/-- A file holds its header and every segment the header tells (rules R201 to R203). -/
structure WholeFile (f : Buffer) : Prop where
  header : 256 ≤ f.len
  magic : (readHeader f).magic = Config.kipMagic
  segments : segStart (readHeader f) 6 ≤ f.len

/-- A file with some segment missing ends inside one of them. -/
theorem exists_cut_segment {h : KipHeader} {n : Nat} (hheader : 256 ≤ n) (hshort : n < segStart h 6) :
    ∃ i : Fin 6, segStart h i.val ≤ n ∧ n < segStart h (i.val + 1) := by
  by_contra hnone
  have hall : ∀ i, i ≤ 6 → segStart h i ≤ n := by
    intro i
    induction i with
    | zero => exact fun _ => hheader
    | succ i ih =>
      intro hi
      have hstart := ih (by omega)
      exact Nat.le_of_not_lt fun hlt => hnone ⟨⟨i, by omega⟩, hstart, hlt⟩
  exact absurd (hall 6 (Nat.le_refl 6)) (Nat.not_le.mpr hshort)

/-- The kind a file that is not whole ends with (rules R201, R203, R210). -/
def containerError (f : Buffer) : ErrKind :=
  if 4 ≤ f.len ∧ f.read 0 4 ≠ 0x3150494B then .invalidMagic else .truncated

/-- The file alone decides whether `KIP.PARSE` ends with an error, and which. -/
theorem kipParse_of_not_wholeFile {s : State} (hmax : ∀ m, s.cmd.maxLen = some m → s.mem.inp.len < m)
    (h : ¬ WholeFile s.mem.inp) : ∃ t, exec .kipParse s = .next t ∧ t.status.err = containerError s.mem.inp := by
  obtain ⟨hshort, hwrong, hheader⟩ := parseChecksContainer s hmax
  unfold containerError
  by_cases h4 : s.mem.inp.len < 4
  · obtain ⟨t, hexec, herr, -⟩ := hshort h4
    exact ⟨t, hexec, by rw [if_neg (by omega)]; exact herr⟩
  replace h4 := Nat.le_of_not_lt h4
  by_cases hmagic : s.mem.inp.read 0 4 = 0x3150494B
  · rw [if_neg (fun hbad => hbad.2 hmagic)]
    by_cases h256 : s.mem.inp.len < 256
    · obtain ⟨t, hexec, herr, -⟩ := hheader h4 hmagic h256
      exact ⟨t, hexec, herr⟩
    replace h256 := Nat.le_of_not_lt h256
    have hword : (readHeader s.mem.inp).magic = Config.kipMagic := congrArg (BitVec.ofNat 32) hmagic
    obtain ⟨i, hstart, hend⟩ := exists_cut_segment h256 (Nat.lt_of_not_le fun hle => h ⟨h256, hword, hle⟩)
    obtain ⟨t, hexec, herr, -⟩ := parseShortSegmentTruncated s i hmax h256 hword hstart hend
    exact ⟨t, hexec, herr⟩
  · obtain ⟨t, hexec, herr, -⟩ := hwrong h4 hmagic
    exact ⟨t, hexec, by rw [if_pos ⟨h4, hmagic⟩]; exact herr⟩

theorem DecodedAlone.unique {s u : State} {desc : SegDesc} {stored : Bytes} {d d' : Option Bytes} {st st' : SegStat}
    (hmax : s.cmd.maxLen = u.cmd.maxLen) (hhdr : s.cmd.hdrMax = u.cmd.hdrMax) (h : DecodedAlone s desc stored d st)
    (h' : DecodedAlone u desc stored d' st') : d = d' ∧ st = st' := by
  obtain ⟨t, hexec, hok, hbad, hout⟩ := h
  obtain ⟨v, hexec', hok', hbad', hout'⟩ := h'
  have halike := decompressS_alike (s := giveInput stored s) (u := giveInput stored u) ⟨hmax, rfl, hhdr⟩
  obtain ⟨v', hv, herr, hsame⟩ := halike.1 t hexec
  obtain rfl : v' = v := Host.Outcome.next.inj (hv.symm.trans hexec')
  have hkind := (commandEnd_of_next (op := .blzDecompressS) hexec).kind
  simp only [allowedKinds, List.mem_cons, List.not_mem_nil, or_false] at hkind
  obtain hk | hk | hk := hkind
  · obtain ⟨hd, hst⟩ := hok hk
    obtain ⟨hd', hst'⟩ := hok' (herr.trans hk)
    rw [hd, hst, hd', hst', (hsame hk).1]
    exact ⟨rfl, rfl⟩
  · obtain ⟨hd, hst⟩ := hbad hk
    obtain ⟨hd', hst'⟩ := hbad' (herr.trans hk)
    exact ⟨hd.trans hd'.symm, hst.trans hst'.symm⟩
  · obtain ⟨hd, hst⟩ := hout hk
    obtain ⟨hd', hst'⟩ := hout' (herr.trans hk)
    exact ⟨hd.trans hd'.symm, hst.trans hst'.symm⟩

theorem SegmentRecord.unique {s u : State} {h : KipHeader} {i : Fin 6} {stored : Bytes} {d d' : Option Bytes}
    {st st' : SegStat} (hmax : s.cmd.maxLen = u.cmd.maxLen) (hhdr : s.cmd.hdrMax = u.cmd.hdrMax)
    (hs : SegmentRecord s h i stored d st) (hu : SegmentRecord u h i stored d' st') : d = d' ∧ st = st' := by
  unfold SegmentRecord at hs hu
  split at hs
  next h0 =>
    rw [if_pos h0] at hu
    exact ⟨hs.2.trans hu.2.symm, hs.1.trans hu.1.symm⟩
  next h0 =>
    rw [if_neg h0] at hu
    split at hs
    next hflag =>
      rw [if_pos hflag] at hu
      exact hs.unique hmax hhdr hu
    next hflag =>
      rw [if_neg hflag] at hu
      exact ⟨hs.2.trans hu.2.symm, hs.1.trans hu.1.symm⟩

theorem kipParse_alike {s u : State} (h : SameOperands .kipParse s u) : AnswerAlike .kipParse s u := by
  obtain ⟨hmax, hinp, hhdr⟩ := h
  cases hb : belowMax s s.mem.inp.len with
  | false =>
    have hrefused {w : State} (hw : belowMax w w.mem.inp.len = false) : exec .kipParse w = .refused .lengthLimit :=
      if_neg (by rw [hw]; exact Bool.false_ne_true)
    exact .of_refused (op := .kipParse) (hrefused hb) (hrefused (by
      have hb' : belowMax u u.mem.inp.len = belowMax s s.mem.inp.len := by simp only [belowMax, hmax, hinp]
      rw [hb', hb]))
  | true =>
    have hfits := belowMax_iff.mp hb
    have hfits' : ∀ m, u.cmd.maxLen = some m → u.mem.inp.len < m := by rw [← hmax, ← hinp]; exact hfits
    by_cases hwhole : WholeFile s.mem.inp
    · obtain ⟨hheader, hmagic, hsegments⟩ := hwhole
      obtain ⟨t, ht, herr, -, hhdrt, hpos, htrailing, hseg⟩ := parseSplitsFile s hfits hheader hmagic hsegments
      obtain ⟨v, hv, herr', -, hhdrv, hpos', htrailing', hseg'⟩ := parseSplitsFile u hfits' (hinp ▸ hheader)
        (hinp ▸ hmagic) (hinp ▸ hsegments)
      rw [← hinp] at hhdrv hpos' htrailing' hseg'
      have hrecords (i : Fin 6) : t.kip.data[i] = v.kip.data[i] ∧ t.kip.segstat[i] = v.kip.segstat[i] := by
        obtain ⟨stored, hslice, hrecord⟩ := hseg i
        obtain ⟨stored', hslice', hrecord'⟩ := hseg' i
        obtain rfl := Option.some.inj (hslice.symm.trans hslice')
        exact SegmentRecord.unique hmax hhdr hrecord hrecord'
      refine .of_next (op := .kipParse) ht hv (herr'.trans herr.symm) fun _ => ⟨hhdrt.trans hhdrv.symm,
        hpos.trans hpos'.symm, Vector.ext fun i hi => (hrecords ⟨i, hi⟩).1, Vector.ext fun i hi => (hrecords ⟨i, hi⟩).2,
        Option.some.inj (htrailing.symm.trans htrailing')⟩
    · obtain ⟨t, ht, herr⟩ := kipParse_of_not_wholeFile hfits hwhole
      obtain ⟨v, hv, herr'⟩ := kipParse_of_not_wholeFile hfits' (hinp ▸ hwhole)
      rw [← hinp] at herr'
      refine .of_next (op := .kipParse) ht hv (herr'.trans herr.symm) fun hok => ?_
      rw [herr, containerError] at hok
      split at hok <;> cases hok

/-! ### `KIP.BUILD` and `KIP.SERIALIZE` -/

/-- Two builds before segment `n`: the operands agree, and the bytes stored so far. -/
structure BuildsAgree (n : Nat) (s u : State) : Prop where
  maxLen : s.cmd.maxLen = u.cmd.maxLen
  overlap : s.cmd.matchOverlap = u.cmd.matchOverlap
  data : s.kip.data = u.kip.data
  hdr : s.kip.hdr = u.kip.hdr
  stored : ∀ j : Fin 6, j.val < n → s.kip.stored[j] = u.kip.stored[j]

/-- How a part of two builds may end: both refused, or both stored. -/
inductive EndBuilds (n : Nat) : Option (Nat × State) → Option (Nat × State) → Prop
  | refused : EndBuilds n none none
  | stored {bits : Nat} {s u : State} (h : BuildsAgree n s u) : EndBuilds n (some (bits, s)) (some (bits, u))

section Builds
variable {s u : State} {i : Fin 6} (h : BuildsAgree i.val s u)
include h

theorem BuildsAgree.keep (x : Bytes) {t v : State} (ht : BuildKept s t) (hv : BuildKept u v)
    (hts : t.kip.stored = s.kip.stored) (hvs : v.kip.stored = u.kip.stored) :
    BuildsAgree (i.val + 1) (t.withKip { t.kip with stored := t.kip.stored.set i x })
      (v.withKip { v.kip with stored := v.kip.stored.set i x }) := by
  refine ⟨?_, ?_, ?_, ?_, fun j hj => ?_⟩
  · show t.cmd.maxLen = v.cmd.maxLen
    rw [ht, hv]
    exact h.maxLen
  · show t.cmd.matchOverlap = v.cmd.matchOverlap
    rw [ht, hv]
    exact h.overlap
  · show t.kip.data = v.kip.data
    rw [ht, hv]
    exact h.data
  · show t.kip.hdr = v.kip.hdr
    rw [ht, hv]
    exact h.hdr
  · show (t.kip.stored.set i x)[j] = (v.kip.stored.set i x)[j]
    rw [hts, hvs]
    by_cases hji : j = i
    · subst hji
      simp
    · have hne : i.val ≠ j.val := fun heq => hji (Fin.ext heq.symm)
      have hold := h.stored j (by omega)
      simpa [Vector.getElem_set, hne] using hold

theorem buildSegment_agree (bits : Nat) : EndBuilds (i.val + 1) (buildSegment i bits s) (buildSegment i bits u) := by
  have hdata : dataOf u.kip i = dataOf s.kip i := by rw [dataOf, dataOf, h.data]
  have hbelow (n : Nat) : belowMax u n = belowMax s n := by simp only [belowMax, h.maxLen]
  have hfits := encodeFits_same (raw := dataOf s.kip i) (best := true) h.overlap h.maxLen
  have hblock := finishEncode_sameScan (raw := dataOf s.kip i) (encodeRegs_sameScan (dataOf s.kip i) true h.overlap)
  unfold buildSegment
  dsimp only
  rw [hdata, hbelow]
  split
  · exact .refused
  split
  · cases hs : encodeFits (dataOf s.kip i) true s with
    | false =>
      rw [(compressInto_spec _ _ _).1 hs, (compressInto_spec _ _ _).1 (hfits ▸ hs)]
      exact .refused
    | true =>
      rw [(compressInto_spec _ _ _).2 hs, (compressInto_spec _ _ _).2 (hfits ▸ hs)]
      dsimp only
      rw [← hblock]
      split
      · exact .stored (h.keep _ rfl rfl rfl rfl)
      · exact .stored (h.keep _ rfl rfl rfl rfl)
  · exact .stored (h.keep _ rfl rfl rfl rfl)

end Builds

theorem buildSegments_agree : ∀ (l : List (Fin 6)) (n bits : Nat) (s u : State), l.map Fin.val = List.range' n l.length →
    BuildsAgree n s u → EndBuilds (n + l.length) (buildSegments l bits s) (buildSegments l bits u) := by
  intro l
  induction l with
  | nil => exact fun n bits s u _ h => .stored h
  | cons i l ih =>
    intro n bits s u hl h
    obtain ⟨rfl, hl⟩ := List.cons.inj hl
    have hone := buildSegment_agree h bits
    rw [buildSegments, buildSegments]
    generalize buildSegment i bits s = a at hone ⊢
    generalize buildSegment i bits u = b at hone ⊢
    cases hone with
    | refused => exact .refused
    | stored hnext =>
      rw [List.length_cons, Nat.add_comm l.length, ← Nat.add_assoc]
      exact ih _ _ _ _ hl hnext

theorem kipBuild_alike {s u : State} (h : SameOperands .kipBuild s u) : AnswerAlike .kipBuild s u := by
  obtain ⟨hmax, hhdr, hdata, hoverlap⟩ := h
  have hall : allData u.kip = allData s.kip := by rw [allData, allData, hdata]
  have hstart : BuildsAgree 0 (startCommand .kipBuild s) (startCommand .kipBuild u) :=
    ⟨hmax, hoverlap, hdata, hhdr, fun j hj => absurd hj (Nat.not_lt_zero _)⟩
  have hsegments := buildSegments_agree (List.finRange 6) 0 0 _ _ rfl hstart
  have hs := exec_kipBuild_eq s
  have hu := exec_kipBuild_eq u
  unfold execKipBuild at hs hu
  rw [hall] at hu
  cases hb : allData s.kip with
  | false =>
    rw [hb] at hs hu
    exact .of_refused (op := .kipBuild) hs hu
  | true =>
    rw [hb] at hs hu
    generalize buildSegments (List.finRange 6) 0 (startCommand .kipBuild s) = a at hs hsegments
    generalize buildSegments (List.finRange 6) 0 (startCommand .kipBuild u) = b at hu hsegments
    cases hsegments with
    | refused => exact .of_refused (op := .kipBuild) hs hu
    | @stored bits t v hend =>
      have hstored : t.kip.stored = v.kip.stored := Vector.ext fun i hi => hend.stored ⟨i, hi⟩ (by simpa using hi)
      refine .of_next (op := .kipBuild) hs hu rfl fun _ => ⟨hstored, ?_⟩
      show buildHeader bits t.kip = buildHeader bits v.kip
      rw [buildHeader, buildHeader, hend.hdr, hstored]

theorem kipSerialize_alike {s u : State} (h : SameOperands .kipSerialize s u) : AnswerAlike .kipSerialize s u := by
  obtain ⟨hmax, hhdr, hstored, htrailing⟩ := h
  have hfile : fileBytes u.kip = fileBytes s.kip := by rw [fileBytes, fileBytes, hhdr, hstored, htrailing]
  have hbelow (n : Nat) : belowMax u n = belowMax s n := by simp only [belowMax, hmax]
  cases hb : belowMax s (fileBytes s.kip).length with
  | false =>
    exact .of_refused (op := .kipSerialize) (exec_kipSerialize_of_over hb)
      (exec_kipSerialize_of_over (by rw [hfile, hbelow, hb]))
  | true =>
    refine .of_next (op := .kipSerialize) (exec_kipSerialize_of_fits (belowMax_iff.mp hb))
      (exec_kipSerialize_of_fits (belowMax_iff.mp (by rw [hfile, hbelow, hb]))) rfl fun _ => ⟨?_, ?_⟩
    · exact congrArg Buffer.ofBytes hfile.symm
    · exact congrArg List.length hfile.symm

/-- Settles O39: each command by its own lemma. -/
theorem resultDependsOnOperandsAlone : Obligations.ResultDependsOnOperandsAlone := by
  intro op s u h
  cases op with
  | blzCompress => exact compress_alike h
  | blzFooter => exact footer_alike h
  | blzDecompressS => exact decompressS_alike h
  | blzDecompressP => exact decompressP_alike h
  | kipParse => exact kipParse_alike h
  | kipBuild => exact kipBuild_alike h
  | kipSerialize => exact kipSerialize_alike h

end Sys2Proof.Machine
end

section
/-! A token loop that decodes a given stream of tokens to given bytes (rules R24, R53, R166 to R175).  The stream is
listed from the top of the encoded region downward and the output from its last byte downward, as ENC's reversed view
lists them. -/

namespace Sys2Proof.Machine

/-! ### Turns of the loop -/

/-- From `s` the loop comes to `t`, with enough turns left at either (rule R169). -/
def Reaches (s t : State) : Prop :=
  TokenEffect s t ∧ ∀ fuel, s.dec.r ≤ fuel → ∃ fuel', t.dec.r ≤ fuel' ∧ tokenLoop fuel s = tokenLoop fuel' t

theorem Reaches.refl (s : State) : Reaches s s := ⟨.refl s, fun fuel h => ⟨fuel, h, rfl⟩⟩

theorem Reaches.trans {s t u : State} (h : Reaches s t) (g : Reaches t u) : Reaches s u := by
  refine ⟨h.1.trans g.1, fun fuel hr => ?_⟩
  obtain ⟨n, hn, hloop⟩ := h.2 fuel hr
  obtain ⟨m, hm, hloop'⟩ := g.2 n hn
  exact ⟨m, hm, hloop.trans hloop'⟩

theorem Reaches.of_turn {s t : State} (hin : Inside s) (hw : s.dec.w ≠ 0) (h : decodeToken s = .ok t) : Reaches s t := by
  have hturn : Turn s t := by
    have hends := decodeToken_ends hin hw
    rwa [h] at hends
  refine ⟨hturn.effect, fun fuel hr => ?_⟩
  obtain ⟨n, -, hn, hloop⟩ := tokenLoop_of_turn hw hr hturn h
  exact ⟨n, hn, hloop⟩

/-- A loop that comes to `DEC.w = 0` has ended there. -/
theorem Reaches.tokenLoop_eq {s t : State} (h : Reaches s t) (hw : t.dec.w = 0) :
    tokenLoop s.dec.r s = .ok t := by
  obtain ⟨n, -, hloop⟩ := h.2 s.dec.r (Nat.le_refl _)
  rw [hloop, tokenLoop_of_end n hw]

/-! ### One token, from the bytes below `DEC.r` -/

section Token
variable {s : State} (hw : s.dec.w ≠ 0)
include hw

theorem decodeToken_ctrl {f : Byte} (hk : s.dec.k = 0) (hr : 1 ≤ s.dec.r) (hf : oGet s (s.dec.r - 1) = some f) :
    decodeToken s = .ok { s with dec := { s.dec with r := s.dec.r - 1, ctrl := f, k := 8 } } := by
  have hslot := tokenSlot_of_empty hk
  have hsize : (tokenSlot s).size = 1 := congrArg Slot.size hslot
  have hslice : (oBuf s).slice (s.dec.base + (s.dec.r - 1)) 1 = some [f] := by
    rw [Buffer.slice_one]
    exact congrArg (Option.map fun x => [x]) hf
  have hdecode : decode .ctrl [f] = .ok (.ctrl f, []) := decodeOfEncodeGivesInstruction (.ctrl f) [] rfl
  rw [decodeToken_of_room hw (hsize ▸ hr) (hsize ▸ hslice) (hslot ▸ hdecode), tokenState_of_empty hk]
  exact decCtrl_of_room hr

theorem decodeToken_lit {b : Byte} (hk : 0 < s.dec.k) (hflag : s.dec.ctrl.getLsbD 7 = false) (hr : 1 ≤ s.dec.r)
    (hb : oGet s (s.dec.r - 1) = some b) : decodeToken s = decLit b (consumeFlag s) := by
  have hslot : tokenSlot s = .lit := by rw [tokenSlot_of_flag hk, hflag]; rfl
  have hsize : (tokenSlot s).size = 1 := congrArg Slot.size hslot
  have hslice : (oBuf s).slice (s.dec.base + (s.dec.r - 1)) 1 = some [b] := by
    rw [Buffer.slice_one]
    exact congrArg (Option.map fun x => [x]) hb
  have hdecode : decode .lit [b] = .ok (.lit b, []) := decodeOfEncodeGivesInstruction (.lit b) [] rfl
  rw [decodeToken_of_room hw (hsize ▸ hr) (hsize ▸ hslice) (hslot ▸ hdecode), tokenState_of_flag hk]
  rfl

theorem decodeToken_ref {lo hi : Byte} (hk : 0 < s.dec.k) (hflag : s.dec.ctrl.getLsbD 7 = true) (hr : 2 ≤ s.dec.r)
    (hlo : oGet s (s.dec.r - 2) = some lo) (hhi : oGet s (s.dec.r - 1) = some hi) :
    ∃ (l : BitVec 4) (o : BitVec 12), decodeToken s = decRef l o (consumeFlag s) ∧
      l.toNat = (lo.toNat + 256 * hi.toNat) / 4096 ∧ o.toNat = (lo.toNat + 256 * hi.toNat) % 4096 := by
  have hslot : tokenSlot s = .ref := by rw [tokenSlot_of_flag hk, hflag]; rfl
  have hsize : (tokenSlot s).size = 2 := congrArg Slot.size hslot
  obtain ⟨l, o, hdecode, hl, ho⟩ := decode_ref_pair lo hi
  have hnext : s.dec.base + (s.dec.r - 2) + 1 = s.dec.base + (s.dec.r - 1) := by omega
  have hslice : (oBuf s).slice (s.dec.base + (s.dec.r - 2)) 2 = some [lo, hi] :=
    Buffer.slice_two hlo (hnext ▸ hhi)
  refine ⟨l, o, ?_, hl, ho⟩
  rw [decodeToken_of_room hw (hsize ▸ hr) (hsize ▸ hslice) (hslot ▸ hdecode), tokenState_of_flag hk]
  rfl

/-- A `REF` whose whole copy lies inside the region (rules R173 to R176). -/
theorem decodeToken_ref_copies {lo hi : Byte} {n off : Nat} (hwf : s.mem.wf = true) (hin : Inside s) (hk : 0 < s.dec.k)
    (hflag : s.dec.ctrl.getLsbD 7 = true) (hr : 2 ≤ s.dec.r) (hlo : oGet s (s.dec.r - 2) = some lo)
    (hhi : oGet s (s.dec.r - 1) = some hi) (hn : 3 ≤ n) (hoff : 3 ≤ off)
    (hword : hi.toNat * 256 + lo.toNat = (n - 3) * 4096 + (off - 3)) (hoffLt : off - 3 < 4096) (hnw : n ≤ s.dec.w)
    (hsrc : s.dec.w - 1 + off < s.dec.outLen) :
    ∃ t, decodeToken s = .ok t ∧
      (t.dec.r = s.dec.r - 2 ∧ t.dec.w = s.dec.w - n ∧ t.dec.k = s.dec.k - 1 ∧ t.dec.ctrl = (consumeFlag s).dec.ctrl) ∧
      (∀ q, q < s.dec.w - n ∨ s.dec.w ≤ q → oGet t q = oGet s q) ∧
      ∀ q, s.dec.w - n ≤ q → q < s.dec.w → oGet t q = oGet t (q + off) := by
  obtain ⟨l, o, hturn, hl, ho⟩ := decodeToken_ref hw hk hflag hr hlo hhi
  have hl' : refLen l = n := by
    rw [refLen, hl]
    omega
  have ho' : refOff o = off := by
    rw [refOff, ho]
    omega
  have hcap : min (refLen l) (consumeFlag s).dec.w = n := by
    rw [hl']
    exact Nat.min_eq_left hnw
  obtain ⟨t, hcopy, ht, -, -, hrange, hframe⟩ := copyBack_spec n (refStart l o (consumeFlag s)) hwf hnw
    (show 1 ≤ refOff o by omega) hin.region (.inr (show s.dec.w - 1 + refOff o < s.dec.outLen by omega))
  rw [decRef_eq_copyBack (s := consumeFlag s) hr, hcap, hcopy] at hturn
  have hdec : t.dec = { (refStart l o (consumeFlag s)).dec with w := s.dec.w - n } := by rw [ht]; rfl
  have hname : oName t = oName s := oName_eq (by rw [ht]; rfl)
  have hbase : t.dec.base = s.dec.base := by rw [hdec]; rfl
  refine ⟨t, hturn, ⟨by rw [hdec]; rfl, by rw [hdec], by rw [hdec]; rfl, by rw [hdec]; rfl⟩, fun q hq => ?_,
    fun q hlo hhi => ?_⟩
  · rw [oGet_eq, hname, hbase]
    refine hframe _ _ (.inr ?_)
    show s.dec.base + q < s.dec.base + (s.dec.w - n) ∨ s.dec.base + s.dec.w ≤ s.dec.base + q
    omega
  · rw [oGet_eq, oGet_eq, hname, hbase, ← ho', ← Nat.add_assoc]
    exact hrange q hlo hhi

end Token

/-! ### The loop next to the stream and the output -/

/-- Where a loop stands in the stream `tokens` of the region's encoded bytes, `E` of them, that decodes to `rev`, `I`
bytes: `len` bytes are read and `i` bytes written; the group's control byte stands at `flg`, with `k` flags left.  The
bytes not yet read are the stream's, the bytes written are the output's. -/
structure Mirror (tokens rev : Bytes) (E I len k flg i : Nat) (s : State) : Prop where
  wf : s.mem.wf = true
  inside : Inside s
  outLen : s.dec.outLen = I
  r : s.dec.r + len = E
  w : s.dec.w + i = I
  flags : s.dec.k = k
  ctrl : k ≠ 0 → s.dec.ctrl = tokens.getD flg 0 <<< (8 - k)
  unread : ∀ j, len ≤ j → j < E → oGet s (E - 1 - j) = some (tokens.getD j 0)
  written : ∀ j, j < i → oGet s (I - 1 - j) = rev[j]?

theorem doubled_shiftLeft (c : Byte) {k : Nat} (hk : 0 < k) (hk8 : k ≤ 8) :
    BitVec.ofNat 8 ((c <<< (8 - k)).toNat * 2) = c <<< (8 - (k - 1)) := by
  have hnext : 8 - (k - 1) = 8 - k + 1 := by omega
  rw [hnext, BitVec.shiftLeft_add]
  refine BitVec.eq_of_toNat_eq ?_
  simp only [BitVec.toNat_ofNat, BitVec.toNat_shiftLeft, Nat.shiftLeft_eq, pow_one]

section Mirror
variable {tokens rev : Bytes} {E I len k flg i : Nat} {s : State} (h : Mirror tokens rev E I len k flg i s)
include h

theorem Mirror.next_byte (hlen : len < E) : oGet s (s.dec.r - 1) = some (tokens.getD len 0) := by
  have hr := h.r
  rw [← h.unread len (Nat.le_refl _) hlen]
  congr 1
  omega

/-- A control byte is read where no flags are left (rule R171). -/
theorem Mirror.ctrl_turn (hk : k = 0) (hlen : len < E) (hi : i < I) :
    ∃ t, Reaches s t ∧ Mirror tokens rev E I (len + 1) 8 len i t := by
  have hr := h.r
  have hw := h.w
  have hw0 : s.dec.w ≠ 0 := by omega
  have hturn := decodeToken_ctrl hw0 (h.flags.trans hk) (by omega) (h.next_byte hlen)
  have hreach := Reaches.of_turn h.inside hw0 hturn
  refine ⟨_, hreach, h.wf, h.inside.after hreach.1, h.outLen, ?_, hw, rfl, fun _ => ?_, fun j hj => h.unread j (by omega),
    h.written⟩
  · show s.dec.r - 1 + (len + 1) = E
    omega
  · show tokens.getD len 0 = tokens.getD len 0 <<< (8 - 8)
    rw [Nat.sub_self, BitVec.shiftLeft_zero]

/-- The flag of the next item is a bit of the control byte (rules R26, R170). -/
theorem Mirror.flag (hk : 0 < k) (hk8 : k ≤ 8) : s.dec.ctrl.getLsbD 7 = (tokens.getD flg 0).getLsbD (k - 1) := by
  rw [h.ctrl (Nat.ne_of_gt hk), BitVec.getLsbD_shiftLeft]
  have hbit : 7 - (8 - k) = k - 1 := by omega
  have hlt : ¬ 7 < 8 - k := by omega
  simp [hbit, hlt]

/-- What a consumed flag leaves of the group's flags (rule R26). -/
theorem Mirror.consumed (hk : 0 < k) (hk8 : k ≤ 8) :
    (consumeFlag s).dec.ctrl = tokens.getD flg 0 <<< (8 - (k - 1)) := by
  show BitVec.ofNat 8 (s.dec.ctrl.toNat * 2) = _
  rw [h.ctrl (Nat.ne_of_gt hk)]
  exact doubled_shiftLeft _ hk hk8

/-- A literal of the stream that is the next byte of the output (rule R172). -/
theorem Mirror.lit_turn (hk : 0 < k) (hk8 : k ≤ 8) (hflag : (tokens.getD flg 0).getLsbD (k - 1) = false) (hlen : len < E)
    (hi : i < I) (hbyte : rev[i]? = some (tokens.getD len 0)) (hroom : E - (len + 1) ≤ I - (i + 1)) :
    ∃ t, Reaches s t ∧ Mirror tokens rev E I (len + 1) (k - 1) flg (i + 1) t := by
  have hr := h.r
  have hw := h.w
  have hin := h.inside
  have hregion := hin.region
  have houtLen := h.outLen
  have hw0 : s.dec.w ≠ 0 := by omega
  have hturn := decodeToken_lit hw0 (h.flags.symm ▸ hk) ((h.flag hk hk8).trans hflag) (by omega) (h.next_byte hlen)
  obtain ⟨t, hlit, ht, hread⟩ := decLit_stores (b := tokens.getD len 0) (s := consumeFlag s) h.wf
    (show 1 ≤ s.dec.r by omega) (show 1 ≤ s.dec.w by omega) (show s.dec.base + (s.dec.w - 1) < (oBuf s).len by omega)
  rw [hlit] at hturn
  have hreach := Reaches.of_turn hin hw0 hturn
  have hdec : t.dec = { (consumeFlag s).dec with r := s.dec.r - 1, w := s.dec.w - 1 } := by rw [ht]; rfl
  have hget (q : Nat) : oGet t q = if q = s.dec.w - 1 then some (tokens.getD len 0) else oGet s q := by
    rw [oGet_eq, hread, oName_eq hreach.1.cmd, hreach.1.base]
    by_cases hq : q = s.dec.w - 1
    · rw [if_pos hq, if_pos ⟨rfl, by rw [hq]; rfl⟩]
    · rw [if_neg hq, if_neg (fun heq => hq (Nat.add_left_cancel heq.2))]
      rfl
  refine ⟨t, hreach, hreach.1.wf h.wf, hin.after hreach.1, hreach.1.outLen.trans houtLen, ?_, ?_, ?_, fun _ => ?_,
    fun j hj hjE => ?_, fun j hj => ?_⟩
  · rw [hdec]
    show s.dec.r - 1 + (len + 1) = E
    omega
  · rw [hdec]
    show s.dec.w - 1 + (i + 1) = I
    omega
  · rw [hdec]
    show s.dec.k - 1 = k - 1
    rw [h.flags]
  · rw [hdec]
    exact h.consumed hk hk8
  · rw [hget, if_neg (by omega)]
    exact h.unread j (by omega) hjE
  · rw [hget]
    by_cases hji : j = i
    · subst hji
      rw [if_pos (by omega), hbyte]
    · rw [if_neg (by omega)]
      exact h.written j (by omega)

/-- A reference of the stream that repeats the output's own bytes (rules R173 to R175). -/
theorem Mirror.ref_turn {n off : Nat} (hk : 0 < k) (hk8 : k ≤ 8) (hflag : (tokens.getD flg 0).getLsbD (k - 1) = true)
    (hlen : len + 2 ≤ E) (hn : 3 ≤ n) (hi : i + n ≤ I) (hoff : 3 ≤ off) (hback : off ≤ i)
    (hword : (tokens.getD len 0).toNat * 256 + (tokens.getD (len + 1) 0).toNat = (n - 3) * 4096 + (off - 3))
    (hoffLt : off - 3 < 4096) (hsame : ∀ m, m < n → rev[i + m]? = rev[i + m - off]?)
    (hroom : E - (len + 2) ≤ I - (i + n)) :
    ∃ t, Reaches s t ∧ Mirror tokens rev E I (len + 2) (k - 1) flg (i + n) t := by
  have hr := h.r
  have hw := h.w
  have hin := h.inside
  have hregion := hin.region
  have hwrite := hin.write
  have houtLen := h.outLen
  have hw0 : s.dec.w ≠ 0 := by omega
  have hhi : oGet s (s.dec.r - 1) = some (tokens.getD len 0) := h.next_byte (by omega)
  have hlo : oGet s (s.dec.r - 2) = some (tokens.getD (len + 1) 0) := by
    rw [← h.unread (len + 1) (Nat.le_succ _) (by omega)]
    congr 1
    omega
  obtain ⟨t, hturn, ⟨htr, htw, htk, htctrl⟩, hget, hcopied⟩ := decodeToken_ref_copies hw0 h.wf hin (h.flags.symm ▸ hk)
    ((h.flag hk hk8).trans hflag) (by omega) hlo hhi hn hoff hword hoffLt (show n ≤ s.dec.w by omega) (by omega)
  have hreach := Reaches.of_turn hin hw0 hturn
  refine ⟨t, hreach, hreach.1.wf h.wf, hin.after hreach.1, hreach.1.outLen.trans houtLen, ?_, ?_, ?_, fun _ => ?_,
    fun j hj hjE => ?_, fun j hj => ?_⟩
  · omega
  · omega
  · rw [htk, h.flags]
  · rw [htctrl]
    exact h.consumed hk hk8
  · rw [hget _ (.inl (by omega))]
    exact h.unread j (by omega) hjE
  · induction j using Nat.strong_induction_on with
    | _ j ih =>
      by_cases hji : j < i
      · rw [hget _ (.inr (by omega))]
        exact h.written j hji
      · obtain ⟨m, rfl⟩ := Nat.exists_eq_add_of_le (Nat.le_of_not_lt hji)
        have hpos : I - 1 - (i + m) + off = I - 1 - (i + m - off) := by omega
        rw [hcopied _ (by omega) (by omega), hpos, ih (i + m - off) (by omega) (by omega)]
        exact (hsame m (by omega)).symm

end Mirror

end Sys2Proof.Machine
end

section
/-! A block whose tokens decode to given bytes, decoded by either command (rules R165 to R187). -/

namespace Sys2Proof.Machine

/-- The stream `tokens`, `E` bytes, decodes to `rev`, `I` bytes, in whatever buffer it stands. -/
def Decodes (tokens rev : Bytes) (E I : Nat) : Prop :=
  ∀ s, Mirror tokens rev E I 0 0 0 0 s → ∃ t len k flg, Reaches s t ∧ Mirror tokens rev E I len k flg I t

/-- A block with a proper footer: `base` raw bytes, then the encoded region, `E` bytes that hold `tokens`, for an output
region of `I` bytes. -/
structure TokenBlock (s : State) (tokens : Bytes) (base E I : Nat) : Prop where
  accepted : FooterAccepted s (blockBuf s) (blockLen s)
  prefixLen : base + (blockBuf s).read (blockLen s - 12) 4 = blockLen s
  readStart : E + (blockBuf s).read (blockLen s - 8) 4 = (blockBuf s).read (blockLen s - 12) 4
  outLen : (blockBuf s).read (blockLen s - 12) 4 + (blockBuf s).read (blockLen s - 4) 4 = I
  bytes : ∀ j, j < E → cellsGet (blockBuf s).cells (base + (E - 1 - j)) = tokens.getD j 0

section Block
variable {s : State} {tokens rev : Bytes} {base E I : Nat} (h : TokenBlock s tokens base E I)
include h

/-- FTR accepts the block, and its registers delimit the regions (rule R156). -/
theorem TokenBlock.footer : ∃ u, footer s = .ok u ∧ SameButFtr s u ∧ u.ftr.degenerate = false ∧ u.ftr.prefixLen = base ∧
    u.ftr.readStart = E ∧ u.ftr.outLen = I ∧ u.ftr.extraSize.toNat = (blockBuf s).read (blockLen s - 4) 4 := by
  have hprefix := h.prefixLen
  have hread := h.readStart
  refine ⟨_, footer_of_accepted h.accepted, rfl, rfl, ?_, ?_, h.outLen, loadWords_extraSize s⟩
  · show blockLen s - _ = base
    omega
  · show _ - _ = E
    omega

/-- DEC starts in front of the whole stream (rule R168). -/
theorem TokenBlock.mirror {u : State} (hwf : s.mem.wf = true) (hu : SameButFtr s u) (hfooter : Machine.footer s = .ok u)
    (hproper : u.ftr.degenerate = false) (hbase : u.ftr.prefixLen = base) (hE : u.ftr.readStart = E) (hI : u.ftr.outLen = I)
    (hcap : CapacityReal u) (htest : capacityTest u = .ok u) : Mirror tokens rev E I 0 0 0 0 (startDecode u) := by
  have hprop := (footer_eq_ok hfooter).2.2 hproper
  have hin := startDecode_inside hprop hcap htest
  have hregion := hin.region
  have hread := hin.read
  refine ⟨startDecode_wf (by rw [hu.mem]; exact hwf), hin, hI, hE, hI, rfl, fun h0 => absurd rfl h0, fun j _ hj => ?_,
    fun j hj => absurd hj (Nat.not_lt_zero j)⟩
  have hcells : (oBuf (startDecode u)).cells = (blockBuf s).cells := by
    by_cases hop : u.cmd.op = .blzDecompressP
    · rw [oBuf_startDecode_of_inPlace hop, hu.mem, blockBuf, if_pos (by rw [← hu.cmd]; exact hop)]
    · rw [oBuf_startDecode_of_strict hop, hu.mem, blockBuf, if_neg (by rw [← hu.cmd]; exact hop)]
  have hin' : (startDecode u).dec.base + (E - 1 - j) < (oBuf (startDecode u)).len := by
    have hr : (startDecode u).dec.r = E := hE
    omega
  rw [oGet_eq_cellsGet hin', hcells, ← h.bytes j hj, ← hbase]
  rfl

/-- The whole decode. -/
theorem TokenBlock.decodeBlock (hwf : s.mem.wf = true) (hdec : Decodes tokens rev E I) (hreal : CapacityReal s)
    (hroom : s.cmd.op = .blzDecompressP → blockLen s + (blockBuf s).read (blockLen s - 4) 4 ≤ s.cmd.cap) :
    ∃ u t, SameButFtr s u ∧ Machine.decodeBlock s = .ok (endDecode t) ∧ TokenEffect (startDecode u) t ∧
      RegionKept (startDecode u) t ∧ t.dec.base = base ∧ t.dec.outLen = I ∧
      blockLen s + u.ftr.extraSize.toNat = base + I ∧ ∀ j, j < I → oGet t (I - 1 - j) = rev[j]? := by
  obtain ⟨u, hfooter, hu, hproper, hbase, hE, hI, hextra⟩ := h.footer
  have hcap : CapacityReal u := by
    unfold CapacityReal
    rw [hu.cmd, hu.mem]
    exact hreal
  have htest : capacityTest u = .ok u := capacityTest_of_fits fun hop => by
    rw [blockLen_congr hu.cmd hu.mem, hu.cmd, hextra]
    exact hroom (by rw [← hu.cmd]; exact hop)
  have hstart := h.mirror (rev := rev) hwf hu hfooter hproper hbase hE hI hcap htest
  obtain ⟨t, len, k, flg, hreach, hend⟩ := hdec _ hstart
  have hw : t.dec.w = 0 := by have := hend.w; omega
  have hloop := hreach.tokenLoop_eq hw
  have hkept := tokenLoop_keepsRegion (startDecode u).dec.r hstart.wf hstart.inside.write
  rw [hloop] at hkept
  refine ⟨u, t, hu, ?_, hreach.1, hkept, hreach.1.base.trans hbase, hreach.1.outLen.trans hI, ?_, hend.written⟩
  · rw [Machine.decodeBlock, hfooter, Ctl.andThen_ok, htest, Ctl.andThen_ok, decodeBody, hproper]
    have hloop' : tokenLoop u.ftr.readStart (startDecode u) = .ok t := hloop
    rw [hloop']
    rfl
  · have hprefix := h.prefixLen
    have hout := h.outLen
    rw [hextra]
    omega

end Block

/-! ### The two commands -/

/-- A decoded byte in the working buffer. -/
theorem readByte_of_oGet {t : State} {n : BufName} {base I j : Nat} {b : Option Byte} (hname : oName t = n)
    (hbase : t.dec.base = base) (h : oGet t (I - 1 - j) = b) : t.readByte n (base + (I - 1 - j)) = b := by
  rw [← h, oGet_eq, hname, hbase]

/-- `BLZ.DECOMPRESS.S` on such a block, in a memory in canonical form. -/
theorem decompressS_of_tokens {s : State} {tokens rev : Bytes} {base E I : Nat} (hwf : s.mem.wf = true)
    (h : TokenBlock (startCommand .blzDecompressS s) tokens base E I) (hdec : Decodes tokens rev E I) :
    ∃ t, exec .blzDecompressS s = .next t ∧ t.status.err = .ok ∧ t.status.degenerate = false ∧
      t.status.outLen = base + I ∧ t.mem.out.len = base + I ∧
      (∀ i, i < base → t.readByte .out i = some (cellsGet s.mem.inp.cells i)) ∧
      ∀ j, j < I → t.readByte .out (base + (I - 1 - j)) = rev[j]? := by
  obtain ⟨u, t, hu, hdecode, heffect, hkept, hbase, hout, hlen, hwritten⟩ := h.decodeBlock hwf hdec nofun nofun
  have hop : u.cmd.op ≠ .blzDecompressP := by rw [hu.cmd]; nofun
  have hname : oName (startDecode u) = .out := by rw [oName_eq (startDecode_cmd u), oName, if_neg hop]
  have hname' : oName t = .out := (oName_eq heffect.cmd).trans hname
  have hbuf := oBuf_startDecode_of_strict hop
  rw [blockLen_congr hu.cmd hu.mem, hlen] at hbuf
  refine ⟨endDecode t, by rw [exec_blzDecompressS, hdecode]; rfl, rfl, rfl, ?_, ?_, fun i hi => ?_, fun j hj => ?_⟩
  · show t.dec.base + t.dec.outLen = base + I
    rw [hbase, hout]
  · have ht := heffect.len
    rw [hbuf, oBuf, hname'] at ht
    exact ht
  · have hstart : (startDecode u).readByte .out i = (oBuf (startDecode u)).get i := by rw [oBuf, hname]; rfl
    have hget : (oBuf (startDecode u)).get i = some (cellsGet s.mem.inp.cells i) := by
      rw [hbuf, hu.mem]
      exact if_pos (show i < base + I by omega)
    exact (hkept.outside .out i (.inr (.inl (by rw [← hkept.base, hbase]; exact hi)))).trans (hstart.trans hget)
  · exact readByte_of_oGet hname' hbase (hwritten j hj)

/-- The same in any memory whose input is in canonical form: the command reads no other buffer. -/
theorem decompressS_of_tokens_any {s : State} {tokens rev : Bytes} {base E I : Nat} (hwf : s.mem.inp.wf = true)
    (h : TokenBlock (startCommand .blzDecompressS s) tokens base E I) (hdec : Decodes tokens rev E I) :
    ∃ t, exec .blzDecompressS s = .next t ∧ t.status.err = .ok ∧ t.status.degenerate = false ∧
      t.status.outLen = base + I ∧ t.mem.out.len = base + I ∧
      (∀ i, i < base → t.readByte .out i = some (cellsGet s.mem.inp.cells i)) ∧
      ∀ j, j < I → t.readByte .out (base + (I - 1 - j)) = rev[j]? := by
  obtain ⟨v, hv, herr, hdeg, houtLen, hlen, hlow, hhigh⟩ := decompressS_of_tokens
    (s := { s with mem := ⟨s.mem.inp, ⟨0, []⟩, ⟨0, []⟩⟩ }) (Memory.wf_iff.mpr ⟨hwf, rfl, rfl⟩)
    (TokenBlock.mk h.accepted h.prefixLen h.readStart h.outLen h.bytes) hdec
  have halike := decompressS_alike (s := { s with mem := ⟨s.mem.inp, ⟨0, []⟩, ⟨0, []⟩⟩ }) (u := s) ⟨rfl, rfl, rfl⟩
  obtain ⟨t, ht, herr', hsame⟩ := halike.1 v hv
  obtain ⟨hbuf, houtLen', hdeg'⟩ := hsame herr
  have hread (i : Nat) : t.readByte .out i = v.readByte .out i := by
    show t.mem.out.get i = v.mem.out.get i
    rw [hbuf]
  refine ⟨t, ht, herr'.trans herr, hdeg'.symm.trans hdeg, houtLen'.symm.trans houtLen, hbuf ▸ hlen, fun i hi => ?_,
    fun j hj => ?_⟩
  · rw [hread]
    exact hlow i hi
  · rw [hread]
    exact hhigh j hj

/-- `BLZ.DECOMPRESS.P` on such a block. -/
theorem decompressP_of_tokens {s : State} {tokens rev : Bytes} {base E I : Nat} (hwf : s.mem.wf = true)
    (hn : s.cmd.n ≤ s.cmd.cap) (hcap : s.cmd.cap ≤ s.mem.m.len) (hmax : ∀ m, s.cmd.maxLen = some m → s.cmd.cap < m)
    (h : TokenBlock (startCommand .blzDecompressP s) tokens base E I) (hdec : Decodes tokens rev E I)
    (hroom : base + I ≤ s.cmd.cap) :
    ∃ t, exec .blzDecompressP s = .next t ∧ t.status.err = .ok ∧ t.status.degenerate = false ∧
      t.status.outLen = base + I ∧
      (∀ i, i < base ∨ base + I ≤ i → t.readByte .m i = s.readByte .m i) ∧
      ∀ j, j < I → t.readByte .m (base + (I - 1 - j)) = rev[j]? := by
  have hfits : blockLen (startCommand .blzDecompressP s) + (blockBuf (startCommand .blzDecompressP s)).read
      (blockLen (startCommand .blzDecompressP s) - 4) 4 ≤ s.cmd.cap := by
    have hprefix := h.prefixLen
    have hout := h.outLen
    omega
  obtain ⟨u, t, hu, hdecode, heffect, hkept, hbase, hout, hlen, hwritten⟩ :=
    h.decodeBlock hwf hdec (fun _ => hcap) fun _ => hfits
  have hop : u.cmd.op = .blzDecompressP := by rw [hu.cmd]; rfl
  have hname : oName t = .m := by rw [oName_eq heffect.cmd, oName_eq (startDecode_cmd u), oName, if_pos hop]
  refine ⟨endDecode t, by rw [exec_blzDecompressP_of_operands hn hcap hmax, hdecode]; rfl, rfl, rfl, ?_, fun i hi => ?_,
    fun j hj => ?_⟩
  · show t.dec.base + t.dec.outLen = base + I
    rw [hbase, hout]
  · have hi' : i < (startDecode u).dec.base ∨ (startDecode u).dec.base + (startDecode u).dec.outLen ≤ i := by
      rw [← hkept.base, ← hkept.outLen, hbase, hout]
      exact hi
    refine (hkept.outside .m i (.inr hi')).trans ?_
    show (startDecode u).mem.m.get i = s.mem.m.get i
    rw [startDecode_mem_of_inPlace hop, hu.mem]
    rfl
  · exact readByte_of_oGet hname hbase (hwritten j hj)

end Sys2Proof.Machine
end

section
/-! The stream ENC emits decodes to its input (rules R53, R128 to R132, R141): each item of the scan is undone by one turn
of the token loop, or by two where it opens a group. -/

namespace Sys2Proof.Machine

/-! ### The item chosen -/

/-- A chosen match is one `SEARCH` found, in the ranges a `REF` encodes (rules R84, R125). -/
theorem choose_match {x : EncInput} {e : EncRegs} (hi : e.i ≤ x.rev.length) (h : 2 < (choose x e).bestLen) :
    MatchAt x e.i (choose x e).bestOff (choose x e).bestLen ∧ 3 ≤ (choose x e).bestOff ∧ (choose x e).bestOff ≤ 4098 ∧
      (choose x e).bestOff ≤ e.i := by
  by_cases hd : Degrades x e
  · rw [choose_of_degrades hd] at h
    omega
  · obtain ⟨hlen, hoff⟩ := choose_of_not_degrades hd
    rw [hlen] at h
    have hmatch := matchAt_search hi h
    rw [hlen, hoff h]
    obtain ⟨hnone, -⟩ | ⟨q, ⟨h3, hwin, hqi⟩, -, heq, -⟩ := search_cases x e.i
    · rw [hnone] at h
      exact absurd h (Nat.lt_irrefl 2)
    · refine ⟨hmatch, ?_⟩
      rw [heq]
      exact ⟨h3, hwin, hqi⟩

/-! ### The control byte of a group -/

/-- The flags of the items still to come are clear in the open group's control byte. -/
def FlagsClear (e : EncRegs) : Prop := e.cnt ≠ 0 → ∀ b, b < 8 - e.cnt → (e.stream.getD e.flg 0).getLsbD b = false

theorem groupFlag_getLsbD : ∀ c b : Fin 8, (groupFlag c.val).getLsbD b.val = decide (b.val = 7 - c.val) := by decide

section Item
variable {x : EncInput} {e : EncRegs}

theorem openGroup_getD {j : Nat} (hj : j < e.stream.length) : (openGroup e).stream.getD j 0 = e.stream.getD j 0 := by
  rw [openGroup_stream]
  split
  · rw [List.getD_append _ _ _ _ hj]
  · rfl

theorem openGroup_clear (h : FlagsClear e) {b : Nat} (hb : b < 8 - e.cnt) :
    ((openGroup e).stream.getD (openGroup e).flg 0).getLsbD b = false := by
  rw [openGroup_stream, openGroup_flg]
  by_cases h0 : e.cnt = 0
  · rw [if_pos h0, if_pos h0, List.getD_append_right _ _ _ _ (Nat.le_refl _), Nat.sub_self]
    exact BitVec.getLsbD_zero
  · rw [if_neg h0, if_neg h0]
    exact h h0 b hb

/-- An item leaves every byte before it but the group's control byte. -/
theorem encodeItem_getD (hi : e.i < x.rev.length) {j : Nat} (hj : j < (openGroup e).stream.length)
    (hflg : j ≠ (openGroup e).flg) : (encodeItem x e).stream.getD j 0 = (openGroup e).stream.getD j 0 := by
  by_cases hmatch : 2 < (choose x e).bestLen
  · rw [(encodeItem_of_match hmatch).2, List.getD_append _ _ _ _ (by rwa [List.length_modify]), List.getD_eq_getElem?_getD,
      List.getElem?_modify_ne _ _ hflg.symm, ← List.getD_eq_getElem?_getD]
  · rw [(encodeItem_of_literal hmatch hi).2, List.getD_append _ _ _ _ hj]

/-- An item sets its own flag when it is a match, and no other (rule R129). -/
theorem encodeItem_flag (hi : e.i < x.rev.length) (hcnt : e.cnt < 8) (hclear : FlagsClear e)
    (hlt : (openGroup e).flg < (openGroup e).stream.length) {b : Nat} (hb : b < 8) :
    ((encodeItem x e).stream.getD (openGroup e).flg 0).getLsbD b =
      if b = 7 - e.cnt then decide (2 < (choose x e).bestLen)
      else ((openGroup e).stream.getD (openGroup e).flg 0).getLsbD b := by
  have hown : ((openGroup e).stream.getD (openGroup e).flg 0).getLsbD (7 - e.cnt) = false :=
    openGroup_clear hclear (by omega)
  by_cases hmatch : 2 < (choose x e).bestLen
  · have hbyte : (encodeItem x e).stream.getD (openGroup e).flg 0 =
        (openGroup e).stream.getD (openGroup e).flg 0 + groupFlag e.cnt := by
      rw [(encodeItem_of_match hmatch).2, List.getD_append _ _ _ _ (by rwa [List.length_modify]),
        List.getD_eq_getElem?_getD, List.getElem?_modify_eq, List.getD_eq_getElem?_getD,
        List.getElem?_eq_getElem hlt]
      rfl
    have hflag (b : Nat) (hb : b < 8) : (groupFlag e.cnt).getLsbD b = decide (b = 7 - e.cnt) :=
      groupFlag_getLsbD ⟨e.cnt, hcnt⟩ ⟨b, hb⟩
    have hdisjoint : (openGroup e).stream.getD (openGroup e).flg 0 &&& groupFlag e.cnt = 0#8 := by
      refine BitVec.eq_of_getLsbD_eq fun b hb => ?_
      rw [BitVec.getLsbD_and, hflag b hb, BitVec.getLsbD_zero]
      by_cases heq : b = 7 - e.cnt
      · rw [heq, hown, Bool.false_and]
      · rw [decide_eq_false heq, Bool.and_false]
    rw [hbyte, BitVec.add_eq_or_of_and_eq_zero _ _ hdisjoint, BitVec.getLsbD_or, hflag b hb, decide_eq_true hmatch]
    split
    next heq => rw [decide_eq_true heq, Bool.or_true]
    next hne => rw [decide_eq_false hne, Bool.or_false]
  · rw [(encodeItem_of_literal hmatch hi).2, List.getD_append _ _ _ _ hlt, decide_eq_false hmatch]
    split
    next heq => rw [heq, hown]
    next => rfl

theorem FlagsClear.afterItem (hi : e.i < x.rev.length) (hcnt : e.cnt < 8) (hclear : FlagsClear e)
    (hlt : (openGroup e).flg < (openGroup e).stream.length) : FlagsClear (encodeItem x e) := by
  obtain ⟨hflg, hcnt', -⟩ := encodeItem_counts x e
  intro h0 b hb
  rw [hflg, encodeItem_flag hi hcnt hclear hlt (by omega), if_neg (by omega)]
  exact openGroup_clear hclear (by omega)

end Item

/-! ### What later items leave of the stream -/

/-- `f` is a later point of the scan of `e`: of the bytes `e` had only the open group's control byte may differ, in the
flags of items that were still to come. -/
structure StreamKept (e f : EncRegs) : Prop where
  length : e.stream.length ≤ f.stream.length
  group : f.cnt ≠ 0 → (f.flg = e.flg ∧ e.cnt ≠ 0 ∧ e.cnt ≤ f.cnt) ∨ e.stream.length ≤ f.flg
  byte : ∀ j, j < e.stream.length → (e.cnt ≠ 0 → j ≠ e.flg) → f.stream.getD j 0 = e.stream.getD j 0
  flags : e.cnt ≠ 0 → ∀ b, 8 - e.cnt ≤ b → b < 8 →
    (f.stream.getD e.flg 0).getLsbD b = (e.stream.getD e.flg 0).getLsbD b

theorem StreamKept.refl (e : EncRegs) : StreamKept e e :=
  ⟨Nat.le_refl _, fun h => .inl ⟨rfl, h, Nat.le_refl _⟩, fun _ _ _ => rfl, fun _ _ _ _ => rfl⟩

theorem StreamKept.afterItem {x : EncInput} {raw : Bytes} {k : Nat} {e f : EncRegs} (h : StreamKept e f)
    (hflge : e.cnt ≠ 0 → e.flg < e.stream.length)
    (hf : PointBounded raw k f) (hclear : FlagsClear f) (hi : f.i < x.rev.length) : StreamKept e (encodeItem x f) := by
  obtain ⟨hlength, hgroup, hbyte, hflags⟩ := h
  obtain ⟨hflg, hcnt, -⟩ := encodeItem_counts x f
  have hlt := openGroup_flg_lt hf.flag
  have hopen := (openGroup_spec f).2
  have hgrow := encodeItem_stream_length_ge (x := x) hi
  have hopenFlg := openGroup_flg f
  have hcount := hf.count
  have hnext : (openGroup f).flg = e.flg ∧ e.cnt ≠ 0 ∧ e.cnt ≤ f.cnt ∨ e.stream.length ≤ (openGroup f).flg := by
    by_cases h0 : f.cnt = 0
    · rw [if_pos h0] at hopenFlg
      exact .inr (by omega)
    · rw [if_neg h0] at hopenFlg
      rw [hopenFlg]
      exact hgroup h0
  refine ⟨by omega, fun h0 => ?_, fun j hj hne => ?_, fun h0 b hlo hhi => ?_⟩
  · rw [hflg]
    obtain ⟨heq, hne, hle⟩ | hle := hnext
    · exact .inl ⟨heq, hne, by omega⟩
    · exact .inr hle
  · have hjflg : j ≠ (openGroup f).flg := by
      obtain ⟨heq, hne0, -⟩ | hle := hnext
      · rw [heq]
        exact hne hne0
      · omega
    rw [encodeItem_getD hi (by omega) hjflg, openGroup_getD (by omega), hbyte j hj hne]
  · have hin := hflge h0
    rw [← hflags h0 b hlo hhi, ← openGroup_getD (e := f) (by omega)]
    by_cases heq : e.flg = (openGroup f).flg
    · have hle : e.cnt ≤ f.cnt := by
        obtain ⟨-, -, hle⟩ | hle := hnext <;> omega
      rw [heq, encodeItem_flag hi hcount hclear hlt hhi, if_neg (by omega)]
    · rw [encodeItem_getD hi (by omega) heq]

section Points
variable {x : EncInput} {raw : Bytes} (e : EncRegs) (hrev : x.rev = raw.reverse)
include hrev

theorem scanPoint_flagsClear (k : Nat) : FlagsClear (scanPoint x raw e k) := by
  have h := scanPoint_invariant (x := x) (raw := raw) e (P := fun k e => PointBounded raw k e ∧ FlagsClear e)
    ⟨scanPoint_bounded (x := x) e hrev 0, fun h0 => absurd rfl h0⟩
    (fun _ _ h hlt => ⟨h.1.afterItem hrev hlt, .afterItem (by rw [hrev, List.length_reverse, ← h.1.size]; exact hlt) h.1.count
      h.2 (openGroup_flg_lt h.1.flag)⟩)
    (fun _ _ h hge => ⟨⟨h.1.size, h.1.inside, .inr (by have := h.1.size; have := h.1.inside; omega), h.1.count, h.1.flag⟩,
      h.2⟩) k
  exact h.2

theorem scanPoint_succ_cases (k : Nat) :
    ((scanPoint x raw e k).i < raw.length ∧ scanPoint x raw e (k + 1) = encodeItem x (scanPoint x raw e k)) ∨
      scanPoint x raw e (k + 1) = scanPoint x raw e k := by
  have hn := (scanPoint_bounded (x := x) e hrev k).size
  have hsucc := scan_succ x k (startEncode raw e)
  by_cases hlt : (scanPoint x raw e k).i < raw.length
  · exact .inl ⟨hlt, hsucc.trans (if_pos (hlt.trans_eq hn.symm))⟩
  · exact .inr (hsucc.trans (if_neg (fun h => hlt (h.trans_eq hn))))

theorem scanPoint_streamKept {k m : Nat} (h : k ≤ m) : StreamKept (scanPoint x raw e k) (scanPoint x raw e m) := by
  induction m, h using Nat.le_induction with
  | base => exact .refl _
  | succ m hkm ih =>
    obtain ⟨hlt, heq⟩ | heq := scanPoint_succ_cases e hrev m
    · rw [heq]
      exact ih.afterItem (scanPoint_bounded (x := x) e hrev k).flag (scanPoint_bounded (x := x) e hrev m)
        (scanPoint_flagsClear e hrev m) (by rw [hrev, List.length_reverse]; exact hlt)
    · rw [heq]
      exact ih

theorem scanPoint_i_mono {j k : Nat} (h : j ≤ k) : (scanPoint x raw e j).i ≤ (scanPoint x raw e k).i := by
  induction k, h using Nat.le_induction with
  | base => exact Nat.le_refl _
  | succ k hjk ih =>
    obtain ⟨hlt, heq⟩ | heq := scanPoint_succ_cases e hrev k
    · obtain ⟨-, -, len, -, hi, -, -⟩ := encodeItem_progress (x := x) (e := scanPoint x raw e k)
        (by rw [hrev, List.length_reverse]; exact hlt)
      rw [heq, hi]
      omega
    · rw [heq]
      exact ih

end Points

end Sys2Proof.Machine
end

section
/-! The token loop undoes ENC's scan, point by point (rules R132, R141): the round trips of a compressed-form block. -/

namespace Sys2Proof.Machine

/-- The flags a decoder has left where ENC has emitted `cnt` items of a group. -/
def flagsLeft (cnt : Nat) : Nat := if cnt = 0 then 0 else 8 - cnt

/-- A loop stands next to a point of the scan whose final stream is `tokens`. -/
def AtPoint (tokens : Bytes) (x : EncInput) (E I : Nat) (e : EncRegs) (s : State) : Prop :=
  Mirror tokens x.rev E I e.stream.length (flagsLeft e.cnt) e.flg e.i s

section Item
variable {tokens : Bytes} {x : EncInput} {E I : Nat} {e : EncRegs} {s : State}

/-- The decoder opens the group the encoder opened (rules R128, R171). -/
theorem AtPoint.opens (h : AtPoint tokens x E I e s) (hlen : e.stream.length < E) (hi : e.i < I) :
    ∃ t, Reaches s t ∧
      Mirror tokens x.rev E I (openGroup e).stream.length (8 - e.cnt) (openGroup e).flg e.i t := by
  have hopen := (openGroup_spec e).2
  rw [openGroup_flg]
  by_cases h0 : e.cnt = 0
  · obtain ⟨t, hreach, hmirror⟩ := h.ctrl_turn (by rw [flagsLeft, if_pos h0]) hlen hi
    rw [if_pos h0] at hopen ⊢
    rw [hopen, h0]
    exact ⟨t, hreach, hmirror⟩
  · rw [if_neg h0] at hopen ⊢
    rw [hopen]
    have hmirror : Mirror tokens x.rev E I e.stream.length (flagsLeft e.cnt) e.flg e.i s := h
    rw [flagsLeft, if_neg h0] at hmirror
    exact ⟨s, .refl s, hmirror⟩

theorem flagsLeft_succ {cnt : Nat} (h : cnt < 8) : flagsLeft ((cnt + 1) % 8) = 8 - cnt - 1 := by
  unfold flagsLeft
  split <;> omega

/-- The bytes of an item, in the final stream. -/
theorem StreamKept.item {f : EncRegs} (hkept : StreamKept (encodeItem x e) f) (hi : e.i < x.rev.length) (hcnt : e.cnt < 8)
    (hflg : e.cnt ≠ 0 → e.flg < e.stream.length) (hclear : FlagsClear e) :
    (f.stream.getD (openGroup e).flg 0).getLsbD (8 - e.cnt - 1) = decide (2 < (choose x e).bestLen) ∧
      ∀ j, (openGroup e).stream.length ≤ j → j < (encodeItem x e).stream.length →
        f.stream.getD j 0 = (encodeItem x e).stream.getD j 0 := by
  obtain ⟨hflg', hcnt', -⟩ := encodeItem_counts x e
  have hlt := openGroup_flg_lt hflg
  have hgrow := encodeItem_stream_length_ge (x := x) hi
  have hbit := encodeItem_flag hi hcnt hclear hlt (b := 8 - e.cnt - 1) (by omega)
  rw [if_pos (by omega)] at hbit
  refine ⟨?_, fun j hlo hhi => hkept.byte j hhi fun _ => by omega⟩
  rw [← hbit, ← hflg']
  by_cases h7 : (encodeItem x e).cnt = 0
  · rw [hkept.byte _ (by omega) fun h => absurd h7 h]
  · exact hkept.flags h7 _ (by omega) (by omega)

/-- The two bytes of a match hold its fields (rules R84, R86). -/
theorem encodeItem_word (hmatch : 2 < (choose x e).bestLen) (hlen : (choose x e).bestLen ≤ 18)
    (hoff : (choose x e).bestOff ≤ 4098) :
    ((encodeItem x e).stream.getD (openGroup e).stream.length 0).toNat * 256 +
        ((encodeItem x e).stream.getD ((openGroup e).stream.length + 1) 0).toNat =
      ((choose x e).bestLen - 3) * 4096 + ((choose x e).bestOff - 3) := by
  rw [(encodeItem_of_match hmatch).2, refStream_eq, List.getD_append_right _ _ _ _ (by rw [List.length_modify]),
    List.getD_append_right _ _ _ _ (by rw [List.length_modify]; exact Nat.le_add_right _ 1), List.length_modify, Nat.sub_self,
    Nat.add_sub_cancel_left]
  simp only [List.getD_cons_zero, List.getD_cons_succ, BitVec.toNat_ofNat]
  omega

/-- One item of the scan, decoded. -/
theorem AtPoint.afterItem {f : EncRegs} (h : AtPoint f.stream x E I e s) (hkept : StreamKept (encodeItem x e) f)
    (hx : e.i < x.rev.length) (hcnt : e.cnt < 8) (hflg : e.cnt ≠ 0 → e.flg < e.stream.length) (hclear : FlagsClear e)
    (hE : (encodeItem x e).stream.length ≤ E) (hI : (encodeItem x e).i ≤ I)
    (hroom : E - (encodeItem x e).stream.length ≤ I - (encodeItem x e).i) :
    ∃ t, Reaches s t ∧ AtPoint f.stream x E I (encodeItem x e) t := by
  obtain ⟨hbit, hbytes⟩ := hkept.item hx hcnt hflg hclear
  obtain ⟨hflg', hcnt', -⟩ := encodeItem_counts x e
  have hgrow := encodeItem_stream_length_ge (x := x) hx
  have hopen := (openGroup_spec e).2
  obtain ⟨-, -, n, hn, hin, -, -⟩ := encodeItem_progress (x := x) hx
  obtain ⟨s1, hreach, hs1⟩ := h.opens (by omega) (by omega)
  have hleft : flagsLeft (encodeItem x e).cnt = 8 - e.cnt - 1 := by rw [hcnt', flagsLeft_succ hcnt]
  unfold AtPoint
  rw [hleft, hflg']
  by_cases hmatch : 2 < (choose x e).bestLen
  · rw [decide_eq_true hmatch] at hbit
    obtain ⟨hpos, hstream⟩ := encodeItem_of_match hmatch
    obtain ⟨⟨hmax, -, -, hsame⟩, hoff3, hoffMax, hback⟩ := choose_match (Nat.le_of_lt hx) hmatch
    have hlen : (encodeItem x e).stream.length = (openGroup e).stream.length + 2 := by
      rw [hstream]
      simp [refStream]
    have hword := encodeItem_word hmatch (by omega) (by omega)
    rw [← hbytes _ (Nat.le_refl _) (by omega), ← hbytes _ (Nat.le_add_right _ 1) (by omega)] at hword
    rw [hpos, hlen] at hroom ⊢
    obtain ⟨t, hreach', ht⟩ := hs1.ref_turn (by omega) (by omega) hbit (by omega) (n := (choose x e).bestLen) (by omega)
      (by omega) hoff3 hback hword (by omega) hsame hroom
    exact ⟨t, hreach.trans hreach', ht⟩
  · rw [decide_eq_false hmatch] at hbit
    obtain ⟨hpos, hstream⟩ := encodeItem_of_literal hmatch hx
    have hlen : (encodeItem x e).stream.length = (openGroup e).stream.length + 1 := by
      rw [hstream]
      simp
    have hbyte : x.rev[e.i]? = some (f.stream.getD (openGroup e).stream.length 0) := by
      rw [hbytes _ (Nat.le_refl _) (by omega), hstream, List.getD_append_right _ _ _ _ (Nat.le_refl _), Nat.sub_self]
      exact List.getElem?_eq_getElem hx
    rw [hpos, hlen] at hroom ⊢
    obtain ⟨t, hreach', ht⟩ := hs1.lit_turn (by omega) (by omega) hbit (by omega) (by omega) hbyte hroom
    exact ⟨t, hreach.trans hreach', ht⟩

end Item

/-- Where no flags are left it does not matter where the last control byte stands. -/
theorem Mirror.without_flags {tokens rev : Bytes} {E I len flg flg' i : Nat} {s : State}
    (h : Mirror tokens rev E I len 0 flg i s) : Mirror tokens rev E I len 0 flg' i s :=
  ⟨h.wf, h.inside, h.outLen, h.r, h.w, h.flags, fun h0 => absurd rfl h0, h.unread, h.written⟩

/-- The final stream, up to the best point, decodes to the data passed there (rules R132, R141). -/
theorem decodes_bestPoint {x : EncInput} {raw : Bytes} (e : EncRegs) (hrev : x.rev = raw.reverse) {k : Nat}
    (hbest : BestPoint x raw e raw.length k) :
    Decodes (scanPoint x raw e raw.length).stream raw.reverse (scanPoint x raw e k).stream.length (scanPoint x raw e k).i := by
  intro s hs
  have hall : ∀ j, j ≤ k → ∃ t, Reaches s t ∧ AtPoint (scanPoint x raw e raw.length).stream x
      (scanPoint x raw e k).stream.length (scanPoint x raw e k).i (scanPoint x raw e j) t := by
    intro j
    induction j with
    | zero =>
      refine fun _ => ⟨s, .refl s, ?_⟩
      unfold AtPoint
      rw [hrev]
      exact hs.without_flags
    | succ j ih =>
      intro hj
      obtain ⟨t, hreach, ht⟩ := ih (Nat.le_of_succ_le hj)
      obtain ⟨hlt, heq⟩ | heq := scanPoint_succ_cases e hrev j
      · have hbounded := scanPoint_bounded (x := x) e hrev j
        have hmono := scanPoint_stream_length_mono e hrev hj
        have himono := scanPoint_i_mono e hrev hj
        have hinside := (scanPoint_bounded (x := x) e hrev k).inside
        have hsum : pointSum x raw e k ≤ pointSum x raw e (j + 1) := hbest.least _ (Nat.le_trans hj hbest.le)
        have hkept := scanPoint_streamKept e hrev (Nat.le_trans hj hbest.le)
        unfold pointSum at hsum
        rw [heq] at hmono himono hkept hsum ⊢
        obtain ⟨u, hreach', hu⟩ := ht.afterItem hkept (by rw [hrev, List.length_reverse]; exact hlt) hbounded.count
          hbounded.flag (scanPoint_flagsClear e hrev j) hmono himono (by omega)
        exact ⟨u, hreach.trans hreach', hu⟩
      · rw [heq]
        exact ⟨t, hreach, ht⟩
  obtain ⟨t, hreach, ht⟩ := hall k (Nat.le_refl k)
  rw [AtPoint, hrev] at ht
  exact ⟨t, _, _, _, hreach, ht⟩

end Sys2Proof.Machine
end

section
/-! Blocks given by their bytes, and what the decoders make of them: the round trips (rules R139, R141) and the shape of
rule R194. -/

namespace Sys2Proof.Machine

/-! ### Buffers by their bytes -/

theorem read_of_slice {b : Buffer} {n : Nat} {l : Bytes} (h : b.slice 0 n = some l) {i k : Nat} (hi : i + k ≤ n) :
    b.read i k = (Buffer.ofBytes l).read i k := by
  have hlen : l.length = n := by
    unfold Buffer.slice at h
    split at h <;> cases h
    exact cellsSlice_length ..
  refine congrArg leNat (cellsSlice_congr fun j _ hj => ?_)
  exact cellsGet_of_slices h ((HoldsAt.self l).slice hlen.symm) (by omega)

theorem cellsGet_of_slice {b : Buffer} {n : Nat} {l : Bytes} (h : b.slice 0 n = some l) {i : Nat} (hi : i < l.length) :
    cellsGet b.cells i = l[i] := by
  unfold Buffer.slice at h
  split at h <;> cases h
  rw [cellsSlice_getElem, Nat.zero_add]

theorem get_of_slice {b : Buffer} {n : Nat} {l : Bytes} (h : b.slice 0 n = some l) {i : Nat} (hi : i < l.length) :
    b.get i = l[i]? := by
  have hcells := cellsGet_of_slice h hi
  have hlen : i < b.len := by
    unfold Buffer.slice at h
    split at h <;> cases h
    rw [cellsSlice_length] at hi
    omega
  rw [Buffer.get, if_pos hlen, hcells, List.getElem?_eq_getElem hi]

/-- A buffer that reads as a byte sequence has it as its slice. -/
theorem slice_of_get {b : Buffer} {l : Bytes} (h : ∀ i, i < l.length → b.get i = l[i]?) :
    b.slice 0 l.length = some l := by
  have hlen : l.length ≤ b.len := by
    refine Nat.le_of_not_lt fun hlt => ?_
    have hget := h b.len hlt
    rw [Buffer.get, if_neg (Nat.lt_irrefl _), List.getElem?_eq_getElem hlt] at hget
    cases hget
  rw [Buffer.slice_eq (by omega)]
  refine congrArg some (List.ext_getElem (cellsSlice_length ..) fun i _ hi => ?_)
  have hget := h i hi
  rw [Buffer.get, if_pos (Nat.lt_of_lt_of_le hi hlen), List.getElem?_eq_getElem hi] at hget
  rw [cellsSlice_getElem, Nat.zero_add]
  exact Option.some.inj hget

theorem toBytes_of_get {b : Buffer} {l : Bytes} (hlen : b.len = l.length) (h : ∀ i, i < l.length → b.get i = l[i]?) :
    b.toBytes = l := by
  have hslice := slice_of_get h
  rw [← hlen, Buffer.slice_eq (by omega)] at hslice
  exact Option.some.inj hslice

/-! ### A block by its bytes -/

theorem leNat_leBytes_of_lt {v : Nat} (h : v < 2 ^ 32) : leNat (leBytes 4 v) = v := by
  rw [leNat_leBytes]
  exact Nat.mod_eq_of_lt h

/-- Raw bytes, the encoded region, padding and a footer are a block whose tokens are the region's bytes downward. -/
theorem tokenBlock_of_bytes {s : State} {low region tokens : Bytes} {pad extra : Nat}
    (hslice : (blockBuf s).slice 0 (blockLen s) = some (low ++ region ++ List.replicate pad Config.padByte
      ++ leBytes 4 (region.length + 12 + pad) ++ leBytes 4 (12 + pad) ++ leBytes 4 extra))
    (htokens : ∀ j, j < region.length → region[region.length - 1 - j]? = some (tokens.getD j 0))
    (hsize : region.length + 12 + pad < 2 ^ 32) (hextra : extra < 2 ^ 32) (hhdr : 12 + pad ≤ s.cmd.hdrMax)
    (hmax : ∀ m, s.cmd.maxLen = some m → blockLen s + extra < m) :
    TokenBlock s tokens low.length region.length (region.length + 12 + pad + extra) := by
  generalize hl : low ++ region ++ List.replicate pad Config.padByte ++ leBytes 4 (region.length + 12 + pad)
    ++ leBytes 4 (12 + pad) ++ leBytes 4 extra = l at hslice
  have hlen : blockLen s = low.length + region.length + pad + 12 := by
    have hsliceLen : l.length = blockLen s := by
      unfold Buffer.slice at hslice
      split at hslice <;> cases hslice
      exact cellsSlice_length ..
    rw [← hsliceLen, ← hl]
    simp only [List.length_append, List.length_replicate, leBytes_length]
  have hword {v a : Nat} {p q : Bytes} (hv : v < 2 ^ 32) (hp : l = p ++ leBytes 4 v ++ q) (ha : p.length = a)
      (hfits : a + 4 ≤ blockLen s) : (blockBuf s).read a 4 = v := by
    rw [read_of_slice hslice hfits, HoldsAt.read ⟨p, q, hp, ha⟩ (leBytes_length _ _).symm, leNat_leBytes_of_lt hv]
  have htotal : (blockBuf s).read (blockLen s - 12) 4 = region.length + 12 + pad :=
    hword (p := low ++ region ++ List.replicate pad Config.padByte) (q := leBytes 4 (12 + pad) ++ leBytes 4 extra) hsize
      (by rw [← hl]; simp only [List.append_assoc]) (by simp; omega) (by omega)
  have hhdrLen : (blockBuf s).read (blockLen s - 8) 4 = 12 + pad :=
    hword (p := low ++ region ++ List.replicate pad Config.padByte ++ leBytes 4 (region.length + 12 + pad))
      (q := leBytes 4 extra) (by omega) (by rw [← hl]) (by simp [leBytes_length]; omega) (by omega)
  have hextraSize : (blockBuf s).read (blockLen s - 4) 4 = extra :=
    hword (p := low ++ region ++ List.replicate pad Config.padByte ++ leBytes 4 (region.length + 12 + pad)
      ++ leBytes 4 (12 + pad)) (q := []) hextra (by rw [← hl, List.append_nil]) (by simp [leBytes_length]; omega) (by omega)
  refine ⟨⟨by omega, by omega, by omega, by omega, by omega, by omega, fun m hm => ?_⟩, by omega, by omega, by omega,
    fun j hj => ?_⟩
  · rw [hextraSize]
    exact hmax m hm
  · have hin : low.length + (region.length - 1 - j) < l.length := by
      rw [← hl]
      simp only [List.length_append]
      omega
    have hget : l[low.length + (region.length - 1 - j)]? = region[region.length - 1 - j]? := by
      rw [← hl]
      simp only [List.append_assoc]
      rw [List.getElem?_append_right (Nat.le_add_right _ _), Nat.add_sub_cancel_left,
        List.getElem?_append_left (by omega)]
    rw [cellsGet_of_slice hslice hin]
    rw [List.getElem?_eq_getElem hin, htokens j hj] at hget
    exact Option.some.inj hget

/-- The encoded region of a block is its stream upside down. -/
theorem reverse_take_getElem? {l : Bytes} {n j : Nat} (hn : n ≤ l.length) (hj : j < n) :
    (l.take n).reverse[n - 1 - j]? = some (l.getD j 0) := by
  have hlen : (l.take n).length = n := by rw [List.length_take]; omega
  rw [List.getElem?_reverse (by omega), hlen, show n - 1 - (n - 1 - j) = j by omega, List.getElem?_take_of_lt hj,
    List.getD_eq_getElem?_getD, List.getElem?_eq_getElem (by omega)]
  rfl

/-! ### The block ENC makes -/

section Compressed
variable {raw : Bytes} {best : Bool} {s : State}

/-- A compressed-form block is one whose tokens decode to the data its raw bytes leave out (rules R139, R141). -/
theorem compressedBlock_tokens {u : State}
    (hform : ¬ ((encodeRegs raw best s).pakBest = 0 ∨ (encodeRegs raw best s).n < compressedLen (encodeRegs raw best s)))
    (hn : raw.length < 2 ^ 32)
    (hslice : (blockBuf u).slice 0 (blockLen u) = some (compressedBlock raw (encodeRegs raw best s)))
    (hhdr : 15 ≤ u.cmd.hdrMax) (hmax : ∀ m, u.cmd.maxLen = some m → raw.length < m) :
    ∃ E I, TokenBlock u (encodeRegs raw best s).stream (encodeRegs raw best s).rawBest E I ∧
      Decodes (encodeRegs raw best s).stream raw.reverse E I ∧ (encodeRegs raw best s).rawBest + I = raw.length := by
  have hrev : (encInput raw best s).rev = raw.reverse := rfl
  obtain ⟨k, hbest⟩ := exists_bestPoint (freeEnc s.free) hrev raw.length
  have hdecodes := decodes_bestPoint (freeEnc s.free) hrev hbest
  have hinside := (scanPoint_bounded (freeEnc s.free) hrev k).inside
  have hpak := hbest.pak
  have hraws := hbest.raws
  rw [← encodeRegs_eq_scanPoint] at hdecodes hpak hraws
  obtain ⟨hpakLe, hrawLe⟩ := encodeRegs_best_le raw best s
  have hsize := (encodeRegs_bounded raw best s).1
  rw [compressedBlock_eq] at hslice
  generalize encodeRegs raw best s = e at *
  have hregion : ((e.stream.take e.pakBest).reverse).length = e.pakBest := by
    rw [List.length_reverse, List.length_take]
    omega
  have hlow : (raw.take e.rawBest).length = e.rawBest := by
    rw [List.length_take]
    omega
  have hC : compressedLen e = e.rawBest + e.pakBest + padOf e + 12 := rfl
  have hpad : padOf e ≤ 3 := by
    have halign := (align4_spec (e.rawBest + e.pakBest)).2.1
    unfold padOf
    omega
  have hblockLen : blockLen u = compressedLen e := by
    rw [← compressedBlock_length hrawLe hpakLe, compressedBlock_eq]
    unfold Buffer.slice at hslice
    split at hslice
    case isFalse => cases hslice
    rw [← Option.some.inj hslice, cellsSlice_length]
  have hblock := tokenBlock_of_bytes (s := u) (low := raw.take e.rawBest) (region := (e.stream.take e.pakBest).reverse)
    (tokens := e.stream) (pad := padOf e) (extra := e.n - compressedLen e) (by rw [hregion]; exact hslice)
    (fun j hj => by
      rw [hregion] at hj ⊢
      exact reverse_take_getElem? hpakLe hj)
    (by omega) (by omega) (by omega) (fun m hm => by
      have := hmax m hm
      omega)
  rw [hregion, hlow] at hblock
  refine ⟨_, _, hblock, ?_, by omega⟩
  rw [← hpak] at hdecodes
  have hI : (scanPoint (encInput raw best s) raw (freeEnc s.free) k).i = e.pakBest + 12 + padOf e + (e.n - compressedLen e) := by
    omega
  rw [← hI]
  exact hdecodes

/-- The raw bytes kept and the decoded bytes are the data. -/
theorem data_of_halves {n : BufName} {t : State} {P I : Nat} (hn : P + I = raw.length)
    (hlow : ∀ i, i < P → t.readByte n i = raw[i]?)
    (hhigh : ∀ j, j < I → t.readByte n (P + (I - 1 - j)) = raw.reverse[j]?) (i : Nat) (hi : i < raw.length) :
    t.readByte n i = raw[i]? := by
  by_cases hiP : i < P
  · exact hlow i hiP
  · have hpos : P + (I - 1 - (raw.length - 1 - i)) = i := by omega
    have h := hhigh (raw.length - 1 - i) (by omega)
    rw [hpos, List.getElem?_reverse (by omega)] at h
    rw [h]
    congr 1
    omega

theorem compressedBlock_low {e : EncRegs} (hraw : e.rawBest ≤ raw.length) {i : Nat} (hi : i < e.rawBest) :
    (compressedBlock raw e)[i]? = raw[i]? := by
  rw [compressedBlock_eq]
  simp only [List.append_assoc]
  rw [List.getElem?_append_left (by rw [List.length_take]; omega), List.getElem?_take_of_lt hi]

theorem compressedBlock_low_lt {e : EncRegs} (hraw : e.rawBest ≤ raw.length) {i : Nat} (hi : i < e.rawBest) :
    i < (compressedBlock raw e).length := by
  rw [compressedBlock_eq]
  simp only [List.length_append, List.length_take]
  omega

end Compressed

/-- What `BLZ.COMPRESS` leaves where it reports the compressed form. -/
theorem blzCompress_compressed {s t : State} (h : exec .blzCompress s = .next t) (hform : t.status.form = .compressed) :
    ¬ ((encodeRegs s.mem.inp.toBytes s.cmd.best (startCommand .blzCompress s)).pakBest = 0 ∨
        (encodeRegs s.mem.inp.toBytes s.cmd.best (startCommand .blzCompress s)).n <
          compressedLen (encodeRegs s.mem.inp.toBytes s.cmd.best (startCommand .blzCompress s))) ∧
      t.mem.out = Buffer.ofBytes (compressedBlock s.mem.inp.toBytes
        (encodeRegs s.mem.inp.toBytes s.cmd.best (startCommand .blzCompress s))) := by
  have hchoice := compressed_of_form ((blzCompress_next h).1.symm.trans hform)
  refine ⟨hchoice, ?_⟩
  rw [← (finishEncode_compressed hchoice).2]
  rw [exec_blzCompress_eq] at h
  cases hfits : encodeFits s.mem.inp.toBytes s.cmd.best (startCommand .blzCompress s) with
  | false =>
    rw [(compressInto_spec _ _ _).1 hfits] at h
    cases h
  | true =>
    rw [(compressInto_spec _ _ _).2 hfits] at h
    cases h
    rfl

/-- Settles O47: the tokens of the block decode to the data its raw bytes leave out (`compressedBlock_tokens`). -/
theorem compressThenStrictDecode : Obligations.CompressThenStrictDecode := by
  intro s t u hn hexec hform hinp hhdr hmax
  obtain ⟨hchoice, hout⟩ := blzCompress_compressed hexec hform
  have hrawLe := (encodeRegs_best_le s.mem.inp.toBytes s.cmd.best (startCommand .blzCompress s)).2
  rw [← Buffer.toBytes_length] at hn hmax
  rw [hout] at hinp
  have hslice : (blockBuf (startCommand .blzDecompressS u)).slice 0 (blockLen (startCommand .blzDecompressS u)) = some
      (compressedBlock s.mem.inp.toBytes (encodeRegs s.mem.inp.toBytes s.cmd.best (startCommand .blzCompress s))) := by
    show u.mem.inp.slice 0 u.mem.inp.len = _
    rw [hinp]
    exact (HoldsAt.self _).slice rfl
  obtain ⟨E, I, hblock, hdecodes, hend⟩ := compressedBlock_tokens hchoice hn hslice hhdr hmax
  obtain ⟨v, hv, herr, -, -, hlen, hlow, hhigh⟩ := decompressS_of_tokens_any (hinp ▸ Buffer.ofBytes_wf _) hblock hdecodes
  refine ⟨v, hv, herr, toBytes_of_get (hlen.trans hend) fun i hi => ?_⟩
  refine data_of_halves hend (fun i hi => ?_) hhigh i hi
  have hi' := compressedBlock_low_lt hrawLe hi
  rw [hlow i hi, ← compressedBlock_low hrawLe hi, List.getElem?_eq_getElem hi', ← cellsGet_of_slice hslice hi']
  rfl

/-- Settles O48: the same tokens, decoded in place. -/
theorem compressThenInPlaceDecode : Obligations.CompressThenInPlaceDecode := by
  intro s t u hn hexec hform hwf hlen hcap hroom hslice hhdr hmax
  obtain ⟨hchoice, hout⟩ := blzCompress_compressed hexec hform
  have hrawLe := (encodeRegs_best_le s.mem.inp.toBytes s.cmd.best (startCommand .blzCompress s)).2
  have hbounds := compressedFormBounds.1 s t hexec hform
  rw [hout, Buffer.toBytes_ofBytes] at hslice
  rw [← Buffer.toBytes_length] at hn hmax hcap hroom
  have hfits : u.cmd.n ≤ u.cmd.cap := by
    rw [hlen, hcap, Buffer.toBytes_length]
    exact hbounds.2.2.1
  obtain ⟨E, I, hblock, hdecodes, hend⟩ := compressedBlock_tokens (u := startCommand .blzDecompressP u) hchoice hn hslice
    hhdr hmax
  obtain ⟨v, hv, herr, -, -, hlow, hhigh⟩ := decompressP_of_tokens hwf hfits (hcap ▸ hroom)
    (fun m hm => hcap ▸ hmax m hm) hblock hdecodes (by rw [hend, hcap])
  have hsame : ∀ i, i < s.mem.inp.toBytes.length → v.readByte .m i = s.mem.inp.toBytes[i]? := by
    refine data_of_halves hend (fun i hi => ?_) hhigh
    have hi' := compressedBlock_low_lt hrawLe hi
    rw [hlow i (.inl hi), ← compressedBlock_low hrawLe hi]
    exact get_of_slice hslice hi'
  refine ⟨v, hv, herr, ?_⟩
  rw [← Buffer.toBytes_length s.mem.inp]
  exact slice_of_get hsame

end Sys2Proof.Machine
end

section
/-! The shape of rule R194: a control byte 0x18, three literals, two references three bytes back. -/

namespace Sys2Proof.Machine

/-- The tokens of the shape, in stream order. -/
def repeatTokens (a b c : Byte) (l : BitVec 4) : Bytes :=
  ([Instr.ctrl 0x18, .lit c, .lit b, .lit a, .ref 15 0, .ref l 0].reverse.flatMap encode).reverse

/-- The output of the shape, from its last byte downward. -/
def repeated (a b c : Byte) (n : Nat) : Bytes :=
  (List.range n).map fun j => if j % 3 = 0 then c else if j % 3 = 1 then b else a

theorem repeated_getElem? {a b c : Byte} {n j : Nat} (hj : j < n) :
    (repeated a b c n)[j]? = some (if j % 3 = 0 then c else if j % 3 = 1 then b else a) := by
  simp [repeated, hj]

theorem repeated_period {a b c : Byte} {n j : Nat} (h3 : 3 ≤ j) (hj : j < n) :
    (repeated a b c n)[j]? = (repeated a b c n)[j - 3]? := by
  have hmod : (j - 3) % 3 = j % 3 := by omega
  rw [repeated_getElem? hj, repeated_getElem? (by omega), hmod]

theorem repeatTokens_eq (a b c : Byte) (l : BitVec 4) :
    repeatTokens a b c l = [0x18, c, b, a, 0xF0, 0x00, BitVec.ofNat 8 (l.toNat * 16), 0x00] := by
  have hl := l.isLt
  have hhigh : l.toNat * 4096 / 256 = l.toNat * 16 := by omega
  have hlow : BitVec.ofNat 8 (l.toNat * 4096) = 0#8 := BitVec.eq_of_toNat_eq (by
    rw [BitVec.toNat_ofNat, BitVec.toNat_ofNat]
    omega)
  simp [repeatTokens, encode, refWord, leBytes, hhigh, hlow]


/-- The shape decodes to the three bytes repeated. -/
theorem repeatTokens_decodes (a b c : Byte) (l : BitVec 4) :
    Decodes (repeatTokens a b c l) (repeated a b c (24 + l.toNat)) 8 (24 + l.toNat) := by
  intro s h
  have hl := l.isLt
  rw [repeatTokens_eq] at h ⊢
  have hc : (repeated a b c (24 + l.toNat))[0]? = some c := repeated_getElem? (by omega)
  have hb : (repeated a b c (24 + l.toNat))[1]? = some b := repeated_getElem? (by omega)
  have ha : (repeated a b c (24 + l.toNat))[2]? = some a := repeated_getElem? (by omega)
  have hflag (k : Nat) : ([0x18, c, b, a, 0xF0, 0x00, BitVec.ofNat 8 (l.toNat * 16), 0x00].getD 0 0 : Byte).getLsbD k =
      (0x18#8).getLsbD k := rfl
  have hword : (BitVec.ofNat 8 (l.toNat * 16)).toNat * 256 + (0x00#8).toNat = (l.toNat + 3 - 3) * 4096 + (3 - 3) := by
    rw [BitVec.toNat_ofNat, BitVec.toNat_ofNat]
    omega
  obtain ⟨s1, h1, m1⟩ := h.ctrl_turn rfl (by omega) (by omega)
  obtain ⟨s2, h2, m2⟩ := m1.lit_turn (by omega) (by omega) ((hflag _).trans (by decide)) (by omega) (by omega) hc (by omega)
  obtain ⟨s3, h3, m3⟩ := m2.lit_turn (by omega) (by omega) ((hflag _).trans (by decide)) (by omega) (by omega) hb (by omega)
  obtain ⟨s4, h4, m4⟩ := m3.lit_turn (by omega) (by omega) ((hflag _).trans (by decide)) (by omega) (by omega) ha (by omega)
  obtain ⟨s5, h5, m5⟩ := m4.ref_turn (n := 18) (off := 3) (by omega) (by omega) ((hflag _).trans (by decide)) (by omega) (by omega) (by omega)
    (by omega) (by omega) (show (0xF0#8).toNat * 256 + (0x00#8).toNat = (18 - 3) * 4096 + (3 - 3) by decide) (by omega) (fun m hm => repeated_period (by omega) (by omega)) (by omega)
  obtain ⟨s6, h6, m6⟩ := m5.ref_turn (n := l.toNat + 3) (off := 3) (by omega) (by omega) ((hflag _).trans (by decide)) (by omega) (by omega) (by omega)
    (by omega) (by omega) hword (by omega) (fun m hm => repeated_period (by omega) (by omega)) (by omega)
  have hend : 0 + 1 + 1 + 1 + 18 + (l.toNat + 3) = 24 + l.toNat := by omega
  rw [hend] at m6
  exact ⟨s6, _, _, _, h1.trans (h2.trans (h3.trans (h4.trans (h5.trans h6)))), m6⟩

theorem assemble_repeats (raw : Bytes) (a b c : Byte) (l : BitVec 4) (extra : Nat) :
    assemble raw [.ctrl 0x18, .lit c, .lit b, .lit a, .ref 15 0, .ref l 0] 0 20 12 extra =
      raw ++ (repeatTokens a b c l).reverse ++ List.replicate 0 Config.padByte ++ leBytes 4 20 ++ leBytes 4 12
        ++ leBytes 4 extra := by
  simp only [assemble, flatMap_encode_footerItems, leBytes_ofNat_word, repeatTokens, List.reverse_reverse,
    List.append_assoc]

/-- A block of the shape. -/
theorem repeats_block {raw : Bytes} {a b c : Byte} {l : BitVec 4} {s : State}
    (hslice : (blockBuf s).slice 0 (blockLen s) = some
      (assemble raw [.ctrl 0x18, .lit c, .lit b, .lit a, .ref 15 0, .ref l 0] 0 20 12 (l.toNat + 4)))
    (hhdr : 12 ≤ s.cmd.hdrMax) (hmax : s.cmd.maxLen = none) :
    TokenBlock s (repeatTokens a b c l) raw.length 8 (24 + l.toNat) := by
  have hl := l.isLt
  have hlen : (repeatTokens a b c l).length = 8 := by rw [repeatTokens_eq]; rfl
  have hlen' : (repeatTokens a b c l).reverse.length = 8 := by rw [List.length_reverse, hlen]
  rw [assemble_repeats] at hslice
  have hblock := tokenBlock_of_bytes (s := s) (low := raw) (region := (repeatTokens a b c l).reverse)
    (tokens := repeatTokens a b c l) (pad := 0) (extra := l.toNat + 4) (by rw [hlen']; exact hslice)
    (fun j hj => by
      rw [hlen'] at hj ⊢
      have hbyte := reverse_take_getElem? (l := repeatTokens a b c l) (n := 8) hlen.ge hj
      rwa [List.take_of_length_le hlen.le] at hbyte)
    (by omega) (by omega) hhdr (fun m hm => by rw [hmax] at hm; cases hm)
  have hI : (repeatTokens a b c l).reverse.length + 12 + 0 + (l.toNat + 4) = 24 + l.toNat := by omega
  rwa [hI, hlen'] at hblock

theorem take_toBytes_of_slice {b : Buffer} {l : Bytes} (h : b.slice 0 l.length = some l) : b.toBytes.take l.length = l := by
  have hle : l.length ≤ b.len := by
    unfold Buffer.slice at h
    split at h
    · omega
    · cases h
  rw [Buffer.slice_eq (by omega)] at h
  rw [Buffer.toBytes, ← Nat.add_sub_of_le hle, cellsSlice_add, Option.some.inj h, List.take_left]

/-- Settles O30: the shape's tokens decode to the three bytes repeated (`repeatTokens_decodes`). -/
theorem strictDecodeOfRepeats : Obligations.StrictDecodeOfRepeats := by
  intro raw a b c l s hhdr hmax hinp
  have hslice : (blockBuf (startCommand .blzDecompressS s)).slice 0 (blockLen (startCommand .blzDecompressS s)) = some
      (assemble raw [.ctrl 0x18, .lit c, .lit b, .lit a, .ref 15 0, .ref l 0] 0 20 12 (l.toNat + 4)) := by
    show s.mem.inp.slice 0 s.mem.inp.len = _
    rw [hinp]
    exact (HoldsAt.self _).slice rfl
  obtain ⟨t, hexec, herr, hdeg, houtLen, hlen, hlow, hhigh⟩ := decompressS_of_tokens_any (hinp ▸ Buffer.ofBytes_wf _)
    (repeats_block hslice hhdr hmax) (repeatTokens_decodes a b c l)
  have hend := commandEnd_of_next (op := .blzDecompressS) hexec
  refine ⟨t, hexec, herr, hdeg, houtLen.trans (Nat.add_assoc ..).symm, hend.inp, hend.m nofun,
    (hend.run (.inl rfl)).trans (if_pos herr), ?_, hlen.trans (Nat.add_assoc ..).symm, fun j hj => ?_⟩
  · refine take_toBytes_of_slice (slice_of_get fun i hi => (hlow i hi).trans ?_)
    have hcells := cellsGet_of_slice hslice (i := i) (by
      rw [assemble_repeats]
      simp only [List.length_append]
      omega)
    rw [List.getElem?_eq_getElem hi]
    refine congrArg some (hcells.trans ?_)
    simp only [assemble_repeats, List.append_assoc]
    exact List.getElem_append_left hi
  · have hpos : 23 + l.toNat - j = 24 + l.toNat - 1 - j := by omega
    rw [hpos, hhigh j hj, repeated_getElem? hj]

/-- Settles O31: the same tokens, decoded in place. -/
theorem inPlaceDecodeOfRepeats : Obligations.InPlaceDecodeOfRepeats := by
  intro raw a b c l s hwf hhdr hmax hn hroom hcap hslice
  have hblock := repeats_block (s := startCommand .blzDecompressP s) hslice hhdr hmax
  obtain ⟨t, hexec, herr, hdeg, houtLen, hframe, hhigh⟩ := decompressP_of_tokens hwf (by omega) hcap
    (fun m hm => by rw [hmax] at hm; cases hm) hblock (repeatTokens_decodes a b c l) (by omega)
  have hend := commandEnd_of_next (op := .blzDecompressP) hexec
  refine ⟨t, hexec, herr, hdeg, houtLen.trans (Nat.add_assoc ..).symm, hend.inp, hend.out (.inr (.inl rfl)) herr,
    (hend.run (.inr rfl)).trans (if_pos herr), fun i hi => hframe i (by omega), fun j hj => ?_⟩
  have hpos : 23 + l.toNat - j = 24 + l.toNat - 1 - j := by omega
  rw [hpos, hhigh j hj, repeated_getElem? hj]

end Sys2Proof.Machine
end

section
/-! The container's round trips (rules R226, R227): the file `KIP.SERIALIZE` writes and `KIP.PARSE` reads. -/

namespace Sys2Proof.Machine

/-! ### Where the parts of a file stand (rules R103, R203, R221) -/

/-- A member of a sequence of byte sequences stands behind those before it. -/
theorem holdsAt_flatten (L : List Bytes) {i : Nat} (hi : i < L.length) :
    HoldsAt L.flatten ((L.take i).map List.length).sum L[i] := by
  refine ⟨(L.take i).flatten, (L.drop (i + 1)).flatten, ?_, List.length_flatten⟩
  rw [List.append_assoc, ← List.flatten_cons, ← List.drop_eq_getElem_cons hi, ← List.flatten_append, List.take_append_drop]

/-- The header tells each segment's stored length (rule R215). -/
def SizesMatch (k : KipRegs) : Prop := ∀ j : Fin 6, (k.hdr.seg[j]).compressedSize.toNat = (k.stored[j]).length

section File
variable {k : KipRegs} (h : SizesMatch k)
include h

theorem segStart_of_sizes (i : Nat) : segStart k.hdr i = 256 + ((k.stored.toList.take i).map List.length).sum := by
  have hlists : k.hdr.seg.toList.map (fun d => d.compressedSize.toNat) = k.stored.toList.map List.length := by
    refine List.ext_getElem (by simp) fun j hj _ => ?_
    have hj' : j < 6 := by simpa using hj
    simpa using h ⟨j, hj'⟩
  rw [segStart, List.map_take, hlists, ← List.map_take]

theorem holdsAt_fileBytes_segment (i : Fin 6) : HoldsAt (fileBytes k) (segStart k.hdr i.val) k.stored[i] := by
  have hi : i.val < k.stored.toList.length := by simp
  have hsegment := ((holdsAt_flatten k.stored.toList hi).append_left (headerBytes k.hdr)).append_right k.trailing
  rw [segStart_of_sizes h, ← headerBytes_length k.hdr]
  simpa [fileBytes] using hsegment

theorem holdsAt_fileBytes_trailing : HoldsAt (fileBytes k) (segStart k.hdr 6) k.trailing := by
  refine ⟨headerBytes k.hdr ++ k.stored.toList.flatten, [], by simp [fileBytes], ?_⟩
  have hall : k.stored.toList.take 6 = k.stored.toList := List.take_of_length_le (by simp)
  rw [segStart_of_sizes h, hall, List.length_append, headerBytes_length, List.length_flatten]

theorem fileBytes_length_of_sizes : (fileBytes k).length = segStart k.hdr 6 + k.trailing.length := by
  have hall : k.stored.toList.take 6 = k.stored.toList := List.take_of_length_le (by simp)
  rw [fileBytes_length, segStart_of_sizes h, hall]

end File

/-! ### A segment stored compressed (rules R212, R227) -/

/-- A block shorter than the data is in compressed form (rules R135, R138). -/
theorem compressed_of_shorter {s u : State} (h : exec .blzCompress s = .next u) (hlt : u.mem.out.len < s.mem.inp.len) :
    u.status.form = .compressed := by
  obtain ⟨hform, -, hout, -⟩ := blzCompress_next h
  rw [hform]
  by_contra hstored
  have hchoice : chooseForm (encodeRegs s.mem.inp.toBytes s.cmd.best (startCommand .blzCompress s)) = .stored := by
    cases hc : chooseForm (encodeRegs s.mem.inp.toBytes s.cmd.best (startCommand .blzCompress s)) with
    | stored => rfl
    | compressed => exact absurd hc hstored
  rw [finishEncode, hchoice] at hout
  have hlen := congrArg List.length hout
  have halign := (align4_spec s.mem.inp.len).1
  rw [Buffer.toBytes_length, storedBlock_length, Buffer.toBytes_length] at hlen
  omega

/-- Strict decoding of such a block gives the data back (rule R141). -/
theorem decode_of_shorter {s u w : State} {d : Bytes} (hd : d.length < 2 ^ 32)
    (hexec : exec .blzCompress (setBest true (giveInput d s)) = .next u) (hlt : u.mem.out.len < d.length)
    (hhdr : 15 ≤ w.cmd.hdrMax) (hmax : w.cmd.maxLen = none) :
    20 ≤ u.mem.out.toBytes.length ∧
      ∃ v, exec .blzDecompressS (giveInput u.mem.out.toBytes w) = .next v ∧ v.status.err = .ok ∧ v.mem.out.toBytes = d := by
  have hinp : (setBest true (giveInput d s)).mem.inp.toBytes = d := Buffer.toBytes_ofBytes d
  have hform := compressed_of_shorter hexec hlt
  have hout := (blzCompress_compressed hexec hform).2
  have hback : Buffer.ofBytes u.mem.out.toBytes = u.mem.out := by rw [hout, Buffer.toBytes_ofBytes]
  have hbounds := compressedFormBounds.1 _ _ hexec hform
  obtain ⟨v, hv, herr, hbytes⟩ := compressThenStrictDecode _ u (giveInput u.mem.out.toBytes w) hd hexec hform hback hhdr
    (fun m hm => by rw [show (giveInput u.mem.out.toBytes w).cmd.maxLen = none from hmax] at hm; cases hm)
  refine ⟨?_, v, hv, herr, hbytes.trans hinp⟩
  rw [Buffer.toBytes_length, ← (blzCompress_next hexec).2.1]
  exact hbounds.2.1

/-! ### Build, serialize, parse (rule R227) -/

/-- What is stored of a segment, and what parsing it gives back. -/
structure StoredSegment (s t : State) (i : Fin 6) (d : Bytes) : Prop where
  size : (t.kip.hdr.seg[i]).compressedSize.toNat = (t.kip.stored[i]).length
  expanded : (t.kip.hdr.seg[i]).decompressedSize = (s.kip.hdr.seg[i]).decompressedSize
  empty : t.kip.stored[i] = [] ↔ d = []
  plain : ¬ (i.val < 3 ∧ t.kip.hdr.flags.getLsbD i.val = true) → t.kip.stored[i] = d
  packed : ∀ w : State, 15 ≤ w.cmd.hdrMax → w.cmd.maxLen = none →
    i.val < 3 ∧ t.kip.hdr.flags.getLsbD i.val = true →
      ∃ v, exec .blzDecompressS (giveInput t.kip.stored[i] w) = .next v ∧ v.status.err = .ok ∧ v.mem.out.toBytes = d

/-- `KIP.BUILD` with no length limit, segment by segment. -/
theorem kipBuild_stores {s : State} (hmax : s.cmd.maxLen = none)
    (hdata : ∀ i : Fin 6, ∃ d, s.kip.data[i] = some d ∧ d.length < 2 ^ 32) :
    ∃ t, exec .kipBuild s = .next t ∧ t.kip.trailing = s.kip.trailing ∧
      ∀ (i : Fin 6) (d : Bytes), s.kip.data[i] = some d → StoredSegment s t i d := by
  obtain ⟨t, hexec, -, -, hkip, -, hsegments⟩ := buildStoresSegments s
    (fun i hnone => by
      obtain ⟨d, hd, -⟩ := hdata i
      rw [hd] at hnone
      cases hnone)
    (fun m i d hm => by rw [hmax] at hm; cases hm)
  refine ⟨t, hexec, ((commandEnd_of_next (op := .kipBuild) hexec).build rfl).2, fun i d hd => ?_⟩
  obtain ⟨hseg, hsize, hstored⟩ := hsegments i d hd
  have hlt : d.length < 2 ^ 32 := by
    obtain ⟨d', hd', hlt⟩ := hdata i
    rwa [Option.some.inj (hd.symm.trans hd')]
  split at hstored
  next hi =>
    obtain ⟨u, hcompress, hblock, hflag⟩ := hstored
    by_cases hshort : u.mem.out.len < d.length
    · rw [if_pos hshort] at hblock
      rw [decide_eq_true hshort] at hflag
      have hlen : (t.kip.stored[i]).length = u.mem.out.len := by rw [hblock, Buffer.toBytes_length]
      refine ⟨hsize (by omega), by rw [hseg], ?_, fun hplain => absurd ⟨hi, hflag⟩ hplain, fun w hhdr hw _ => ?_⟩
      · have h20 := (decode_of_shorter (w := setBest true { s with cmd := { s.cmd with hdrMax := 15 } }) hlt hcompress hshort
          (Nat.le_refl 15) hmax).1
        rw [← hblock] at h20
        constructor
        · intro hnil
          rw [hnil, List.length_nil] at h20
          omega
        · intro hnil
          rw [hnil, List.length_nil] at hshort
          omega
      · rw [hblock]
        exact (decode_of_shorter hlt hcompress hshort hhdr hw).2
    · rw [if_neg hshort] at hblock
      rw [decide_eq_false hshort] at hflag
      refine ⟨hsize (by rw [hblock]; exact hlt), by rw [hseg], by rw [hblock], fun _ => hblock, fun w _ _ hpacked => ?_⟩
      rw [hflag] at hpacked
      cases hpacked.2
  next hi =>
    exact ⟨hsize (by rw [hstored]; exact hlt), by rw [hseg], by rw [hstored], fun _ => hstored,
      fun w _ _ hpacked => absurd hpacked.1 hi⟩

/-- `KIP.PARSE` of a file written from KIP registers whose header tells the stored lengths (rules R201 to R209). -/
theorem kipParse_of_fileBytes {k : KipRegs} {w : State} (hsizes : SizesMatch k)
    (hinp : w.mem.inp = Buffer.ofBytes (fileBytes k)) (hmax : w.cmd.maxLen = none) :
    ∃ v, exec .kipParse w = .next v ∧ v.status.err = .ok ∧ v.kip.hdr = { k.hdr with magic := Config.kipMagic } ∧
      v.kip.trailing = k.trailing ∧
      ∀ i : Fin 6, SegmentRecord w { k.hdr with magic := Config.kipMagic } i k.stored[i] v.kip.data[i] v.kip.segstat[i] := by
  have hheader : readHeader w.mem.inp = { k.hdr with magic := Config.kipMagic } := by
    rw [hinp, fileBytes, List.append_assoc]
    exact readHeader_headerBytes _ _
  have hstart (i : Nat) : segStart { k.hdr with magic := Config.kipMagic } i = segStart k.hdr i := rfl
  have hlen : w.mem.inp.len = segStart k.hdr 6 + k.trailing.length := by
    rw [hinp]
    exact fileBytes_length_of_sizes hsizes
  obtain ⟨v, hparse, herr, -, hhdr, -, htrailing, hsegments⟩ := parseSplitsFile w
    (fun m hm => by rw [hmax] at hm; cases hm) (by rw [hlen, segStart]; omega) (by rw [hheader])
    (by rw [hheader, hstart, hlen]; exact Nat.le_add_right _ _)
  rw [hheader] at hhdr htrailing hsegments
  refine ⟨v, hparse, herr, hhdr, ?_, fun i => ?_⟩
  · rw [hstart, hlen, Nat.add_sub_cancel_left, hinp, (holdsAt_fileBytes_trailing hsizes).slice rfl] at htrailing
    exact (Option.some.inj htrailing).symm
  · obtain ⟨stored, hslice, hrecord⟩ := hsegments i
    have hslice' : (Buffer.ofBytes (fileBytes k)).slice (segStart k.hdr i.val) (k.hdr.seg[i]).compressedSize.toNat =
        some stored := hinp ▸ hslice
    rw [(holdsAt_fileBytes_segment hsizes i).slice (hsizes i)] at hslice'
    rw [Option.some.inj hslice']
    exact hrecord

/-- How a segment comes back: its data, and the class its stored form gives it (rules R204 to R208). -/
theorem StoredSegment.record {s t w : State} {i : Fin 6} {d : Bytes} {data : Option Bytes} {st : SegStat}
    (h : StoredSegment s t i d) (hhdr : 15 ≤ w.cmd.hdrMax) (hmax : w.cmd.maxLen = none)
    (hrecord : SegmentRecord w { t.kip.hdr with magic := Config.kipMagic } i t.kip.stored[i] data st) :
    data = some d ∧ st =
      if d = [] then .absent
      else if i.val < 3 ∧ t.kip.hdr.flags.getLsbD i.val = true then
        (if d.length = (s.kip.hdr.seg[i]).decompressedSize.toNat then .decoded else .sizeMismatch)
      else .verbatim := by
  obtain ⟨hsize, hexpanded, hempty, hplain, hpacked⟩ := h
  have habsent : (t.kip.hdr.seg[i]).compressedSize = 0 ↔ d = [] := by
    rw [← hempty, ← List.length_eq_zero_iff, ← hsize]
    exact ⟨fun h0 => by rw [h0]; rfl, fun h0 => BitVec.eq_of_toNat_eq h0⟩
  replace hrecord : if (t.kip.hdr.seg[i]).compressedSize = 0 then st = .absent ∧ data = some []
    else if i.val < 3 ∧ t.kip.hdr.flags.getLsbD i.val = true then
      DecodedAlone w (t.kip.hdr.seg[i]) t.kip.stored[i] data st
    else st = .verbatim ∧ data = some t.kip.stored[i] := hrecord
  by_cases hd : d = []
  · rw [if_pos (habsent.mpr hd)] at hrecord
    rw [if_pos hd, hd]
    exact ⟨hrecord.2, hrecord.1⟩
  · rw [if_neg (mt habsent.mp hd)] at hrecord
    rw [if_neg hd]
    by_cases hflag : i.val < 3 ∧ t.kip.hdr.flags.getLsbD i.val = true
    · rw [if_pos hflag] at hrecord ⊢
      obtain ⟨v, hv, herr, hbytes⟩ := hpacked w hhdr hmax hflag
      obtain ⟨v', hv', hok, -, -⟩ := hrecord
      obtain rfl : v = v' := Host.Outcome.next.inj (hv.symm.trans hv')
      obtain ⟨hdata, hst⟩ := hok herr
      rw [← Buffer.toBytes_length, hbytes, hexpanded] at hst
      exact ⟨hdata.trans (congrArg some hbytes), hst⟩
    · rw [if_neg hflag] at hrecord ⊢
      exact ⟨hrecord.2.trans (congrArg some (hplain hflag)), hrecord.1⟩

/-- Settles O59: the file holds the stored bytes where the header says (`kipParse_of_fileBytes`), and each comes back as
`StoredSegment` tells. -/
theorem buildSerializeParse : Obligations.BuildSerializeParse := by
  intro s hmax hhdr hdata
  obtain ⟨t, hbuild, htrailing, hstored⟩ := kipBuild_stores hmax hdata
  have hsizes : SizesMatch t.kip := fun j => by
    obtain ⟨d, hd, -⟩ := hdata j
    exact (hstored j d hd).size
  have htcmd := (commandEnd_of_next (op := .kipBuild) hbuild).cmd
  have htmax : t.cmd.maxLen = none := by rw [htcmd]; exact hmax
  obtain ⟨u, hserialize, -, -, -, -, -, hfile⟩ := serializeWritesFile t fun m hm => by rw [htmax] at hm; cases hm
  have hucmd := (commandEnd_of_next (op := .kipSerialize) hserialize).cmd
  have hwmax : (giveInput u.mem.out.toBytes u).cmd.maxLen = none := by
    show u.cmd.maxLen = none
    rw [hucmd]
    exact htmax
  have hwhdr : 15 ≤ (giveInput u.mem.out.toBytes u).cmd.hdrMax := by
    show 15 ≤ u.cmd.hdrMax
    rw [hucmd, htcmd]
    exact hhdr
  obtain ⟨v, hparse, herr, hvhdr, hvtrailing, hrecords⟩ := kipParse_of_fileBytes hsizes
    (w := giveInput u.mem.out.toBytes u) (congrArg Buffer.ofBytes hfile) hwmax
  refine ⟨t, u, v, hbuild, hserialize, hparse, herr, Vector.ext fun i hi => ?_, hvtrailing.trans htrailing, hvhdr,
    fun i d hd => ((hstored i d hd).record hwhdr hwmax (hrecords i)).2⟩
  obtain ⟨d, hd, -⟩ := hdata ⟨i, hi⟩
  exact ((hstored ⟨i, hi⟩ d hd).record hwhdr hwmax (hrecords ⟨i, hi⟩)).1.trans hd.symm

/-! ### Parse, build, serialize (rule R226) -/

/-- The segments of a file, each where the header says, are the bytes between the header and the trailing data. -/
theorem flatten_segments {f : Buffer} {h : KipHeader} {stored : Vector Bytes 6}
    (hsegments : ∀ i : Fin 6, f.slice (segStart h i.val) (h.seg[i]).compressedSize.toNat = some stored[i]) :
    ∀ n, n ≤ 6 → (stored.toList.take n).flatten = cellsSlice f.cells 256 (segStart h n - 256) := by
  intro n
  induction n with
  | zero =>
    have hstart : segStart h 0 = 256 := by simp [segStart]
    rw [hstart, Nat.sub_self]
    exact fun _ => rfl
  | succ n ih =>
    intro hn
    have hsucc := segStart_succ h ⟨n, hn⟩
    have hbase : 256 ≤ segStart h n := Nat.le_add_right _ _
    have hslice := hsegments ⟨n, hn⟩
    unfold Buffer.slice at hslice
    split at hslice
    case isFalse => cases hslice
    have hmem : stored.toList[n]? = some stored[n] := by simp [show n < 6 from hn]
    have hsize : segStart h (n + 1) - 256 = (segStart h n - 256) + (h.seg[n]).compressedSize.toNat := by
      replace hsucc : segStart h (n + 1) = segStart h n + (h.seg[n]).compressedSize.toNat := hsucc
      omega
    rw [List.take_add_one, hmem, List.flatten_append, ih (Nat.le_of_succ_le hn), hsize, cellsSlice_add,
      Nat.add_sub_of_le hbase]
    exact congrArg _ ((List.append_nil _).trans (Option.some.inj hslice).symm)

/-- `KIP.PARSE` ends with `OK` only on a whole file (rules R201, R203). -/
theorem wholeFile_of_parse {s t : State} (hexec : exec .kipParse s = .next t) (herr : t.status.err = .ok) :
    (∀ m, s.cmd.maxLen = some m → s.mem.inp.len < m) ∧ WholeFile s.mem.inp := by
  have hmax : ∀ m, s.cmd.maxLen = some m → s.mem.inp.len < m := by
    refine belowMax_iff.mp (Bool.eq_true_of_not_eq_false fun hb => ?_)
    have hrefused : exec .kipParse s = .refused .lengthLimit := if_neg (by rw [hb]; exact Bool.false_ne_true)
    rw [hrefused] at hexec
    cases hexec
  refine ⟨hmax, by_contra fun hnot => ?_⟩
  obtain ⟨u, hu, herr'⟩ := kipParse_of_not_wholeFile hmax hnot
  rw [hexec] at hu
  cases hu
  rw [herr, containerError] at herr'
  split at herr' <;> cases herr'

/-- `KIP.BUILD` rewrites the sizes by the stored lengths, and keeps the rest of the header but the flags (rules R215,
R216). -/
theorem kipBuild_next {t u : State} (h : exec .kipBuild t = .next u) :
    u.kip.hdr = { t.kip.hdr with
      seg := Vector.ofFn fun i : Fin 6 =>
        { t.kip.hdr.seg[i] with compressedSize := sizeField (u.kip.stored[i]).length }
      flags := u.kip.hdr.flags } ∧ u.kip.trailing = t.kip.trailing ∧ u.cmd.maxLen = t.cmd.maxLen := by
  have hend := commandEnd_of_next (op := .kipBuild) h
  refine ⟨?_, (hend.build rfl).2, by rw [hend.cmd]⟩
  obtain ⟨r, hrefused⟩ | ⟨bits, v, -, hkept, hnext⟩ := exec_kipBuild_cases t
  · rw [hrefused] at h
    cases h
  · rw [hnext] at h
    cases h
    have hhdr : v.kip.hdr = t.kip.hdr := by rw [hkept]; rfl
    show buildHeader bits v.kip = _
    rw [buildHeader, hhdr]
    rfl

/-- The size field of a segment whose stored bytes are those the file held (rule R226). -/
theorem sizeField_eq {size : W32} {n : Nat} (h : size.toNat = n) : sizeField n = size :=
  BitVec.eq_of_toNat_eq ((sizeField_toNat (h ▸ size.isLt)).trans h.symm)

/-- Settles O58: the header comes back field for field, the segments and the trailing data are the rest of the file. -/
theorem serializeReproducesFile : Obligations.SerializeReproducesFile := by
  intro s t u hparse herr hbuild hstored hflags
  obtain ⟨hmax, hheader, hmagic, hsegments⟩ := wholeFile_of_parse hparse herr
  obtain ⟨t', hparse', -, -, hhdr, -, htrailing, -⟩ := parseSplitsFile s hmax hheader hmagic hsegments
  obtain rfl : t' = t := Host.Outcome.next.inj (hparse'.symm.trans hparse)
  obtain ⟨huhdr, hutrailing, hucmd⟩ := kipBuild_next hbuild
  have hsize (i : Fin 6) : (t'.kip.hdr.seg[i]).compressedSize.toNat = (u.kip.stored[i]).length := by
    have hslice := hstored i
    unfold Buffer.slice at hslice
    split at hslice
    case isFalse => cases hslice
    rw [← Option.some.inj hslice, cellsSlice_length]
  have hsame : u.kip.hdr = readHeader s.mem.inp := by
    rw [← hhdr, huhdr, hflags]
    have hseg : (Vector.ofFn fun i : Fin 6 => { t'.kip.hdr.seg[i] with
        compressedSize := sizeField (u.kip.stored[i]).length }) = t'.kip.hdr.seg := by
      refine Vector.ext fun i hi => ?_
      rw [Vector.getElem_ofFn, sizeField_eq (hsize ⟨i, hi⟩)]
      rfl
    rw [hseg]
  rw [hhdr] at hstored
  have hfile : fileBytes u.kip = s.mem.inp.toBytes := by
    have hflat := flatten_segments hstored 6 (Nat.le_refl 6)
    have hall : u.kip.stored.toList.take 6 = u.kip.stored.toList := List.take_of_length_le (by simp)
    have hbase : 256 ≤ segStart (readHeader s.mem.inp) 6 := Nat.le_add_right _ _
    rw [hall] at hflat
    rw [Buffer.slice_eq (Nat.add_sub_of_le hsegments).le] at htrailing
    have hjoin := cellsSlice_add s.mem.inp.cells 0 (segStart (readHeader s.mem.inp) 6)
      (s.mem.inp.len - segStart (readHeader s.mem.inp) 6)
    rw [Nat.add_sub_of_le hsegments, Nat.zero_add] at hjoin
    rw [fileBytes, hsame, headerBytes_readHeader hmagic, hflat, hutrailing, ← Option.some.inj htrailing, Buffer.toBytes,
      ← cellsSlice_add, Nat.add_sub_of_le hbase]
    exact hjoin.symm
  have htcmd := (commandEnd_of_next (op := .kipParse) hparse).cmd
  have hexec := exec_kipSerialize_of_fits (s := u) fun m hm => by
    rw [hfile, Buffer.toBytes_length]
    exact hmax m (by rw [← hm, hucmd, htcmd])
  exact ⟨_, hexec, rfl, (Buffer.toBytes_ofBytes _).trans hfile⟩

end Sys2Proof.Machine
end
